-- ==== Sys2Proof/Word.lean ====
section
/-! DEFINITION. The machine's words: bytes, command words, and the plain list loop every family uses. -/

namespace Sys2Proof

/-- A byte, 8 bits (00_scope.md R8). -/
abbrev Byte := BitVec 8

/-- A command word, 32 bits (30_encoding.md R60). -/
abbrev Word := BitVec 32

/-- A frame: a list of bytes (00_scope.md R9). -/
abbrev Frame := List Byte

end Sys2Proof
end

