-- ==== Sys2Proof/Config.lean ====
section
/-! DEFINITION. The configuration record of 00_scope.md R6 and R7, and the free values (draws) of the spec. -/

namespace Sys2Proof

/-- The role of a port, "fixed by hardware strapping, read once at init" (10_state.md R13). -/
inductive Mode where
  | nt
  | te
deriving DecidableEq, Repr, Inhabited

/-- The three alarm classes (42_st_state_machine.md R103). -/
inductive Alarm where
  | clear
  | yellow
  | red
deriving DecidableEq, Repr, Inhabited

/-- A-law or mu-law default (00_scope.md R6, `DEFAULT_LAW`); no rule reads it. -/
inductive Law where
  | aLaw
  | muLaw
deriving DecidableEq, Repr, Inhabited

/-- The port count of a card: 2, 4 or 8 (00_scope.md R6; 90_conflicts.md C6). -/
inductive PortCount where
  | two
  | four
  | eight
deriving DecidableEq, Repr, Inhabited

/-- The port count as a number. -/
def PortCount.toNat : PortCount → Nat
  | .two => 2
  | .four => 4
  | .eight => 8

/-- The parameters that are fixed for the life of a card, from reset to reset (00_scope.md R6, R7).
The per-port parameters have eight entries; those at `NPORTS` and above are never read. -/
structure Config where
  /-- `NPORTS` -/
  nports : PortCount
  /-- `MODE[p]` -/
  mode : Vector Mode 8
  /-- `EC_ROUTED` -/
  ecRouted : Bool
  /-- `T3_FIRST_MS` -/
  t3FirstMs : Nat
  /-- `POLL_TICKS` -/
  pollTicks : Nat
  /-- `TICK_HZ`; timing only (40_register_access.md R83) -/
  tickHz : Nat
  /-- `CHUNK` -/
  chunk : Nat
  /-- `BUSY_TIMEOUT_MS`; timing only (40_register_access.md R83) -/
  busyTimeoutMs : Nat
  /-- `SETTLE_US`; timing only (40_register_access.md R83) -/
  settleUs : Nat
  /-- `SYNC_PRIO[p]`, the priority a port has after reset -/
  syncPrio : Vector Nat 8
  /-- `PEDANTIC`; no rule reads it -/
  pedantic : Bool
  /-- `DEBUG`; no rule reads it -/
  debug : Nat
  /-- `DEBUG_PORTS`; no rule reads it -/
  debugPorts : Nat
  /-- `DEFAULT_LAW`; no rule reads it -/
  defaultLaw : Law
  /-- `HDLC_CAP`, OPEN, at least 3 -/
  hdlcCap : Nat
  /-- `NFIFO` -/
  nfifo : Nat
  /-- `D_BASE` -/
  dBase : Nat
  /-- `FIFO_DEPTH`, OPEN -/
  fifoDepth : Nat
  /-- `FMAX`, OPEN -/
  fmax : Nat
  /-- `STABLE_RETRIES`, OPEN, at least 1 -/
  stableRetries : Nat
  /-- `ALARM_CLASS[NT][code]` -/
  alarmNt : Vector Alarm 16
  /-- `ALARM_CLASS[TE][code]` -/
  alarmTe : Vector Alarm 16
deriving DecidableEq, Repr, Inhabited

/-- The parameters that may change at any time, each read at the moment it is used (00_scope.md R7).
`SYNC_PRIO[p]` is live through `ST.SETPRIO` and stands in the port state. -/
structure Live where
  /-- `T1_MS` -/
  t1Ms : Nat
  /-- `T3_MS` -/
  t3Ms : Nat
  /-- `DEBOUNCE_MS` -/
  debounceMs : Nat
  /-- `IGNORE_RED_TE` -/
  ignoreRedTe : Bool
deriving DecidableEq, Repr, Inhabited

namespace Config

/-- The default of `D_BASE`: 16 on an 8-port card, else 8 (00_scope.md R6; 93 K1: PRESUMED by the
spec itself, from general knowledge). -/
def defaultDBase : PortCount → Nat
  | .eight => 16
  | _ => 8

/-- The default of `ALARM_CLASS` for NT codes 0 to 15: G0, G1 RED, G3 CLEAR, the others YELLOW
(42_st_state_machine.md R103). Codes outside the vocabulary are never looked up. -/
def defaultAlarmNt : Vector Alarm 16 :=
  #v[.red, .red, .yellow, .clear, .yellow, .red, .red, .red,
     .red, .red, .red, .red, .red, .red, .red, .red]

/-- The default of `ALARM_CLASS` for TE codes: F0, F3 RED, F7 CLEAR, F2, F4, F5, F6, F8 YELLOW
(42_st_state_machine.md R103). -/
def defaultAlarmTe : Vector Alarm 16 :=
  #v[.red, .red, .yellow, .red, .yellow, .yellow, .yellow, .clear,
     .yellow, .red, .red, .red, .red, .red, .red, .red]

/-- Configuration A of 95_test_vectors.md section 1: the configuration `State.reset` has.
DESIGN CHOICE (log 1): the spec leaves the configuration to the card; no statement rests on this one.
DESIGN CHOICE (log 1): configuration A does not list `PEDANTIC` (here false), `DEBUG` (0), `DEBUG_PORTS` (0),
`DEFAULT_LAW` (A-law) and `SETTLE_US` (6, the least that 00_scope.md R6 allows); 00_scope.md R6 gives them
only a range. `TICK_HZ` 1000 and `BUSY_TIMEOUT_MS` 250 are the values of 00_scope.md R6. -/
def cfgA : Config where
  nports := .two
  mode := #v[.te, .nt, .te, .te, .te, .te, .te, .te]
  ecRouted := false
  t3FirstMs := 500
  pollTicks := 100
  tickHz := 1000
  chunk := 8
  busyTimeoutMs := 250
  settleUs := 6
  syncPrio := Vector.replicate 8 0
  pedantic := false
  debug := 0
  debugPorts := 0
  defaultLaw := .aLaw
  hdlcCap := 16
  nfifo := 32
  dBase := 8
  fifoDepth := 64
  fmax := 8
  stableRetries := 3
  alarmNt := defaultAlarmNt
  alarmTe := defaultAlarmTe

/-- The configuration is in the ranges of 00_scope.md R6: `HDLC_CAP` at least 3, `STABLE_RETRIES` at
least 1, `NFIFO` 32, `SETTLE_US` at least 6, `SYNC_PRIO[p]` at most `NPORTS`, and `D_BASE` such that the D FIFOs clear the
bearer FIFOs and exist (41_flow_mapper.md R90; 93 K1). -/
def valid (c : Config) : Bool :=
  decide (3 ≤ c.hdlcCap) && decide (1 ≤ c.stableRetries) && decide (c.nfifo = 32) &&
  decide (6 ≤ c.settleUs) && decide (2 * c.nports.toNat ≤ c.dBase) && decide (c.dBase + c.nports.toNat ≤ c.nfifo) &&
  decide (0 < c.pollTicks) && decide (0 < c.chunk) &&
  c.syncPrio.toList.all fun k => decide (k ≤ c.nports.toNat)

/-- The draw `taken` of 40_register_access.md R81: whether the `n`-th draw lets a write to a busy-gated
register take effect while the hardware is busy. A free value: nothing constrains it (log 5). -/
opaque takenDraw : Nat → Bool

/-- How many passes of a receive drain that begins at the `n`-th draw may remove no frame because a gated write
was dropped in them. 43_hdlc_framer.md R136 says that the drain ends, not after how many passes. A free value:
nothing constrains it (log 5). -/
opaque stalledPasses : Nat → Nat

/-- The draw `expired` of 40_register_access.md R78: whether the `n`-th draw ends a busy wait in its
timeout. A free value (log 6). -/
opaque expiredDraw : Nat → Bool

end Config

/-- The defaults of the live parameters (00_scope.md R6); `IGNORE_RED_TE` false is the
configurations' of 95_test_vectors.md (log 1). -/
def Live.default : Live where
  t1Ms := 2000
  t3Ms := 30000
  debounceMs := 500
  ignoreRedTe := false

end Sys2Proof
end

