-- ==== Sys2Proof/Syntax.lean ====
section
/-! DEFINITION. The operations of the block (30_encoding.md R63), one constructor per row of the opcode
table, their agents and the pseudo-instructions of R67. -/

namespace Sys2Proof

/-- One command: an operation of 30_encoding.md R63 with its operand bytes as they stand (R61).
Operands out of range for the card still decode (R65). -/
inductive Instr where
  /-- `REG.RD off, width` -/
  | regRd (off width : Byte)
  /-- `REG.WR off, v` -/
  | regWr (off v : Byte)
  /-- `REG.RDX sel, sv, off` -/
  | regRdx (sel sv off : Byte)
  /-- `REG.WRX sel, sv, off, v` -/
  | regWrx (sel sv off v : Byte)
  /-- `REG.WRB off, v` -/
  | regWrb (off v : Byte)
  /-- `REG.RDS off` -/
  | regRds (off : Byte)
  /-- `LINE.BUSY b` -/
  | lineBusy (b : Byte)
  /-- `FIFO.SEL f, dir` -/
  | fifoSel (f dir : Byte)
  /-- `FIFO.RESET f, dir` -/
  | fifoReset (f dir : Byte)
  /-- `FIFO.IRQ f, dir, en` -/
  | fifoIrq (f dir en : Byte)
  /-- `FM.MAPB p, bchan` -/
  | fmMapb (p bchan : Byte)
  /-- `FM.MAPD p` -/
  | fmMapd (p : Byte)
  /-- `FM.MAPALL` -/
  | fmMapall
  /-- `ST.OBSERVE p` -/
  | stObserve (p : Byte)
  /-- `ST.FORCE p, code, resume` -/
  | stForce (p code resume : Byte)
  /-- `ST.START p` -/
  | stStart (p : Byte)
  /-- `ST.STOP p` -/
  | stStop (p : Byte)
  /-- `ST.SWEEP` -/
  | stSweep
  /-- `ST.POLL` -/
  | stPoll
  /-- `ST.SYNCSEL` -/
  | stSyncsel
  /-- `ST.SETPRIO p, prio` -/
  | stSetprio (p prio : Byte)
  /-- `LINE.STATE p, b` -/
  | lineState (p b : Byte)
  /-- `HDLC.ATTACH p` -/
  | hdlcAttach (p : Byte)
  /-- `HDLC.DETACH p` -/
  | hdlcDetach (p : Byte)
  /-- `HDLC.SUBMIT p, {frame}` -/
  | hdlcSubmit (p : Byte) (frame : List Byte)
  /-- `HDLC.RXFRAME p` -/
  | hdlcRxframe (p : Byte)
  /-- `HDLC.RXDRAIN p` -/
  | hdlcRxdrain (p : Byte)
  /-- `HDLC.TXCHUNK p` -/
  | hdlcTxchunk (p : Byte)
  /-- `HDLC.TXDRAIN p` -/
  | hdlcTxdrain (p : Byte)
  /-- `LINE.RXFRAME f, {bytes}` -/
  | lineRxframe (f : Byte) (bytes : List Byte)
  /-- `LINE.TXTAKE f` -/
  | lineTxtake (f : Byte)
  /-- `BP.XCHG p, bchan` -/
  | bpXchg (p bchan : Byte)
  /-- `BP.PUMP` -/
  | bpPump
  /-- `HOST.TXBUF p, bchan, {bytes}` -/
  | hostTxbuf (p bchan : Byte) (bytes : List Byte)
  /-- `LINE.BRX f, {bytes}` -/
  | lineBrx (f : Byte) (bytes : List Byte)
  /-- `LINE.BTXTAKE f, n` -/
  | lineBtxtake (f n : Byte)
  /-- `EC.REQ p, ch, nparams` -/
  | ecReq (p ch nparams : Byte)
  /-- `LINE.FIFOIRQ f, dir` -/
  | lineFifoirq (f dir : Byte)
  /-- `TICK` -/
  | tick
  /-- `IRQ.IMM` -/
  | irqImm
  /-- `IRQ.DEF` -/
  | irqDef
  /-- `IRQ` -/
  | irq
  /-- `CARD.RESET` -/
  | cardReset
  /-- `CARD.START` -/
  | cardStart
  /-- `CARD.STOP` -/
  | cardStop
deriving DecidableEq, Repr, Inhabited

/-- The four agents of 10_state.md R20. -/
inductive Agent where
  | line
  | tick
  | service
  | host
deriving DecidableEq, Repr

/-- Who issues an operation in a real run: the column "agent" of 30_encoding.md R63. -/
def Instr.agent : Instr → Agent
  | .regRd _ _ | .regWr _ _ | .regRdx _ _ _ | .regWrx _ _ _ _ | .regWrb _ _ | .regRds _ => .service
  | .lineBusy _ => .line
  | .fifoSel _ _ | .fifoReset _ _ | .fifoIrq _ _ _ => .service
  | .fmMapb _ _ | .fmMapd _ | .fmMapall => .host
  | .stObserve _ | .stForce _ _ _ => .service
  | .stStart _ | .stStop _ => .host
  | .stSweep | .stPoll | .stSyncsel => .service
  | .stSetprio _ _ => .host
  | .lineState _ _ => .line
  | .hdlcAttach _ | .hdlcDetach _ | .hdlcSubmit _ _ => .host
  | .hdlcRxframe _ | .hdlcRxdrain _ | .hdlcTxchunk _ | .hdlcTxdrain _ => .service
  | .lineRxframe _ _ | .lineTxtake _ => .line
  | .bpXchg _ _ | .bpPump => .service
  | .hostTxbuf _ _ _ => .host
  | .lineBrx _ _ | .lineBtxtake _ _ => .line
  | .ecReq _ _ _ => .host
  | .lineFifoirq _ _ => .line
  | .tick => .tick
  | .irqImm | .irqDef | .irq => .service
  | .cardReset | .cardStart | .cardStop => .host

/-- The pseudo-instructions of 30_encoding.md R67. -/
inductive Pseudo where
  /-- `TICKIRQ` -/
  | tickirq
  /-- `TICKS n` -/
  | ticks (n : Nat)
  /-- `SELRX f` -/
  | selrx (f : Byte)
  /-- `SELTX f` -/
  | seltx (f : Byte)
deriving DecidableEq, Repr

/-- The expansion of a pseudo-instruction (30_encoding.md R67). -/
def Pseudo.expand : Pseudo → List Instr
  | .tickirq => [.tick, .irq]
  | .ticks n => (List.replicate n [Instr.tick, Instr.irq]).flatten
  | .selrx f => [.fifoSel f 1]
  | .seltx f => [.fifoSel f 0]

end Sys2Proof
end

