-- ==== Sys2Proof/Machine/State.lean ====
section
/-! DEFINITION. The state of one card (10_state.md), plain data, and its value after reset
(70_reset_and_hazards.md R201). -/

namespace Sys2Proof.Machine

/-- Why the machine stops: the thirteen `ModelFault` reasons of 60_exceptions.md R190 and
93_implementation_defined.md section 2. The spec gives each situation no meaning and says that the model
stops, so each is safe. -/
inductive Fault where
  /-- `ILLEGAL_OP`: the words at the script index are no command (30_encoding.md R64); raised by the
  fetch; safe. -/
  | illegalOp
  /-- `BAD_OPERAND`: an operand out of range for the card, or a line or tick step that is not enabled
  (30_encoding.md R65 and the operations' rules); raised by every family; safe. -/
  | badOperand
  /-- `BAD_ACCESS`: an offset that holds no register, or a width the register does not take
  (20_memory.md R49); raised by the raw accesses; safe. -/
  | badAccess
  /-- `RESERVED_BITS`: a write with a 1 in a bit that must be 0 (20_memory.md R48); raised by the raw
  writes; safe. -/
  | reservedBits
  /-- `BAD_PORT`: an access to `ST_RD` or `ST_WR` while `ST_SEL` names a port that the card lacks
  (10_state.md R26); safe. -/
  | badPort
  /-- `FIFO_UNDERRUN`: a read of `FIFO_DATA` with nothing to pop (10_state.md R33); safe. -/
  | fifoUnderrun
  /-- `FIFO_DIR`: `FIFO_DATA` accessed in the wrong direction (10_state.md R33); safe. -/
  | fifoDir
  /-- `FIFO_OVERRUN`: a write of `FIFO_DATA` beyond `FIFO_DEPTH`, or a frame closed beyond `FMAX`
  (10_state.md R33, R34); safe. -/
  | fifoOverrun
  /-- `FRAME_UNDERRUN`: `INC_F` on a receive FIFO with no frame (10_state.md R34); safe. -/
  | frameUnderrun
  /-- `EMPTY_FRAME`: `INC_F` on a transmit FIFO with no open byte (10_state.md R34); safe. -/
  | emptyFrame
  /-- `ST_BAD_CODE`: a state code outside the port's vocabulary, observed or forced
  (42_st_state_machine.md R104); safe. -/
  | stBadCode
  /-- `NO_SESSION`: `HDLC.SUBMIT` to an inactive session (43_hdlc_framer.md R137); safe. -/
  | noSession
  /-- `NOT_MAPPED`: a FIFO role used before the mapper has run (70_reset_and_hazards.md R202); safe. -/
  | notMapped
deriving DecidableEq, Repr

/-- Why a step is not made at all. -/
inductive Refusal where
  /-- An instruction that has no meaning in the model; raised by no arm of `exec` now; safe. -/
  | notModelled (mnemonic : String)
  /-- The script has ended: `pc` equals (or is beyond) its length (10_state.md R17), so there is no
  command to run; raised by the fetch; safe. -/
  | scriptEnded
deriving DecidableEq, Repr

/-- The two directions of a FIFO number (00_scope.md section 6). -/
inductive Dir where
  | tx
  | rx
deriving DecidableEq, Repr, Inhabited

/-- The card's synchronization source (10_state.md R12). -/
inductive SyncSrc where
  | auto
  | port (p : Nat)
deriving DecidableEq, Repr, Inhabited

/-- Host events of `card.hostlog` (10_state.md R44). -/
inductive HostEvent where
  /-- `RxPush(p, bytes)`: received payload delivered -/
  | rxPush (p : Nat) (bytes : List Byte)
  /-- `RxFinish(p)`: a good frame ends -/
  | rxFinish (p : Nat)
  /-- `RxAbort(p)`: an aborted, short or truncated frame ends -/
  | rxAbort (p : Nat)
  /-- `RxBadFcs(p)`: a frame with a bad checksum ends -/
  | rxBadFcs (p : Nat)
  /-- `Alarm(p, value)`: a published alarm -/
  | alarm (p : Nat) (value : Alarm)
  /-- `TickHooks(p, rx1, rx2)`: the per-tick hooks of a running span -/
  | tickHooks (p : Nat) (rx1 rx2 : List Byte)
deriving DecidableEq, Repr

/-- Line events of `hw.linelog` (10_state.md R44). -/
inductive LineEvent where
  /-- `LineTx(f, frame)`: a closed frame taken by the line -/
  | lineTx (f : Nat) (frame : List Byte)
  /-- `LineBTx(f, bytes)`: bearer bytes taken by the line -/
  | lineBTx (f : Nat) (bytes : List Byte)
deriving DecidableEq, Repr

/-- Which of the two waits of a busy-wait write timed out (40_register_access.md R78). -/
inductive Wait where
  | before
  | after
deriving DecidableEq, Repr

/-- Diagnostic events of `card.diaglog` (10_state.md R44, 40_register_access.md R78, R79). -/
inductive DiagEvent where
  /-- `Timeout(BUSY, which, off)` -/
  | timeoutBusy (which : Wait) (off : Byte)
  /-- `Timeout(STABLE_READ, off)` -/
  | timeoutStableRead (off : Byte)
  /-- `Anomaly(UNEXPECTED_FIFO_IRQ, f, dir)` -/
  | unexpectedFifoIrq (f : Nat) (dir : Dir)
  /-- `Anomaly(PENDING_WITHOUT_FRAME, p)` -/
  | pendingWithoutFrame (p : Nat)
  /-- `Anomaly(DECREMENT_AT_ZERO, p)` -/
  | decrementAtZero (p : Nat)
  /-- `Anomaly(RX_TRUNCATED, p, L)` -/
  | rxTruncated (p : Nat) (len : Nat)
deriving DecidableEq, Repr

/-- What a command returns (30_encoding.md R63). -/
inductive Result where
  | ok
  | value (n : Nat)
  | invalid
  | notMine
  | handled
deriving DecidableEq, Repr

/-- Card state (10_state.md R12) and its two logs (R44). -/
structure Card where
  running : Bool
  ticks : Nat
  syncsrc : SyncSrc
  fifoAcc : Vector Byte 8
  miscAcc : Byte
  hostlog : List HostEvent
  diaglog : List DiagEvent
deriving DecidableEq, Repr, Inhabited

/-- Port state (10_state.md R13). -/
structure Port where
  mode : Mode
  state : Byte
  t1On : Bool
  t1Dl : Nat
  t2On : Bool
  t2Dl : Nat
  t3On : Bool
  t3Dl : Nat
  t3First : Bool
  newalarm : Alarm
  alarmtimer : Nat
  alarm : Alarm
  fifoB1 : Nat
  fifoB2 : Nat
  fifoD : Nat
  syncPrio : Nat
  spanRunning : Bool
deriving DecidableEq, Repr, Inhabited

/-- HDLC session state (10_state.md R14). -/
structure Session where
  active : Bool
  pending : Nat
  framesIn : Nat
  framesOut : Nat
deriving DecidableEq, Repr, Inhabited

/-- Host state of one port (10_state.md R19). -/
structure HostPort where
  txq : List Frame
  txoff : Nat
  txbufB1 : List Byte
  txbufB2 : List Byte
  rxbufB1 : List Byte
  rxbufB2 : List Byte
deriving DecidableEq, Repr, Inhabited

/-- The line-state latch of one port, and `hw.auto[p]` (10_state.md R21). -/
structure LineLatch where
  code : BitVec 4
  t2exp : Bool
  signal : Bool
  auto : Bool
deriving DecidableEq, Repr, Inhabited

/-- The control registers of one directional FIFO: `FIFO_CTRL`, `FC_CHAN`, `FC_SLOT`
(10_state.md R35 to R37). -/
structure FifoRegs where
  ctrl : Byte
  chan : Byte
  slot : Byte
deriving DecidableEq, Repr, Inhabited

/-- One FIFO number: its storage in both directions (10_state.md R40) and its control registers. -/
structure Fifo where
  rxq : List Frame
  rxpos : Nat
  brx : List Byte
  txopen : List Byte
  txclosed : List Frame
  btx : List Byte
  rxRegs : FifoRegs
  txRegs : FifoRegs
deriving DecidableEq, Repr, Inhabited

/-- Hardware state: the line-state latches (10_state.md R21), the register window (R22 to R39), the FIFO
storage (R40), the busy flag (R41) and the line log (R44). -/
structure Hardware where
  line : Vector LineLatch 8
  stSel : Byte
  syncSel : Byte
  fifoSel : Byte
  tickCtrl : Byte
  miscStat : Byte
  sci : Byte
  fifoStat : Vector Byte 8
  fifos : Vector Fifo 32
  busy : Bool
  linelog : List LineEvent
deriving DecidableEq, Repr, Inhabited

/-- The scripted run (10_state.md R17, 30_encoding.md R60, R63): its words, loaded from outside (log 4),
the index of the command being executed, and the results so far. -/
structure Script where
  words : List Word
  pc : Nat
  results : List Result
deriving DecidableEq, Repr, Inhabited

/-- One thing an agent other than the script does inside a command (10_state.md R20; log 7, log 8). -/
inductive EnvStep where
  /-- an agent issues an operation -/
  | issue (i : Instr)
  /-- the live parameters change (00_scope.md R7) -/
  | setLive (l : Live)
  /-- the outside presents other fixed parameters to the next reset (70_reset_and_hazards.md R200) -/
  | setStrap (c : Config)
deriving DecidableEq, Repr

/-- The state of one card, with its configuration, its script and the model's own fields. -/
structure State where
  /-- the fixed parameters in force, sampled at reset (00_scope.md R7) -/
  cfg : Config
  /-- the fixed parameters the outside presents now (70_reset_and_hazards.md R200; log 2) -/
  strap : Config
  /-- the live parameters (00_scope.md R7) -/
  live : Live
  card : Card
  ports : Vector Port 8
  sess : Vector Session 8
  host : Vector HostPort 8
  hw : Hardware
  script : Script
  /-- MODEL's own: what the other agents do inside commands. Entry 0 is for the next point at which another
  agent may step, entry 1 for the point after it, and so on; empty in a scripted run (log 7, log 8) -/
  sched : List (List EnvStep)
  /-- MODEL's own: how many draws have been made (log 5, log 6) -/
  draws : Nat
deriving DecidableEq, Repr, Inhabited

/-- Card state after reset (70_reset_and_hazards.md R201). -/
def Card.reset : Card where
  running := false
  ticks := 0
  syncsrc := .auto
  fifoAcc := Vector.replicate 8 0
  miscAcc := 0
  hostlog := []
  diaglog := []

/-- Port state after reset, of a port with the given strapped mode and configured priority (R201). -/
def Port.reset (mode : Mode) (prio : Nat) : Port where
  mode := mode
  state := 0
  t1On := false
  t1Dl := 0
  t2On := false
  t2Dl := 0
  t3On := false
  t3Dl := 0
  t3First := true
  newalarm := .red
  alarmtimer := 0
  alarm := .red
  fifoB1 := 0
  fifoB2 := 0
  fifoD := 0
  syncPrio := prio
  spanRunning := false

/-- Session state after reset (R201). -/
def Session.reset : Session where
  active := false
  pending := 0
  framesIn := 0
  framesOut := 0

/-- Host state of a port after reset, with `CHUNK` = `chunk` (R201). -/
def HostPort.reset (chunk : Nat) : HostPort where
  txq := []
  txoff := 0
  txbufB1 := List.replicate chunk 0
  txbufB2 := List.replicate chunk 0
  rxbufB1 := List.replicate chunk 0
  rxbufB2 := List.replicate chunk 0

/-- A line-state latch after reset: code 0, no flags, tracking autonomously (R201). -/
def LineLatch.reset : LineLatch where
  code := 0
  t2exp := false
  signal := false
  auto := true

/-- The control registers of a directional FIFO after reset (R201). -/
def FifoRegs.reset : FifoRegs where
  ctrl := 0
  chan := 0
  slot := 0

/-- A FIFO number after reset: empty, unconnected (R201). -/
def Fifo.reset : Fifo where
  rxq := []
  rxpos := 0
  brx := []
  txopen := []
  txclosed := []
  btx := []
  rxRegs := FifoRegs.reset
  txRegs := FifoRegs.reset

/-- Hardware state after reset (R201). -/
def Hardware.reset : Hardware where
  line := Vector.replicate 8 LineLatch.reset
  stSel := 0
  syncSel := 0
  fifoSel := 0
  tickCtrl := 0
  miscStat := 0
  sci := 0
  fifoStat := Vector.replicate 8 0
  fifos := Vector.replicate 32 Fifo.reset
  busy := false
  linelog := []

/-- The ports of a card after reset under configuration `c`. -/
def resetPorts (c : Config) : Vector Port 8 :=
  Vector.zipWith Port.reset c.mode c.syncPrio

/-- The machine right after reset with configuration `c` and live parameters `l`
(70_reset_and_hazards.md R201), its script not loaded. The values of the model's own fields are log 23's. -/
def State.resetWith (c : Config) (l : Live) : State where
  cfg := c
  strap := c
  live := l
  card := Card.reset
  ports := resetPorts c
  sess := Vector.replicate 8 Session.reset
  host := Vector.replicate 8 (HostPort.reset c.chunk)
  hw := Hardware.reset
  script := { words := [], pc := 0, results := [] }
  sched := []
  draws := 0

/-- The machine right after reset (70_reset_and_hazards.md R200, R201), with configuration A of
95_test_vectors.md (log 1). -/
def State.reset : State := State.resetWith Config.cfgA Live.default

end Sys2Proof.Machine
end

