-- ==== Sys2Proof/Machine/Tables.lean ====
section
/-! DEFINITION. Named reads and writes of the per-port and per-FIFO tables of State, and the three logs.
An index outside a table reads a default and writes nothing; the operations' operand checks keep every
index in range. -/

namespace Sys2Proof.Machine

/-- `NPORTS` of the card (00_scope.md R6). -/
def State.nports (s : State) : Nat := s.cfg.nports.toNat

/-- `port[p]` (10_state.md R13). -/
def State.port (s : State) (p : Nat) : Port := s.ports[p]?.getD default

/-- `port[p] <- x`. -/
def State.setPort (s : State) (p : Nat) (x : Port) : State :=
  { s with ports := s.ports.setIfInBounds p x }

/-- Change fields of `port[p]`. -/
def State.modPort (s : State) (p : Nat) (g : Port → Port) : State := s.setPort p (g (s.port p))

/-- `sess[p]` (10_state.md R14). -/
def State.session (s : State) (p : Nat) : Session := s.sess[p]?.getD default

/-- `sess[p] <- x`. -/
def State.setSession (s : State) (p : Nat) (x : Session) : State :=
  { s with sess := s.sess.setIfInBounds p x }

/-- Change fields of `sess[p]`. -/
def State.modSession (s : State) (p : Nat) (g : Session → Session) : State :=
  s.setSession p (g (s.session p))

/-- The host state of port `p` (10_state.md R19). -/
def State.hostPort (s : State) (p : Nat) : HostPort := s.host[p]?.getD default

/-- Write the host state of port `p`. -/
def State.setHostPort (s : State) (p : Nat) (x : HostPort) : State :=
  { s with host := s.host.setIfInBounds p x }

/-- Change fields of the host state of port `p`. -/
def State.modHostPort (s : State) (p : Nat) (g : HostPort → HostPort) : State :=
  s.setHostPort p (g (s.hostPort p))

/-- Change fields of the hardware state. -/
def State.modHw (s : State) (g : Hardware → Hardware) : State := { s with hw := g s.hw }

/-- Change fields of the card state. -/
def State.modCard (s : State) (g : Card → Card) : State := { s with card := g s.card }

/-- `hw.line[p]` and `hw.auto[p]` (10_state.md R21). -/
def State.latch (s : State) (p : Nat) : LineLatch := s.hw.line[p]?.getD default

/-- Write the line-state latch of port `p`. -/
def State.setLatch (s : State) (p : Nat) (x : LineLatch) : State :=
  s.modHw fun h => { h with line := h.line.setIfInBounds p x }

/-- Everything FIFO number `f` stores (10_state.md R40). -/
def State.fifo (s : State) (f : Nat) : Fifo := s.hw.fifos[f]?.getD default

/-- Write FIFO number `f`. -/
def State.setFifo (s : State) (f : Nat) (x : Fifo) : State :=
  s.modHw fun h => { h with fifos := h.fifos.setIfInBounds f x }

/-- Change fields of FIFO number `f`. -/
def State.modFifo (s : State) (f : Nat) (g : Fifo → Fifo) : State := s.setFifo f (g (s.fifo f))

/-- The control registers of FIFO `(f, d)`. -/
def Fifo.regs (x : Fifo) : Dir → FifoRegs
  | .tx => x.txRegs
  | .rx => x.rxRegs

/-- Change the control registers of direction `d`. -/
def Fifo.modRegs (x : Fifo) (d : Dir) (g : FifoRegs → FifoRegs) : Fifo :=
  match d with
  | .tx => { x with txRegs := g x.txRegs }
  | .rx => { x with rxRegs := g x.rxRegs }

/-- The control registers of FIFO `(f, d)` (10_state.md R35 to R37). -/
def State.fifoRegs (s : State) (f : Nat) (d : Dir) : FifoRegs := (s.fifo f).regs d

/-- `hw.fifo_stat[b]` (10_state.md R39). -/
def State.fifoStat (s : State) (b : Nat) : Byte := s.hw.fifoStat[b]?.getD 0

/-- Write `hw.fifo_stat[b]`. -/
def State.setFifoStat (s : State) (b : Nat) (v : Byte) : State :=
  s.modHw fun h => { h with fifoStat := h.fifoStat.setIfInBounds b v }

/-- `card.fifo_acc[b]` (10_state.md R12). -/
def State.fifoAcc (s : State) (b : Nat) : Byte := s.card.fifoAcc[b]?.getD 0

/-- Write `card.fifo_acc[b]`. -/
def State.setFifoAcc (s : State) (b : Nat) (v : Byte) : State :=
  s.modCard fun c => { c with fifoAcc := c.fifoAcc.setIfInBounds b v }

/-- `emit e`: append a host event (00_scope.md R10). -/
def State.emit (s : State) (e : HostEvent) : State :=
  s.modCard fun c => { c with hostlog := c.hostlog ++ [e] }

/-- `lineout e`: append a line event (00_scope.md R10). -/
def State.lineout (s : State) (e : LineEvent) : State :=
  s.modHw fun h => { h with linelog := h.linelog ++ [e] }

/-- `log e`: append a diagnostic event and go on (00_scope.md R10). -/
def State.diag (s : State) (e : DiagEvent) : State :=
  s.modCard fun c => { c with diaglog := c.diaglog ++ [e] }

/-- `for x in xs: f x`, in order, stopping at the first fault (00_scope.md R10). -/
def forEach {α : Type} (f : α → State → Except Fault State) : List α → State → Except Fault State
  | [], s => .ok s
  | x :: xs, s => do
    let s ← f x s
    forEach f xs s

/-- A command is complete: its result is appended to `script.results` (30_encoding.md R63), or the machine
stops with the `ModelFault` it raised (60_exceptions.md R190). -/
def complete (r : Except Fault (Result × State)) : Host.Outcome State Fault Refusal :=
  match r with
  | .ok (v, s) => .next { s with script := { s.script with results := s.script.results ++ [v] } }
  | .error e => .fault e

/-- A command whose result is `OK`. -/
def completeOk (r : Except Fault State) : Host.Outcome State Fault Refusal :=
  complete (r.map fun s => (.ok, s))

end Sys2Proof.Machine
end

