-- ==== Sys2Proof/Machine/Operands.lean ====
section
/-! DEFINITION. Operand forms: the range checks of 30_encoding.md R65, the channel roles and the mapping
functions of 41_flow_mapper.md, the register names of 10_state.md R22, and the state codes of
42_st_state_machine.md R101. -/

namespace Sys2Proof.Machine

/-! ### Range checks (30_encoding.md R61, R65) -/

/-- A port operand: `p < NPORTS`, else `BAD_OPERAND`. -/
def portArg (a : Byte) (s : State) : Except Fault Nat :=
  if a.toNat < s.nports then .ok a.toNat else .error .badOperand

/-- A FIFO number operand: `f < NFIFO`, else `BAD_OPERAND`. -/
def fifoArg (a : Byte) (s : State) : Except Fault Nat :=
  if a.toNat < s.cfg.nfifo then .ok a.toNat else .error .badOperand

/-- A direction operand: 0 = TX, 1 = RX, else `BAD_OPERAND`. -/
def dirArg (a : Byte) : Except Fault Dir :=
  if a = 0 then .ok .tx else if a = 1 then .ok .rx else .error .badOperand

/-- A Boolean operand: 0 = false, 1 = true, else `BAD_OPERAND`. -/
def boolArg (a : Byte) : Except Fault Bool :=
  if a = 0 then .ok false else if a = 1 then .ok true else .error .badOperand

/-! ### Channel roles and the mapping functions (41_flow_mapper.md R87 to R90) -/

/-- The three channels of a port. -/
inductive Role where
  | b1
  | b2
  | d
deriving DecidableEq, Repr

/-- A `bchan` operand: 0 = B1, 1 = B2, else `BAD_OPERAND`. -/
def bchanArg (a : Byte) : Except Fault Role :=
  if a = 0 then .ok .b1 else if a = 1 then .ok .b2 else .error .badOperand

/-- `fifoOf(p, role)` (R87). -/
def fifoOf (c : Config) (p : Nat) : Role → Nat
  | .b1 => 2 * p
  | .b2 => 2 * p + 1
  | .d => c.dBase + p

/-- `chanOf(p, role)` (R88). -/
def chanOf (p : Nat) : Role → Nat
  | .b1 => 4 * p
  | .b2 => 4 * p + 1
  | .d => 4 * p + 2

/-- `slotOf(p, role)` of a bearer channel; the D channel has no timeslot (R89). -/
def slotOf (p : Nat) : Role → Option Nat
  | .b1 => some (8 * p)
  | .b2 => some (8 * p + 4)
  | .d => none

/-- `isD(f)`: `f` is in the known D-channel range (R90). -/
def isD (c : Config) (f : Nat) : Bool := decide (c.dBase ≤ f) && decide (f < c.dBase + c.nports.toNat)

/-- `portOfD(f)` (R90). -/
def portOfD (c : Config) (f : Nat) : Nat := f - c.dBase

/-- `port[p].fifos[role]` (10_state.md R13). -/
def Port.fifoNum (q : Port) : Role → Nat
  | .b1 => q.fifoB1
  | .b2 => q.fifoB2
  | .d => q.fifoD

/-- `port[p].fifos[role] <- f`. -/
def Port.setFifoNum (q : Port) (role : Role) (f : Nat) : Port :=
  match role with
  | .b1 => { q with fifoB1 := f }
  | .b2 => { q with fifoB2 := f }
  | .d => { q with fifoD := f }

/-- `host.txbuf[p][c]` of a bearer channel (10_state.md R19). -/
def HostPort.txbuf (h : HostPort) : Role → List Byte
  | .b2 => h.txbufB2
  | _ => h.txbufB1

/-- `host.txbuf[p][c] <- bytes`. -/
def HostPort.setTxbuf (h : HostPort) (role : Role) (bytes : List Byte) : HostPort :=
  match role with
  | .b2 => { h with txbufB2 := bytes }
  | _ => { h with txbufB1 := bytes }

/-- `host.rxbuf[p][c] <- bytes` (10_state.md R19). -/
def HostPort.setRxbuf (h : HostPort) (role : Role) (bytes : List Byte) : HostPort :=
  match role with
  | .b2 => { h with rxbufB2 := bytes }
  | _ => { h with rxbufB1 := bytes }

/-! ### The register window (10_state.md R22) -/

/-- The registers of the window, one per role the source names. -/
inductive Reg where
  | status
  | miscStat
  | sci
  | stSel
  | stRd
  | stWr
  | syncSel
  | fifoSel
  | fCnt
  | fifoData
  | fifoCmd
  | fifoCtrl
  | fcChan
  | fcSlot
  | tickCtrl
  | fifoStat (b : Fin 8)
  | zCnt
deriving DecidableEq, Repr

/-- The offset of a register (R22). -/
def Reg.offset : Reg → Byte
  | .status => 0x00
  | .miscStat => 0x01
  | .sci => 0x02
  | .stSel => 0x03
  | .stRd => 0x04
  | .stWr => 0x05
  | .syncSel => 0x06
  | .fifoSel => 0x07
  | .fCnt => 0x08
  | .fifoData => 0x0A
  | .fifoCmd => 0x0B
  | .fifoCtrl => 0x0C
  | .fcChan => 0x0D
  | .fcSlot => 0x0E
  | .tickCtrl => 0x0F
  | .fifoStat b => 0x10 + BitVec.ofNat 8 b.val
  | .zCnt => 0x18

/-- Every register of the window. -/
def allRegs : List Reg :=
  [.status, .miscStat, .sci, .stSel, .stRd, .stWr, .syncSel, .fifoSel, .fCnt, .fifoData, .fifoCmd,
   .fifoCtrl, .fcChan, .fcSlot, .tickCtrl, .fifoStat 0, .fifoStat 1, .fifoStat 2, .fifoStat 3,
   .fifoStat 4, .fifoStat 5, .fifoStat 6, .fifoStat 7, .zCnt]

/-- The width of a register in bytes: 2 for `Z_CNT`, else 1 (R22, 20_memory.md R46). -/
def Reg.width : Reg → Nat
  | .zCnt => 2
  | _ => 1

/-- The register at an offset, if one stands there (R22). -/
def regAt (off : Byte) : Option Reg := allRegs.find? fun r => r.offset == off

/-- The register of a legal `(offset, width)` pair (20_memory.md R49). -/
def legalAccess (off : Byte) (width : Nat) : Option Reg :=
  (regAt off).filter fun r => r.width == width

/-- `width_of(off)`: 2 for `Z_CNT`, else 1 (40_register_access.md R76). -/
def widthOf (off : Byte) : Nat := if off = 0x18 then 2 else 1

/-- The bits of a register that must be written 0 (10_state.md R26 to R38); none where a write is ignored
or where every bit is data. -/
def Reg.reserved : Reg → Byte
  | .stSel => 0xF8
  | .stWr => 0xE0
  | .syncSel => 0xF0
  | .fifoSel => 0x60
  | .fifoCmd => 0xFC
  | .fifoCtrl => 0xF8
  | .fcChan => 0x60
  | .fcSlot => 0x40
  | .tickCtrl => 0xFC
  | _ => 0

/-- The registers whose writes the busy flag gates (40_register_access.md R78). -/
def Reg.busyGated : Reg → Bool
  | .fifoSel | .fifoCmd => true
  | _ => false

/-! ### State codes (42_st_state_machine.md R101, R103) -/

/-- The names of the line states (R101; PRESUMED by the spec itself, 93 K3; log 16). -/
inductive LineState where
  | reset
  | deactivated
  | pendingActivation
  | active
  | pendingDeactivation
  | sensing
  | awaitingSignal
  | identifyingInput
  | synchronized
  | activated
  | lostFraming
deriving DecidableEq, Repr

/-- The state a 4-bit code names in a port's vocabulary: G0 to G4 for NT, F0 and F2 to F8 for TE. -/
def stateName : Mode → Nat → Option LineState
  | .nt, 0 => some .reset
  | .nt, 1 => some .deactivated
  | .nt, 2 => some .pendingActivation
  | .nt, 3 => some .active
  | .nt, 4 => some .pendingDeactivation
  | .te, 0 => some .reset
  | .te, 2 => some .sensing
  | .te, 3 => some .deactivated
  | .te, 4 => some .awaitingSignal
  | .te, 5 => some .identifyingInput
  | .te, 6 => some .synchronized
  | .te, 7 => some .activated
  | .te, 8 => some .lostFraming
  | _, _ => none

/-- `inVocab(mode, code)` (R101). -/
def inVocab (m : Mode) (code : Nat) : Bool := (stateName m code).isSome

/-- `alarmClass(mode, code)`, the configuration table `ALARM_CLASS` (R103). -/
def alarmClass (c : Config) (m : Mode) (code : Nat) : Alarm :=
  match m with
  | .nt => c.alarmNt[code]?.getD .red
  | .te => c.alarmTe[code]?.getD .red

/-- Bits 3:0 of a state byte, `CODE` (10_state.md R27). -/
def stateCode (b : Byte) : BitVec 4 := b.extractLsb' 0 4

/-- The "decoded line state byte" of a latch, the layout of `ST_RD` (10_state.md R27). -/
def LineLatch.byte (l : LineLatch) : Byte :=
  (0#1) ++ BitVec.ofBool l.signal ++ BitVec.ofBool l.t2exp ++ (0#1) ++ l.code

end Sys2Proof.Machine
end

