-- ==== Sys2Proof/Machine/Flags.lean ====
section
/-! DEFINITION. The one-bit state of the block (10_state.md R18): fields of the byte registers, the summary
bits of `STATUS`, the interrupt line, and the pending bits of the FIFO status blocks. -/

namespace Sys2Proof.Machine

/-- `IRQ_EN` of a `FIFO_CTRL` value (10_state.md R35). -/
def irqEn (ctrl : Byte) : Bool := ctrl.getLsbD 0

/-- `HDLC` of a `FIFO_CTRL` value (10_state.md R35). -/
def hdlcMode (ctrl : Byte) : Bool := ctrl.getLsbD 1

/-- `ENABLE` of a `FIFO_CTRL` value (10_state.md R35). -/
def fifoEnable (ctrl : Byte) : Bool := ctrl.getLsbD 2

/-- `T2EXP` of a state byte (10_state.md R27). -/
def stateT2exp (b : Byte) : Bool := b.getLsbD 5

/-- `SIGNAL` of a state byte (10_state.md R27). -/
def stateSignal (b : Byte) : Bool := b.getLsbD 6

/-- The FIFO number that `FIFO_SEL` names (10_state.md R30). -/
def State.selNum (s : State) : Nat := (s.hw.fifoSel.extractLsb' 0 5).toNat

/-- The direction that `FIFO_SEL` names (10_state.md R30). -/
def State.selDir (s : State) : Dir := if s.hw.fifoSel.getLsbD 7 then .rx else .tx

/-- The value of `FIFO_SEL` that selects `(f, d)`: `(dir << 7) | f` (41_flow_mapper.md R92). -/
def selByte (f : Nat) (d : Dir) : Byte :=
  (match d with | .rx => 0x80#8 | .tx => 0x00#8) ||| BitVec.ofNat 8 f

/-- The bit position of `(f, d)` in its status block: `2k` for TX, `2k + 1` for RX, `k = f mod 4`
(10_state.md R39). -/
def pendingPos (f : Nat) : Dir → Nat
  | .tx => 2 * (f % 4)
  | .rx => 2 * (f % 4) + 1

/-- The mask of the pending bit of `(f, d)` in its status block (10_state.md R39). -/
def pendingMask (f : Nat) (d : Dir) : Byte := 1#8 <<< pendingPos f d

/-- Set the pending bit of `(f, d)` (10_state.md R39). -/
def State.raisePending (s : State) (f : Nat) (d : Dir) : State :=
  s.setFifoStat (f / 4) (s.fifoStat (f / 4) ||| pendingMask f d)

/-- Clear the pending bit of `(f, d)` (10_state.md R34). -/
def State.clearPending (s : State) (f : Nat) (d : Dir) : State :=
  s.setFifoStat (f / 4) (s.fifoStat (f / 4) &&& ~~~ (pendingMask f d))

/-- An event of `(f, d)`: the pending bit is set only while the FIFO's `IRQ_EN` is 1
(60_exceptions.md R170). -/
def State.fifoEvent (s : State) (f : Nat) (d : Dir) : State :=
  if irqEn (s.fifoRegs f d).ctrl then s.raisePending f d else s

/-- `FIFO_ANY`: any bit of any `hw.fifo_stat[b]` is 1 (10_state.md R23). -/
def State.fifoAny (s : State) : Bool := s.hw.fifoStat.toList.any fun v => v != 0

/-- `MISC_ANY`: `hw.misc_stat` is not 0 (10_state.md R23). -/
def State.miscAny (s : State) : Bool := s.hw.miscStat != 0

/-- The value of `STATUS`, computed at the moment of the read (10_state.md R23). -/
def State.statusByte (s : State) : Byte :=
  (0#5) ++ BitVec.ofBool s.hw.busy ++ BitVec.ofBool s.miscAny ++ BitVec.ofBool s.fifoAny

/-- `TICK_EN` of `TICK_CTRL` (10_state.md R38). -/
def State.tickEn (s : State) : Bool := s.hw.tickCtrl.getLsbD 0

/-- The interrupt line of the card, a combinational output: `IRQ_EN` and `STATUS[1:0] != 0`
(10_state.md R23). Its assertion enables `IRQ.IMM` (60_exceptions.md R172; log 18). -/
def State.irqLine (s : State) : Bool := s.hw.tickCtrl.getLsbD 1 && (s.miscAny || s.fifoAny)

/-- The bytes stored in a list of frames (10_state.md R40). -/
def frameBytes (fs : List Frame) : Nat := (fs.map List.length).sum

/-- The bytes stored in the transmit direction, which `FIFO_DEPTH` bounds: those of both modes, whichever the
data port reaches now (10_state.md R40; log 12). -/
def Fifo.txStored (x : Fifo) : Nat := frameBytes x.txclosed + x.txopen.length + x.btx.length

/-- The bytes stored in the receive direction, which `FIFO_DEPTH` bounds: those of both modes
(10_state.md R40; log 12). -/
def Fifo.rxStored (x : Fifo) : Nat := frameBytes x.rxq + x.brx.length

/-- The class and cause code of a fault of the source's taxonomy (60_exceptions.md R184). -/
inductive FaultClass where
  | timeout
  | protocol
  | configuration
  | unexpectedInterrupt
  | exhaustion
deriving DecidableEq, Repr

/-- The cause code of a class (60_exceptions.md R184). -/
def FaultClass.code : FaultClass → Nat
  | .timeout => 1
  | .protocol => 2
  | .configuration => 3
  | .unexpectedInterrupt => 4
  | .exhaustion => 5

/-- The class of a diagnostic event, where the taxonomy gives it one (60_exceptions.md R184). -/
def DiagEvent.faultClass : DiagEvent → Option FaultClass
  | .timeoutBusy _ _ | .timeoutStableRead _ => some .timeout
  | .unexpectedFifoIrq _ _ => some .unexpectedInterrupt
  | .pendingWithoutFrame _ | .decrementAtZero _ | .rxTruncated _ _ => none

/-- The class of a host event, where the taxonomy gives it one (60_exceptions.md R184, R186). -/
def HostEvent.faultClass : HostEvent → Option FaultClass
  | .rxAbort _ | .rxBadFcs _ => some .protocol
  | .rxPush _ _ | .rxFinish _ | .alarm _ _ | .tickHooks _ _ _ => none

/-- The class of a result (60_exceptions.md R184, R187). -/
def Result.faultClass : Result → Option FaultClass
  | .invalid => some .configuration
  | .ok | .value _ | .notMine | .handled => none

end Sys2Proof.Machine
end

