-- ==== Sys2Proof/Machine/Environment.lean ====
section
/-! DEFINITION. The steps of the line agent and the tick agent (10_state.md R20), each `none` while it is
not enabled; and the points inside operations at which other agents may step (20_memory.md R52 to R57; log 7,
log 8). -/

namespace Sys2Proof.Machine

/-- `LINE.BUSY b`: raise or drop the busy flag (40_register_access.md R82). -/
def lineBusyStep (b : Byte) (s : State) : Option State :=
  if b = 0 then some (s.modHw fun h => { h with busy := false })
  else if b = 1 then some (s.modHw fun h => { h with busy := true })
  else none

/-- The latch a state byte describes, tracking as before (42_st_state_machine.md R102). -/
def latchOf (b : Byte) (l : LineLatch) : LineLatch :=
  { l with code := stateCode b, t2exp := stateT2exp b, signal := stateSignal b }

/-- `LINE.STATE p, b`: the chip moves a port's state on its own; enabled while the port tracks
autonomously; any change sets the port's state-change indicator (42_st_state_machine.md R102). -/
def lineStateStep (p b : Byte) (s : State) : Option State :=
  let l := s.latch p.toNat
  if p.toNat < s.nports ∧ l.auto = true ∧ b.getLsbD 4 = false ∧ b.getLsbD 7 = false then
    if latchOf b l = l then some s
    else some ((s.setLatch p.toNat (latchOf b l)).modHw fun h => { h with sci := h.sci ||| (1#8 <<< p.toNat) })
  else none

/-- `LINE.RXFRAME f, bytes`: the chip's receiver deposits a whole frame (43_hdlc_framer.md R131),
within the bounds of 10_state.md R40 (log 12). -/
def lineRxframeStep (f : Byte) (bytes : List Byte) (s : State) : Option State :=
  let n := f.toNat
  let x := s.fifo n
  if n < s.cfg.nfifo ∧ fifoEnable x.rxRegs.ctrl = true ∧ hdlcMode x.rxRegs.ctrl = true ∧ 1 ≤ bytes.length ∧
      x.rxq.length < s.cfg.fmax ∧ x.rxStored + bytes.length ≤ s.cfg.fifoDepth then
    some ((s.setFifo n { x with rxq := x.rxq ++ [bytes] }).fifoEvent n .rx)
  else none

/-- `LINE.TXTAKE f`: the chip's transmitter takes the oldest closed frame, or, with only an open frame,
reports room (43_hdlc_framer.md R132). -/
def lineTxtakeStep (f : Byte) (s : State) : Option State :=
  let n := f.toNat
  let x := s.fifo n
  if n < s.cfg.nfifo ∧ fifoEnable x.txRegs.ctrl = true ∧ hdlcMode x.txRegs.ctrl = true ∧
      (x.txclosed ≠ [] ∨ x.txopen ≠ []) then
    match x.txclosed with
    | [] => some (s.fifoEvent n .tx)
    | fr :: rest => some (((s.setFifo n { x with txclosed := rest }).lineout (.lineTx n fr)).fifoEvent n .tx)
  else none

/-- `LINE.BRX f, bytes`: bearer bytes arrive; no pending bit (44_bearer_pump.md R165), within the bound
of 10_state.md R40 (log 12). -/
def lineBrxStep (f : Byte) (bytes : List Byte) (s : State) : Option State :=
  let n := f.toNat
  let x := s.fifo n
  if n < s.cfg.nfifo ∧ fifoEnable x.rxRegs.ctrl = true ∧ hdlcMode x.rxRegs.ctrl = false ∧ 1 ≤ bytes.length ∧
      x.rxStored + bytes.length ≤ s.cfg.fifoDepth then
    some (s.setFifo n { x with brx := x.brx ++ bytes })
  else none

/-- `LINE.BTXTAKE f, n`: the line takes bearer bytes; no pending bit (44_bearer_pump.md R166). -/
def lineBtxtakeStep (f count : Byte) (s : State) : Option State :=
  let n := f.toNat
  let x := s.fifo n
  if n < s.cfg.nfifo ∧ fifoEnable x.txRegs.ctrl = true ∧ hdlcMode x.txRegs.ctrl = false ∧ 1 ≤ count.toNat ∧
      count.toNat ≤ x.btx.length then
    some ((s.setFifo n { x with btx := x.btx.drop count.toNat }).lineout
      (.lineBTx n (x.btx.take count.toNat)))
  else none

/-- `LINE.FIFOIRQ f, dir`: a pending bit raised for a cause the spec does not model
(44_bearer_pump.md R168). -/
def lineFifoirqStep (f dir : Byte) (s : State) : Option State :=
  match dirArg dir with
  | .error _ => none
  | .ok d =>
    let c := (s.fifoRegs f.toNat d).ctrl
    if f.toNat < s.cfg.nfifo ∧ fifoEnable c = true ∧ irqEn c = true then some (s.raisePending f.toNat d)
    else none

/-- `TICK`: one period of the 1 kHz tick; enabled while `TICK_EN` is 1 (60_exceptions.md R171). -/
def tickStep (s : State) : Option State :=
  if s.tickEn then some (s.modHw fun h => { h with miscStat := h.miscStat ||| 0x02 }) else none

/-- A step of the line agent or the tick agent (10_state.md R20); `none` for any other operation, and while
the step is not enabled. -/
def lineStep (i : Instr) (s : State) : Option State :=
  match i with
  | .lineBusy b => lineBusyStep b s
  | .lineState p b => lineStateStep p b s
  | .lineRxframe f bytes => lineRxframeStep f bytes s
  | .lineTxtake f => lineTxtakeStep f s
  | .lineBrx f bytes => lineBrxStep f bytes s
  | .lineBtxtake f n => lineBtxtakeStep f n s
  | .lineFifoirq f dir => lineFifoirqStep f dir s
  | .tick => tickStep s
  | .regRd _ _ | .regWr _ _ | .regRdx _ _ _ | .regWrx _ _ _ _ | .regWrb _ _ | .regRds _ => none
  | .fifoSel _ _ | .fifoReset _ _ | .fifoIrq _ _ _ | .fmMapb _ _ | .fmMapd _ | .fmMapall => none
  | .stObserve _ | .stForce _ _ _ | .stStart _ | .stStop _ | .stSweep | .stPoll | .stSyncsel => none
  | .stSetprio _ _ | .hdlcAttach _ | .hdlcDetach _ | .hdlcSubmit _ _ | .hdlcRxframe _ => none
  | .hdlcRxdrain _ | .hdlcTxchunk _ | .hdlcTxdrain _ | .bpXchg _ _ | .bpPump | .hostTxbuf _ _ _ => none
  | .ecReq _ _ _ | .irqImm | .irqDef | .irq | .cardReset | .cardStart | .cardStop => none

/-- A line or tick step issued from a script while it is not enabled is `BAD_OPERAND`
(93_implementation_defined.md section 2). -/
def enabledOnly (o : Option State) : Except Fault State :=
  match o with
  | some s => .ok s
  | none => .error .badOperand

/-! ### Points -/

/-- A place inside an operation at which other agents may step: the state after their steps, or the
`ModelFault` one of them raises, which stops the machine (60_exceptions.md R190). -/
abbrev Point := State → Except Fault State

/-- The points of one operation in progress, by what it holds there. -/
structure Env where
  /-- between two operations that it calls, and before a register access of its own (60_exceptions.md R180,
  R181) -/
  free : Point
  /-- before a register access of a service operation outside a FIFO section (20_memory.md R52) -/
  raw : Point
  /-- before a register access of a service operation inside a FIFO section, from the select to the last
  FIFO-indexed access, where no other step may write `FIFO_SEL` (20_memory.md R54) -/
  fifo : Point
  /-- the same between two service operations that it calls inside a FIFO section of its own, and before a
  register access of its own there (20_memory.md R54, 60_exceptions.md R180) -/
  own : Point

/-- One entry of the schedule between the two accesses of an indexed sequence: only the steps of the line
agent and the tick agent are taken (20_memory.md R53). -/
def takeLine (s : State) (e : EnvStep) : State :=
  match e with
  | .issue i => (lineStep i s).getD s
  | .setLive _ | .setStrap _ => s

/-- The point between the selector write and the target access of an indexed sequence, which no service or
host step enters (20_memory.md R53). -/
def linePoint (s : State) : State :=
  match s.sched with
  | [] => s
  | es :: rest => es.foldl takeLine { s with sched := rest }

/-! ### What a schedule can add to the work of a loop -/

/-- The payload bytes an entry of a schedule may bring into a queue. -/
def envBytes : EnvStep → Nat
  | .issue (.hdlcSubmit _ frame) => frame.length
  | .issue (.lineRxframe _ bytes) => bytes.length
  | .issue (.lineBrx _ bytes) => bytes.length
  | _ => 0

/-- A bound on what a schedule can add to the work of a drain: its steps and their payload bytes. -/
def schedWork (sched : List (List EnvStep)) : Nat :=
  (sched.map fun es => (es.map fun e => envBytes e + 1).sum).sum

end Sys2Proof.Machine
end

