-- ==== Sys2Proof/Machine/Ops.lean ====
section
/-! DEFINITION. The raw accesses to the register window, `MemRead` and `MemWrite` (20_memory.md R48), from
the registers' rules of 10_state.md R23 to R39. A raw access is atomic: no other agent steps inside it. -/

namespace Sys2Proof.Machine

/-! ### Reads -/

/-- The next byte of the data port of a FIFO in receive direction: of the head frame in HDLC mode, of the
byte stream in transparent mode (10_state.md R33). -/
def Fifo.front (x : Fifo) : Option Byte :=
  if hdlcMode x.rxRegs.ctrl then x.rxq.head?.bind fun fr => fr[x.rxpos]? else x.brx.head?

/-- The FIFO after that byte is popped (10_state.md R33). -/
def Fifo.popped (x : Fifo) : Fifo :=
  if hdlcMode x.rxRegs.ctrl then { x with rxpos := x.rxpos + 1 } else { x with brx := x.brx.tail }

/-- `F_CNT` of `(f, d)`, saturating at 255 (10_state.md R31). -/
def Fifo.frameCount (x : Fifo) : Dir → Nat
  | .rx => min x.rxq.length 255
  | .tx => min x.txclosed.length 255

/-- `Z_CNT` of `(f, d)`, saturating at 0xFFFF (10_state.md R32). -/
def Fifo.byteCount (x : Fifo) : Dir → Nat
  | .rx =>
    if hdlcMode x.rxRegs.ctrl then
      match x.rxq with
      | [] => 0
      | fr :: _ => min (fr.length - x.rxpos) 65535
    else min x.brx.length 65535
  | .tx => if hdlcMode x.txRegs.ctrl then min x.txopen.length 65535 else min x.btx.length 65535

/-- `ST_RD` or `ST_WR` may be accessed only while `ST_SEL` names a port of the card (10_state.md R26;
log 11). -/
def State.selPort (s : State) : Except Fault Nat :=
  if s.hw.stSel.toNat < s.nports then .ok s.hw.stSel.toNat else .error .badPort

/-- The value a read of a register returns at this moment, in 16 bits (10_state.md R23 to R39). -/
def readValue (r : Reg) (s : State) : Except Fault (BitVec 16) :=
  match r with
  | .status => .ok (s.statusByte.setWidth 16)
  | .miscStat => .ok (s.hw.miscStat.setWidth 16)
  | .sci => .ok (s.hw.sci.setWidth 16)
  | .stSel => .ok (s.hw.stSel.setWidth 16)
  | .stRd => s.selPort.map fun p => (s.latch p).byte.setWidth 16
  | .stWr => s.selPort.map fun _ => 0
  | .syncSel => .ok (s.hw.syncSel.setWidth 16)
  | .fifoSel => .ok (s.hw.fifoSel.setWidth 16)
  | .fCnt => .ok (BitVec.ofNat 16 ((s.fifo s.selNum).frameCount s.selDir))
  | .fifoData =>
    match s.selDir with
    | .tx => .error .fifoDir
    | .rx =>
      match (s.fifo s.selNum).front with
      | some b => .ok (b.setWidth 16)
      | none => .error .fifoUnderrun
  | .fifoCmd => .ok 0
  | .fifoCtrl => .ok ((s.fifoRegs s.selNum s.selDir).ctrl.setWidth 16)
  | .fcChan => .ok ((s.fifoRegs s.selNum s.selDir).chan.setWidth 16)
  | .fcSlot => .ok ((s.fifoRegs s.selNum s.selDir).slot.setWidth 16)
  | .tickCtrl => .ok (s.hw.tickCtrl.setWidth 16)
  | .fifoStat b => .ok ((s.fifoStat b.val).setWidth 16)
  | .zCnt => .ok (BitVec.ofNat 16 ((s.fifo s.selNum).byteCount s.selDir))

/-- What a read of a register changes: the read-clears registers are cleared, the data port is popped, and
nothing else changes (20_memory.md R51). -/
def readEffect (r : Reg) (s : State) : State :=
  match r with
  | .miscStat => s.modHw fun h => { h with miscStat := 0 }
  | .sci => s.modHw fun h => { h with sci := 0 }
  | .fifoStat b => s.setFifoStat b.val 0
  | .fifoData => s.modFifo s.selNum Fifo.popped
  | _ => s

/-- A read of a register: its value, and its read side effect (20_memory.md R48). -/
def readReg (r : Reg) (s : State) : Except Fault (BitVec 16 × State) := do
  let v ← readValue r s
  .ok (v, readEffect r s)

/-- `MemRead(off, n)` (20_memory.md R48, R49). -/
def memRead (off : Byte) (n : Nat) (s : State) : Except Fault (BitVec 16 × State) :=
  match legalAccess off n with
  | none => .error .badAccess
  | some r => readReg r s

/-! ### Writes -/

/-- A byte pushed through the data port in transmit direction (10_state.md R33). -/
def Fifo.pushed (x : Fifo) (v : Byte) : Fifo :=
  if hdlcMode x.txRegs.ctrl then { x with txopen := x.txopen ++ [v] } else { x with btx := x.btx ++ [v] }

/-- A write of `FIFO_DATA` (10_state.md R33). -/
def writeData (v : Byte) (s : State) : Except Fault State :=
  match s.selDir with
  | .rx => .error .fifoDir
  | .tx =>
    if (s.fifo s.selNum).txStored < s.cfg.fifoDepth then
      .ok (s.modFifo s.selNum fun x => x.pushed v)
    else .error .fifoOverrun

/-- `FIFO_CMD.INC_F`: release the head frame (RX), or close the open frame (TX) (10_state.md R34). -/
def advanceFrame (s : State) : Except Fault State :=
  let x := s.fifo s.selNum
  match s.selDir with
  | .rx =>
    match x.rxq with
    | [] => .error .frameUnderrun
    | _ :: rest => .ok (s.setFifo s.selNum { x with rxq := rest, rxpos := 0 })
  | .tx =>
    if x.txopen = [] then .error .emptyFrame
    else if s.cfg.fmax ≤ x.txclosed.length then .error .fifoOverrun
    else .ok (s.setFifo s.selNum { x with txclosed := x.txclosed ++ [x.txopen], txopen := [] })

/-- A FIFO with the storage of one direction emptied (10_state.md R34). -/
def Fifo.emptied (x : Fifo) : Dir → Fifo
  | .rx => { x with rxq := [], rxpos := 0, brx := [] }
  | .tx => { x with txopen := [], txclosed := [], btx := [] }

/-- `FIFO_CMD.RESET`: empty the selected directional FIFO and clear its pending bit (10_state.md R34). -/
def resetFifo (s : State) : State :=
  (s.modFifo s.selNum fun x => x.emptied s.selDir).clearPending s.selNum s.selDir

/-- A write of `FIFO_CMD`: `RESET` alone when both bits are 1 (10_state.md R34). -/
def writeCmd (v : Byte) (s : State) : Except Fault State :=
  if v.getLsbD 1 then .ok (resetFifo s)
  else if v.getLsbD 0 then advanceFrame s
  else .ok s

/-- A write of `ST_WR` to port `p`: with `LOAD` the code is loaded and held, without it the port tracks
autonomously again (10_state.md R28). -/
def writeLatch (v : Byte) (l : LineLatch) : LineLatch :=
  if v.getLsbD 4 then { l with code := stateCode v, t2exp := false, auto := false }
  else { l with auto := true }

/-- The effect of a write whose reserved bits are 0 (10_state.md R23 to R39, 20_memory.md R49, R51). -/
def writeEffect (r : Reg) (v : Byte) (s : State) : Except Fault State :=
  match r with
  | .status | .fCnt | .zCnt => .ok s
  | .miscStat | .sci | .fifoStat _ => .ok s
  | .stRd => s.selPort.map fun _ => s
  | .stSel => .ok (s.modHw fun h => { h with stSel := v })
  | .stWr => s.selPort.map fun p => s.setLatch p (writeLatch v (s.latch p))
  | .syncSel => .ok (s.modHw fun h => { h with syncSel := v })
  | .fifoSel => .ok (s.modHw fun h => { h with fifoSel := v })
  | .fifoData => writeData v s
  | .fifoCmd => writeCmd v s
  | .fifoCtrl => .ok (s.modFifo s.selNum fun x => x.modRegs s.selDir fun c => { c with ctrl := v })
  | .fcChan => .ok (s.modFifo s.selNum fun x => x.modRegs s.selDir fun c => { c with chan := v })
  | .fcSlot => .ok (s.modFifo s.selNum fun x => x.modRegs s.selDir fun c => { c with slot := v })
  | .tickCtrl => .ok (s.modHw fun h => { h with tickCtrl := v })

/-- One more draw has been made. -/
def State.countDraw (s : State) : State := { s with draws := s.draws + 1 }

/-- A write of a register: `RESERVED_BITS` where a bit that must be 0 is 1 (20_memory.md R48); to a
busy-gated register while the hardware is busy it takes effect or not by the draw `taken`, under no law
(40_register_access.md R81, 00_scope.md R10). With `must` the draw is one that takes it: that is for the passes of
a receive drain without which it would not end (43_hdlc_framer.md R136; log 5). -/
def writeRegMust (must : Bool) (r : Reg) (v : Byte) (s : State) : Except Fault State :=
  if v &&& r.reserved = 0 then
    if r.busyGated && s.hw.busy then
      if must || Config.takenDraw s.draws then writeEffect r v s.countDraw else .ok s.countDraw
    else writeEffect r v s
  else .error .reservedBits

/-- A write of a register, whose draw is free (40_register_access.md R81). -/
def writeReg (r : Reg) (v : Byte) (s : State) : Except Fault State := writeRegMust false r v s

/-- `MemWrite(off, 1, v)` (20_memory.md R48, R49). -/
def memWrite (off v : Byte) (s : State) : Except Fault State :=
  match legalAccess off 1 with
  | none => .error .badAccess
  | some r => writeReg r v s

end Sys2Proof.Machine
end

