-- ==== Sys2Proof/Machine/Access.lean ====
section
/-! DEFINITION. The register access layer (40_register_access.md): the calls `RD`, `WR`, `RDX`, `WRX`, `WRB`,
`RDS` that every other family uses (R73). Each takes the point that stands before its raw accesses, at which
other agents may step (20_memory.md R52 to R54; log 7). -/

namespace Sys2Proof.Machine

/-- One raw read by name, all 16 bits: a point, then the access. -/
def rdRaw (pt : Point) (r : Reg) (s : State) : Except Fault (BitVec 16 × State) := do
  let s ← pt s
  readReg r s

/-- `RD(r)` of a byte register (R74). -/
def rd (pt : Point) (r : Reg) (s : State) : Except Fault (Byte × State) := do
  let (v, s) ← rdRaw pt r s
  .ok (v.setWidth 8, s)

/-- `WR(r, v)` (R75): a point, then the access. -/
def wr (pt : Point) (r : Reg) (v : Byte) (s : State) : Except Fault State := do
  let s ← pt s
  writeReg r v s

/-- `RDX(sel, sv, r)` of a byte register (R76): the selector write, then the read; between them only the line
agent and the tick agent step (20_memory.md R53). -/
def rdx (pt : Point) (sel : Reg) (sv : Byte) (r : Reg) (s : State) : Except Fault (Byte × State) := do
  let s ← wr pt sel sv s
  let (v, s) ← readReg r (linePoint s)
  .ok (v.setWidth 8, s)

/-- `WRX(sel, sv, r, v)` (R77): the selector write, then the write. -/
def wrx (pt : Point) (sel : Reg) (sv : Byte) (r : Reg) (v : Byte) (s : State) : Except Fault State := do
  let s ← wr pt sel sv s
  writeReg r v (linePoint s)

/-- The `BUSY` bit a poll of `STATUS` finds (10_state.md R23). -/
def busyBit (s : State) : Bool := s.statusByte.getLsbD 2

/-- `WaitNotBusy(which, off)` (R78). The first argument is how many entries the schedule holds, so how many
more polls can find the flag changed: between two polls the line agent may step and the draw `expired`
may end the wait (log 6). When nothing more can step, the wait ends in its timeout. -/
def waitNotBusy : Nat → Point → Wait → Byte → State → Except Fault State
  | 0, pt, which, off, s => do
    let s ← pt s
    .ok (if busyBit s then s.diag (.timeoutBusy which off) else s)
  | n + 1, pt, which, off, s => do
    let s ← pt s
    if busyBit s then
      if Config.expiredDraw s.draws then .ok (s.countDraw.diag (.timeoutBusy which off))
      else waitNotBusy n pt which off s.countDraw
    else .ok s

/-- A busy wait before a write, the write, and a busy wait after it (R78). -/
def betweenWaits (pt : Point) (off : Byte) (write : State → Except Fault State) (s : State) :
    Except Fault State := do
  let s ← waitNotBusy s.sched.length pt .before off s
  let s ← write s
  waitNotBusy s.sched.length pt .after off s

/-- `WRB(r, v)` (R78), its write with `must` (log 5). -/
def wrbMust (must : Bool) (pt : Point) (r : Reg) (v : Byte) (s : State) : Except Fault State :=
  betweenWaits pt r.offset (fun s => do writeRegMust must r v (← pt s)) s

/-- `WRB(r, v)` (R78). -/
def wrb (pt : Point) (r : Reg) (v : Byte) (s : State) : Except Fault State := wrbMust false pt r v s

/-- The re-reads of a stable read (R79): `n` more tries, `prev` the value read last. -/
def stableRead (pt : Point) : Nat → Reg → BitVec 16 → State → Except Fault (BitVec 16 × State)
  | 0, r, prev, s => .ok (prev, s.diag (.timeoutStableRead r.offset))
  | n + 1, r, prev, s => do
    let (cur, s) ← rdRaw pt r s
    if cur = prev then .ok (cur, s) else stableRead pt n r cur s

/-- `RDS(r)` (R79). -/
def rds (pt : Point) (r : Reg) (s : State) : Except Fault (BitVec 16 × State) := do
  let (prev, s) ← rdRaw pt r s
  stableRead pt s.cfg.stableRetries r prev s

/-- `n` reads of `FIFO_DATA`, in order (43_hdlc_framer.md R135, 44_bearer_pump.md R161). -/
def readBytes (pt : Point) : Nat → State → Except Fault (List Byte × State)
  | 0, s => .ok ([], s)
  | n + 1, s => do
    let (b, s) ← rd pt .fifoData s
    let (bs, s) ← readBytes pt n s
    .ok (b :: bs, s)

end Sys2Proof.Machine
end

