-- ==== Sys2Proof/Machine/Mapper.lean ====
section
/-! DEFINITION. The FIFO-structural primitives and the TDM/FIFO flow-controller mapper
(41_flow_mapper.md). -/

namespace Sys2Proof.Machine

/-! ### FIFO-structural primitives (R92 to R94) -/

/-- `FIFO.SEL(f, d)` (R92), its write with `must` (log 5): `BAD_OPERAND` for `f >= NFIFO`, else a busy-wait write
of `FIFO_SEL`. It opens the FIFO section of the operation that calls it (20_memory.md R54). -/
def fifoSelectMust (must : Bool) (pt : Point) (f : Nat) (d : Dir) (s : State) : Except Fault State :=
  if f < s.cfg.nfifo then wrbMust must pt .fifoSel (selByte f d) s else .error .badOperand

/-- `FIFO.SEL(f, d)` (R92). -/
def fifoSelect (pt : Point) (f : Nat) (d : Dir) (s : State) : Except Fault State := fifoSelectMust false pt f d s

/-- `FIFO.SEL(f, d)` as an operation of its own. -/
def fifoSelOp (E : Env) (f : Nat) (d : Dir) (s : State) : Except Fault State := do
  let s ← E.free s
  fifoSelect E.fifo f d s

/-- `FIFO.RESET(f, d)` (R93). -/
def fifoResetOp (E : Env) (f : Nat) (d : Dir) (s : State) : Except Fault State := do
  let s ← E.free s
  let s ← fifoSelect E.fifo f d s
  wrb E.fifo .fifoCmd 0x02 s

/-- Set or clear `IRQ_EN` of the selected FIFO: a read and a write of `FIFO_CTRL` (R94,
43_hdlc_framer.md R139). -/
def setIrqEn (pt : Point) (en : Bool) (s : State) : Except Fault State := do
  let (v, s) ← rd pt .fifoCtrl s
  wr pt .fifoCtrl (if en then v ||| 0x01 else v &&& 0xFE) s

/-- The FIFO section of `FIFO.IRQ(f, d, en)` (R94). -/
def fifoIrqSection (pt : Point) (f : Nat) (d : Dir) (en : Bool) (s : State) : Except Fault State := do
  let s ← fifoSelect pt f d s
  setIrqEn pt en s

/-- `FIFO.IRQ(f, d, en)` (R94). -/
def fifoIrqOp (E : Env) (f : Nat) (d : Dir) (en : Bool) (s : State) : Except Fault State := do
  let s ← E.free s
  fifoIrqSection E.fifo f d en s

/-! ### The mapper (R95 to R97) -/

/-- Program the control registers of FIFO `(f, d)`: select it, then write `FIFO_CTRL`, `FC_CHAN` and
`FC_SLOT` (R95, R96). -/
def programFifo (E : Env) (f : Nat) (d : Dir) (ctrl chan slot : Byte) (s : State) : Except Fault State := do
  let s ← fifoSelect E.fifo f d s
  let s ← wr E.own .fifoCtrl ctrl s
  let s ← wr E.own .fcChan chan s
  wr E.own .fcSlot slot s

/-- The `FC_SLOT` value of a bearer channel: its timeslot, used, in the EC-routed topology; 0 in the direct
one (R89, R95). -/
def slotByte (c : Config) (p : Nat) (role : Role) : Byte :=
  match slotOf p role with
  | some ts => if c.ecRouted then 0x80 ||| BitVec.ofNat 8 ts else 0x00
  | none => 0x00

/-- `FM.MAPB(p, bchan)` (R95), for a bearer role. -/
def mapBearer (E : Env) (p : Nat) (role : Role) (s : State) : Except Fault State := do
  let s ← E.free s
  let f := fifoOf s.cfg p role
  let ch := BitVec.ofNat 8 (chanOf p role)
  let sl := slotByte s.cfg p role
  let s := s.modPort p fun q => q.setFifoNum role f
  let s ← programFifo E f .rx 0x05 (0x80 ||| ch) sl s
  let s ← E.own s
  programFifo E f .tx 0x04 ch sl s

/-- `FM.MAPD(p)` (R96). -/
def mapSignalling (E : Env) (p : Nat) (s : State) : Except Fault State := do
  let s ← E.free s
  let f := fifoOf s.cfg p .d
  let ch := BitVec.ofNat 8 (chanOf p .d)
  let s := s.modPort p fun q => q.setFifoNum .d f
  let s ← programFifo E f .rx 0x07 (0x80 ||| ch) 0x00 s
  let s ← E.own s
  programFifo E f .tx 0x07 ch 0x00 s

/-- The three mappings of one port (R97). -/
def mapPort (E : Env) (p : Nat) (s : State) : Except Fault State := do
  let s ← mapBearer E p .b1 s
  let s ← mapBearer E p .b2 s
  mapSignalling E p s

/-- `FM.MAPALL` (R97). -/
def mapAll (E : Env) (s : State) : Except Fault State := forEach (mapPort E) (List.range s.nports) s

/-- `mapped(p, role)` (70_reset_and_hazards.md R202). -/
def mapped (s : State) (p : Nat) (role : Role) : Bool :=
  decide ((s.port p).fifoNum role = fifoOf s.cfg p role) &&
  fifoEnable (s.fifoRegs (fifoOf s.cfg p role) .rx).ctrl &&
  fifoEnable (s.fifoRegs (fifoOf s.cfg p role) .tx).ctrl

/-- `port[p].fifos[role]`, for an operation that needs it: `NOT_MAPPED` unless the mapper has run
(70_reset_and_hazards.md R202). -/
def mappedFifo (s : State) (p : Nat) (role : Role) : Except Fault Nat :=
  if mapped s p role then .ok ((s.port p).fifoNum role) else .error .notMapped

end Sys2Proof.Machine
end

