-- ==== Sys2Proof/Machine/LineState.lean ====
section
/-! DEFINITION. The S/T line-state machine's reaction logic: observation, reactions, timers, alarm
debouncing and synchronization-source selection (42_st_state_machine.md). -/

namespace Sys2Proof.Machine

/-! ### Timers (R105, R110) -/

/-- `ArmT3(p)` (R110): the first time since reset for `T3_FIRST_MS`, later for `T3_MS`; disarms T1. -/
def armT3 (p : Nat) (s : State) : State :=
  s.modPort p fun q =>
    { q with
      t3First := false
      t3Dl := s.card.ticks + (if q.t3First then s.cfg.t3FirstMs else s.live.t3Ms)
      t3On := true
      t1On := false }

/-- `ArmT1(p)` (R110): for `T1_MS`; disarms T3. -/
def armT1 (p : Nat) (s : State) : State :=
  s.modPort p fun q =>
    { q with t1Dl := s.card.ticks + s.live.t1Ms, t1On := true, t3On := false }

/-! ### Observation and reaction (R106 to R109) -/

/-- A port after its alarm class has been observed: CLEAR disarms the mode's timer (R106). -/
def Port.disarmIfClear (q : Port) (prov : Alarm) : Port :=
  if prov = .clear then
    match q.mode with
    | .nt => { q with t1On := false }
    | .te => { q with t3On := false }
  else q

/-- A port after a provisional alarm value: the pending value and its deadline change only when the value
differs from the pending one (R106). -/
def Port.debounce (q : Port) (prov : Alarm) (deadline : Nat) : Port :=
  if prov = q.newalarm then q else { q with newalarm := prov, alarmtimer := deadline }

/-- What an observation of state byte `sta` records on port `p` (R106). -/
def recordState (p : Nat) (sta : Byte) (s : State) : State :=
  s.modPort p fun q =>
    let prov := alarmClass s.cfg q.mode (stateCode sta).toNat
    (({ q with state := sta } : Port).disarmIfClear prov).debounce prov (s.card.ticks + s.live.debounceMs)

/-- The register accesses of a forced transition (R109): the load, and with `resume` the write that
releases it; `ST_BAD_CODE` for a code outside the port's vocabulary (R104). The settle time has no
state effect (40_register_access.md R83; log 17). -/
def loadState (pt : Point) (p code : Nat) (resume : Bool) (s : State) : Except Fault State :=
  if inVocab (s.port p).mode code then do
    let s ← wrx pt .stSel (BitVec.ofNat 8 p) .stWr (0x10 ||| BitVec.ofNat 8 code) s
    if resume then wrx pt .stSel (BitVec.ofNat 8 p) .stWr (BitVec.ofNat 8 code) s else .ok s
  else .error .stBadCode

/-- `ReactT2(p)` up to its inner observation: T1 disarmed, forced to G1 Deactivated, released (R107). -/
def reactT2 (pt : Point) (p : Nat) (s : State) : Except Fault State :=
  loadState pt p 1 true (s.modPort p fun q => { q with t1On := false })

/-- `ReactSignal(p)` up to its inner observation: T3 armed, forced to F4 Awaiting signal, released
(R108). -/
def reactSignal (pt : Point) (p : Nat) (s : State) : Except Fault State := loadState pt p 4 true (armT3 p s)

/-- `ST.OBSERVE(p)` (R106): read the state byte, record it, and react; each reaction forces a transition
and observes again (R107 to R109). The first argument bounds the depth of that recursion; the bound that
`observe` gives it is never reached (log 14). -/
def observeWithin : Nat → Point → Nat → State → Except Fault State
  | 0, _, _, s => .ok s
  | n + 1, pt, p, s => do
    let (sta, s) ← rdx pt .stSel (BitVec.ofNat 8 p) .stRd s
    if inVocab (s.port p).mode (stateCode sta).toNat then
      let s := recordState p sta s
      if (s.port p).mode = .nt ∧ stateCode sta = 4 ∧ stateT2exp sta = true then do
        let s ← reactT2 pt p s
        observeWithin n pt p s
      else if (s.port p).mode = .te ∧ stateCode sta = 3 ∧ stateSignal sta = true then do
        let s ← reactSignal pt p s
        observeWithin n pt p s
      else .ok s
    else .error .stBadCode

/-- `ST.OBSERVE(p)` (R106). Each level of reactions beyond the first needs a line step or a reset, so an
entry of the schedule, inside the operation (R119). -/
def observe (pt : Point) (p : Nat) (s : State) : Except Fault State := observeWithin (s.sched.length + 2) pt p s

/-- `ST.FORCE(p, code, resume)` (R109). -/
def forceState (pt : Point) (p code : Nat) (resume : Bool) (s : State) : Except Fault State := do
  let s ← loadState pt p code resume s
  observe pt p s

/-! ### Start and stop (R111, R112) -/

/-- What `ST.START(p)` sets on the port before its observation (R111). -/
def beginSpan (p : Nat) (s : State) : State :=
  let s := s.modPort p fun q => { q with spanRunning := true }
  match (s.port p).mode with
  | .nt => armT1 p s
  | .te => armT3 p s

/-- `ST.START(p)` (R111). -/
def startSpan (E : Env) (p : Nat) (s : State) : Except Fault State := do
  let s ← E.free (beginSpan p s)
  observe E.raw p s

/-- `ST.STOP(p)` (R112). -/
def stopSpan (p : Nat) (s : State) : State :=
  s.modPort p fun q => { q with spanRunning := false, t1On := false, t3On := false }

/-! ### Synchronization source (R117, R118) -/

/-- The order in which `ST.SYNCSEL` looks at (priority, port): priorities 1 to `n` ascending, ports
ascending within a priority (R117). -/
def syncOrder (n : Nat) : List (Nat × Nat) :=
  (List.range n).flatMap fun k => (List.range n).map fun p => (k + 1, p)

/-- The port `ST.SYNCSEL` picks: the first whose priority matches and whose published alarm is CLEAR
(R117). -/
def syncPick (s : State) : Option Nat :=
  ((syncOrder s.nports).find? fun (k, p) =>
    (s.port p).syncPrio == k && (s.port p).alarm == .clear).map Prod.snd

/-- `ST.SYNCSEL` (R117). -/
def syncSelect (pt : Point) (s : State) : Except Fault State :=
  match syncPick s with
  | none => wr pt .syncSel 0x00 (s.modCard fun c => { c with syncsrc := .auto })
  | some p => wr pt .syncSel (0x08 ||| BitVec.ofNat 8 p) (s.modCard fun c => { c with syncsrc := .port p })

/-- `ST.SETPRIO(p, prio)` (R118): `INVALID` and nothing changed for a port or a priority above the range. -/
def setPriority (E : Env) (p prio : Nat) (s : State) : Except Fault (Result × State) :=
  if s.nports ≤ p ∨ s.nports < prio then .ok (.invalid, s)
  else do
    let s ← E.free (s.modPort p fun q => { q with syncPrio := prio })
    let s ← syncSelect E.raw s
    .ok (.ok, s)

/-! ### The sweep (R113) -/

/-- The expiry of T1 in the sweep of port `p`: code 4 is forced (R113). -/
def expireT1 (pt : Point) (p : Nat) (s : State) : Except Fault State :=
  if (s.port p).t1On ∧ (s.port p).t1Dl ≤ s.card.ticks then
    forceState pt p 4 true (s.modPort p fun q => { q with t1On := false })
  else .ok s

/-- The expiry of T3 in the sweep of port `p`: code 3 is forced (R113). -/
def expireT3 (pt : Point) (p : Nat) (s : State) : Except Fault State :=
  if (s.port p).t3On ∧ (s.port p).t3Dl ≤ s.card.ticks then
    forceState pt p 3 true (s.modPort p fun q => { q with t3On := false })
  else .ok s

/-- Whether the sweep publishes port `p`'s pending alarm (R113, R115). -/
def publishes (p : Nat) (s : State) : Bool :=
  let q := s.port p
  q.newalarm != q.alarm && decide (q.alarmtimer ≤ s.card.ticks) &&
  !(s.live.ignoreRedTe && q.mode == .te && q.newalarm == .red)

/-- The publication part of the sweep on port `p` (R113). -/
def publishAlarm (pt : Point) (p : Nat) (s : State) : Except Fault State :=
  if publishes p s then
    let value := (s.port p).newalarm
    let s := (s.modPort p fun q => { q with alarm := value }).emit (.alarm p value)
    match (s.port p).mode with
    | .nt => syncSelect pt s
    | .te => .ok s
  else .ok s

/-- The sweep of one port: T1, then T3, then the publication (R113), with a point before each. -/
def sweepPort (E : Env) (p : Nat) (s : State) : Except Fault State := do
  let s ← E.free s
  let s ← expireT1 E.raw p s
  let s ← E.free s
  let s ← expireT3 E.raw p s
  let s ← E.free s
  publishAlarm E.raw p s

/-- `ST.SWEEP` (R113). -/
def sweep (E : Env) (s : State) : Except Fault State := forEach (sweepPort E) (List.range s.nports) s

/-! ### Polling (R116) -/

/-- The poll of one port: it is observed if its bit of the value `sci` read from `SCI` is 1 (R116). -/
def pollPort (E : Env) (sci : Byte) (p : Nat) (s : State) : Except Fault State :=
  if sci.getLsbD p then do
    let s ← E.free s
    observe E.raw p s
  else .ok s

/-- `ST.POLL` (R116): `SCI` is read, which clears it, and each flagged port observed. -/
def pollPorts (E : Env) (s : State) : Except Fault State := do
  let (sci, s) ← rd E.free .sci s
  forEach (pollPort E sci) (List.range s.nports) s

end Sys2Proof.Machine
end

