-- ==== Sys2Proof/Machine/Framer.lean ====
section
/-! DEFINITION. The HDLC framer (43_hdlc_framer.md): the session, the receive procedure and its verdict, the
host's pull-buffer, the transmit procedure and the two drains. -/

namespace Sys2Proof.Machine

/-! ### The session (R133, R134) -/

/-- `host.txq[p] <- []; host.txoff[p] <- 0` (R133, R134). -/
def clearTxq (p : Nat) (s : State) : State :=
  s.modHostPort p fun h => { h with txq := [], txoff := 0 }

/-- `HDLC.ATTACH(p)` (R133). -/
def attachOp (E : Env) (p : Nat) (s : State) : Except Fault State := do
  let s ← E.free s
  let f ← mappedFifo s p .d
  let s ← fifoResetOp E f .rx s
  let s ← fifoResetOp E f .tx s
  let s := (clearTxq p s).setSession p { active := true, pending := 0, framesIn := 0, framesOut := 0 }
  let s ← fifoIrqOp E f .rx true s
  fifoIrqOp E f .tx true s

/-- `HDLC.DETACH(p)` (R134): the receive direction and the frame counters are left as they are. -/
def detachOp (E : Env) (p : Nat) (s : State) : Except Fault State := do
  let s ← E.free s
  let f ← mappedFifo s p .d
  let s := clearTxq p (s.modSession p fun x => { x with active := false, pending := 0 })
  let s ← fifoResetOp E f .tx s
  fifoIrqOp E f .tx false s

/-! ### Submission (R137) -/

/-- The body of `HDLC.SUBMIT`, one atomic step: the frame is queued and the outstanding-frame counter
incremented (R137, 20_memory.md R55). -/
def submitFrame (p : Nat) (frame : List Byte) (s : State) : State :=
  (s.modHostPort p fun h => { h with txq := h.txq ++ [frame] }).modSession p
    fun x => { x with pending := x.pending + 1 }

/-- `HDLC.SUBMIT p, frame` with its checks (R137). -/
def submitOp (frame : List Byte) (p : Nat) (s : State) : Except Fault State :=
  if frame = [] then .error .badOperand
  else if (s.session p).active then .ok (submitFrame p frame s)
  else .error .noSession

/-! ### Receive (R135, R136, R142 to R145) -/

/-- `verdict(p, L, trunc, last)`, testing in the order of the table (R142). -/
def verdict (p len : Nat) (trunc : Bool) (last : Byte) : HostEvent :=
  if len < 3 then .rxAbort p
  else if trunc then .rxAbort p
  else if last = 0x00 then .rxFinish p
  else if last = 0xFF then .rxAbort p
  else .rxBadFcs p

/-- The payload delivered of a drained frame of length `len`: the first `HDLC_CAP` bytes of a truncated
one, else all but the status byte (R135, R143). -/
def rxPayload (cap len : Nat) (bytes : List Byte) : List Byte :=
  if cap < len then bytes.take cap else (bytes.take cap).take (len - 1)

/-- What a pass reports upward of a drained frame, with a session attached (R135): the payload unless it is
empty, then exactly one verdict; the received-frame counter; the truncation warning. -/
def reportFrame (p len : Nat) (bytes : List Byte) (s : State) : State :=
  let cap := s.cfg.hdlcCap
  let trunc := decide (cap < len)
  let payload := rxPayload cap len bytes
  let s := if payload = [] then s else s.emit (.rxPush p payload)
  let s := s.emit (verdict p len trunc (bytes.getLastD 0))
  let s := s.modSession p fun x => { x with framesIn := x.framesIn + 1 }
  if trunc then s.diag (.rxTruncated p len) else s

/-- One receive pass on FIFO `f` of port `p`, one FIFO section, its gated writes with `must` (R135; log 5): whether
a frame was drained, and the frame count read after it. -/
def rxPassOn (must : Bool) (pt : Point) (p f : Nat) (s : State) : Except Fault ((Bool × Nat) × State) := do
  let s ← fifoSelectMust must pt f .rx s
  let (n, s) ← rds pt .fCnt s
  if n = 0 then .ok ((false, 0), s)
  else do
    let (len, s) ← rds pt .zCnt s
    let (bytes, s) ← readBytes pt len.toNat s
    let s ← wrbMust must pt .fifoCmd 0x01 s
    let (rem, s) ← rds pt .fCnt s
    let s := if (s.session p).active then reportFrame p len.toNat bytes s else s
    .ok ((true, rem.toNat), s)

/-- `HDLC.RXFRAME(p)` (R135), its gated writes with `must` (log 5). -/
def rxPass (must : Bool) (E : Env) (p : Nat) (s : State) : Except Fault ((Bool × Nat) × State) := do
  let s ← E.free s
  let f ← mappedFifo s p .d
  rxPassOn must E.fifo p f s

/-- What the passes of a receive drain use up: a pass after which frames remain has removed a frame from a
receive FIFO, or one of its two gated writes was dropped, or a step of another agent fell into it (R136:
"each pass removes one frame and the line agent adds finitely many"). -/
def rxWork (s : State) : Nat :=
  (s.hw.fifos.toList.map fun x => x.rxq.length).sum + schedWork s.sched

/-- The loop of `HDLC.RXDRAIN(p)` (R136), `count` frames drained so far; the first argument bounds the passes. While
more are left than there is work, a pass may be one that removes no frame; then each has to (log 5). -/
def rxDrainLoop (E : Env) : Nat → Nat → Nat → State → Except Fault (Nat × State)
  | 0, _, count, s => .ok (count, s)
  | n + 1, p, count, s => do
    let ((did, rem), s) ← rxPass (decide (n ≤ rxWork s)) E p s
    let count := if did then count + 1 else count
    if rem = 0 then .ok (count, s) else rxDrainLoop E n p count s

/-- `HDLC.RXDRAIN(p)` (R136). How many of its passes may remove no frame is free (log 5); the bound on its passes
is never reached (log 14). -/
def rxDrain (E : Env) (p : Nat) (s : State) : Except Fault (Nat × State) :=
  rxDrainLoop E (Config.stalledPasses s.draws + (rxWork s + 1)) p 0 s

/-! ### Transmit (R138 to R141) -/

/-- The three outcomes of a pull (R138). -/
inductive Pull where
  | more
  | done
  | noFrames
deriving DecidableEq, Repr

/-- `HostPull(p, cap)` (R138). -/
def hostPull (p cap : Nat) (s : State) : (List Byte × Pull) × State :=
  let h := s.hostPort p
  match h.txq with
  | [] => (([], .noFrames), s)
  | fr :: rest =>
    let n := min cap (fr.length - h.txoff)
    let bytes := (fr.drop h.txoff).take n
    if h.txoff + n = fr.length then
      ((bytes, .done), s.setHostPort p { h with txq := rest, txoff := 0 })
    else ((bytes, .more), s.setHostPort p { h with txoff := h.txoff + n })

/-- `Decrement(p)`, the saturating decrement of the outstanding-frame counter (R140). -/
def decrement (p : Nat) (s : State) : State :=
  if 0 < (s.session p).pending then s.modSession p fun x => { x with pending := x.pending - 1 }
  else s.diag (.decrementAtZero p)

/-- What a transmit pass does after the chunk is written (R139): its result is whether more work remains
for the current frame. -/
def finishChunk (pt : Point) (p : Nat) (r : Pull) (s : State) : Except Fault (Bool × State) :=
  match r with
  | .done => do
    let s ← wrb pt .fifoCmd 0x01 s
    .ok (false, (decrement p s).modSession p fun x => { x with framesOut := x.framesOut + 1 })
  | .more => do
    let s ← setIrqEn pt true s
    .ok (true, s)
  | .noFrames => do
    let s ← setIrqEn pt false s
    .ok (false, s)

/-- One transmit pass on FIFO `f` of port `p`, one FIFO section (R139, 20_memory.md R54; that the pull stands
inside it is 43_hdlc_framer.md R149's). -/
def txPassOn (pt : Point) (p f : Nat) (s : State) : Except Fault (Bool × State) :=
  if (s.session p).active then do
    let ((bytes, r), s) := hostPull p s.cfg.hdlcCap s
    let s ← fifoSelect pt f .tx s
    let s ← forEach (fun b s => wr pt .fifoData b s) bytes s
    finishChunk pt p r s
  else do
    let s ← fifoIrqSection pt f .tx false s
    .ok (false, s)

/-- `HDLC.TXCHUNK(p)` (R139): one transmit pass. -/
def txChunk (E : Env) (p : Nat) (s : State) : Except Fault (Bool × State) := do
  let s ← E.free s
  let f ← mappedFifo s p .d
  txPassOn E.fifo p f s

/-- The bytes and frames the host has queued on port `p`. -/
def queuedWork (p : Nat) (s : State) : Nat :=
  frameBytes (s.hostPort p).txq + (s.hostPort p).txq.length

/-- The loop of `HDLC.TXDRAIN(p)` (R141), `count` passes made so far; the first argument bounds the
passes. -/
def txDrainLoop (E : Env) : Nat → Nat → Nat → State → Except Fault (Nat × State)
  | 0, _, count, s => .ok (count, s)
  | n + 1, p, count, s =>
    if 0 < (s.session p).pending then do
      let before := (s.session p).pending
      let (more, s) ← txChunk E p s
      if more = false ∧ before ≤ (s.session p).pending then
        .ok (count + 1, s.diag (.pendingWithoutFrame p))
      else txDrainLoop E n p (count + 1) s
    else .ok (count, s)

/-- What the passes of a transmit drain of port `p` use up: a pass that goes on pulls a byte or ends a frame,
of those queued or submitted meanwhile, or a step of another agent fell into it. -/
def txWork (p : Nat) (s : State) : Nat := queuedWork p s + schedWork s.sched

/-- `HDLC.TXDRAIN(p)` (R141). The bound on its passes is never reached with a configuration in range (log 14).
It requires the mapping even where it makes no pass (70_reset_and_hazards.md R202; log 13). -/
def txDrain (E : Env) (p : Nat) (s : State) : Except Fault (Nat × State) := do
  let s ← E.free s
  let _ ← mappedFifo s p .d
  txDrainLoop E (txWork p s + 2) p 0 s

end Sys2Proof.Machine
end

