-- ==== Sys2Proof/Machine/Bearer.lean ====
section
/-! DEFINITION. The bearer sample pump (44_bearer_pump.md). -/

namespace Sys2Proof.Machine

/-- The transfer of one chunk of FIFO `f`, once a full chunk is available and `(f, RX)` is selected: read it
into the receive buffer, then write the transmit buffer's chunk to `(f, TX)`, each byte as it stands in the
buffer when it is written (R161). -/
def transferChunk (pt : Point) (p : Nat) (role : Role) (f : Nat) (s : State) : Except Fault State := do
  let (rx, s) ← readBytes pt s.cfg.chunk s
  let s := s.modHostPort p fun h => h.setRxbuf role rx
  let s ← fifoSelect pt f .tx s
  forEach (fun i s => wr pt .fifoData (((s.hostPort p).txbuf role)[i]?.getD 0) s) (List.range s.cfg.chunk) s

/-- The exchange on FIFO `f` of port `p`, one FIFO section (R161): whether a chunk was exchanged. -/
def exchangeOn (pt : Point) (p : Nat) (role : Role) (f : Nat) (s : State) : Except Fault (Bool × State) := do
  let s ← fifoSelect pt f .rx s
  let (avail, s) ← rds pt .zCnt s
  if avail.toNat < s.cfg.chunk then .ok (false, s)
  else do
    let s ← transferChunk pt p role f s
    .ok (true, s)

/-- `BP.XCHG(p, bchan)` (R161). -/
def exchange (E : Env) (p : Nat) (role : Role) (s : State) : Except Fault (Bool × State) := do
  let s ← E.free s
  let f ← mappedFifo s p role
  exchangeOn E.fifo p role f s

/-- `Reselect` (R163): `FIFO_SEL` is read and its own value written back with a busy wait; no other step
writes it in between, since "the FIFO selected does not change". -/
def reselect (E : Env) (s : State) : Except Fault State := do
  let s ← E.free s
  let (v, s) ← rd E.fifo .fifoSel s
  wrb E.fifo .fifoSel v s

/-- The scan of the ports `ps` by the pump: both bearer channels of each port whose span is running, B1
before B2; `any` says whether an exchange has occurred so far (R162). -/
def pumpPorts (E : Env) : List Nat → Bool → State → Except Fault (Bool × State)
  | [], any, s => .ok (any, s)
  | p :: ps, any, s =>
    if (s.port p).spanRunning then do
      let (x1, s) ← exchange E p .b1 s
      let (x2, s) ← exchange E p .b2 s
      pumpPorts E ps (any || x1 || x2) s
    else pumpPorts E ps any s

/-- `BP.PUMP` (R162): whether any exchange occurred. -/
def pump (E : Env) (s : State) : Except Fault (Bool × State) := do
  let (any, s) ← pumpPorts E (List.range s.nports) false s
  let s ← reselect E s
  .ok (any, s)

/-- `HOST.TXBUF` on a bearer channel of the card: exactly `CHUNK` bytes (R164). -/
def txbufOp (bytes : List Byte) (p : Nat) (role : Role) (s : State) : Except Fault State :=
  if bytes.length = s.cfg.chunk then .ok (s.modHostPort p fun h => h.setTxbuf role bytes)
  else .error .badOperand

/-- `EC.REQ` on a port of the card: an accepted request changes no state of the block, a rejected one neither
(R167). -/
def ecRequest (ch nparams : Byte) (_p : Nat) (s : State) : Except Fault (Result × State) :=
  if 2 ≤ ch.toNat ∨ nparams ≠ 0 then .ok (.invalid, s) else .ok (.ok, s)

end Sys2Proof.Machine
end

