-- ==== Sys2Proof/Machine/Reset.lean ====
section
/-! DEFINITION. Reset, start and stop of the card (70_reset_and_hazards.md). -/

namespace Sys2Proof.Machine

/-- `CARD.RESET` (R200): every state element takes its value of R201, the fixed parameters being those the
outside presents at this moment. The script, its index and its results belong to the test bench, the
schedule and the count of draws to the model: they stay (log 3). -/
def resetCard (s : State) : State :=
  { State.resetWith s.strap s.live with
    script := s.script
    sched := s.sched
    draws := s.draws }

/-- `CARD.START` (R203). -/
def startCard (pt : Point) (s : State) : Except Fault State :=
  wr pt .tickCtrl 0x03 (s.modCard fun c => { c with running := true })

/-- `CARD.STOP` (R204). -/
def stopCard (pt : Point) (s : State) : Except Fault State := do
  let s ← wr pt .tickCtrl 0x00 s
  .ok (s.modCard fun c => { c with running := false })

end Sys2Proof.Machine
end

