-- ==== Sys2Proof/Machine/Interrupt.lean ====
section
/-! DEFINITION. The tick generator and interrupt aggregator (60_exceptions.md): taking the interrupt is the
immediate phase `IRQ.IMM`, its return is its result (R180, R181); and the deferred phase `IRQ.DEF`. -/

namespace Sys2Proof.Machine

/-! ### The immediate phase (R173, R174) -/

/-- The eight FIFO status blocks. -/
def statBlocks : List (Fin 8) := [0, 1, 2, 3, 4, 5, 6, 7]

/-- Read one FIFO status block, which clears it, and OR it into its accumulator (R173). -/
def accumulateBlock (pt : Point) (b : Fin 8) (s : State) : Except Fault State := do
  let (v, s) ← rd pt (.fifoStat b) s
  .ok (s.setFifoAcc b.val (s.fifoAcc b.val ||| v))

/-- Read the miscellaneous status, which clears it, and OR it into its accumulator (R173): the value read. -/
def accumulateMisc (pt : Point) (s : State) : Except Fault (Byte × State) := do
  let (m, s) ← rd pt .miscStat s
  .ok (m, s.modCard fun c => { c with miscAcc := c.miscAcc ||| m })

/-- The register reads of `IRQ.IMM` (R173): `none` if the interrupt was not the card's, and then nothing more
is read and nothing is written (R174); else whether the tick bit was read. -/
def takeInterrupt (pt : Point) (s : State) : Except Fault (Option Bool × State) := do
  let (st, s) ← rd pt .status s
  if st.getLsbD 0 = false ∧ st.getLsbD 1 = false then .ok (none, s)
  else do
    let s ← forEach (accumulateBlock pt) statBlocks s
    let (m, s) ← accumulateMisc pt s
    .ok (some (m.getLsbD 1), s)

/-- `TickHooks` of port `p`, if its span is running (R173). -/
def tickHook (pt : Point) (p : Nat) (s : State) : Except Fault State := do
  let s ← pt s
  .ok (if (s.port p).spanRunning then
      s.emit (.tickHooks p (s.hostPort p).rxbufB1 (s.hostPort p).rxbufB2)
    else s)

/-- What the immediate phase does when it has read the tick bit: the pump, then the hooks of every running
span, in port order (R173). -/
def serveTickNow (E : Env) (s : State) : Except Fault State := do
  let (_, s) ← pump E s
  forEach (tickHook E.raw) (List.range s.nports) s

/-- `IRQ.IMM` (R173): whether the interrupt was the card's. -/
def immediatePhase (E : Env) (s : State) : Except Fault (Bool × State) := do
  let (taken, s) ← takeInterrupt E.raw s
  match taken with
  | none => .ok (false, s)
  | some false => .ok (true, s)
  | some true => do
    let s ← serveTickNow E s
    .ok (true, s)

/-! ### The deferred phase (R175 to R177) -/

/-- `repeat: more <- HDLC.TXCHUNK(p) until more = 0` (R175); the first argument bounds the passes. -/
def serveTransmitLoop (E : Env) : Nat → Nat → State → Except Fault State
  | 0, _, s => .ok s
  | n + 1, p, s => do
    let (more, s) ← txChunk E p s
    if more then serveTransmitLoop E n p s else .ok s

/-- Serve a transmit interrupt of port `p`'s D FIFO. The bound on the passes is never reached with a
configuration in range (log 14). -/
def serveTransmit (E : Env) (p : Nat) (s : State) : Except Fault State :=
  serveTransmitLoop E (txWork p s + 2) p s

/-- Clear the accumulator bit of `(f, d)` alone (R175: XOR-out only what is consumed). -/
def clearAcc (f : Nat) (d : Dir) (s : State) : State :=
  s.setFifoAcc (f / 4) (s.fifoAcc (f / 4) ^^^ pendingMask f d)

/-- Whether the accumulator bit of `(f, d)` is 1. -/
def accBit (f : Nat) (d : Dir) (s : State) : Bool := (s.fifoAcc (f / 4)).getLsbD (pendingPos f d)

/-- The transmit half of the scan at FIFO number `f` (R175). -/
def scanTransmit (E : Env) (f : Nat) (s : State) : Except Fault State :=
  if accBit f .tx s then
    let s := clearAcc f .tx s
    if isD s.cfg f then serveTransmit E (portOfD s.cfg f) s
    else .ok (s.diag (.unexpectedFifoIrq f .tx))
  else .ok s

/-- The receive half of the scan at FIFO number `f` (R175). -/
def scanReceive (E : Env) (f : Nat) (s : State) : Except Fault State :=
  if accBit f .rx s then
    let s := clearAcc f .rx s
    if isD s.cfg f then do
      let (_, s) ← rxDrain E (portOfD s.cfg f) s
      .ok s
    else .ok (s.diag (.unexpectedFifoIrq f .rx))
  else .ok s

/-- The scan at FIFO number `f`: the transmit bit before the receive bit (R175), with a point before each. -/
def scanFifo (E : Env) (f : Nat) (s : State) : Except Fault State := do
  let s ← E.free s
  let s ← scanTransmit E f s
  let s ← E.free s
  scanReceive E f s

/-- The poll of the deferred phase, every `POLL_TICKS` ticks (R176). -/
def pollIfDue (E : Env) (s : State) : Except Fault State :=
  if s.card.ticks % s.cfg.pollTicks = 0 then pollPorts E s else .ok s

/-- The work of one tick: the counter advances, the sweep, the poll if it is due, and the tick bit of the
accumulator is cleared last (R176), with a point before each. LED rendering has no state of this block
(00_scope.md R4). -/
def serveTick (E : Env) (s : State) : Except Fault State := do
  let s ← E.free (s.modCard fun c => { c with ticks := c.ticks + 1 })
  let s ← sweep E s
  let s ← E.free s
  let s ← pollIfDue E s
  let s ← E.free s
  .ok (s.modCard fun c => { c with miscAcc := c.miscAcc ^^^ 0x02 })

/-- `DefTick`, the tick part (R176). -/
def deferredTick (E : Env) (s : State) : Except Fault State := do
  let s ← E.free s
  if s.card.miscAcc.getLsbD 1 then serveTick E s else .ok s

/-- The final drain of one port, if its counter is not 0 (R177). -/
def drainPort (E : Env) (p : Nat) (s : State) : Except Fault State := do
  let s ← E.free s
  if 0 < (s.session p).pending then do
    let (_, s) ← txDrain E p s
    .ok s
  else .ok s

/-- `DefTxDrain`, the final transmit drain (R177). -/
def deferredDrain (E : Env) (s : State) : Except Fault State :=
  forEach (drainPort E) (List.range s.nports) s

/-- `IRQ.DEF` (R175): the scan of all FIFO numbers, the tick part, the final transmit drain. -/
def deferredPhase (E : Env) (s : State) : Except Fault State := do
  let s ← forEach (scanFifo E) (List.range s.cfg.nfifo) s
  let s ← deferredTick E s
  deferredDrain E s

/-- `IRQ` (R178): the deferred phase at the end of a handled immediate phase, each with its own points. -/
def interrupt (imm dfr : Env) (s : State) : Except Fault (Bool × State) := do
  let (mine, s) ← immediatePhase imm s
  if mine then do
    let s ← deferredPhase dfr s
    .ok (true, s)
  else .ok (false, s)

/-! ### The phases inside a FIFO section of another operation (20_memory.md R54)

There no other step may write `FIFO_SEL`. A phase that writes none runs as it would anywhere; one that comes to
a service that would write it answers `none`: it does not fall here. -/

/-- A service that selects a FIFO of port `p`'s channel `role` comes to its select, unless it stops before it for
want of the mapping (70_reset_and_hazards.md R202). -/
def wouldSelect {α : Type} (p : Nat) (role : Role) (s : State) : Except Fault (Option α) :=
  (mappedFifo s p role).map fun _ => none

/-- The pump comes to a select at the first port whose span is running, or at its reselect (44_bearer_pump.md
R162, R163). -/
def pumpWouldSelect {α : Type} (s : State) : Except Fault (Option α) :=
  match (List.range s.nports).find? fun p => (s.port p).spanRunning with
  | some p => wouldSelect p .b1 s
  | none => .ok none

/-- `IRQ.IMM` inside a FIFO section: it does not fall there if it reads the tick bit, since it then pumps
(R173). -/
def immediateOutsideFifo (E : Env) (s : State) : Except Fault (Option (Bool × State)) := do
  let (taken, s) ← takeInterrupt E.raw s
  match taken with
  | none => .ok (some (false, s))
  | some false => .ok (some (true, s))
  | some true => pumpWouldSelect s

/-- The scan of the FIFO numbers `fs` inside a FIFO section: it falls there unless it finds a bit of a D FIFO
(R175). -/
def scanOutsideFifo (E : Env) : List Nat → State → Except Fault (Option State)
  | [], s => .ok (some s)
  | f :: fs, s => do
    let s ← E.free s
    if isD s.cfg f && accBit f .tx s then wouldSelect (portOfD s.cfg f) .d s
    else do
      let s ← scanTransmit E f s
      let s ← E.free s
      if isD s.cfg f && accBit f .rx s then wouldSelect (portOfD s.cfg f) .d s
      else do
        let s ← scanReceive E f s
        scanOutsideFifo E fs s

/-- The final drain of the ports `ps` inside a FIFO section: it falls there unless a frame is outstanding
(R177). -/
def drainOutsideFifo (E : Env) : List Nat → State → Except Fault (Option State)
  | [], s => .ok (some s)
  | p :: ps, s => do
    let s ← E.free s
    if 0 < (s.session p).pending then wouldSelect p .d s else drainOutsideFifo E ps s

/-- `IRQ.DEF` inside a FIFO section (R175 to R177): the tick part, its sweep and its poll write no `FIFO_SEL`. -/
def deferredOutsideFifo (E : Env) (s : State) : Except Fault (Option State) := do
  let scanned ← scanOutsideFifo E (List.range s.cfg.nfifo) s
  match scanned with
  | none => .ok none
  | some s => do
    let s ← deferredTick E s
    drainOutsideFifo E (List.range s.nports) s

/-- `IRQ` inside a FIFO section (R178). -/
def interruptOutsideFifo (imm dfr : Env) (s : State) : Except Fault (Option State) := do
  let taken ← immediateOutsideFifo imm s
  match taken with
  | none => .ok none
  | some (false, s) => .ok (some s)
  | some (true, s) => deferredOutsideFifo dfr s

/-- What the interrupt's dispatcher is told (R181). -/
def irqResult (mine : Bool) : Result := if mine then .handled else .notMine

end Sys2Proof.Machine
end

