-- ==== Sys2Proof/Machine/Agents.lean ====
section
/-! DEFINITION. What the agents of a card may do at a point inside another agent's operation (10_state.md R20,
20_memory.md R52 to R56, 60_exceptions.md R178 to R181, R192; log 7, log 8). The steps themselves are plain
data: the entries of `State.sched`. -/

namespace Sys2Proof.Machine

/-! ### What may step where -/

/-- What is open at a point, beside the steps of the line agent and the tick agent and the host operations
that write no `FIFO_SEL`, which are taken at every point but inside an indexed sequence. -/
structure Rights where
  /-- no immediate phase is in progress and no service operation is (60_exceptions.md R172, R180) -/
  imm : Bool
  /-- no phase of the interrupt and no service operation of a script is in progress (60_exceptions.md R192: one
  deferred context) -/
  defer : Bool
  /-- no FIFO section is in progress, so a step that writes `FIFO_SEL` may be taken (20_memory.md R54) -/
  select : Bool
deriving DecidableEq, Repr

/-- The rights between two commands: no operation is in progress. -/
def Rights.all : Rights where
  imm := true
  defer := true
  select := true

/-- The points of a host operation taken with rights `r`: a deferred phase may come at any of them, an interrupt
at those outside the service operations that it calls, but neither where it would write `FIFO_SEL` inside a
FIFO section (60_exceptions.md R180, R192, 20_memory.md R54). -/
def hostEnv (P : Rights → Point) (r : Rights) : Env where
  free := P r
  raw := P { r with imm := false }
  fifo := P { r with imm := false, select := false }
  own := P { r with select := false }

/-- The points of a service operation taken with rights `r`: interrupts are taken only between the operations
that it calls, never inside one (60_exceptions.md R180, R181); the host's operations at all of them. -/
def serviceEnv (P : Rights → Point) (r : Rights) : Env where
  free := P { r with defer := false }
  raw := P { r with imm := false, defer := false }
  fifo := P { imm := false, defer := false, select := false }
  own := P { imm := false, defer := false, select := false }

/-- The points of an immediate phase taken with rights `r`: no second one starts while it is in progress
(60_exceptions.md R172, R181). -/
def immEnv (P : Rights → Point) (r : Rights) : Env where
  free := P { r with imm := false, defer := false }
  raw := P { r with imm := false, defer := false }
  fifo := P { imm := false, defer := false, select := false }
  own := P { imm := false, defer := false, select := false }

/-! ### The steps at a point -/

/-- A port operand and then an operation on that port (30_encoding.md R65). -/
def onPort {α : Type} (op : Nat → State → Except Fault α) (a : Byte) (s : State) : Except Fault α := do
  let p ← portArg a s
  op p s

/-- The same on a bearer channel of that port. -/
def onBearer {α : Type} (op : Nat → Role → State → Except Fault α) (a bchan : Byte) (s : State) :
    Except Fault α := do
  let p ← portArg a s
  let role ← bchanArg bchan
  op p role s

/-- A step that is taken only where the rights allow it, else passed over: it falls elsewhere. -/
def allowed (open_ : Bool) (op : State → Except Fault State) (s : State) : Except Fault State :=
  if open_ then op s else .ok s

/-- The state part of an operation that also answers a value. -/
def stateOf {α : Type} (r : Except Fault (α × State)) : Except Fault State := r.map Prod.snd

/-- `allowed` for an operation that writes `FIFO_SEL` and needs the mapping of port `p`'s D channel: kept out, it
still stops for want of the mapping, since it then writes none (20_memory.md R54, 60_exceptions.md R193). -/
def allowedMapped (open_ : Bool) (op : Nat → State → Except Fault State) (p : Nat) (s : State) :
    Except Fault State :=
  if open_ then op p s else (mappedFifo s p .d).map fun _ => s

/-- A phase of the interrupt at a point: where FIFO sections may not be opened it is passed over if it would
open one (20_memory.md R54). -/
def phase (open_ : Bool) (op : State → Except Fault State) (outsideFifo : State → Except Fault (Option State))
    (s : State) : Except Fault State :=
  if open_ then op s else (outsideFifo s).map fun t => t.getD s

/-- One step that another agent issues at a point with rights `r`; `P` gives the points inside that step.
A line or tick step that is not enabled, and a step that the rights keep out, is passed over; the
`ModelFault` of a host operation or of an interrupt phase stops the machine (60_exceptions.md R190, R193).
The raw accesses and the operations that only the service agent issues are not taken: they stand in the
script or inside the operations that call them (log 8).
DESIGN CHOICE (log 8): `ST.SYNCSEL` is taken as a step of the host. 30_encoding.md R63 and 60_exceptions.md R192
give it to the service agent and 10_state.md R20 does not list it for the host, but 70_reset_and_hazards.md R205
has it issued in the boot order. -/
def agentStep (P : Rights → Point) (r : Rights) (i : Instr) (s : State) : Except Fault State :=
  let H := hostEnv P r
  let D := serviceEnv P r
  let I := immEnv P r
  match i with
  | .lineBusy _ | .lineState _ _ | .lineRxframe _ _ | .lineTxtake _ | .lineBrx _ _ | .lineBtxtake _ _
  | .lineFifoirq _ _ | .tick => .ok ((lineStep i s).getD s)
  | .hdlcSubmit a frame => onPort (submitOp frame) a s
  | .stStart a => onPort (startSpan H) a s
  | .stStop a => onPort (fun p s => .ok (stopSpan p s)) a s
  | .stSetprio p prio => stateOf (setPriority H p.toNat prio.toNat s)
  | .stSyncsel => syncSelect H.raw s
  | .hostTxbuf a bchan bytes => onBearer (txbufOp bytes) a bchan s
  | .ecReq a ch n => stateOf (onPort (ecRequest ch n) a s)
  | .cardStart => startCard H.free s
  | .cardStop => stopCard H.free s
  | .cardReset => allowed r.select (fun s => .ok (resetCard s)) s
  | .fmMapb a bchan => onBearer (fun p role => allowed r.select (mapBearer H p role)) a bchan s
  | .fmMapd a => onPort (fun p => allowed r.select (mapSignalling H p)) a s
  | .fmMapall => allowed r.select (mapAll H) s
  | .hdlcAttach a => onPort (allowedMapped r.select (attachOp H)) a s
  | .hdlcDetach a => onPort (allowedMapped r.select (detachOp H)) a s
  | .hdlcRxdrain a => onPort (allowedMapped r.select fun p s => stateOf (rxDrain H p s)) a s
  | .irqImm => allowed r.imm (phase r.select (fun s => stateOf (immediatePhase I s))
      fun s => (immediateOutsideFifo I s).map fun x => x.map Prod.snd) s
  | .irqDef => allowed r.defer (phase r.select (deferredPhase D) (deferredOutsideFifo D)) s
  | .irq => allowed (r.imm && r.defer)
      (phase r.select (fun s => stateOf (interrupt I D s)) (interruptOutsideFifo I D)) s
  | .regRd _ _ | .regWr _ _ | .regRdx _ _ _ | .regWrx _ _ _ _ | .regWrb _ _ | .regRds _ => .ok s
  | .fifoSel _ _ | .fifoReset _ _ | .fifoIrq _ _ _ => .ok s
  | .stObserve _ | .stForce _ _ _ | .stSweep | .stPoll => .ok s
  | .hdlcRxframe _ | .hdlcTxchunk _ | .hdlcTxdrain _ | .bpXchg _ _ | .bpPump => .ok s

/-- One entry of the schedule at a point: an agent's step, or a change of the parameters presented from
outside, taken if it is in range (00_scope.md R6, R7; log 2). -/
def takeStep (P : Rights → Point) (r : Rights) (e : EnvStep) (s : State) : Except Fault State :=
  match e with
  | .issue i => agentStep P r i s
  | .setLive l => .ok { s with live := l }
  | .setStrap c => .ok (if c.valid then { s with strap := c } else s)

/-- A point with rights `r`: the next entry of the schedule is used up and its steps are taken in order. In a
scripted run the schedule is empty and nothing happens. The first argument bounds how deep operations stand
inside operations; the bound `State.depth` is never reached, since each of them is an entry's step. -/
def pointAt : Nat → Rights → Point
  | 0, _, s => .ok { s with sched := s.sched.tail }
  | n + 1, r, s =>
    match s.sched with
    | [] => .ok s
    | es :: rest => forEach (takeStep (pointAt n) r) es { s with sched := rest }

/-- A bound on how deep operations can stand inside operations: one level for each step of the schedule. -/
def State.depth (s : State) : Nat := (s.sched.map List.length).sum + 1

/-- The points of a host operation of the script. -/
def State.hostEnv (s : State) : Env := Machine.hostEnv (pointAt s.depth) .all

/-- The points of a service operation of the script. -/
def State.serviceEnv (s : State) : Env := Machine.serviceEnv (pointAt s.depth) .all

/-- The points of an immediate phase of the script. -/
def State.immEnv (s : State) : Env := Machine.immEnv (pointAt s.depth) .all

/-- The point between two commands of a script, where any agent may step (60_exceptions.md R178; log 8). -/
def betweenCommands : Point := fun s => pointAt s.depth .all s

end Sys2Proof.Machine
end

