-- ==== Sys2Proof/Machine/Meanings.lean ====
section
/-! DEFINITION. The meaning of each operation of the opcode table (30_encoding.md R63), family by family: its
operand checks (R65), its operation with the points of its agent, and its result. -/

namespace Sys2Proof.Machine

/-- An operation that answers a value: a natural number. -/
def withValue (r : Except Fault (Nat × State)) : Except Fault (Result × State) :=
  r.map fun x => (.value x.1, x.2)

/-! ### Register access (40_register_access.md) -/

/-- `REG.RD off, width` (R74). -/
def execRegRd (off width : Byte) (s : State) : Host.Outcome State Fault Refusal :=
  complete do
    let t ← s.serviceEnv.raw s
    let (v, t) ← memRead off width.toNat t
    .ok (.value v.toNat, t)

/-- `REG.WR off, v` (R75). -/
def execRegWr (off v : Byte) (s : State) : Host.Outcome State Fault Refusal :=
  completeOk do
    let t ← s.serviceEnv.raw s
    memWrite off v t

/-- `REG.RDX sel, sv, off` (R76): two accesses as written, whatever selects what (R76, corner cases), with no
service or host step between them (20_memory.md R53). -/
def execRegRdx (sel sv off : Byte) (s : State) : Host.Outcome State Fault Refusal :=
  complete do
    let t ← s.serviceEnv.raw s
    let t ← memWrite sel sv t
    let (v, t) ← memRead off (widthOf off) (linePoint t)
    .ok (.value v.toNat, t)

/-- `REG.WRX sel, sv, off, v` (R77). -/
def execRegWrx (sel sv off v : Byte) (s : State) : Host.Outcome State Fault Refusal :=
  completeOk do
    let t ← s.serviceEnv.raw s
    let t ← memWrite sel sv t
    memWrite off v (linePoint t)

/-- `REG.WRB off, v` (R78). -/
def execRegWrb (off v : Byte) (s : State) : Host.Outcome State Fault Refusal :=
  let pt := s.serviceEnv.raw
  completeOk (betweenWaits pt off (fun t => do memWrite off v (← pt t)) s)

/-- `REG.RDS off` (R79): only `F_CNT` and `Z_CNT` may be read so. -/
def execRegRds (off : Byte) (s : State) : Host.Outcome State Fault Refusal :=
  complete
    (if off = 0x08 then do
      let (v, t) ← rds s.serviceEnv.raw .fCnt s
      .ok (.value v.toNat, t)
    else if off = 0x18 then do
      let (v, t) ← rds s.serviceEnv.raw .zCnt s
      .ok (.value v.toNat, t)
    else .error .badOperand)

/-- `LINE.BUSY b` (R82). -/
def execLineBusy (b : Byte) (s : State) : Host.Outcome State Fault Refusal :=
  completeOk (enabledOnly (lineBusyStep b s))

/-! ### Flow mapper (41_flow_mapper.md) -/

/-- `FIFO.SEL f, dir` (R92). -/
def execFifoSel (f dir : Byte) (s : State) : Host.Outcome State Fault Refusal :=
  completeOk do
    let n ← fifoArg f s
    let d ← dirArg dir
    fifoSelOp s.serviceEnv n d s

/-- `FIFO.RESET f, dir` (R93). -/
def execFifoReset (f dir : Byte) (s : State) : Host.Outcome State Fault Refusal :=
  completeOk do
    let n ← fifoArg f s
    let d ← dirArg dir
    fifoResetOp s.serviceEnv n d s

/-- `FIFO.IRQ f, dir, en` (R94). -/
def execFifoIrq (f dir en : Byte) (s : State) : Host.Outcome State Fault Refusal :=
  completeOk do
    let n ← fifoArg f s
    let d ← dirArg dir
    let e ← boolArg en
    fifoIrqOp s.serviceEnv n d e s

/-- `FM.MAPB p, bchan` (R95). -/
def execFmMapb (a bchan : Byte) (s : State) : Host.Outcome State Fault Refusal :=
  completeOk (onBearer (mapBearer s.hostEnv) a bchan s)

/-- `FM.MAPD p` (R96). -/
def execFmMapd (a : Byte) (s : State) : Host.Outcome State Fault Refusal :=
  completeOk (onPort (mapSignalling s.hostEnv) a s)

/-- `FM.MAPALL` (R97). -/
def execFmMapall (s : State) : Host.Outcome State Fault Refusal := completeOk (mapAll s.hostEnv s)

/-! ### S/T line state (42_st_state_machine.md) -/

/-- `ST.OBSERVE p` (R106). -/
def execStObserve (a : Byte) (s : State) : Host.Outcome State Fault Refusal :=
  completeOk (onPort (observe s.serviceEnv.raw) a s)

/-- `ST.FORCE p, code, resume` (R109). -/
def execStForce (a code resume : Byte) (s : State) : Host.Outcome State Fault Refusal :=
  completeOk do
    let p ← portArg a s
    let r ← boolArg resume
    forceState s.serviceEnv.raw p code.toNat r s

/-- `ST.START p` (R111). -/
def execStStart (a : Byte) (s : State) : Host.Outcome State Fault Refusal :=
  completeOk (onPort (startSpan s.hostEnv) a s)

/-- `ST.STOP p` (R112). -/
def execStStop (a : Byte) (s : State) : Host.Outcome State Fault Refusal :=
  completeOk (onPort (fun p s => .ok (stopSpan p s)) a s)

/-- `ST.SWEEP` (R113). -/
def execStSweep (s : State) : Host.Outcome State Fault Refusal := completeOk (sweep s.serviceEnv s)

/-- `ST.POLL` (R116). -/
def execStPoll (s : State) : Host.Outcome State Fault Refusal := completeOk (pollPorts s.serviceEnv s)

/-- `ST.SYNCSEL` (R117). -/
def execStSyncsel (s : State) : Host.Outcome State Fault Refusal :=
  completeOk (syncSelect s.serviceEnv.raw s)

/-- `ST.SETPRIO p, prio` (R118). -/
def execStSetprio (p prio : Byte) (s : State) : Host.Outcome State Fault Refusal :=
  complete (setPriority s.hostEnv p.toNat prio.toNat s)

/-- `LINE.STATE p, b` (R102). -/
def execLineState (p b : Byte) (s : State) : Host.Outcome State Fault Refusal :=
  completeOk (enabledOnly (lineStateStep p b s))

/-! ### HDLC framer (43_hdlc_framer.md) -/

/-- `HDLC.ATTACH p` (R133). -/
def execHdlcAttach (a : Byte) (s : State) : Host.Outcome State Fault Refusal :=
  completeOk (onPort (attachOp s.hostEnv) a s)

/-- `HDLC.DETACH p` (R134). -/
def execHdlcDetach (a : Byte) (s : State) : Host.Outcome State Fault Refusal :=
  completeOk (onPort (detachOp s.hostEnv) a s)

/-- `HDLC.SUBMIT p, frame` (R137). -/
def execHdlcSubmit (a : Byte) (frame : List Byte) (s : State) : Host.Outcome State Fault Refusal :=
  completeOk (onPort (submitOp frame) a s)

/-- `HDLC.RXFRAME p` (R135): the result is the frames remaining. -/
def execHdlcRxframe (a : Byte) (s : State) : Host.Outcome State Fault Refusal :=
  complete (withValue ((onPort (rxPass false s.serviceEnv) a s).map fun x => (x.1.2, x.2)))

/-- `HDLC.RXDRAIN p` (R136): the result is the frames drained. -/
def execHdlcRxdrain (a : Byte) (s : State) : Host.Outcome State Fault Refusal :=
  complete (withValue (onPort (rxDrain s.serviceEnv) a s))

/-- `HDLC.TXCHUNK p` (R139): the result is 1 if more work remains for the current frame. -/
def execHdlcTxchunk (a : Byte) (s : State) : Host.Outcome State Fault Refusal :=
  complete (withValue ((onPort (txChunk s.serviceEnv) a s).map fun x => (x.1.toNat, x.2)))

/-- `HDLC.TXDRAIN p` (R141): the result is the passes made. -/
def execHdlcTxdrain (a : Byte) (s : State) : Host.Outcome State Fault Refusal :=
  complete (withValue (onPort (txDrain s.serviceEnv) a s))

/-- `LINE.RXFRAME f, bytes` (R131). -/
def execLineRxframe (f : Byte) (bytes : List Byte) (s : State) : Host.Outcome State Fault Refusal :=
  completeOk (enabledOnly (lineRxframeStep f bytes s))

/-- `LINE.TXTAKE f` (R132). -/
def execLineTxtake (f : Byte) (s : State) : Host.Outcome State Fault Refusal :=
  completeOk (enabledOnly (lineTxtakeStep f s))

/-! ### Bearer pump (44_bearer_pump.md) -/

/-- `BP.XCHG p, bchan` (R161): the result is 1 if a chunk was exchanged. -/
def execBpXchg (a bchan : Byte) (s : State) : Host.Outcome State Fault Refusal :=
  complete (withValue ((onBearer (exchange s.serviceEnv) a bchan s).map fun x => (x.1.toNat, x.2)))

/-- `BP.PUMP` (R162): the result is 1 if any exchange occurred. -/
def execBpPump (s : State) : Host.Outcome State Fault Refusal :=
  complete (withValue ((pump s.serviceEnv s).map fun x => (x.1.toNat, x.2)))

/-- `HOST.TXBUF p, bchan, bytes` (R164). -/
def execHostTxbuf (a bchan : Byte) (bytes : List Byte) (s : State) : Host.Outcome State Fault Refusal :=
  completeOk (onBearer (txbufOp bytes) a bchan s)

/-- `LINE.BRX f, bytes` (R165). -/
def execLineBrx (f : Byte) (bytes : List Byte) (s : State) : Host.Outcome State Fault Refusal :=
  completeOk (enabledOnly (lineBrxStep f bytes s))

/-- `LINE.BTXTAKE f, n` (R166). -/
def execLineBtxtake (f n : Byte) (s : State) : Host.Outcome State Fault Refusal :=
  completeOk (enabledOnly (lineBtxtakeStep f n s))

/-- `EC.REQ p, ch, nparams` (R167). -/
def execEcReq (a ch nparams : Byte) (s : State) : Host.Outcome State Fault Refusal :=
  complete (onPort (ecRequest ch nparams) a s)

/-- `LINE.FIFOIRQ f, dir` (R168). -/
def execLineFifoirq (f dir : Byte) (s : State) : Host.Outcome State Fault Refusal :=
  completeOk (enabledOnly (lineFifoirqStep f dir s))

/-! ### Tick and interrupt (60_exceptions.md) -/

/-- `TICK` (R171). -/
def execTick (s : State) : Host.Outcome State Fault Refusal := completeOk (enabledOnly (tickStep s))

/-- `IRQ.IMM` (R173). -/
def execIrqImm (s : State) : Host.Outcome State Fault Refusal :=
  complete ((immediatePhase s.immEnv s).map fun x => (irqResult x.1, x.2))

/-- `IRQ.DEF` (R175). -/
def execIrqDef (s : State) : Host.Outcome State Fault Refusal := completeOk (deferredPhase s.serviceEnv s)

/-- `IRQ` (R178). -/
def execIrq (s : State) : Host.Outcome State Fault Refusal :=
  complete ((interrupt s.immEnv s.serviceEnv s).map fun x => (irqResult x.1, x.2))

/-! ### Reset, start, stop (70_reset_and_hazards.md) -/

/-- `CARD.RESET` (R200): it cannot fail. -/
def execCardReset (s : State) : Host.Outcome State Fault Refusal := completeOk (.ok (resetCard s))

/-- `CARD.START` (R203). -/
def execCardStart (s : State) : Host.Outcome State Fault Refusal := completeOk (startCard s.hostEnv.free s)

/-- `CARD.STOP` (R204). -/
def execCardStop (s : State) : Host.Outcome State Fault Refusal := completeOk (stopCard s.hostEnv.free s)

end Sys2Proof.Machine
end

