-- ==== Sys2Proof/Machine/Dispatch.lean ====
section
/-! DEFINITION. One arm per operation of the opcode table (30_encoding.md R63), each one call of its meaning. -/

namespace Sys2Proof.Machine

/-- The meaning of a command (30_encoding.md R63): the card after it, its result appended to the results of
the script; or the `ModelFault` it raises. The script index is advanced by `step`. -/
def exec (i : Instr) (s : State) : Host.Outcome State Fault Refusal :=
  match i with
  | .regRd a b => Sys2Proof.Machine.execRegRd a b s
  | .regWr a c => Sys2Proof.Machine.execRegWr a c s
  | .regRdx a b c => Sys2Proof.Machine.execRegRdx a b c s
  | .regWrx a b c v => Sys2Proof.Machine.execRegWrx a b c v s
  | .regWrb a c => Sys2Proof.Machine.execRegWrb a c s
  | .regRds a => Sys2Proof.Machine.execRegRds a s
  | .lineBusy a => Sys2Proof.Machine.execLineBusy a s
  | .fifoSel a b => Sys2Proof.Machine.execFifoSel a b s
  | .fifoReset a b => Sys2Proof.Machine.execFifoReset a b s
  | .fifoIrq a b c => Sys2Proof.Machine.execFifoIrq a b c s
  | .fmMapb a b => Sys2Proof.Machine.execFmMapb a b s
  | .fmMapd a => Sys2Proof.Machine.execFmMapd a s
  | .fmMapall => Sys2Proof.Machine.execFmMapall s
  | .stObserve a => Sys2Proof.Machine.execStObserve a s
  | .stForce a b c => Sys2Proof.Machine.execStForce a b c s
  | .stStart a => Sys2Proof.Machine.execStStart a s
  | .stStop a => Sys2Proof.Machine.execStStop a s
  | .stSweep => Sys2Proof.Machine.execStSweep s
  | .stPoll => Sys2Proof.Machine.execStPoll s
  | .stSyncsel => Sys2Proof.Machine.execStSyncsel s
  | .stSetprio a b => Sys2Proof.Machine.execStSetprio a b s
  | .lineState a b => Sys2Proof.Machine.execLineState a b s
  | .hdlcAttach a => Sys2Proof.Machine.execHdlcAttach a s
  | .hdlcDetach a => Sys2Proof.Machine.execHdlcDetach a s
  | .hdlcSubmit a bytes => Sys2Proof.Machine.execHdlcSubmit a bytes s
  | .hdlcRxframe a => Sys2Proof.Machine.execHdlcRxframe a s
  | .hdlcRxdrain a => Sys2Proof.Machine.execHdlcRxdrain a s
  | .hdlcTxchunk a => Sys2Proof.Machine.execHdlcTxchunk a s
  | .hdlcTxdrain a => Sys2Proof.Machine.execHdlcTxdrain a s
  | .lineRxframe a bytes => Sys2Proof.Machine.execLineRxframe a bytes s
  | .lineTxtake a => Sys2Proof.Machine.execLineTxtake a s
  | .bpXchg a b => Sys2Proof.Machine.execBpXchg a b s
  | .bpPump => Sys2Proof.Machine.execBpPump s
  | .hostTxbuf a b bytes => Sys2Proof.Machine.execHostTxbuf a b bytes s
  | .lineBrx a bytes => Sys2Proof.Machine.execLineBrx a bytes s
  | .lineBtxtake a b => Sys2Proof.Machine.execLineBtxtake a b s
  | .ecReq a b c => Sys2Proof.Machine.execEcReq a b c s
  | .lineFifoirq a b => Sys2Proof.Machine.execLineFifoirq a b s
  | .tick => Sys2Proof.Machine.execTick s
  | .irqImm => Sys2Proof.Machine.execIrqImm s
  | .irqDef => Sys2Proof.Machine.execIrqDef s
  | .irq => Sys2Proof.Machine.execIrq s
  | .cardReset => Sys2Proof.Machine.execCardReset s
  | .cardStart => Sys2Proof.Machine.execCardStart s
  | .cardStop => Sys2Proof.Machine.execCardStop s

end Sys2Proof.Machine
end

