-- ==== Sys2Proof/WellFormed.lean ====
section
/-! DEFINITION. Which terms of Instr an encoding exists for: the byte count of a payload must fit its
field (30_encoding.md R60, R61). Operand bytes are of any value (R65). -/

namespace Sys2Proof

/-- `i` can be encoded: the payload of a format `P` command has at most 65535 bytes, that of the format
`PB` command at most 255 (30_encoding.md R61: `N` is 16 bits in format `P`, 8 bits in format `PB`). -/
def Instr.wellFormed : Instr → Bool
  | .hdlcSubmit _ frame => decide (frame.length < 65536)
  | .lineRxframe _ bytes => decide (bytes.length < 65536)
  | .lineBrx _ bytes => decide (bytes.length < 65536)
  | .hostTxbuf _ _ bytes => decide (bytes.length < 256)
  | _ => true

end Sys2Proof
end

