-- ==== Sys2Proof/Decode.lean ====
section
/-! DEFINITION. The command-word encoding of 30_encoding.md: the opcode table (R63), the total decoder
(R60 to R64), the encoder, and the host's `decodeTableWord`. -/

namespace Sys2Proof

/-- The eight formats of 30_encoding.md R60. -/
inductive Format where
  | n
  | a
  | ab
  | abc
  | ac
  | x
  | p
  | pb
deriving DecidableEq, Repr

/-- The operands a command word and its further words carry (30_encoding.md R60, R61). -/
structure Operands where
  a : Byte := 0
  b : Byte := 0
  c : Byte := 0
  v : Byte := 0
  payload : List Byte := []
deriving DecidableEq, Repr

/-- Why a command is illegal (30_encoding.md R64); each is executed as `ModelFault(ILLEGAL_OP)`. -/
inductive DecodeError where
  /-- there is no word at the index -/
  | noWord
  /-- `OP` is not in the table of R63 -/
  | unknownOpcode
  /-- a must-be-zero field of word 0 is not zero -/
  | nonzeroField
  /-- the second word of format `X` has a 1 in bits 31:8 -/
  | secondWord
  /-- the script ends inside the command -/
  | truncated
  /-- a padding byte of the last payload word is not zero -/
  | padding
deriving DecidableEq, Repr

/-- One row of the opcode table: opcode, mnemonic, format, and which operand goes where. -/
abbrev OpRow := Byte × String × Format × (Operands → Instr)

/-- The rows of register access (0x0x) (30_encoding.md R63). -/
def opRowsAccess : List OpRow := [
  (0x01, "REG.RD", .ab, fun o => .regRd o.a o.b),
  (0x02, "REG.WR", .ac, fun o => .regWr o.a o.c),
  (0x03, "REG.RDX", .abc, fun o => .regRdx o.a o.b o.c),
  (0x04, "REG.WRX", .x, fun o => .regWrx o.a o.b o.c o.v),
  (0x05, "REG.WRB", .ac, fun o => .regWrb o.a o.c),
  (0x06, "REG.RDS", .a, fun o => .regRds o.a),
  (0x07, "LINE.BUSY", .a, fun o => .lineBusy o.a)]

/-- The rows of flow mapper (0x1x) (30_encoding.md R63). -/
def opRowsMapper : List OpRow := [
  (0x10, "FIFO.SEL", .ab, fun o => .fifoSel o.a o.b),
  (0x11, "FIFO.RESET", .ab, fun o => .fifoReset o.a o.b),
  (0x12, "FIFO.IRQ", .abc, fun o => .fifoIrq o.a o.b o.c),
  (0x13, "FM.MAPB", .ab, fun o => .fmMapb o.a o.b),
  (0x14, "FM.MAPD", .a, fun o => .fmMapd o.a),
  (0x15, "FM.MAPALL", .n, fun _ => .fmMapall)]

/-- The rows of S/T state machine (0x2x) (30_encoding.md R63). -/
def opRowsState : List OpRow := [
  (0x20, "ST.OBSERVE", .a, fun o => .stObserve o.a),
  (0x21, "ST.FORCE", .abc, fun o => .stForce o.a o.b o.c),
  (0x22, "ST.START", .a, fun o => .stStart o.a),
  (0x23, "ST.STOP", .a, fun o => .stStop o.a),
  (0x24, "ST.SWEEP", .n, fun _ => .stSweep),
  (0x25, "ST.POLL", .n, fun _ => .stPoll),
  (0x26, "ST.SYNCSEL", .n, fun _ => .stSyncsel),
  (0x27, "ST.SETPRIO", .ab, fun o => .stSetprio o.a o.b),
  (0x28, "LINE.STATE", .ab, fun o => .lineState o.a o.b)]

/-- The rows of HDLC framer (0x3x) (30_encoding.md R63). -/
def opRowsFramer : List OpRow := [
  (0x30, "HDLC.ATTACH", .a, fun o => .hdlcAttach o.a),
  (0x31, "HDLC.DETACH", .a, fun o => .hdlcDetach o.a),
  (0x32, "HDLC.SUBMIT", .p, fun o => .hdlcSubmit o.a o.payload),
  (0x33, "HDLC.RXFRAME", .a, fun o => .hdlcRxframe o.a),
  (0x34, "HDLC.RXDRAIN", .a, fun o => .hdlcRxdrain o.a),
  (0x35, "HDLC.TXCHUNK", .a, fun o => .hdlcTxchunk o.a),
  (0x36, "HDLC.TXDRAIN", .a, fun o => .hdlcTxdrain o.a),
  (0x37, "LINE.RXFRAME", .p, fun o => .lineRxframe o.a o.payload),
  (0x38, "LINE.TXTAKE", .a, fun o => .lineTxtake o.a)]

/-- The rows of bearer pump (0x4x) (30_encoding.md R63). -/
def opRowsBearer : List OpRow := [
  (0x40, "BP.XCHG", .ab, fun o => .bpXchg o.a o.b),
  (0x41, "BP.PUMP", .n, fun _ => .bpPump),
  (0x42, "HOST.TXBUF", .pb, fun o => .hostTxbuf o.a o.b o.payload),
  (0x43, "LINE.BRX", .p, fun o => .lineBrx o.a o.payload),
  (0x44, "LINE.BTXTAKE", .ab, fun o => .lineBtxtake o.a o.b),
  (0x45, "EC.REQ", .abc, fun o => .ecReq o.a o.b o.c),
  (0x46, "LINE.FIFOIRQ", .ab, fun o => .lineFifoirq o.a o.b)]

/-- The rows of tick, interrupt and reset (0x5x, 0x7x) (30_encoding.md R63). -/
def opRowsCore : List OpRow := [
  (0x50, "TICK", .n, fun _ => .tick),
  (0x51, "IRQ.IMM", .n, fun _ => .irqImm),
  (0x52, "IRQ.DEF", .n, fun _ => .irqDef),
  (0x53, "IRQ", .n, fun _ => .irq),
  (0x70, "CARD.RESET", .n, fun _ => .cardReset),
  (0x71, "CARD.START", .n, fun _ => .cardStart),
  (0x72, "CARD.STOP", .n, fun _ => .cardStop)]

/-- The opcode map of 30_encoding.md R63, 45 rows. -/
def opTable : List OpRow :=
  opRowsAccess ++ opRowsMapper ++ opRowsState ++ opRowsFramer ++ opRowsBearer ++ opRowsCore

/-- The row of an opcode, if the table has one. -/
def opRow (op : Byte) : Option OpRow := opTable.find? fun r => r.1 == op

/-- Bits 31:24 of word 0, the opcode (30_encoding.md R60). -/
def fieldOp (w : Word) : Byte := w.extractLsb' 24 8

/-- Bits 23:16 of word 0, operand `A`. -/
def fieldA (w : Word) : Byte := w.extractLsb' 16 8

/-- Bits 15:8 of word 0, operand `B`. -/
def fieldB (w : Word) : Byte := w.extractLsb' 8 8

/-- Bits 7:0 of word 0, operand `C`; of the second word of format `X`, operand `V`. -/
def fieldC (w : Word) : Byte := w.extractLsb' 0 8

/-- The bits of word 0 that a format says must be 0 (30_encoding.md R60). -/
def Format.mustBeZero : Format → Word
  | .n => 0x00FFFFFF
  | .a => 0x0000FFFF
  | .ab => 0x000000FF
  | .ac => 0x0000FF00
  | .abc | .x | .p | .pb => 0

/-- The byte count `N` of word 0: 16 bits in format `P`, 8 bits in format `PB`, else none
(30_encoding.md R61). -/
def Format.byteCount (fmt : Format) (w : Word) : Nat :=
  match fmt with
  | .p => (w.extractLsb' 0 16).toNat
  | .pb => (w.extractLsb' 0 8).toNat
  | _ => 0

/-- `ceil(n / 4)`, the payload words of `n` bytes (30_encoding.md R62). -/
def payloadWords (n : Nat) : Nat := (n + 3) / 4

/-- The length of a command in words, decided by its opcode and `N` alone (30_encoding.md R62). -/
def Format.words (fmt : Format) (w : Word) : Nat :=
  match fmt with
  | .x => 2
  | .p | .pb => 1 + payloadWords (fmt.byteCount w)
  | _ => 1

/-- The four bytes of a payload word, the byte in bits 7:0 first (30_encoding.md R61). -/
def wordBytes (w : Word) : List Byte :=
  [w.extractLsb' 0 8, w.extractLsb' 8 8, w.extractLsb' 16 8, w.extractLsb' 24 8]

/-- Payload bytes packed four to a word, little-endian, the last word padded with 0
(30_encoding.md R61). -/
def packBytes : List Byte → List Word
  | [] => []
  | [b0] => [(0#24) ++ b0]
  | [b0, b1] => [(0#16) ++ b1 ++ b0]
  | [b0, b1, b2] => [(0#8) ++ b2 ++ b1 ++ b0]
  | b0 :: b1 :: b2 :: b3 :: rest => (b3 ++ b2 ++ b1 ++ b0) :: packBytes rest

/-- The `n` payload bytes that the words after word 0 hold, or why they are illegal
(30_encoding.md R61, R64). -/
def takePayload (n : Nat) (ws : List Word) : Except DecodeError (List Byte) :=
  let ps := ws.take (payloadWords n)
  let bytes := ps.flatMap wordBytes
  if ps.length < payloadWords n then .error .truncated
  else if (bytes.drop n).all (fun b => b == 0) then .ok (bytes.take n)
  else .error .padding

/-- The operands of a command of format `fmt`: those of word 0, and those of the words after it. -/
def takeOperands (fmt : Format) (w : Word) (rest : List Word) : Except DecodeError Operands :=
  match fmt with
  | .x =>
    match rest with
    | [] => .error .truncated
    | w1 :: _ =>
      if w1.extractLsb' 8 24 = 0 then
        .ok { a := fieldA w, b := fieldB w, c := fieldC w, v := fieldC w1 }
      else .error .secondWord
  | .p | .pb =>
    match takePayload (fmt.byteCount w) rest with
    | .ok bytes => .ok { a := fieldA w, b := fieldB w, payload := bytes }
    | .error e => .error e
  | _ => .ok { a := fieldA w, b := fieldB w, c := fieldC w }

/-- The command at the head of a list of words and its length in words, or why it is illegal
(30_encoding.md R60 to R64). Total; operands out of range for the card are no encoding error (R65). -/
def decode : List Word → Except DecodeError (Instr × Nat)
  | [] => .error .noWord
  | w :: rest =>
    match opRow (fieldOp w) with
    | none => .error .unknownOpcode
    | some (_, _, fmt, build) =>
      if w &&& fmt.mustBeZero = 0 then
        match takeOperands fmt w rest with
        | .ok o => .ok (build o, fmt.words w)
        | .error e => .error e
      else .error .nonzeroField

/-- A command of format `N` (30_encoding.md R60). -/
def wordN (op : Byte) : List Word := [op ++ (0#24)]

/-- A command of format `A`. -/
def wordA (op a : Byte) : List Word := [op ++ a ++ (0#16)]

/-- A command of format `AB`. -/
def wordAB (op a b : Byte) : List Word := [op ++ a ++ b ++ (0#8)]

/-- A command of format `AC`. -/
def wordAC (op a c : Byte) : List Word := [op ++ a ++ (0#8) ++ c]

/-- A command of format `ABC`. -/
def wordABC (op a b c : Byte) : List Word := [op ++ a ++ b ++ c]

/-- A command of format `X`. -/
def wordX (op a b c v : Byte) : List Word := [op ++ a ++ b ++ c, (0#24) ++ v]

/-- A command of format `P`. -/
def wordP (op a : Byte) (bytes : List Byte) : List Word :=
  (op ++ a ++ BitVec.ofNat 16 bytes.length) :: packBytes bytes

/-- A command of format `PB`. -/
def wordPB (op a b : Byte) (bytes : List Byte) : List Word :=
  (op ++ a ++ b ++ BitVec.ofNat 8 bytes.length) :: packBytes bytes

/-- The words of an instruction (30_encoding.md R60, R61, R63). -/
def encode : Instr → List Word
  | .regRd a b => wordAB 0x01 a b
  | .regWr a c => wordAC 0x02 a c
  | .regRdx a b c => wordABC 0x03 a b c
  | .regWrx a b c v => wordX 0x04 a b c v
  | .regWrb a c => wordAC 0x05 a c
  | .regRds a => wordA 0x06 a
  | .lineBusy a => wordA 0x07 a
  | .fifoSel a b => wordAB 0x10 a b
  | .fifoReset a b => wordAB 0x11 a b
  | .fifoIrq a b c => wordABC 0x12 a b c
  | .fmMapb a b => wordAB 0x13 a b
  | .fmMapd a => wordA 0x14 a
  | .fmMapall => wordN 0x15
  | .stObserve a => wordA 0x20 a
  | .stForce a b c => wordABC 0x21 a b c
  | .stStart a => wordA 0x22 a
  | .stStop a => wordA 0x23 a
  | .stSweep => wordN 0x24
  | .stPoll => wordN 0x25
  | .stSyncsel => wordN 0x26
  | .stSetprio a b => wordAB 0x27 a b
  | .lineState a b => wordAB 0x28 a b
  | .hdlcAttach a => wordA 0x30 a
  | .hdlcDetach a => wordA 0x31 a
  | .hdlcSubmit a bytes => wordP 0x32 a bytes
  | .hdlcRxframe a => wordA 0x33 a
  | .hdlcRxdrain a => wordA 0x34 a
  | .hdlcTxchunk a => wordA 0x35 a
  | .hdlcTxdrain a => wordA 0x36 a
  | .lineRxframe a bytes => wordP 0x37 a bytes
  | .lineTxtake a => wordA 0x38 a
  | .bpXchg a b => wordAB 0x40 a b
  | .bpPump => wordN 0x41
  | .hostTxbuf a b bytes => wordPB 0x42 a b bytes
  | .lineBrx a bytes => wordP 0x43 a bytes
  | .lineBtxtake a b => wordAB 0x44 a b
  | .ecReq a b c => wordABC 0x45 a b c
  | .lineFifoirq a b => wordAB 0x46 a b
  | .tick => wordN 0x50
  | .irqImm => wordN 0x51
  | .irqDef => wordN 0x52
  | .irq => wordN 0x53
  | .cardReset => wordN 0x70
  | .cardStart => wordN 0x71
  | .cardStop => wordN 0x72

/-- The words of a command whose bits are `w` as spec/opcode_table.json numbers them: bit 0 is the least
significant bit of the first word, each later word's bits count on from it, and every bit at `nbits` and
above is 0. As many words as the command is long. -/
def tableWords (nbits w : Nat) : List Word :=
  let bits := w % 2 ^ nbits
  let w0 : Word := BitVec.ofNat 32 bits
  let len := match opRow (fieldOp w0) with
    | some (_, _, fmt, _) => fmt.words w0
    | none => 1
  (List.range len).map fun i => BitVec.ofNat 32 (bits >>> (32 * i))

/-- What the decoder reads from a command whose bits are `w`, as the opcode table numbers them. -/
def decodeTableWord (nbits w : Nat) : Option Instr :=
  match decode (tableWords nbits w) with
  | .ok (i, _) => some i
  | .error _ => none

end Sys2Proof
end

