-- ==== Sys2Proof/Machine/Fetch.lean ====
section
/-! DEFINITION. The script of a scripted run (10_state.md R17): the command at the script index, the index
moved past a command, and a command placed at the index. -/

namespace Sys2Proof.Machine

/-- The command at the script index and its length in words, or why there is none (10_state.md R17,
30_encoding.md R64). -/
def fetch (s : State) : Except DecodeError (Instr × Nat) := decode (s.script.words.drop s.script.pc)

/-- The script index advanced by a command's length in words (10_state.md R17). -/
def advance (n : Nat) (s : State) : State :=
  { s with script := { s.script with pc := s.script.pc + n } }

/-- The script with the words `ws` standing from the script index on, whatever stood there. -/
def placeAtPc (ws : List Word) (sc : Script) : Script :=
  { sc with
    words := sc.words.take sc.pc ++ List.replicate (sc.pc - sc.words.length) 0 ++ ws ++
      sc.words.drop (sc.pc + ws.length) }

end Sys2Proof.Machine
end

