-- ==== Sys2Proof/Machine/Step.lean ====
section
/-! DEFINITION. One step: one command of the script (10_state.md R17). -/

namespace Sys2Proof.Machine

/-- One step: the command at the script index. `ILLEGAL_OP` if the words there are no command (30_encoding.md
R64), a refusal if the script has ended (10_state.md R17); else the point between two commands, where other
agents may step (60_exceptions.md R178; log 8; nothing happens there in a scripted run), the command's
meaning, and the index moved past it. -/
def step (s : State) : Host.Outcome State Fault Refusal :=
  match fetch s with
  | .error .noWord => .refused .scriptEnded
  | .error _ => .fault .illegalOp
  | .ok (i, n) =>
    match betweenCommands s with
    | .error e => .fault e
    | .ok u =>
      match exec i u with
      | .next t => .next (advance n t)
      | .fault r => .fault r
      | .refused r => .refused r

/-- `s` with the command whose bits are `w`, numbered as the opcode table numbers them, standing where
`step` fetches its next command. -/
def State.withFetchWord (s : State) (nbits w : Nat) : State :=
  { s with script := placeAtPc (tableWords nbits w) s.script }

end Sys2Proof.Machine
end

