-- ==== Sys2Proof/Safety.lean ====
section
/-! DEFINITION. The terms statements about the machine use: how a completed command leaves the script, when a
run is scripted and the hardware not busy, and the invariants of a good state. -/

namespace Sys2Proof.Machine

/-- `s` with the result `v` appended to the results of the script (30_encoding.md R63). -/
def State.answered (s : State) (v : Result) : State :=
  { s with script := { s.script with results := s.script.results ++ [v] } }

/-- `s` with FIFO `(f, d)` selected (10_state.md R30). -/
def State.select (s : State) (f : Nat) (d : Dir) : State :=
  s.modHw fun h => { h with fifoSel := selByte f d }

/-- The operand byte of a direction: 0 = TX, 1 = RX (30_encoding.md R61). -/
def Dir.code : Dir → Byte
  | .tx => 0
  | .rx => 1

/-- The events a received frame of port `p` is reported by: its payload unless empty, then one verdict
(43_hdlc_framer.md R135, R142 to R144). -/
def frameEvents (cap p : Nat) (fr : Frame) : List HostEvent :=
  let payload := if cap < fr.length then fr.take cap else fr.dropLast
  (if payload = [] then [] else [.rxPush p payload]) ++
  [if fr.length < 3 ∨ cap < fr.length then .rxAbort p
   else if fr.getLast? = some 0x00 then .rxFinish p
   else if fr.getLast? = some 0xFF then .rxAbort p
   else .rxBadFcs p]

/-- The warning a received frame is logged by, if it is truncated (43_hdlc_framer.md R143). -/
def frameWarnings (cap p : Nat) (fr : Frame) : List DiagEvent :=
  if cap < fr.length then [.rxTruncated p fr.length] else []

/-! ### What steps when -/

/-- No other agent steps inside a command (40_register_access.md R78: "in a scripted run no other agent
steps inside a command"; log 7, log 8). -/
abbrev State.scripted (s : State) : Prop := s.sched = []

/-- A scripted state in which the hardware is not busy: no write can be dropped and no wait can time out
(40_register_access.md R78, R81). -/
abbrev State.quiet (s : State) : Prop := s.sched = [] ∧ s.hw.busy = false

/-- No agent issues the operation `i` inside a command: the schedule does not hold it. -/
abbrev State.neverIssues (s : State) (i : Instr) : Prop := ∀ es ∈ s.sched, EnvStep.issue i ∉ es

/-! ### Invariants -/

/-- `MODE[p]` of a configuration. -/
def strappedMode (c : Config) (p : Nat) : Mode := c.mode[p]?.getD default

/-- The configurations are in range, and what is derived from the one in force stays in range: the modes are
the strapped ones (10_state.md R13), priorities and the synchronization source name ports of the card
(42_st_state_machine.md R117, R118). -/
abbrev State.configured (s : State) : Prop :=
  s.cfg.valid = true ∧ s.strap.valid = true ∧
  (∀ p < 8, (s.port p).mode = strappedMode s.cfg p) ∧
  (∀ p < 8, (s.port p).syncPrio ≤ s.nports) ∧
  (s.card.syncsrc = .auto ∨ ∃ p < s.nports, s.card.syncsrc = .port p)

/-- T1 and T3 are mutually exclusive on every port and T2 is never armed (10_state.md R16 (b)). -/
abbrev State.timersExclusive (s : State) : Prop :=
  ∀ p < 8, ¬ ((s.port p).t1On = true ∧ (s.port p).t3On = true) ∧ (s.port p).t2On = false

/-- T1 is armed on NT ports only and T3 on TE ports only (42_st_state_machine.md R105, R113). -/
abbrev State.timersByMode (s : State) : Prop :=
  ∀ p < 8, ((s.port p).t1On = true → (s.port p).mode = .nt) ∧
    ((s.port p).t3On = true → (s.port p).mode = .te)

/-- The bits of one directional FIFO's control registers that must be 0 are 0 (10_state.md R35 to R37). -/
abbrev FifoRegs.reservedZero (c : FifoRegs) : Prop :=
  c.ctrl &&& 0xF8 = 0 ∧ c.chan &&& 0x60 = 0 ∧ c.slot &&& 0x40 = 0

/-- Every stored register has 0 in the bits that must be 0 (10_state.md R24 to R38), the state-change indicators of absent
ports among them (R25). -/
abbrev State.reservedZero (s : State) : Prop :=
  s.hw.stSel &&& 0xF8 = 0 ∧ s.hw.syncSel &&& 0xF0 = 0 ∧ s.hw.fifoSel &&& 0x60 = 0 ∧
  s.hw.tickCtrl &&& 0xFC = 0 ∧ s.hw.miscStat &&& 0xFD = 0 ∧ s.card.miscAcc &&& 0xFD = 0 ∧
  (∀ p < 8, s.nports ≤ p → s.hw.sci.getLsbD p = false) ∧
  ∀ f < 32, (s.fifo f).rxRegs.reservedZero ∧ (s.fifo f).txRegs.reservedZero

/-- A FIFO's storage is as 10_state.md R40 describes it: frames are not empty, the read position stands
inside the head frame or at its end, and the bounds `FIFO_DEPTH` (bytes) and `FMAX` (frames) hold. -/
abbrev Fifo.stored (depth fmax : Nat) (x : Fifo) : Prop :=
  (∀ fr ∈ x.rxq, fr ≠ []) ∧ (∀ fr ∈ x.txclosed, fr ≠ []) ∧
  x.rxpos ≤ (x.rxq.headD []).length ∧
  x.rxq.length ≤ fmax ∧ x.txclosed.length ≤ fmax ∧
  x.rxStored ≤ depth ∧ x.txStored ≤ depth

/-- Every FIFO's storage is well formed. -/
abbrev State.fifosStored (s : State) : Prop :=
  ∀ f < 32, (s.fifo f).stored s.cfg.fifoDepth s.cfg.fmax

/-- The outstanding-frame counter of a port is the count of frames its host has queued
(43_hdlc_framer.md R149), and the part of the head frame already pulled is less than the frame
(43_hdlc_framer.md R138). -/
abbrev State.backpressure (s : State) : Prop :=
  ∀ p < 8, (s.session p).pending = (s.hostPort p).txq.length ∧
    (∀ fr ∈ (s.hostPort p).txq, fr ≠ []) ∧
    ((s.hostPort p).txq = [] → (s.hostPort p).txoff = 0) ∧
    ((s.hostPort p).txq ≠ [] → (s.hostPort p).txoff < ((s.hostPort p).txq.headD []).length)

/-- Every host buffer of a bearer channel holds one chunk (10_state.md R19). -/
abbrev State.chunkBuffers (s : State) : Prop :=
  ∀ p < 8, (s.hostPort p).txbufB1.length = s.cfg.chunk ∧ (s.hostPort p).txbufB2.length = s.cfg.chunk ∧
    (s.hostPort p).rxbufB1.length = s.cfg.chunk ∧ (s.hostPort p).rxbufB2.length = s.cfg.chunk

/-- The alarm a port last reported upward, RED while it has reported none. -/
def lastAlarm (p : Nat) (log : List HostEvent) : Alarm :=
  log.foldl (fun a e => match e with | .alarm q v => if q = p then v else a | _ => a) .red

/-- The published alarm of every port is the one last reported to the host (42_st_state_machine.md R113). -/
abbrev State.alarmsReported (s : State) : Prop :=
  ∀ p < s.nports, (s.port p).alarm = lastAlarm p s.card.hostlog

/-- A good state. -/
abbrev State.good (s : State) : Prop :=
  s.configured ∧ s.timersExclusive ∧ s.timersByMode ∧ s.reservedZero ∧ s.fifosStored ∧ s.backpressure ∧
  s.chunkBuffers

end Sys2Proof.Machine
end

