-- ==== Sys2Proof/Certificates/Slice0/Obligations.lean ====
section
/-! DEFINITION. The statements about the machine, for the provers. Each docstring names the rules of spec/
that the statement formalises. A statement about the next state gives that state as an update of the state
before, so what the update does not name is unchanged. -/

section

open Sys2Proof Sys2Proof.Machine

/-! ### Encoding (30_encoding.md) -/

/-- The words of the examples of 30_encoding.md R66, 43_hdlc_framer.md R137 and 44_bearer_pump.md R164, and
one word of each other format, decode to the commands they stand for. -/
def Obligations.WrittenWordsDecode : Prop :=
  decode [0x07010000] = .ok (.lineBusy 1, 1) ∧
  decode [0x01180200] = .ok (.regRd 0x18 2, 1) ∧
  decode [0x020F0003] = .ok (.regWr 0x0F 0x03, 1) ∧
  decode [0x04030105, 0x00000013] = .ok (.regWrx 0x03 1 0x05 0x13, 2) ∧
  decode [0x15000000] = .ok (.fmMapall, 1) ∧
  decode [0x21010301] = .ok (.stForce 1 3 1, 1) ∧
  decode [0x32000003, 0x007F0102] = .ok (.hdlcSubmit 0 [0x02, 0x01, 0x7F], 2) ∧
  decode [0x42000008, 0x04030201, 0x08070605] = .ok (.hostTxbuf 0 0 [1, 2, 3, 4, 5, 6, 7, 8], 3) ∧
  decode [0x53000000] = .ok (.irq, 1) ∧
  decode [0x71000000] = .ok (.cardStart, 1)

/-- Decoding the words of a well-formed command gives the command back, whatever words follow, and its length
(30_encoding.md R60 to R63). -/
def Obligations.DecodeOfEncode : Prop :=
  ∀ (i : Instr) (rest : List Word), i.wellFormed = true →
    decode (encode i ++ rest) = .ok (i, (encode i).length)

/-- What decodes is the encoding of what it decodes to: no two encodings of one command, no bit ignored, and
the length is that of the words read (30_encoding.md R60 to R64). -/
def Obligations.EncodeOfDecode : Prop :=
  ∀ (ws : List Word) (i : Instr) (n : Nat), decode ws = .ok (i, n) →
    i.wellFormed = true ∧ n = (encode i).length ∧ n ≤ ws.length ∧ encode i = ws.take n

/-- Exactly the words 30_encoding.md R64 calls illegal do not decode: an opcode outside the table, a nonzero
must-be-zero field, a nonzero bit 31:8 of the second word of format X, a script that ends inside the command,
a nonzero padding byte. Executing them is `ILLEGAL_OP`. -/
def Obligations.IllegalCommandsFault : Prop :=
  ∀ (w : Word) (rest : List Word),
    let op := fieldOp w
    let fmtN : List Byte := [0x15, 0x24, 0x25, 0x26, 0x41, 0x50, 0x51, 0x52, 0x53, 0x70, 0x71, 0x72]
    let fmtA : List Byte :=
      [0x06, 0x07, 0x14, 0x20, 0x22, 0x23, 0x30, 0x31, 0x33, 0x34, 0x35, 0x36, 0x38]
    let fmtAB : List Byte := [0x01, 0x10, 0x11, 0x13, 0x27, 0x28, 0x40, 0x44, 0x46]
    let fmtABC : List Byte := [0x03, 0x12, 0x21, 0x45]
    let fmtAC : List Byte := [0x02, 0x05]
    let fmtP : List Byte := [0x32, 0x37, 0x43]
    let badPayload := fun n : Nat =>
      rest.length < (n + 3) / 4 ∨
      ∃ k, n ≤ k ∧ k < 4 * ((n + 3) / 4) ∧
        ((rest[k / 4]?.getD 0).extractLsb' (8 * (k % 4)) 8) ≠ 0
    let illegal :=
      (op ∉ fmtN ++ fmtA ++ fmtAB ++ fmtABC ++ fmtAC ++ [0x04] ++ fmtP ++ [0x42]) ∨
      (op ∈ fmtN ∧ w &&& 0x00FFFFFF ≠ 0) ∨
      (op ∈ fmtA ∧ w &&& 0x0000FFFF ≠ 0) ∨
      (op ∈ fmtAB ∧ w &&& 0x000000FF ≠ 0) ∨
      (op ∈ fmtAC ∧ w &&& 0x0000FF00 ≠ 0) ∨
      (op = 0x04 ∧ (rest = [] ∨ ∃ v more, rest = v :: more ∧ v &&& 0xFFFFFF00 ≠ 0)) ∨
      (op ∈ fmtP ∧ badPayload (w &&& 0x0000FFFF).toNat) ∨
      (op = 0x42 ∧ badPayload (w &&& 0x000000FF).toNat)
    ((∃ e, decode (w :: rest) = .error e) ↔ illegal) ∧
    ∀ s : State, s.script.words.drop s.script.pc = w :: rest → illegal → step s = .fault .illegalOp

/-- A step is the point between two commands and then the command that the words at the script index decode
to: its next state with the index moved past its words, or its fault; no command is refused; a script that has
ended has no step (10_state.md R17). At the point nothing happens in a scripted run, the script is never
touched, and a `ModelFault` stops the machine (60_exceptions.md R190). The point and the refusal at the end are
the model's (log 8, log 4). -/
def Obligations.StepRunsFetchedCommand : Prop :=
  ∀ s : State,
    (s.sched = [] → betweenCommands s = .ok s) ∧
    (∀ u, betweenCommands s = .ok u → u.script = s.script) ∧
    (s.script.words.length ≤ s.script.pc → step s = .refused .scriptEnded) ∧
    ∀ i n, decode (s.script.words.drop s.script.pc) = .ok (i, n) →
      (∀ e, betweenCommands s = .error e → step s = .fault e) ∧
      ∀ u, betweenCommands s = .ok u →
        (∀ t, exec i u = .next t →
          step s = .next { t with script := { t.script with pc := t.script.pc + n } }) ∧
        (∀ r, exec i u = .fault r → step s = .fault r) ∧
        (∀ r, exec i u ≠ .refused r)

/-! ### Register access (40_register_access.md, 20_memory.md, 10_state.md) -/

/-- The legal `(offset, width)` pairs are exactly those of 20_memory.md R49; any other access never completes and,
with no other agent stepping before it, is `BAD_ACCESS`; writes of read-only registers are ignored and reads of write-only registers return 0. That a
one-byte write at 0x18 and any width but 1 and 2 are `BAD_ACCESS` is the model's reading (log 10). -/
def Obligations.LegalAccesses : Prop :=
  ∀ (s : State) (off v w : Byte),
    let byteWide := off ≤ 0x08 ∨ (0x0A ≤ off ∧ off ≤ 0x17)
    let readable := (byteWide ∧ w = 1) ∨ (off = 0x18 ∧ w = 2)
    (∀ t, exec (.regRd off w) s = .next t → readable) ∧ (∀ t, exec (.regWr off v) s = .next t → byteWide) ∧
    (s.sched = [] →
      (exec (.regRd off w) s = .fault .badAccess ↔ ¬ readable) ∧
      (exec (.regWr off v) s = .fault .badAccess ↔ ¬ byteWide) ∧
      exec (.regWr 0x00 v) s = .next (s.answered .ok) ∧
      exec (.regWr 0x08 v) s = .next (s.answered .ok) ∧
      exec (.regRd 0x0B 1) s = .next (s.answered (.value 0)) ∧
      (s.hw.stSel.toNat < s.nports →
        exec (.regWr 0x04 v) s = .next (s.answered .ok) ∧
        exec (.regRd 0x05 1) s = .next (s.answered (.value 0))))

/-- What reads of the registers return and change: the status registers are cleared by the read that returns
them, the other reads change nothing; the state registers need a port of the card selected (10_state.md R23 to
R32, R35 to R39, 20_memory.md R51). The interrupt line is `IRQ_EN` of `TICK_CTRL` and a nonzero `STATUS[1:0]`, as
a read of the two returns them (10_state.md R23, R38). That a read of `ST_WR` needs a port too is the model's
reading (log 11). -/
def Obligations.RegisterReads : Prop :=
  ∀ s : State, s.sched = [] →
    let x := s.fifo s.selNum
    let regs := match s.selDir with | .rx => x.rxRegs | .tx => x.txRegs
    let answers := fun (off w : Byte) (n : Nat) => exec (.regRd off w) s = .next (s.answered (.value n))
    answers 0x00 1 ((if s.hw.fifoStat = Vector.replicate 8 0 then 0 else 1) +
      (if s.hw.miscStat ≠ 0 then 2 else 0) + (if s.hw.busy then 4 else 0)) ∧
    (s.irqLine = true ↔ (∃ n, answers 0x0F 1 n ∧ n.testBit 1 = true) ∧ ∃ n, answers 0x00 1 n ∧ n % 4 ≠ 0) ∧
    exec (.regRd 0x01 1) s =
      .next (({ s with hw := { s.hw with miscStat := 0 } } : State).answered (.value s.hw.miscStat.toNat)) ∧
    exec (.regRd 0x02 1) s =
      .next (({ s with hw := { s.hw with sci := 0 } } : State).answered (.value s.hw.sci.toNat)) ∧
    (∀ b < 8, exec (.regRd (BitVec.ofNat 8 (0x10 + b)) 1) s =
      .next ((s.setFifoStat b 0).answered (.value (s.fifoStat b).toNat))) ∧
    answers 0x03 1 s.hw.stSel.toNat ∧ answers 0x06 1 s.hw.syncSel.toNat ∧
    answers 0x07 1 s.hw.fifoSel.toNat ∧ answers 0x0F 1 s.hw.tickCtrl.toNat ∧
    answers 0x0C 1 regs.ctrl.toNat ∧ answers 0x0D 1 regs.chan.toNat ∧ answers 0x0E 1 regs.slot.toNat ∧
    answers 0x08 1 (min (match s.selDir with | .rx => x.rxq.length | .tx => x.txclosed.length) 255) ∧
    answers 0x18 2 (min
      (match s.selDir, regs.ctrl.getLsbD 1 with
        | .rx, true => (match x.rxq with | [] => 0 | fr :: _ => fr.length - x.rxpos)
        | .rx, false => x.brx.length
        | .tx, true => x.txopen.length
        | .tx, false => x.btx.length) 65535) ∧
    (if s.hw.stSel.toNat < s.nports then
      let l := s.latch s.hw.stSel.toNat
      answers 0x04 1 (l.code.toNat + 32 * l.t2exp.toNat + 64 * l.signal.toNat)
    else exec (.regRd 0x04 1) s = .fault .badPort ∧ exec (.regRd 0x05 1) s = .fault .badPort)

/-- Writes of the plain registers: a 1 in a bit that must be 0 is `RESERVED_BITS`, else the value is stored
and nothing else changes; writes of `MISC_STAT`, `SCI` and the `FIFO_STAT`s are ignored (10_state.md R24 to
R30, R35 to R39, 20_memory.md R48). A write of `FIFO_SEL` while the hardware is busy takes effect or not by the
draw, an opaque value under no law (40_register_access.md R81, 00_scope.md R10); that reserved bits are checked before the draw is the
model's reading (log 5). -/
def Obligations.PlainWrites : Prop :=
  ∀ (s : State) (v : Byte), s.sched = [] →
    let f := s.selNum
    let store := fun (off mask : Byte) (t : State) =>
      exec (.regWr off v) s = if v &&& mask = 0 then .next (t.answered .ok) else .fault .reservedBits
    let regs := fun g : FifoRegs → FifoRegs => s.setFifo f (match s.selDir with
      | .rx => { s.fifo f with rxRegs := g (s.fifo f).rxRegs }
      | .tx => { s.fifo f with txRegs := g (s.fifo f).txRegs })
    store 0x03 0xF8 { s with hw := { s.hw with stSel := v } } ∧
    store 0x06 0xF0 { s with hw := { s.hw with syncSel := v } } ∧
    (s.hw.busy = false → store 0x07 0x60 { s with hw := { s.hw with fifoSel := v } }) ∧
    (s.hw.busy = true → store 0x07 0x60 { s with
      hw := { s.hw with fifoSel := if Config.takenDraw s.draws then v else s.hw.fifoSel }
      draws := s.draws + 1 }) ∧
    store 0x0F 0xFC { s with hw := { s.hw with tickCtrl := v } } ∧
    store 0x0C 0xF8 (regs fun c => { c with ctrl := v }) ∧
    store 0x0D 0x60 (regs fun c => { c with chan := v }) ∧
    store 0x0E 0x40 (regs fun c => { c with slot := v }) ∧
    store 0x01 0 s ∧ store 0x02 0 s ∧ ∀ b < 8, store (BitVec.ofNat 8 (0x10 + b)) 0 s

/-- The data port pops the oldest byte of the selected receive FIFO and pushes onto the selected transmit
FIFO, in HDLC mode and in transparent mode; the wrong direction, an empty FIFO and a full FIFO are
`FIFO_DIR`, `FIFO_UNDERRUN` and `FIFO_OVERRUN` (10_state.md R33, R40). That the bytes of both modes count against
`FIFO_DEPTH` is the model's reading (log 12). -/
def Obligations.DataPort : Prop :=
  ∀ (s : State) (v : Byte), s.sched = [] →
    let f := s.selNum
    let x := s.fifo f
    let stored := (x.txclosed.map List.length).sum + x.txopen.length + x.btx.length
    let read := exec (.regRd 0x0A 1) s
    let write := exec (.regWr 0x0A v) s
    match s.selDir with
    | .rx =>
      write = .fault .fifoDir ∧
      if x.rxRegs.ctrl.getLsbD 1 then
        (∀ fr rest, x.rxq = fr :: rest →
          (∀ b, fr[x.rxpos]? = some b →
            read = .next ((s.setFifo f { x with rxpos := x.rxpos + 1 }).answered (.value b.toNat))) ∧
          (fr.length ≤ x.rxpos → read = .fault .fifoUnderrun)) ∧
        (x.rxq = [] → read = .fault .fifoUnderrun)
      else
        (∀ b bs, x.brx = b :: bs →
          read = .next ((s.setFifo f { x with brx := bs }).answered (.value b.toNat))) ∧
        (x.brx = [] → read = .fault .fifoUnderrun)
    | .tx =>
      read = .fault .fifoDir ∧
      if x.txRegs.ctrl.getLsbD 1 then
        write = if stored < s.cfg.fifoDepth then
          .next ((s.setFifo f { x with txopen := x.txopen ++ [v] }).answered .ok) else .fault .fifoOverrun
      else
        write = if stored < s.cfg.fifoDepth then
          .next ((s.setFifo f { x with btx := x.btx ++ [v] }).answered .ok) else .fault .fifoOverrun

/-- A write of `FIFO_CMD`: `RESET` empties the selected directional FIFO and clears its pending bit, alone when
both bits are 1; `INC_F` releases the head received frame, or closes the open transmit frame; the faults of
10_state.md R34, in the model's order (log 9). While the hardware is busy it has that effect or none, by the
draw, an opaque value under no law (40_register_access.md R81, 00_scope.md R10); that reserved bits are checked
before the draw is the model's reading (log 5). -/
def Obligations.FifoCommands : Prop :=
  ∀ (s : State) (v : Byte), s.sched = [] →
    let f := s.selNum
    let x := s.fifo f
    let result := exec (.regWr 0x0B v) s
    let effect := fun u : State =>
      match v.getLsbD 1, v.getLsbD 0, s.selDir with
      | true, _, .rx => .next (((u.setFifo f { x with rxq := [], rxpos := 0, brx := [] }).setFifoStat
          (f / 4) (s.fifoStat (f / 4) &&& ~~~ (2#8 <<< (2 * (f % 4))))).answered .ok)
      | true, _, .tx => .next (((u.setFifo f { x with txopen := [], txclosed := [], btx := [] }).setFifoStat
          (f / 4) (s.fifoStat (f / 4) &&& ~~~ (1#8 <<< (2 * (f % 4))))).answered .ok)
      | false, true, .rx => (match x.rxq with
          | [] => .fault .frameUnderrun
          | _ :: rest => .next ((u.setFifo f { x with rxq := rest, rxpos := 0 }).answered .ok))
      | false, true, .tx =>
          if x.txopen = [] then .fault .emptyFrame
          else if s.cfg.fmax ≤ x.txclosed.length then .fault .fifoOverrun
          else .next ((u.setFifo f { x with txclosed := x.txclosed ++ [x.txopen], txopen := [] }).answered .ok)
      | false, false, _ => .next (u.answered .ok)
    (v &&& 0xFC ≠ 0 → result = .fault .reservedBits) ∧
    (v &&& 0xFC = 0 → s.hw.busy = false → result = effect s) ∧
    (v &&& 0xFC = 0 → s.hw.busy = true →
      result = if Config.takenDraw s.draws then effect { s with draws := s.draws + 1 }
        else .next (({ s with draws := s.draws + 1 } : State).answered .ok))

/-- The indexed accesses are their two raw accesses one after the other, with one result; the read takes two
bytes at `Z_CNT` and one elsewhere; between the two accesses a step of the line agent or the tick agent may be
taken and no other (20_memory.md R53; which, the schedule says: log 7); through `ST_SEL` they reach the state registers of the port named: `ST_RD`
reads its latch, `ST_WR` loads and holds a code or releases the port (40_register_access.md R76, R77, R80,
10_state.md R27, R28). -/
def Obligations.IndexedAccesses : Prop :=
  (∀ (s : State) (sel sv off v : Byte), s.sched = [] →
    (∀ u, exec (.regWr sel sv) s = .next u →
      exec (.regRdx sel sv off) s = exec (.regRd off (if off = 0x18 then 2 else 1)) { u with script := s.script } ∧
      exec (.regWrx sel sv off v) s = exec (.regWr off v) { u with script := s.script } ∧
      ∀ es : List EnvStep,
        let entered := es.foldl
          (fun w e => match e with | .issue i => (lineStep i w).getD w | .setLive _ | .setStrap _ => w)
          { u with script := s.script }
        exec (.regRdx sel sv off) { s with sched := [[], es] } =
          exec (.regRd off (if off = 0x18 then 2 else 1)) entered ∧
        exec (.regWrx sel sv off v) { s with sched := [[], es] } = exec (.regWr off v) entered) ∧
    (∀ e, exec (.regWr sel sv) s = .fault e →
      exec (.regRdx sel sv off) s = .fault e ∧ exec (.regWrx sel sv off v) s = .fault e)) ∧
  ∀ (s : State) (p v : Byte), s.sched = [] → p.toNat < s.nports →
    let l := s.latch p.toNat
    let selected : State := { s with hw := { s.hw with stSel := p } }
    exec (.regRdx 0x03 p 0x04) s =
      .next (selected.answered (.value (l.code.toNat + 32 * l.t2exp.toNat + 64 * l.signal.toNat))) ∧
    exec (.regWrx 0x03 p 0x05 v) s =
      (if v &&& 0xE0 ≠ 0 then .fault .reservedBits
      else .next ((selected.setLatch p.toNat
        (if v.getLsbD 4 then { l with code := v.extractLsb' 0 4, t2exp := false, auto := false }
        else { l with auto := true })).answered .ok))

/-- A busy-wait write is the plain write while the hardware is not busy; while it stays busy both waits end in
their logged timeout, the write goes on, and whether a gated write takes effect is the
draw's, an opaque value under no law (40_register_access.md R78, R81, 00_scope.md R10). That a wait which nothing can end times out at once, and that reserved bits are
checked first, are the model's readings (log 5, log 6). -/
def Obligations.BusyWaitWrites : Prop :=
  ∀ (s : State) (off v : Byte), s.sched = [] →
    (s.hw.busy = false → exec (.regWrb off v) s = exec (.regWr off v) s) ∧
    (s.hw.busy = false → v &&& 0x60 = 0 →
      exec (.regWrb 0x07 v) s = .next (({ s with hw := { s.hw with fifoSel := v } } : State).answered .ok)) ∧
    (s.hw.busy = true →
      (∀ u : State, exec (.regWr off v) (s.diag (.timeoutBusy .before off)) = .next (u.answered .ok) →
        exec (.regWrb off v) s = .next ((u.diag (.timeoutBusy .after off)).answered .ok)) ∧
      (∀ e, exec (.regWr off v) (s.diag (.timeoutBusy .before off)) = .fault e →
        exec (.regWrb off v) s = .fault e)) ∧
    (s.hw.busy = true → v &&& 0x60 = 0 →
      exec (.regWrb 0x07 v) s = .next (({ s with
        hw := { s.hw with fifoSel := if Config.takenDraw s.draws then v else s.hw.fifoSel }
        card := { s.card with diaglog := s.card.diaglog ++ [DiagEvent.timeoutBusy .before 0x07, DiagEvent.timeoutBusy .after 0x07] }
        draws := s.draws + 1 } : State).answered .ok)) ∧
    (s.hw.busy = true → v &&& 0x60 ≠ 0 → exec (.regWrb 0x07 v) s = .fault .reservedBits)

/-- Stable reads take the two counters alone, and with nothing changing them between two reads answer what a
plain read answers, logging nothing (40_register_access.md R79). -/
def Obligations.StableReads : Prop :=
  ∀ (s : State) (off : Byte), s.sched = [] → s.cfg.valid = true →
    if off = 0x08 then
      exec (.regRds off) s = .next (s.answered (.value (min
        (match s.selDir with
          | .rx => (s.fifo s.selNum).rxq.length
          | .tx => (s.fifo s.selNum).txclosed.length) 255)))
    else if off = 0x18 then exec (.regRds off) s = exec (.regRd off 2) s ∧ ∃ t, exec (.regRds off) s = .next t
    else exec (.regRds off) s = .fault .badOperand

/-- `LINE.BUSY b` sets the busy flag to `b`; outside the line agent's steps only a reset writes it
(40_register_access.md R82, 10_state.md R41). -/
def Obligations.BusyFlag : Prop :=
  (∀ (s : State) (b : Byte),
    (b = 0 → exec (.lineBusy b) s = .next (({ s with hw := { s.hw with busy := false } } : State).answered .ok)) ∧
    (b = 1 → exec (.lineBusy b) s = .next (({ s with hw := { s.hw with busy := true } } : State).answered .ok)) ∧
    (b ≠ 0 → b ≠ 1 → exec (.lineBusy b) s = .fault .badOperand)) ∧
  ∀ (i : Instr) (s t : State), s.scripted → exec i s = .next t → (∀ b, i ≠ .lineBusy b) → i ≠ .cardReset →
    t.hw.busy = s.hw.busy

/-! ### Flow mapper (41_flow_mapper.md) -/

/-- `FIFO.SEL`, `FIFO.RESET` and `FIFO.IRQ` on a card that is not busy, and their operand checks
(41_flow_mapper.md R92 to R94). -/
def Obligations.FifoPrimitives : Prop :=
  ∀ (s : State) (f : Byte) (d : Dir), s.quiet → s.cfg.valid = true →
    let n := f.toNat
    let x := s.fifo n
    let selected := s.select n d
    (n < 32 →
      exec (.fifoSel f d.code) s = .next (selected.answered .ok) ∧
      exec (.fifoReset f d.code) s = .next (((selected.setFifo n (match d with
          | .rx => { x with rxq := [], rxpos := 0, brx := [] }
          | .tx => { x with txopen := [], txclosed := [], btx := [] })).setFifoStat (n / 4)
        (s.fifoStat (n / 4) &&& ~~~ (1#8 <<< (2 * (n % 4) + d.code.toNat)))).answered .ok) ∧
      (∀ en : Byte, en = 0 ∨ en = 1 → x.rxRegs.reservedZero → x.txRegs.reservedZero →
        exec (.fifoIrq f d.code en) s = .next ((selected.setFifo n (match d with
          | .rx => { x with rxRegs := { x.rxRegs with
              ctrl := if en = 1 then x.rxRegs.ctrl ||| 0x01 else x.rxRegs.ctrl &&& 0xFE } }
          | .tx => { x with txRegs := { x.txRegs with
              ctrl := if en = 1 then x.txRegs.ctrl ||| 0x01 else x.txRegs.ctrl &&& 0xFE } })).answered .ok))) ∧
    (∀ dir en : Byte, 32 ≤ n ∨ (dir ≠ 0 ∧ dir ≠ 1) →
      exec (.fifoSel f dir) s = .fault .badOperand ∧ exec (.fifoReset f dir) s = .fault .badOperand ∧
      exec (.fifoIrq f dir en) s = .fault .badOperand) ∧
    (∀ dir en : Byte, en ≠ 0 → en ≠ 1 → exec (.fifoIrq f dir en) s = .fault .badOperand)

/-- `FM.MAPB p, bchan` and `FM.MAPD p` on a card that is not busy: the FIFO number cached in the port, the six
control registers programmed, the transmit direction left selected, nothing else changed
(41_flow_mapper.md R95, R96). -/
def Obligations.ChannelMapping : Prop :=
  ∀ (s : State) (a bchan : Byte), s.quiet → s.cfg.valid = true →
    let p := a.toNat
    let programmed := fun (f : Nat) (g : Port → Port) (rx tx : FifoRegs) =>
      ((s.setPort p (g (s.port p))).setFifo f { s.fifo f with rxRegs := rx, txRegs := tx }).select f .tx
    (p < s.nports → bchan = 0 ∨ bchan = 1 →
      let c := bchan.toNat
      let slot : Byte := if s.cfg.ecRouted then BitVec.ofNat 8 (0x80 + (8 * p + 4 * c)) else 0x00
      exec (.fmMapb a bchan) s = .next ((programmed (2 * p + c)
        (fun q => if c = 0 then { q with fifoB1 := 2 * p + c } else { q with fifoB2 := 2 * p + c })
        { ctrl := 0x05, chan := BitVec.ofNat 8 (0x80 + (4 * p + c)), slot := slot }
        { ctrl := 0x04, chan := BitVec.ofNat 8 (4 * p + c), slot := slot }).answered .ok)) ∧
    (p < s.nports →
      exec (.fmMapd a) s = .next ((programmed (s.cfg.dBase + p)
        (fun q => { q with fifoD := s.cfg.dBase + p })
        { ctrl := 0x07, chan := BitVec.ofNat 8 (0x80 + (4 * p + 2)), slot := 0x00 }
        { ctrl := 0x07, chan := BitVec.ofNat 8 (4 * p + 2), slot := 0x00 }).answered .ok)) ∧
    (s.nports ≤ p → exec (.fmMapb a bchan) s = .fault .badOperand ∧ exec (.fmMapd a) s = .fault .badOperand) ∧
    (bchan ≠ 0 → bchan ≠ 1 → exec (.fmMapb a bchan) s = .fault .badOperand)

/-- After `FM.MAPALL` every channel of every port is mapped, its FIFO's six control registers programmed: exactly
the receive direction of each bearer FIFO and both directions of each D FIFO are interrupt-enabled; FIFOs the
mapping does not use keep their control registers, the transmit direction of the last port's D FIFO is left
selected, and storage, pending bits, sessions and host buffers are untouched (41_flow_mapper.md R91, R95 to
R97). -/
def Obligations.WholeMapping : Prop :=
  ∀ s : State, s.quiet → s.cfg.valid = true → ∃ t, exec .fmMapall s = .next t ∧
    (∀ p < s.nports, ∀ role, mapped t p role = true ∧ (t.port p).fifoNum role = fifoOf s.cfg p role ∧
      let chan := match role with | .b1 => 4 * p | .b2 => 4 * p + 1 | .d => 4 * p + 2
      let slot : Byte := match role with
        | .b1 => if s.cfg.ecRouted then BitVec.ofNat 8 (0x80 + 8 * p) else 0x00
        | .b2 => if s.cfg.ecRouted then BitVec.ofNat 8 (0x80 + (8 * p + 4)) else 0x00
        | .d => 0x00
      t.fifoRegs (fifoOf s.cfg p role) .rx =
        { ctrl := match role with | .d => 0x07 | _ => 0x05, chan := BitVec.ofNat 8 (0x80 + chan), slot := slot } ∧
      t.fifoRegs (fifoOf s.cfg p role) .tx =
        { ctrl := match role with | .d => 0x07 | _ => 0x04, chan := BitVec.ofNat 8 chan, slot := slot }) ∧
    (∀ p < 8, t.port p = if p < s.nports then
        { s.port p with fifoB1 := 2 * p, fifoB2 := 2 * p + 1, fifoD := s.cfg.dBase + p }
      else s.port p) ∧
    (∀ f < 32, (t.fifo f) = { s.fifo f with rxRegs := (t.fifo f).rxRegs, txRegs := (t.fifo f).txRegs }) ∧
    (∀ f < 32, (∀ p < s.nports, ∀ role, f ≠ fifoOf s.cfg p role) → t.fifo f = s.fifo f) ∧
    t = { s with
      ports := t.ports
      hw := { s.hw with fifos := t.hw.fifos, fifoSel := selByte (s.cfg.dBase + (s.nports - 1)) .tx }
      script := { s.script with results := s.script.results ++ [.ok] } }

/-- No two channel roles share a FIFO, every FIFO of a channel exists, the bearer FIFOs of a card are exactly
those below twice its port count, and the D FIFOs exactly those of the known D-channel range
(41_flow_mapper.md R90). -/
def Obligations.MappingInjective : Prop :=
  ∀ (c : Config), c.valid = true →
    (∀ p q role role', p < c.nports.toNat → q < c.nports.toNat →
      fifoOf c p role = fifoOf c q role' → p = q ∧ role = role') ∧
    (∀ p role, p < c.nports.toNat → fifoOf c p role < 32) ∧
    (∀ f, f < 2 * c.nports.toNat ↔ ∃ p < c.nports.toNat, ∃ role, role ≠ .d ∧ fifoOf c p role = f) ∧
    (∀ f, isD c f = true ↔ ∃ p < c.nports.toNat, fifoOf c p .d = f ∧ portOfD c f = p)

/-- Running `FM.MAPALL` a second time, right after the first, changes nothing (41_flow_mapper.md R98). -/
def Obligations.MappingIdempotent : Prop :=
  ∀ s t u : State, s.quiet → s.cfg.valid = true → exec .fmMapall s = .next t → exec .fmMapall t = .next u →
    u = t.answered .ok

/-! ### S/T line state (42_st_state_machine.md) -/

/-- The vocabularies of the two modes, by number (42_st_state_machine.md R101), and the classes of the default
`ALARM_CLASS` (R103). An observation of a port whose code has no reaction: the byte is recorded, a CLEAR class
disarms the mode's timer, the pending alarm and its deadline change only when the class differs from the pending
one, and nothing else changes but `ST_SEL` (R106). Outside the vocabulary the observation is `ST_BAD_CODE`, outside
the card `BAD_OPERAND` (R104, R106). -/
def Obligations.ObservationRecords : Prop :=
  (∀ code, (inVocab .nt code = true ↔ code ∈ [0, 1, 2, 3, 4]) ∧
    (inVocab .te code = true ↔ code ∈ [0, 2, 3, 4, 5, 6, 7, 8])) ∧
  (∀ c : Config, c.alarmNt = Config.defaultAlarmNt → c.alarmTe = Config.defaultAlarmTe →
    (∀ code ∈ [0, 1], alarmClass c .nt code = .red) ∧ (∀ code ∈ [2, 4], alarmClass c .nt code = .yellow) ∧
    alarmClass c .nt 3 = .clear ∧
    (∀ code ∈ [0, 3], alarmClass c .te code = .red) ∧
    (∀ code ∈ [2, 4, 5, 6, 8], alarmClass c .te code = .yellow) ∧ alarmClass c .te 7 = .clear) ∧
  ∀ (s : State) (a : Byte), s.sched = [] →
    let p := a.toNat
    let q := s.port p
    let l := s.latch p
    let code := l.code.toNat
    let cls := alarmClass s.cfg q.mode code
    (p < s.nports → inVocab q.mode code = true →
      ¬ (q.mode = .nt ∧ code = 4 ∧ l.t2exp = true) → ¬ (q.mode = .te ∧ code = 3 ∧ l.signal = true) →
      exec (.stObserve a) s = .next ((({ s with hw := { s.hw with stSel := a } }).setPort p
        { q with
          state := BitVec.ofNat 8 (code + 32 * l.t2exp.toNat + 64 * l.signal.toNat)
          t1On := if cls = Alarm.clear ∧ q.mode = Mode.nt then false else q.t1On
          t3On := if cls = Alarm.clear ∧ q.mode = Mode.te then false else q.t3On
          newalarm := cls
          alarmtimer := if cls = q.newalarm then q.alarmtimer else s.card.ticks + s.live.debounceMs }).answered
        .ok)) ∧
    (p < s.nports → inVocab q.mode code = false → exec (.stObserve a) s = .fault .stBadCode) ∧
    (s.nports ≤ p → exec (.stObserve a) s = .fault .badOperand)

/-- The two reactions. A T2 expiry (NT, code 4, `T2EXP`) disarms T1, forces code 1 and releases the port; an
incoming signal in TE deactivated (code 3, `SIGNAL`) arms T3, for the grace value the first time since reset,
forces code 4 and releases the port. Each ends in the observation of the forced code; the debounce time starts
anew at either of the two observations that changes the pending alarm
(42_st_state_machine.md R106 to R108, R110, R119). -/
def Obligations.ObservationReacts : Prop :=
  ∀ (s : State) (a : Byte), s.sched = [] → a.toNat < s.nports →
    let p := a.toNat
    let q := s.port p
    let l := s.latch p
    let selected : State := { s with hw := { s.hw with stSel := a } }
    let deadline := fun first last : Alarm =>
      if first = q.newalarm ∧ last = first then q.alarmtimer else s.card.ticks + s.live.debounceMs
    (q.mode = .nt → l.code = 4 → l.t2exp = true →
      exec (.stObserve a) s = .next (((selected.setLatch p { l with code := 1, t2exp := false, auto := true }).setPort p
        { q with
          state := BitVec.ofNat 8 (1 + 64 * l.signal.toNat)
          t1On := false
          newalarm := alarmClass s.cfg .nt 1
          alarmtimer := deadline (alarmClass s.cfg .nt 4) (alarmClass s.cfg .nt 1) }).answered .ok)) ∧
    (q.mode = .te → l.code = 3 → l.signal = true →
      exec (.stObserve a) s = .next (((selected.setLatch p { l with code := 4, t2exp := false, auto := true }).setPort p
        { q with
          state := BitVec.ofNat 8 (4 + 64)
          t1On := false
          t3First := false
          t3Dl := s.card.ticks + (if q.t3First then s.cfg.t3FirstMs else s.live.t3Ms)
          t3On := decide (alarmClass s.cfg .te 4 ≠ .clear)
          newalarm := alarmClass s.cfg .te 4
          alarmtimer := deadline (alarmClass s.cfg .te 3) (alarmClass s.cfg .te 4) }).answered .ok))

/-- `ST.FORCE` loads the code, clearing `T2EXP` and holding the port, releases it when `resume` is 1, and then
observes: it completes for every code of the port's vocabulary (42_st_state_machine.md R109). That a code above
15 is `ST_BAD_CODE`, and that a bad `resume` is `BAD_OPERAND` whatever the code, found before the code is tested,
are the model's readings (log 21, log 9). -/
def Obligations.ForcedTransition : Prop :=
  ∀ (s : State) (a code resume : Byte), s.sched = [] →
    let p := a.toNat
    let forced := s.setLatch p
      { s.latch p with code := code.extractLsb' 0 4, t2exp := false, auto := decide (resume = 1) }
    (p < s.nports → inVocab (s.port p).mode code.toNat = true → resume = 0 ∨ resume = 1 →
      ∃ t, exec (.stForce a code resume) s = .next t ∧ exec (.stObserve a) forced = .next t) ∧
    (p < s.nports → inVocab (s.port p).mode code.toNat = false → resume = 0 ∨ resume = 1 →
      exec (.stForce a code resume) s = .fault .stBadCode) ∧
    (s.nports ≤ p ∨ (resume ≠ 0 ∧ resume ≠ 1) → exec (.stForce a code resume) s = .fault .badOperand)

/-- `ST.START` marks the span running, arms the mode's timer and disarms the other, and observes;
`ST.STOP` clears the three and nothing else (42_st_state_machine.md R110 to R112). -/
def Obligations.SpanStartStop : Prop :=
  ∀ (s : State) (a : Byte), s.sched = [] →
    let p := a.toNat
    let q := s.port p
    let started := s.setPort p (match q.mode with
      | .nt => { q with spanRunning := true, t1Dl := s.card.ticks + s.live.t1Ms, t1On := true, t3On := false }
      | .te => { q with
          spanRunning := true
          t3Dl := s.card.ticks + (if q.t3First then s.cfg.t3FirstMs else s.live.t3Ms)
          t3First := false
          t3On := true
          t1On := false })
    (p < s.nports →
      exec (.stStart a) s = exec (.stObserve a) started ∧
      (inVocab q.mode (s.latch p).code.toNat = true → ∃ t, exec (.stStart a) s = .next t ∧
        (t.port p).spanRunning = true) ∧
      exec (.stStop a) s =
        .next ((s.setPort p { q with spanRunning := false, t1On := false, t3On := false }).answered .ok)) ∧
    (s.nports ≤ p → exec (.stStart a) s = .fault .badOperand ∧ exec (.stStop a) s = .fault .badOperand)

/-- `ST.SYNCSEL` picks, of the ports whose priority is in 1..NPORTS and whose published alarm is CLEAR, the one
with the least priority, the least port among equals, and writes it to `SYNC_SEL`; with none it falls back to
automatic (42_st_state_machine.md R117). -/
def Obligations.SyncSelection : Prop :=
  ∀ s : State, s.sched = [] →
    let candidate := fun p : Nat =>
      p < s.nports ∧ 1 ≤ (s.port p).syncPrio ∧ (s.port p).syncPrio ≤ s.nports ∧ (s.port p).alarm = .clear
    let written := fun (src : SyncSrc) (v : Byte) =>
      ({ s with card := { s.card with syncsrc := src }, hw := { s.hw with syncSel := v } } : State)
    (∀ p, candidate p →
      (∀ q, candidate q → (s.port p).syncPrio < (s.port q).syncPrio ∨
        ((s.port p).syncPrio = (s.port q).syncPrio ∧ p ≤ q)) →
      exec .stSyncsel s = .next ((written (.port p) (BitVec.ofNat 8 (8 + p))).answered .ok)) ∧
    ((∀ p, ¬ candidate p) → exec .stSyncsel s = .next ((written .auto 0x00).answered .ok)) ∧
    ∃ t, exec .stSyncsel s = .next t

/-- `ST.SETPRIO` with a port or a priority above the range answers `INVALID` and changes nothing; else it sets
the priority and selects the source anew (42_st_state_machine.md R118, 60_exceptions.md R187). -/
def Obligations.SetPriority : Prop :=
  ∀ (s : State) (a k : Byte), s.sched = [] →
    let p := a.toNat
    (s.nports ≤ p ∨ s.nports < k.toNat → exec (.stSetprio a k) s = .next (s.answered .invalid)) ∧
    (p < s.nports → k.toNat ≤ s.nports → ∃ t, exec (.stSetprio a k) s = .next t ∧
      exec .stSyncsel (s.setPort p { s.port p with syncPrio := k.toNat }) = .next t)

/-- `LINE.STATE` moves the latch of a port that tracks autonomously and sets its state-change indicator on any
change; otherwise it is `BAD_OPERAND` (42_st_state_machine.md R102). -/
def Obligations.LineStateMoves : Prop :=
  ∀ (s : State) (a b : Byte),
    let p := a.toNat
    let l := s.latch p
    let new : LineLatch :=
      { l with code := b.extractLsb' 0 4, t2exp := b.getLsbD 5, signal := b.getLsbD 6 }
    (p < s.nports → l.auto = true → b &&& 0x90 = 0 →
      (new = l → exec (.lineState a b) s = .next (s.answered .ok)) ∧
      (new ≠ l → exec (.lineState a b) s = .next (({ s with hw := { s.hw with
          line := s.hw.line.setIfInBounds p new, sci := s.hw.sci ||| (1#8 <<< p) } }).answered .ok))) ∧
    (s.nports ≤ p ∨ l.auto = false ∨ b &&& 0x90 ≠ 0 → exec (.lineState a b) s = .fault .badOperand)

/-- `ST.POLL` clears `SCI` and observes exactly the flagged ports (42_st_state_machine.md R116); here none of
them reacts. -/
def Obligations.PollObservesFlagged : Prop :=
  ∀ s : State, s.sched = [] →
    (∀ p < s.nports, s.hw.sci.getLsbD p = true →
      inVocab (s.port p).mode (s.latch p).code.toNat = true ∧
      ¬ ((s.port p).mode = .nt ∧ (s.latch p).code = 4 ∧ (s.latch p).t2exp = true) ∧
      ¬ ((s.port p).mode = .te ∧ (s.latch p).code = 3 ∧ (s.latch p).signal = true)) →
    ∃ t, exec .stPoll s = .next t ∧ t.hw.sci = 0 ∧
      (∀ p < s.nports, s.hw.sci.getLsbD p = false → t.port p = s.port p) ∧
      (∀ p < s.nports, s.hw.sci.getLsbD p = true →
        ∃ u, exec (.stObserve (BitVec.ofNat 8 p)) s = .next u ∧ t.port p = u.port p) ∧
      t = { s with
        ports := t.ports
        hw := { s.hw with sci := 0, stSel := t.hw.stSel }
        script := { s.script with results := s.script.results ++ [.ok] } }

/-- The sweep with no timer due publishes exactly the pending alarms that differ from the published ones and
whose deadline has passed, but for a suppressed RED of a TE port, each reported once, in port order. The
synchronization source is selected anew when an NT port is published, so it is left as `ST.SYNCSEL` selects it
with the due alarms of the ports up to the last due NT port published (42_st_state_machine.md R113, R115,
R117). -/
def Obligations.SweepPublishes : Prop :=
  ∀ s : State, s.sched = [] →
    (∀ p < s.nports, ((s.port p).t1On = true → s.card.ticks < (s.port p).t1Dl) ∧
      ((s.port p).t3On = true → s.card.ticks < (s.port p).t3Dl)) →
    let due := fun p : Nat =>
      (s.port p).newalarm ≠ (s.port p).alarm ∧ (s.port p).alarmtimer ≤ s.card.ticks ∧
      ¬ (s.live.ignoreRedTe = true ∧ (s.port p).mode = .te ∧ (s.port p).newalarm = .red)
    let published := fun n : Nat =>
      s.ports.mapIdx fun p q => if p < n ∧ due p then { q with alarm := q.newalarm } else q
    ∃ t, exec .stSweep s = .next t ∧
      t = { s with
        ports := published s.nports
        card := { s.card with
          hostlog := s.card.hostlog ++
            ((List.range s.nports).filter fun p => decide (due p)).map (fun p => .alarm p (s.port p).newalarm)
          syncsrc := t.card.syncsrc }
        hw := { s.hw with syncSel := t.hw.syncSel }
        script := { s.script with results := s.script.results ++ [.ok] } } ∧
      ((∀ p < s.nports, due p → (s.port p).mode = .te) →
        t.card.syncsrc = s.card.syncsrc ∧ t.hw.syncSel = s.hw.syncSel) ∧
      (∀ p < s.nports, due p → (s.port p).mode = .nt →
        (∀ q < s.nports, p < q → due q → (s.port q).mode = .te) →
        ∃ u, exec .stSyncsel { s with ports := published (p + 1) } = .next u ∧
          t.card.syncsrc = u.card.syncsrc ∧ t.hw.syncSel = u.hw.syncSel)

/-- The sweep of a card with one timer due and no alarm due: T1 expiry forces code 4, T3 expiry forces code 3,
after the timer is disarmed (42_st_state_machine.md R113, R105). -/
def Obligations.SweepExpiresTimers : Prop :=
  ∀ (s : State) (a : Byte), s.sched = [] → 0 < s.live.debounceMs → a.toNat < s.nports →
    let p := a.toNat
    let q := s.port p
    (∀ r < s.nports, (s.port r).newalarm = (s.port r).alarm ∨ s.card.ticks < (s.port r).alarmtimer) →
    (∀ r < s.nports, r ≠ p → ((s.port r).t1On = true → s.card.ticks < (s.port r).t1Dl) ∧
      ((s.port r).t3On = true → s.card.ticks < (s.port r).t3Dl)) →
    (q.mode = .nt → q.t1On = true → q.t1Dl ≤ s.card.ticks → q.t3On = false →
      ∃ t, exec .stSweep s = .next t ∧
        exec (.stForce a 4 1) (s.setPort p { q with t1On := false }) = .next t) ∧
    (q.mode = .te → q.t3On = true → q.t3Dl ≤ s.card.ticks → q.t1On = false →
      ∃ t, exec .stSweep s = .next t ∧
        exec (.stForce a 3 1) (s.setPort p { q with t3On := false }) = .next t)

/-- Debouncing. A published alarm changes only in the sweep: in `ST.SWEEP`, in the deferred phase, which sweeps,
and in a reset, whichever agent issues them. In a scripted run every command but a reset, the phases of the
interrupt among them, leaves a port's pending alarm and its deadline alone or sets the deadline to the full
debounce time from the tick it ends at; and a published alarm it changes becomes the value that was pending
before, whose deadline has passed at that tick, unless the debounce time is 0 (42_st_state_machine.md R106, R113,
R114, 60_exceptions.md R176). -/
def Obligations.Debounce : Prop :=
  ∀ (i : Instr) (s t : State), exec i s = .next t → i ≠ .cardReset →
    (i ≠ .stSweep → i ≠ .irqDef → i ≠ .irq →
      s.neverIssues .irqDef → s.neverIssues .irq → s.neverIssues .cardReset →
      ∀ p < 8, (t.port p).alarm = (s.port p).alarm) ∧
    (s.scripted → ∀ p < s.nports,
      (((t.port p).newalarm = (s.port p).newalarm ∧ (t.port p).alarmtimer = (s.port p).alarmtimer) ∨
        (t.port p).alarmtimer = t.card.ticks + s.live.debounceMs) ∧
      ((t.port p).alarm ≠ (s.port p).alarm → s.live.debounceMs ≠ 0 →
        (t.port p).alarm = (s.port p).newalarm ∧ (s.port p).alarmtimer ≤ t.card.ticks))

/-! ### HDLC framer (43_hdlc_framer.md) -/

/-- `HDLC.ATTACH` of a mapped port empties its D FIFO in both directions with both pending bits, starts a
fresh session with an empty host queue and enables both interrupts. `HDLC.DETACH` ends the session, drops the
host's queue and the transmit FIFO's contents and disables the transmit interrupt; the receive direction and
the frame counters stay. Unmapped they are `NOT_MAPPED` (43_hdlc_framer.md R133, R134). -/
def Obligations.SessionStartEnd : Prop :=
  ∀ (s : State) (a : Byte), s.quiet → s.cfg.valid = true →
    let p := a.toNat
    let f := s.cfg.dBase + p
    let x := s.fifo f
    let cleared := s.setHostPort p { s.hostPort p with txq := [], txoff := 0 }
    let unpend := fun mask : Byte => s.fifoStat (f / 4) &&& ~~~ (mask <<< (2 * (f % 4)))
    (p < s.nports → mapped s p .d = true → x.rxRegs.reservedZero → x.txRegs.reservedZero →
      exec (.hdlcAttach a) s = .next (((((cleared.setSession p
          { active := true, pending := 0, framesIn := 0, framesOut := 0 }).setFifo f
          { rxq := [], rxpos := 0, brx := [], txopen := [], txclosed := [], btx := [],
            rxRegs := { x.rxRegs with ctrl := x.rxRegs.ctrl ||| 0x01 },
            txRegs := { x.txRegs with ctrl := x.txRegs.ctrl ||| 0x01 } }).setFifoStat (f / 4)
          (unpend 3)).select f .tx).answered .ok)) ∧
    (p < s.nports → mapped s p .d = true → x.txRegs.reservedZero →
      exec (.hdlcDetach a) s = .next (((((cleared.setSession p
          { s.session p with active := false, pending := 0 }).setFifo f
          { x with
            txopen := [], txclosed := [], btx := [],
            txRegs := { x.txRegs with ctrl := x.txRegs.ctrl &&& 0xFE } }).setFifoStat (f / 4)
          (unpend 1)).select f .tx).answered .ok)) ∧
    (p < s.nports → mapped s p .d = false →
      exec (.hdlcAttach a) s = .fault .notMapped ∧ exec (.hdlcDetach a) s = .fault .notMapped) ∧
    (s.nports ≤ p → exec (.hdlcAttach a) s = .fault .badOperand ∧ exec (.hdlcDetach a) s = .fault .badOperand)

/-- `HDLC.SUBMIT` queues the frame and increments the outstanding-frame counter, nothing else; without a session
it is `NO_SESSION`, with an empty frame or outside the card `BAD_OPERAND` (43_hdlc_framer.md R137), which is
found first (log 9). -/
def Obligations.SubmitQueuesFrame : Prop :=
  ∀ (s : State) (a : Byte) (frame : List Byte),
    let p := a.toNat
    (p < s.nports → frame ≠ [] → (s.session p).active = true →
      exec (.hdlcSubmit a frame) s = .next (((s.setHostPort p
        { s.hostPort p with txq := (s.hostPort p).txq ++ [frame] }).setSession p
        { s.session p with pending := (s.session p).pending + 1 }).answered .ok)) ∧
    (p < s.nports → frame ≠ [] → (s.session p).active = false →
      exec (.hdlcSubmit a frame) s = .fault .noSession) ∧
    (s.nports ≤ p ∨ frame = [] → exec (.hdlcSubmit a frame) s = .fault .badOperand)

/-- One receive pass of a mapped port drains the head frame whole and answers how many remain; with a session
the frame is reported by its payload and one verdict and counted, without one nothing is reported
(43_hdlc_framer.md R135, R142 to R145). An empty queue is left alone. -/
def Obligations.ReceivePass : Prop :=
  ∀ (s : State) (a : Byte), s.quiet → s.cfg.valid = true →
    let p := a.toNat
    let f := s.cfg.dBase + p
    let x := s.fifo f
    p < s.nports → mapped s p .d = true → x.rxRegs.ctrl.getLsbD 1 = true →
    (x.rxq = [] → exec (.hdlcRxframe a) s = .next ((s.select f .rx).answered (.value 0))) ∧
    (∀ fr rest, x.rxq = fr :: rest → x.rxpos = 0 → fr.length < 65536 →
      let drained := (s.select f .rx).setFifo f { x with rxq := rest, rxpos := 0 }
      exec (.hdlcRxframe a) s = .next ((if (s.session p).active then
        { drained with
          sess := drained.sess.setIfInBounds p
            { s.session p with framesIn := (s.session p).framesIn + 1 }
          card := { s.card with
            hostlog := s.card.hostlog ++ frameEvents s.cfg.hdlcCap p fr
            diaglog := s.card.diaglog ++ frameWarnings s.cfg.hdlcCap p fr } }
        else drained).answered (.value (min rest.length 255))))

/-- A receive drain with nothing arriving drains every queued frame, reports them in order, answers their
count, and leaves the frame count at 0; a second drain answers 0 and changes nothing but the selection
(43_hdlc_framer.md R136, R147). -/
def Obligations.ReceiveDrain : Prop :=
  ∀ (s : State) (a : Byte), s.quiet → s.cfg.valid = true →
    let p := a.toNat
    let f := s.cfg.dBase + p
    let x := s.fifo f
    p < s.nports → mapped s p .d = true → x.rxRegs.ctrl.getLsbD 1 = true → x.rxpos = 0 →
    (∀ fr ∈ x.rxq, fr.length < 65536) →
    ∃ t, exec (.hdlcRxdrain a) s = .next t ∧
      t = { s with
        sess := t.sess
        card := { s.card with hostlog := t.card.hostlog, diaglog := t.card.diaglog }
        hw := { s.hw with fifos := t.hw.fifos, fifoSel := selByte f .rx }
        script := { s.script with results := s.script.results ++ [.value x.rxq.length] } } ∧
      t.hw.fifos = s.hw.fifos.setIfInBounds f { x with rxq := [], rxpos := 0 } ∧
      ((s.session p).active = true →
        t.sess = s.sess.setIfInBounds p
          { s.session p with framesIn := (s.session p).framesIn + x.rxq.length } ∧
        t.card.hostlog = s.card.hostlog ++ x.rxq.flatMap (frameEvents s.cfg.hdlcCap p) ∧
        t.card.diaglog = s.card.diaglog ++ x.rxq.flatMap (frameWarnings s.cfg.hdlcCap p)) ∧
      ((s.session p).active = false →
        t.sess = s.sess ∧ t.card.hostlog = s.card.hostlog ∧ t.card.diaglog = s.card.diaglog) ∧
      exec (.hdlcRxdrain a) t = .next ((t.select f .rx).answered (.value 0))

/-- One transmit pass of a mapped port: the rest of the head frame if it fits one chunk, closing the frame and
counting it down; else one chunk, enabling the interrupt; with no frame, or without a session, it only
disables the interrupt (43_hdlc_framer.md R138 to R140). -/
def Obligations.TransmitPass : Prop :=
  ∀ (s : State) (a : Byte), s.quiet → s.cfg.valid = true →
    let p := a.toNat
    let f := s.cfg.dBase + p
    let x := s.fifo f
    let h := s.hostPort p
    let n := s.session p
    let room := fun k : Nat =>
      (x.txclosed.map List.length).sum + x.txopen.length + x.btx.length + k ≤ s.cfg.fifoDepth
    p < s.nports → mapped s p .d = true → x.txRegs.ctrl.getLsbD 1 = true → x.txRegs.reservedZero →
    (∀ fr rest, n.active = true → 0 < n.pending → h.txq = fr :: rest → h.txoff < fr.length →
      fr.length ≤ h.txoff + s.cfg.hdlcCap → room (fr.length - h.txoff) → x.txclosed.length < s.cfg.fmax →
      exec (.hdlcTxchunk a) s = .next (((((s.setHostPort p { h with txq := rest, txoff := 0 }).setSession p
        { n with pending := n.pending - 1, framesOut := n.framesOut + 1 }).setFifo f
        { x with txclosed := x.txclosed ++ [x.txopen ++ fr.drop h.txoff], txopen := [] }).select f .tx).answered
        (.value 0))) ∧
    (∀ fr rest, n.active = true → h.txq = fr :: rest → h.txoff + s.cfg.hdlcCap < fr.length →
      room s.cfg.hdlcCap →
      exec (.hdlcTxchunk a) s = .next ((((s.setHostPort p { h with txoff := h.txoff + s.cfg.hdlcCap }).setFifo f
        { x with
          txopen := x.txopen ++ (fr.drop h.txoff).take s.cfg.hdlcCap
          txRegs := { x.txRegs with ctrl := x.txRegs.ctrl ||| 0x01 } }).select f .tx).answered (.value 1))) ∧
    (n.active = false ∨ h.txq = [] →
      exec (.hdlcTxchunk a) s = .next (((s.setFifo f
        { x with txRegs := { x.txRegs with ctrl := x.txRegs.ctrl &&& 0xFE } }).select f .tx).answered (.value 0)))

/-- A transmit drain with room for what is queued and nothing submitted meanwhile closes every queued frame, in
order, one countdown each, and ends with the counter at exactly 0 and the sent-frame counter grown by the
frames there were. Its result is the passes made: for each frame, one for every chunk of what is left of it, the
last one perhaps short; the interrupt is left enabled if some frame took more than one
(43_hdlc_framer.md R138, R139, R141, R148). -/
def Obligations.TransmitDrain : Prop :=
  ∀ (s : State) (a : Byte), s.quiet → s.cfg.valid = true →
    let p := a.toNat
    let f := s.cfg.dBase + p
    let x := s.fifo f
    let h := s.hostPort p
    let n := s.session p
    p < s.nports → mapped s p .d = true → x.txRegs.ctrl.getLsbD 1 = true → x.txRegs.reservedZero →
    n.active = true → s.backpressure →
    (x.txclosed.map List.length).sum + x.txopen.length + x.btx.length + (h.txq.map List.length).sum - h.txoff ≤
      s.cfg.fifoDepth →
    x.txclosed.length + h.txq.length ≤ s.cfg.fmax →
    (h.txq = [] → exec (.hdlcTxdrain a) s = .next (s.answered (.value 0))) ∧
    ∀ fr rest, h.txq = fr :: rest →
      let left := (fr.length - h.txoff) :: rest.map List.length
      let passes := (left.map fun k => (k + s.cfg.hdlcCap - 1) / s.cfg.hdlcCap).sum
      exec (.hdlcTxdrain a) s = .next (((((s.setHostPort p { h with txq := [], txoff := 0 }).setSession p
        { n with pending := 0, framesOut := n.framesOut + h.txq.length }).setFifo f
        { x with
          txclosed := x.txclosed ++ (x.txopen ++ fr.drop h.txoff) :: rest
          txopen := []
          txRegs := { x.txRegs with
            ctrl := if h.txq.length < passes then x.txRegs.ctrl ||| 0x01 else x.txRegs.ctrl } }).select f .tx).answered
        (.value passes))

/-- The line agent deposits a received frame at the tail of an enabled HDLC FIFO with room and takes the oldest
closed frame of an enabled HDLC FIFO; each raises its pending bit only while the FIFO's interrupt is enabled;
not enabled they are `BAD_OPERAND` (43_hdlc_framer.md R131, R132, 60_exceptions.md R170). That the bearer bytes
of the FIFO count against `FIFO_DEPTH` beside its frames is the model's reading (log 12). -/
def Obligations.LineFrames : Prop :=
  ∀ (s : State) (a : Byte) (bytes : List Byte), s.cfg.valid = true →
    let f := a.toNat
    let x := s.fifo f
    let raised := fun (on : Bool) (bit : Nat) (t : State) =>
      if on then t.setFifoStat (f / 4) (s.fifoStat (f / 4) ||| (1#8 <<< bit)) else t
    let rxEnabled := f < 32 ∧ x.rxRegs.ctrl.getLsbD 2 = true ∧ x.rxRegs.ctrl.getLsbD 1 = true ∧ bytes ≠ [] ∧
      x.rxq.length < s.cfg.fmax ∧ (x.rxq.map List.length).sum + x.brx.length + bytes.length ≤ s.cfg.fifoDepth
    let txEnabled := f < 32 ∧ x.txRegs.ctrl.getLsbD 2 = true ∧ x.txRegs.ctrl.getLsbD 1 = true ∧
      (x.txclosed ≠ [] ∨ x.txopen ≠ [])
    (rxEnabled → exec (.lineRxframe a bytes) s = .next ((raised (x.rxRegs.ctrl.getLsbD 0) (2 * (f % 4) + 1)
      (s.setFifo f { x with rxq := x.rxq ++ [bytes] })).answered .ok)) ∧
    (¬ rxEnabled → exec (.lineRxframe a bytes) s = .fault .badOperand) ∧
    (txEnabled → exec (.lineTxtake a) s = .next ((raised (x.txRegs.ctrl.getLsbD 0) (2 * (f % 4))
      (match x.txclosed with
        | [] => s
        | fr :: rest => (s.setFifo f { x with txclosed := rest }).lineout (.lineTx f fr))).answered .ok)) ∧
    (¬ txEnabled → exec (.lineTxtake a) s = .fault .badOperand)

/-- A frame the host submits on an idle attached port reaches the line whole and unchanged: submitted, drained
and taken, it is the one line event (43_hdlc_framer.md R137, R141, R132). -/
def Obligations.SubmittedFrameReachesLine : Prop :=
  ∀ (s : State) (a : Byte) (frame : List Byte), s.quiet → s.cfg.valid = true →
    let p := a.toNat
    let f := s.cfg.dBase + p
    p < s.nports → mapped s p .d = true → (s.fifo f).txRegs.ctrl.getLsbD 1 = true →
    (s.fifo f).txRegs.reservedZero → (s.session p).active = true → (s.session p).pending = 0 →
    (s.hostPort p).txq = [] → (s.hostPort p).txoff = 0 → (s.fifo f).txclosed = [] → (s.fifo f).txopen = [] →
    frame ≠ [] → (s.fifo f).btx.length + frame.length ≤ s.cfg.fifoDepth → 1 ≤ s.cfg.fmax →
    ∃ t u v, exec (.hdlcSubmit a frame) s = .next t ∧ exec (.hdlcTxdrain a) t = .next u ∧
      exec (.lineTxtake (BitVec.ofNat 8 f)) u = .next v ∧
      v.hw.linelog = s.hw.linelog ++ [.lineTx f frame] ∧ (v.fifo f).txclosed = [] ∧
      (v.session p).pending = 0 ∧ (v.hostPort p).txq = []

/-! ### Bearer pump (44_bearer_pump.md) -/

/-- The exchange of one bearer channel: with a full chunk received, exactly one chunk is read into the host's
receive buffer and the host's chunk is written to the transmit FIFO; with less, nothing is read and nothing
written (44_bearer_pump.md R161, R169). -/
def Obligations.ChunkExchange : Prop :=
  ∀ (s : State) (a bchan : Byte), s.quiet → s.cfg.valid = true → bchan = 0 ∨ bchan = 1 →
    let p := a.toNat
    let role : Role := if bchan = 0 then .b1 else .b2
    let f := 2 * p + bchan.toNat
    let x := s.fifo f
    let h := s.hostPort p
    let chunk := if bchan = 0 then h.txbufB1 else h.txbufB2
    (p < s.nports → mapped s p role = true → x.rxRegs.ctrl.getLsbD 1 = false → x.txRegs.ctrl.getLsbD 1 = false →
      chunk.length = s.cfg.chunk →
      (min x.brx.length 65535 < s.cfg.chunk →
        exec (.bpXchg a bchan) s = .next ((s.select f .rx).answered (.value 0))) ∧
      (s.cfg.chunk ≤ min x.brx.length 65535 →
        (x.txclosed.map List.length).sum + x.txopen.length + x.btx.length + s.cfg.chunk ≤ s.cfg.fifoDepth →
        exec (.bpXchg a bchan) s = .next ((((s.setHostPort p (if bchan = 0 then
            { h with rxbufB1 := x.brx.take s.cfg.chunk } else { h with rxbufB2 := x.brx.take s.cfg.chunk })).setFifo f
          { x with brx := x.brx.drop s.cfg.chunk, btx := x.btx ++ chunk }).select f .tx).answered (.value 1)))) ∧
    (p < s.nports → mapped s p role = false → exec (.bpXchg a bchan) s = .fault .notMapped) ∧
    (s.nports ≤ p → exec (.bpXchg a bchan) s = .fault .badOperand)

/-- The pump exchanges a chunk on each bearer channel of each running span that has one received, couples the
two directions, touches no other channel, answers whether any exchange occurred, and leaves the last FIFO it
selected selected: the B2 FIFO of the last running port, transmit if it exchanged there, else receive
(44_bearer_pump.md R161 to R163, R169). -/
def Obligations.PumpCouplesDirections : Prop :=
  ∀ s : State, s.quiet → s.cfg.valid = true → s.reservedZero → s.chunkBuffers →
    (∀ p < s.nports, (s.port p).spanRunning = true → ∀ role, role ≠ .d →
      mapped s p role = true ∧ (s.fifo (fifoOf s.cfg p role)).rxRegs.ctrl.getLsbD 1 = false ∧
      (s.fifo (fifoOf s.cfg p role)).txRegs.ctrl.getLsbD 1 = false ∧
      (s.fifo (fifoOf s.cfg p role)).txStored + s.cfg.chunk ≤ s.cfg.fifoDepth) →
    let moves := fun (p : Nat) (role : Role) => (s.port p).spanRunning = true ∧
      s.cfg.chunk ≤ min (s.fifo (fifoOf s.cfg p role)).brx.length 65535
    ∃ t any, exec .bpPump s = .next t ∧
      (any = 1 ↔ ∃ p < s.nports, moves p .b1 ∨ moves p .b2) ∧ (any = 0 ∨ any = 1) ∧
      (∀ p < s.nports, ∀ role, role ≠ .d →
        let x := s.fifo (fifoOf s.cfg p role)
        let y := t.fifo (fifoOf s.cfg p role)
        (moves p role → y = { x with
          brx := x.brx.drop s.cfg.chunk, btx := x.btx ++ (s.hostPort p).txbuf role }) ∧
        (¬ moves p role → y = x)) ∧
      (∀ f < 32, (∀ p < s.nports, ∀ role, role ≠ .d → f ≠ fifoOf s.cfg p role) → t.fifo f = s.fifo f) ∧
      (∀ p < s.nports,
        let rx := fun (role : Role) (old : List Byte) =>
          if (s.port p).spanRunning = true ∧ s.cfg.chunk ≤ min (s.fifo (fifoOf s.cfg p role)).brx.length 65535
          then (s.fifo (fifoOf s.cfg p role)).brx.take s.cfg.chunk else old
        t.hostPort p = { s.hostPort p with
          rxbufB1 := rx .b1 (s.hostPort p).rxbufB1, rxbufB2 := rx .b2 (s.hostPort p).rxbufB2 }) ∧
      ((∀ p < s.nports, (s.port p).spanRunning = false) → t.hw.fifoSel = s.hw.fifoSel) ∧
      (∀ p < s.nports, (s.port p).spanRunning = true → (∀ q < s.nports, p < q → (s.port q).spanRunning = false) →
        (moves p .b2 → t.hw.fifoSel = selByte (2 * p + 1) .tx) ∧
        (¬ moves p .b2 → t.hw.fifoSel = selByte (2 * p + 1) .rx)) ∧
      t = { s with
        host := t.host
        hw := { s.hw with fifos := t.hw.fifos, fifoSel := t.hw.fifoSel }
        script := { s.script with results := s.script.results ++ [.value any] } }

/-- The host fills a transmit chunk of exactly `CHUNK` bytes, anything else is `BAD_OPERAND`; an echo-canceller
request on a bearer channel without parameters is accepted, any other on a port of the card is rejected with
`INVALID`, and neither request changes any state (44_bearer_pump.md R164, R167, 60_exceptions.md R187). That the
port is checked before the channel is the model's reading (log 9). -/
def Obligations.HostBearerCalls : Prop :=
  ∀ (s : State) (a bchan ch nparams : Byte) (bytes : List Byte),
    let p := a.toNat
    let h := s.hostPort p
    (p < s.nports → bytes.length = s.cfg.chunk →
      exec (.hostTxbuf a 0 bytes) s = .next ((s.setHostPort p { h with txbufB1 := bytes }).answered .ok) ∧
      exec (.hostTxbuf a 1 bytes) s = .next ((s.setHostPort p { h with txbufB2 := bytes }).answered .ok)) ∧
    (s.nports ≤ p ∨ (bchan ≠ 0 ∧ bchan ≠ 1) ∨ bytes.length ≠ s.cfg.chunk →
      exec (.hostTxbuf a bchan bytes) s = .fault .badOperand) ∧
    (p < s.nports → (ch = 0 ∨ ch = 1) → nparams = 0 → exec (.ecReq a ch nparams) s = .next (s.answered .ok)) ∧
    (p < s.nports → (ch ≠ 0 ∧ ch ≠ 1) ∨ nparams ≠ 0 →
      exec (.ecReq a ch nparams) s = .next (s.answered .invalid)) ∧
    (s.nports ≤ p → exec (.ecReq a ch nparams) s = .fault .badOperand)

/-- The line agent's bearer steps: bytes arrive at the tail of an enabled transparent receive FIFO, bytes leave
the head of an enabled transparent transmit FIFO, neither with a pending bit; `LINE.FIFOIRQ` raises the pending
bit of an enabled, interrupt-enabled FIFO; not enabled they are `BAD_OPERAND`
(44_bearer_pump.md R165, R166, R168). That the received frames of the FIFO count against `FIFO_DEPTH` beside its
bearer bytes is the model's reading (log 12). -/
def Obligations.LineBearerSteps : Prop :=
  ∀ (s : State) (a n : Byte) (bytes : List Byte) (d : Dir), s.cfg.valid = true →
    let f := a.toNat
    let x := s.fifo f
    let rxEnabled := f < 32 ∧ x.rxRegs.ctrl.getLsbD 2 = true ∧ x.rxRegs.ctrl.getLsbD 1 = false ∧ bytes ≠ [] ∧
      (x.rxq.map List.length).sum + x.brx.length + bytes.length ≤ s.cfg.fifoDepth
    let txEnabled := f < 32 ∧ x.txRegs.ctrl.getLsbD 2 = true ∧ x.txRegs.ctrl.getLsbD 1 = false ∧ n ≠ 0 ∧
      n.toNat ≤ x.btx.length
    let ctrl := match d with | .rx => x.rxRegs.ctrl | .tx => x.txRegs.ctrl
    let irqEnabled := f < 32 ∧ ctrl.getLsbD 2 = true ∧ ctrl.getLsbD 0 = true
    (rxEnabled → exec (.lineBrx a bytes) s =
      .next ((s.setFifo f { x with brx := x.brx ++ bytes }).answered .ok)) ∧
    (¬ rxEnabled → exec (.lineBrx a bytes) s = .fault .badOperand) ∧
    (txEnabled → exec (.lineBtxtake a n) s = .next (((s.setFifo f { x with btx := x.btx.drop n.toNat }).lineout
      (.lineBTx f (x.btx.take n.toNat))).answered .ok)) ∧
    (¬ txEnabled → exec (.lineBtxtake a n) s = .fault .badOperand) ∧
    (irqEnabled → exec (.lineFifoirq a d.code) s = .next ((s.setFifoStat (f / 4)
      (s.fifoStat (f / 4) ||| (1#8 <<< (2 * (f % 4) + d.code.toNat)))).answered .ok)) ∧
    (¬ irqEnabled → exec (.lineFifoirq a d.code) s = .fault .badOperand) ∧
    (∀ dir : Byte, dir ≠ 0 → dir ≠ 1 → exec (.lineFifoirq a dir) s = .fault .badOperand)

/-! ### Tick and interrupt (60_exceptions.md) -/

/-- `TICK` sets the tick bit while ticks are enabled, and only that, so that with interrupts enabled the interrupt
line is asserted; a tick that finds the bit set changes nothing; disabled it is `BAD_OPERAND`
(60_exceptions.md R170, R171, R182, 10_state.md R23). -/
def Obligations.TickSetsBit : Prop :=
  ∀ s : State,
    (s.hw.tickCtrl.getLsbD 0 = true →
      exec .tick s = .next (({ s with hw := { s.hw with miscStat := s.hw.miscStat ||| 0x02 } } : State).answered .ok) ∧
      (s.hw.miscStat.getLsbD 1 = true → exec .tick s = .next (s.answered .ok)) ∧
      (s.hw.tickCtrl.getLsbD 1 = true → ∀ t, exec .tick s = .next t → t.irqLine = true)) ∧
    (s.hw.tickCtrl.getLsbD 0 = false → exec .tick s = .fault .badOperand)

/-- An interrupt that is not the card's: with no FIFO bit and no miscellaneous bit pending, busy or not,
`IRQ.IMM` and `IRQ` answer `NOT_MINE` and change nothing (60_exceptions.md R174, R178). -/
def Obligations.ForeignInterrupt : Prop :=
  ∀ s : State, s.sched = [] → (∀ b < 8, s.fifoStat b = 0) → s.hw.miscStat = 0 →
    exec .irqImm s = .next (s.answered .notMine) ∧ exec .irq s = .next (s.answered .notMine)

/-- The immediate phase of an interrupt that is the card's takes every pending bit into the accumulators and
clears the status registers, which drops the interrupt line; without the tick bit it does nothing more; with it, it runs the pump on that state
and then the hooks of every running span, in port order, with the received chunks; with no span running only
the pump's reselect is left, which changes nothing (60_exceptions.md R173, R179, 10_state.md R23). -/
def Obligations.ImmediateAccumulates : Prop :=
  ∀ s : State, s.quiet → (s.hw.fifoStat ≠ Vector.replicate 8 0 ∨ s.hw.miscStat ≠ 0) →
    let taken : State := { s with
      card := { s.card with
        fifoAcc := Vector.zipWith (fun x y => x ||| y) s.card.fifoAcc s.hw.fifoStat
        miscAcc := s.card.miscAcc ||| s.hw.miscStat }
      hw := { s.hw with fifoStat := Vector.replicate 8 0, miscStat := 0 } }
    taken.irqLine = false ∧
    (s.hw.miscStat.getLsbD 1 = false → exec .irqImm s = .next (taken.answered .handled)) ∧
    (s.hw.miscStat.getLsbD 1 = true → s.hw.fifoSel &&& 0x60 = 0 →
      (∀ p < s.nports, (s.port p).spanRunning = false) → exec .irqImm s = .next (taken.answered .handled)) ∧
    (s.hw.miscStat.getLsbD 1 = true → ∀ (t : State) (r : Result), exec .bpPump taken = .next (t.answered r) →
      let hooks := ((List.range t.nports).filter fun p => (t.port p).spanRunning).map fun p =>
        HostEvent.tickHooks p (t.hostPort p).rxbufB1 (t.hostPort p).rxbufB2
      exec .irqImm s = .next (({ t with
        card := { t.card with hostlog := t.card.hostlog ++ hooks } } : State).answered .handled))

/-- The immediate phase only ever sets accumulator bits, whatever the other agents do meanwhile short of a reset,
which clears them all (20_memory.md R56, 70_reset_and_hazards.md R201). -/
def Obligations.ImmediateKeepsBits : Prop :=
  ∀ s t : State, s.neverIssues .cardReset → exec .irqImm s = .next t →
    (∀ b < 8, s.fifoAcc b &&& ~~~ (t.fifoAcc b) = 0) ∧ s.card.miscAcc &&& ~~~ t.card.miscAcc = 0

/-- The scan of the deferred phase clears every accumulator bit it finds, and reports each bit of a FIFO outside
the D-channel range once, FIFO numbers ascending, transmit before receive; it does not stop there. Here no
D-channel bit, no tick and no outstanding frame is pending, so nothing else changes
(60_exceptions.md R175, R188). -/
def Obligations.DeferredReportsUnexpected : Prop :=
  ∀ s : State, s.scripted → s.cfg.valid = true →
    (∀ f < 32, isD s.cfg f = true → ∀ d, accBit f d s = false) →
    s.card.miscAcc.getLsbD 1 = false → (∀ p < s.nports, (s.session p).pending = 0) →
    let found := (List.range 32).flatMap fun f => ([Dir.tx, Dir.rx].filter fun d => accBit f d s).map fun d =>
      DiagEvent.unexpectedFifoIrq f d
    exec .irqDef s = .next (({ s with card := { s.card with
      fifoAcc := Vector.replicate 8 0, diaglog := s.card.diaglog ++ found } } : State).answered .ok)

/-- The drains of the deferred phase, one by one. The least D-channel bit of the accumulators is cleared and
served, the transmit bit of a FIFO before its receive bit: a transmit bit by passes of `HDLC.TXCHUNK` until one
answers 0, a receive bit by `HDLC.RXDRAIN`; the phase goes on as it would start from there, so every such bit is
served. With no bit and no tick pending, the least port with outstanding frames is drained although no interrupt
is pending, and the phase goes on as it would start from there once the drain has counted them down to 0, and ends
there if it is the only such port (60_exceptions.md R175, R177). -/
def Obligations.DeferredDrains : Prop :=
  ∀ (s : State) (a : Byte) (t : State), s.quiet → s.cfg.valid = true → a.toNat < s.nports →
    let p := a.toNat
    let f := s.cfg.dBase + p
    let with_ := fun (d : Dir) (on : Bool) (u : State) =>
      let bit : Byte := 1#8 <<< (2 * (f % 4) + d.code.toNat)
      u.setFifoAcc (f / 4) (if on then u.fifoAcc (f / 4) ||| bit else u.fifoAcc (f / 4) &&& ~~~ bit)
    ((∀ g < f, ∀ d, accBit g d s = false) →
      (accBit f .tx s = true → s.backpressure → ∀ n : Nat,
        exec (.hdlcTxchunk a) (with_ .tx false s) = .next (t.answered (.value n)) →
        exec .irqDef s = exec .irqDef (if n = 0 then t else with_ .tx true t)) ∧
      (accBit f .tx s = false → accBit f .rx s = true → ∀ r : Result,
        exec (.hdlcRxdrain a) (with_ .rx false s) = .next (t.answered r) →
        exec .irqDef s = exec .irqDef t)) ∧
    ((∀ b < 8, s.fifoAcc b = 0) → s.card.miscAcc.getLsbD 1 = false → 0 < (s.session p).pending →
      (∀ q < p, (s.session q).pending = 0) → ∀ r : Result,
      exec (.hdlcTxdrain a) s = .next (t.answered r) →
      ((t.session p).pending = 0 → exec .irqDef s = exec .irqDef t) ∧
      ((∀ q < s.nports, q ≠ p → (s.session q).pending = 0) → exec .irqDef s = .next (t.answered .ok)))

/-- The tick part of the deferred phase: the tick counter advances by one, the sweep runs at the new tick, the
poll runs after it when the new tick is a multiple of `POLL_TICKS`, and the tick bit of the accumulator is cleared
last; a fault of the poll stops the machine. With no timer and no alarm due at the new tick, no poll due and
nothing else pending, nothing else changes (60_exceptions.md R176). -/
def Obligations.DeferredServesTick : Prop :=
  ∀ s : State, s.scripted → s.cfg.valid = true → s.card.miscAcc.getLsbD 1 = true →
    (∀ b < 8, s.fifoAcc b = 0) → (∀ p < s.nports, (s.session p).pending = 0) →
    let counted : State := { s with card := { s.card with ticks := s.card.ticks + 1 } }
    let served := fun t : State => { t with card := { t.card with miscAcc := s.card.miscAcc ^^^ 0x02 } }
    let pollDue := (s.card.ticks + 1) % s.cfg.pollTicks = 0
    (∀ t : State, exec .stSweep counted = .next (t.answered .ok) →
      (¬ pollDue → exec .irqDef s = .next ((served t).answered .ok)) ∧
      (pollDue →
        (∀ u : State, exec .stPoll t = .next (u.answered .ok) → exec .irqDef s = .next ((served u).answered .ok)) ∧
        (∀ e, exec .stPoll t = .fault e → exec .irqDef s = .fault e))) ∧
    ((∀ p < s.nports, ((s.port p).t1On = true → s.card.ticks + 1 < (s.port p).t1Dl) ∧
        ((s.port p).t3On = true → s.card.ticks + 1 < (s.port p).t3Dl) ∧
        ((s.port p).newalarm = (s.port p).alarm ∨ s.card.ticks + 1 < (s.port p).alarmtimer)) →
      ¬ pollDue → exec .irqDef s = .next ((served counted).answered .ok))

/-- `IRQ` is the immediate phase and, when the interrupt is the card's, the deferred phase at its end; in a
scripted run that is `IRQ.IMM` and then `IRQ.DEF`. A fault of either stops the machine
(60_exceptions.md R178, R190). -/
def Obligations.InterruptRunsBothPhases : Prop :=
  ∀ s t u : State,
    (exec .irqImm s = .next (t.answered .notMine) → exec .irq s = .next (t.answered .notMine)) ∧
    (∀ e, exec .irqImm s = .fault e → exec .irq s = .fault e) ∧
    (exec .irqImm s = .next (t.answered .handled) →
      (deferredPhase s.serviceEnv t = .ok u → exec .irq s = .next (u.answered .handled)) ∧
      (∀ e, deferredPhase s.serviceEnv t = .error e → exec .irq s = .fault e) ∧
      (s.scripted → exec .irqDef t = .next (u.answered .ok) → exec .irq s = .next (u.answered .handled)))

/-- One tick served from end to end: on a card with nothing but the tick bit pending, no span running, nothing
due and no frame outstanding, `IRQ` advances the tick counter by one, clears the bit and changes nothing else
(60_exceptions.md R173, R176, R178). -/
def Obligations.InterruptServesTick : Prop :=
  ∀ s : State, s.scripted → s.hw.busy = false → s.cfg.valid = true → s.hw.miscStat = 0x02 →
    s.card.miscAcc = 0 → (∀ b < 8, s.fifoStat b = 0 ∧ s.fifoAcc b = 0) → s.hw.fifoSel &&& 0x60 = 0 →
    (∀ p < s.nports, (s.session p).pending = 0 ∧ (s.port p).spanRunning = false ∧
      ((s.port p).t1On = true → s.card.ticks + 1 < (s.port p).t1Dl) ∧
      ((s.port p).t3On = true → s.card.ticks + 1 < (s.port p).t3Dl) ∧
      ((s.port p).newalarm = (s.port p).alarm ∨ s.card.ticks + 1 < (s.port p).alarmtimer)) →
    (s.card.ticks + 1) % s.cfg.pollTicks ≠ 0 →
    exec .irq s = .next (({ s with
      card := { s.card with ticks := s.card.ticks + 1 }
      hw := { s.hw with miscStat := 0 } } : State).answered .handled)

/-- The tick counter advances in the deferred phase only, by one each time, and only a reset sets it otherwise: no
command counts down while no agent resets the card meanwhile; and where no agent takes a deferred phase
meanwhile either, `IRQ.DEF` and `IRQ` advance it by at most one and every other command leaves it
(60_exceptions.md R176, R182). -/
def Obligations.TicksServedOncePerPhase : Prop :=
  ∀ (i : Instr) (s t : State), exec i s = .next t → i ≠ .cardReset → s.neverIssues .cardReset →
    s.card.ticks ≤ t.card.ticks ∧
    (s.neverIssues .irqDef → s.neverIssues .irq →
      t.card.ticks = s.card.ticks ∨ ((i = .irqDef ∨ i = .irq) ∧ t.card.ticks = s.card.ticks + 1))

/-! ### Reset, start, stop (70_reset_and_hazards.md) -/

/-- `CARD.RESET` cannot fail: it latches the presented parameters and gives every state element its reset
value (70_reset_and_hazards.md R200, R201). What it leaves, the script and the model's own fields, is the
model's reading (log 3). -/
def Obligations.ResetValues : Prop :=
  ∀ s : State, ∃ t, exec .cardReset s = .next t ∧
    t.cfg = s.strap ∧ t.live = s.live ∧
    t.card = Card.mk false 0 .auto (Vector.replicate 8 0) 0 [] [] ∧
    (∀ p < 8,
      t.port p = Port.mk (mode := strappedMode s.strap p) (state := 0) (t1On := false) (t1Dl := 0)
        (t2On := false) (t2Dl := 0) (t3On := false) (t3Dl := 0) (t3First := true) (newalarm := .red)
        (alarmtimer := 0) (alarm := .red) (fifoB1 := 0) (fifoB2 := 0) (fifoD := 0)
        (syncPrio := s.strap.syncPrio[p]?.getD 0) (spanRunning := false) ∧
      t.session p = Session.mk (active := false) (pending := 0) (framesIn := 0) (framesOut := 0) ∧
      t.hostPort p = HostPort.mk (txq := []) (txoff := 0) (txbufB1 := List.replicate s.strap.chunk 0)
        (txbufB2 := List.replicate s.strap.chunk 0) (rxbufB1 := List.replicate s.strap.chunk 0)
        (rxbufB2 := List.replicate s.strap.chunk 0) ∧
      t.latch p = LineLatch.mk (code := 0) (t2exp := false) (signal := false) (auto := true) ∧
      t.fifoStat p = 0) ∧
    (∀ f < 32, t.fifo f = Fifo.mk (rxq := []) (rxpos := 0) (brx := []) (txopen := []) (txclosed := []) (btx := [])
      (rxRegs := FifoRegs.mk 0 0 0) (txRegs := FifoRegs.mk 0 0 0)) ∧
    t.hw.stSel = 0 ∧ t.hw.syncSel = 0 ∧ t.hw.fifoSel = 0 ∧ t.hw.tickCtrl = 0 ∧ t.hw.miscStat = 0 ∧
    t.hw.sci = 0 ∧ t.hw.busy = false ∧ t.hw.linelog = [] ∧
    t.strap = s.strap ∧ t.sched = s.sched ∧ t.draws = s.draws ∧
    t.script = { s.script with results := s.script.results ++ [.ok] }

/-- `CARD.START` enables ticks and interrupts, `CARD.STOP` disables both, and each changes nothing else but the
running flag (70_reset_and_hazards.md R203, R204). -/
def Obligations.CardStartStop : Prop :=
  ∀ s : State, s.sched = [] →
    exec .cardStart s = .next (({ s with
      card := { s.card with running := true }, hw := { s.hw with tickCtrl := 0x03 } } : State).answered .ok) ∧
    exec .cardStop s = .next (({ s with
      card := { s.card with running := false }, hw := { s.hw with tickCtrl := 0x00 } } : State).answered .ok)

/-! ### The whole machine -/

/-- Every command appends exactly one result to the script's results and writes nothing else of the script,
whatever the other agents do meanwhile; only a reset, the command itself or one issued meanwhile, changes the
configuration in force (10_state.md R17, 30_encoding.md R63, 00_scope.md R7). That `CARD.RESET` too keeps the
index and the earlier results, although 70_reset_and_hazards.md R201 lists pc 0 and results empty, is the model's
reading (log 3). -/
def Obligations.CommandsAnswerOnce : Prop :=
  ∀ (i : Instr) (s t : State), exec i s = .next t →
    (∃ v, t.script = { s.script with results := s.script.results ++ [v] }) ∧
    (i ≠ .cardReset → s.neverIssues .cardReset → t.cfg = s.cfg)

/-- The three logs are append-only: no command but a reset removes or changes an event, whatever the other
agents do meanwhile short of a reset (10_state.md R44). -/
def Obligations.LogsAppendOnly : Prop :=
  ∀ (i : Instr) (s t : State), exec i s = .next t → i ≠ .cardReset → s.neverIssues .cardReset →
    s.card.hostlog <+: t.card.hostlog ∧ s.card.diaglog <+: t.card.diaglog ∧ s.hw.linelog <+: t.hw.linelog

/-- What a port's own operations may not touch: the observation, forcing, starting, stopping, mapping, session
and exchange operations of port `p` leave the state, the session and the host buffers of every other port
(10_state.md R13, R14, R19). -/
def Obligations.PortsIsolated : Prop :=
  ∀ (i : Instr) (a : Byte) (s t : State) (q : Nat), s.sched = [] → q < 8 → q ≠ a.toNat →
    (i = .stObserve a ∨ (∃ code r, i = .stForce a code r) ∨ i = .stStart a ∨ i = .stStop a ∨
      (∃ c, i = .fmMapb a c) ∨ i = .fmMapd a ∨ i = .hdlcAttach a ∨ i = .hdlcDetach a ∨
      (∃ fr, i = .hdlcSubmit a fr) ∨ i = .hdlcRxframe a ∨ i = .hdlcRxdrain a ∨ i = .hdlcTxchunk a ∨
      i = .hdlcTxdrain a ∨ (∃ c, i = .bpXchg a c) ∨ (∃ c bytes, i = .hostTxbuf a c bytes)) →
    exec i s = .next t →
    t.port q = s.port q ∧ t.session q = s.session q ∧ t.hostPort q = s.hostPort q

/-- The published alarm of every port is the one last reported to the host, after every step, whatever the
other agents do (42_st_state_machine.md R113, 10_state.md R44). -/
def Obligations.AlarmsAsReported : Prop :=
  ∀ s t : State, s.alarmsReported → step s = .next t → t.alarmsReported

/-- A good state stays good in every step, whatever the other agents do: the configuration in range, timers by
mode, reserved bits 0, FIFO bounds and frames, the outstanding-frame counter equal to the frames queued
(43_hdlc_framer.md R149), whole chunks in the host buffers. What the other agents may do meanwhile is the
model's reading (log 7, log 8). -/
def Obligations.GoodStatesStayGood : Prop :=
  ∀ s t : State, s.good → step s = .next t → t.good

/-- The state after reset is good, its alarms are as reported, and it is scripted and not busy; its configuration
and its empty schedule are the model's choice (log 1, log 23). -/
def Obligations.ResetIsGood : Prop :=
  State.reset.good ∧ State.reset.alarmsReported ∧ State.reset.scripted ∧ State.reset.quiet

end
end

