-- ==== Sys2Proof/Laws/State.lean ====
section
/-! SUPPORT. Record updates of State: for each named update, what it leaves of each field, and what each
named read finds after it. -/

namespace Sys2Proof.Machine

variable (s : State)

/-! ### `setPort` -/

@[simp] theorem setPort_cfg (p : Nat) (x : Port) : (s.setPort p x).cfg = s.cfg := rfl
@[simp] theorem setPort_strap (p : Nat) (x : Port) : (s.setPort p x).strap = s.strap := rfl
@[simp] theorem setPort_live (p : Nat) (x : Port) : (s.setPort p x).live = s.live := rfl
@[simp] theorem setPort_card (p : Nat) (x : Port) : (s.setPort p x).card = s.card := rfl
@[simp] theorem setPort_sess (p : Nat) (x : Port) : (s.setPort p x).sess = s.sess := rfl
@[simp] theorem setPort_host (p : Nat) (x : Port) : (s.setPort p x).host = s.host := rfl
@[simp] theorem setPort_hw (p : Nat) (x : Port) : (s.setPort p x).hw = s.hw := rfl
@[simp] theorem setPort_script (p : Nat) (x : Port) : (s.setPort p x).script = s.script := rfl
@[simp] theorem setPort_sched (p : Nat) (x : Port) : (s.setPort p x).sched = s.sched := rfl
@[simp] theorem setPort_draws (p : Nat) (x : Port) : (s.setPort p x).draws = s.draws := rfl

/-! ### `modPort` -/

@[simp] theorem modPort_cfg (p : Nat) (g : Port → Port) : (s.modPort p g).cfg = s.cfg := rfl
@[simp] theorem modPort_strap (p : Nat) (g : Port → Port) : (s.modPort p g).strap = s.strap := rfl
@[simp] theorem modPort_live (p : Nat) (g : Port → Port) : (s.modPort p g).live = s.live := rfl
@[simp] theorem modPort_card (p : Nat) (g : Port → Port) : (s.modPort p g).card = s.card := rfl
@[simp] theorem modPort_sess (p : Nat) (g : Port → Port) : (s.modPort p g).sess = s.sess := rfl
@[simp] theorem modPort_host (p : Nat) (g : Port → Port) : (s.modPort p g).host = s.host := rfl
@[simp] theorem modPort_hw (p : Nat) (g : Port → Port) : (s.modPort p g).hw = s.hw := rfl
@[simp] theorem modPort_script (p : Nat) (g : Port → Port) : (s.modPort p g).script = s.script := rfl
@[simp] theorem modPort_sched (p : Nat) (g : Port → Port) : (s.modPort p g).sched = s.sched := rfl
@[simp] theorem modPort_draws (p : Nat) (g : Port → Port) : (s.modPort p g).draws = s.draws := rfl

/-! ### `setSession` -/

@[simp] theorem setSession_cfg (p : Nat) (x : Session) : (s.setSession p x).cfg = s.cfg := rfl
@[simp] theorem setSession_strap (p : Nat) (x : Session) : (s.setSession p x).strap = s.strap := rfl
@[simp] theorem setSession_live (p : Nat) (x : Session) : (s.setSession p x).live = s.live := rfl
@[simp] theorem setSession_card (p : Nat) (x : Session) : (s.setSession p x).card = s.card := rfl
@[simp] theorem setSession_ports (p : Nat) (x : Session) : (s.setSession p x).ports = s.ports := rfl
@[simp] theorem setSession_host (p : Nat) (x : Session) : (s.setSession p x).host = s.host := rfl
@[simp] theorem setSession_hw (p : Nat) (x : Session) : (s.setSession p x).hw = s.hw := rfl
@[simp] theorem setSession_script (p : Nat) (x : Session) : (s.setSession p x).script = s.script := rfl
@[simp] theorem setSession_sched (p : Nat) (x : Session) : (s.setSession p x).sched = s.sched := rfl
@[simp] theorem setSession_draws (p : Nat) (x : Session) : (s.setSession p x).draws = s.draws := rfl

/-! ### `modSession` -/

@[simp] theorem modSession_cfg (p : Nat) (g : Session → Session) : (s.modSession p g).cfg = s.cfg := rfl
@[simp] theorem modSession_strap (p : Nat) (g : Session → Session) : (s.modSession p g).strap = s.strap := rfl
@[simp] theorem modSession_live (p : Nat) (g : Session → Session) : (s.modSession p g).live = s.live := rfl
@[simp] theorem modSession_card (p : Nat) (g : Session → Session) : (s.modSession p g).card = s.card := rfl
@[simp] theorem modSession_ports (p : Nat) (g : Session → Session) : (s.modSession p g).ports = s.ports := rfl
@[simp] theorem modSession_host (p : Nat) (g : Session → Session) : (s.modSession p g).host = s.host := rfl
@[simp] theorem modSession_hw (p : Nat) (g : Session → Session) : (s.modSession p g).hw = s.hw := rfl
@[simp] theorem modSession_script (p : Nat) (g : Session → Session) : (s.modSession p g).script = s.script := rfl
@[simp] theorem modSession_sched (p : Nat) (g : Session → Session) : (s.modSession p g).sched = s.sched := rfl
@[simp] theorem modSession_draws (p : Nat) (g : Session → Session) : (s.modSession p g).draws = s.draws := rfl

/-! ### `setHostPort` -/

@[simp] theorem setHostPort_cfg (p : Nat) (x : HostPort) : (s.setHostPort p x).cfg = s.cfg := rfl
@[simp] theorem setHostPort_strap (p : Nat) (x : HostPort) : (s.setHostPort p x).strap = s.strap := rfl
@[simp] theorem setHostPort_live (p : Nat) (x : HostPort) : (s.setHostPort p x).live = s.live := rfl
@[simp] theorem setHostPort_card (p : Nat) (x : HostPort) : (s.setHostPort p x).card = s.card := rfl
@[simp] theorem setHostPort_ports (p : Nat) (x : HostPort) : (s.setHostPort p x).ports = s.ports := rfl
@[simp] theorem setHostPort_sess (p : Nat) (x : HostPort) : (s.setHostPort p x).sess = s.sess := rfl
@[simp] theorem setHostPort_hw (p : Nat) (x : HostPort) : (s.setHostPort p x).hw = s.hw := rfl
@[simp] theorem setHostPort_script (p : Nat) (x : HostPort) : (s.setHostPort p x).script = s.script := rfl
@[simp] theorem setHostPort_sched (p : Nat) (x : HostPort) : (s.setHostPort p x).sched = s.sched := rfl
@[simp] theorem setHostPort_draws (p : Nat) (x : HostPort) : (s.setHostPort p x).draws = s.draws := rfl

/-! ### `modHostPort` -/

@[simp] theorem modHostPort_cfg (p : Nat) (g : HostPort → HostPort) : (s.modHostPort p g).cfg = s.cfg := rfl
@[simp] theorem modHostPort_strap (p : Nat) (g : HostPort → HostPort) : (s.modHostPort p g).strap = s.strap := rfl
@[simp] theorem modHostPort_live (p : Nat) (g : HostPort → HostPort) : (s.modHostPort p g).live = s.live := rfl
@[simp] theorem modHostPort_card (p : Nat) (g : HostPort → HostPort) : (s.modHostPort p g).card = s.card := rfl
@[simp] theorem modHostPort_ports (p : Nat) (g : HostPort → HostPort) : (s.modHostPort p g).ports = s.ports := rfl
@[simp] theorem modHostPort_sess (p : Nat) (g : HostPort → HostPort) : (s.modHostPort p g).sess = s.sess := rfl
@[simp] theorem modHostPort_hw (p : Nat) (g : HostPort → HostPort) : (s.modHostPort p g).hw = s.hw := rfl
@[simp] theorem modHostPort_script (p : Nat) (g : HostPort → HostPort) : (s.modHostPort p g).script = s.script := rfl
@[simp] theorem modHostPort_sched (p : Nat) (g : HostPort → HostPort) : (s.modHostPort p g).sched = s.sched := rfl
@[simp] theorem modHostPort_draws (p : Nat) (g : HostPort → HostPort) : (s.modHostPort p g).draws = s.draws := rfl

/-! ### `modHw` -/

@[simp] theorem modHw_cfg (g : Hardware → Hardware) : (s.modHw g).cfg = s.cfg := rfl
@[simp] theorem modHw_strap (g : Hardware → Hardware) : (s.modHw g).strap = s.strap := rfl
@[simp] theorem modHw_live (g : Hardware → Hardware) : (s.modHw g).live = s.live := rfl
@[simp] theorem modHw_card (g : Hardware → Hardware) : (s.modHw g).card = s.card := rfl
@[simp] theorem modHw_ports (g : Hardware → Hardware) : (s.modHw g).ports = s.ports := rfl
@[simp] theorem modHw_sess (g : Hardware → Hardware) : (s.modHw g).sess = s.sess := rfl
@[simp] theorem modHw_host (g : Hardware → Hardware) : (s.modHw g).host = s.host := rfl
@[simp] theorem modHw_script (g : Hardware → Hardware) : (s.modHw g).script = s.script := rfl
@[simp] theorem modHw_sched (g : Hardware → Hardware) : (s.modHw g).sched = s.sched := rfl
@[simp] theorem modHw_draws (g : Hardware → Hardware) : (s.modHw g).draws = s.draws := rfl
@[simp] theorem modHw_hw (g : Hardware → Hardware) : (s.modHw g).hw = g s.hw := rfl

/-! ### `modCard` -/

@[simp] theorem modCard_cfg (g : Card → Card) : (s.modCard g).cfg = s.cfg := rfl
@[simp] theorem modCard_strap (g : Card → Card) : (s.modCard g).strap = s.strap := rfl
@[simp] theorem modCard_live (g : Card → Card) : (s.modCard g).live = s.live := rfl
@[simp] theorem modCard_ports (g : Card → Card) : (s.modCard g).ports = s.ports := rfl
@[simp] theorem modCard_sess (g : Card → Card) : (s.modCard g).sess = s.sess := rfl
@[simp] theorem modCard_host (g : Card → Card) : (s.modCard g).host = s.host := rfl
@[simp] theorem modCard_hw (g : Card → Card) : (s.modCard g).hw = s.hw := rfl
@[simp] theorem modCard_script (g : Card → Card) : (s.modCard g).script = s.script := rfl
@[simp] theorem modCard_sched (g : Card → Card) : (s.modCard g).sched = s.sched := rfl
@[simp] theorem modCard_draws (g : Card → Card) : (s.modCard g).draws = s.draws := rfl
@[simp] theorem modCard_card (g : Card → Card) : (s.modCard g).card = g s.card := rfl

/-! ### `setLatch` -/

@[simp] theorem setLatch_cfg (p : Nat) (x : LineLatch) : (s.setLatch p x).cfg = s.cfg := rfl
@[simp] theorem setLatch_strap (p : Nat) (x : LineLatch) : (s.setLatch p x).strap = s.strap := rfl
@[simp] theorem setLatch_live (p : Nat) (x : LineLatch) : (s.setLatch p x).live = s.live := rfl
@[simp] theorem setLatch_card (p : Nat) (x : LineLatch) : (s.setLatch p x).card = s.card := rfl
@[simp] theorem setLatch_ports (p : Nat) (x : LineLatch) : (s.setLatch p x).ports = s.ports := rfl
@[simp] theorem setLatch_sess (p : Nat) (x : LineLatch) : (s.setLatch p x).sess = s.sess := rfl
@[simp] theorem setLatch_host (p : Nat) (x : LineLatch) : (s.setLatch p x).host = s.host := rfl
@[simp] theorem setLatch_script (p : Nat) (x : LineLatch) : (s.setLatch p x).script = s.script := rfl
@[simp] theorem setLatch_sched (p : Nat) (x : LineLatch) : (s.setLatch p x).sched = s.sched := rfl
@[simp] theorem setLatch_draws (p : Nat) (x : LineLatch) : (s.setLatch p x).draws = s.draws := rfl
@[simp] theorem setLatch_hw_stSel (p : Nat) (x : LineLatch) : (s.setLatch p x).hw.stSel = s.hw.stSel := rfl
@[simp] theorem setLatch_hw_syncSel (p : Nat) (x : LineLatch) : (s.setLatch p x).hw.syncSel = s.hw.syncSel := rfl
@[simp] theorem setLatch_hw_fifoSel (p : Nat) (x : LineLatch) : (s.setLatch p x).hw.fifoSel = s.hw.fifoSel := rfl
@[simp] theorem setLatch_hw_tickCtrl (p : Nat) (x : LineLatch) : (s.setLatch p x).hw.tickCtrl = s.hw.tickCtrl := rfl
@[simp] theorem setLatch_hw_miscStat (p : Nat) (x : LineLatch) : (s.setLatch p x).hw.miscStat = s.hw.miscStat := rfl
@[simp] theorem setLatch_hw_sci (p : Nat) (x : LineLatch) : (s.setLatch p x).hw.sci = s.hw.sci := rfl
@[simp] theorem setLatch_hw_fifoStat (p : Nat) (x : LineLatch) : (s.setLatch p x).hw.fifoStat = s.hw.fifoStat := rfl
@[simp] theorem setLatch_hw_fifos (p : Nat) (x : LineLatch) : (s.setLatch p x).hw.fifos = s.hw.fifos := rfl
@[simp] theorem setLatch_hw_busy (p : Nat) (x : LineLatch) : (s.setLatch p x).hw.busy = s.hw.busy := rfl
@[simp] theorem setLatch_hw_linelog (p : Nat) (x : LineLatch) : (s.setLatch p x).hw.linelog = s.hw.linelog := rfl

/-! ### `setFifo` -/

@[simp] theorem setFifo_cfg (f : Nat) (x : Fifo) : (s.setFifo f x).cfg = s.cfg := rfl
@[simp] theorem setFifo_strap (f : Nat) (x : Fifo) : (s.setFifo f x).strap = s.strap := rfl
@[simp] theorem setFifo_live (f : Nat) (x : Fifo) : (s.setFifo f x).live = s.live := rfl
@[simp] theorem setFifo_card (f : Nat) (x : Fifo) : (s.setFifo f x).card = s.card := rfl
@[simp] theorem setFifo_ports (f : Nat) (x : Fifo) : (s.setFifo f x).ports = s.ports := rfl
@[simp] theorem setFifo_sess (f : Nat) (x : Fifo) : (s.setFifo f x).sess = s.sess := rfl
@[simp] theorem setFifo_host (f : Nat) (x : Fifo) : (s.setFifo f x).host = s.host := rfl
@[simp] theorem setFifo_script (f : Nat) (x : Fifo) : (s.setFifo f x).script = s.script := rfl
@[simp] theorem setFifo_sched (f : Nat) (x : Fifo) : (s.setFifo f x).sched = s.sched := rfl
@[simp] theorem setFifo_draws (f : Nat) (x : Fifo) : (s.setFifo f x).draws = s.draws := rfl
@[simp] theorem setFifo_hw_line (f : Nat) (x : Fifo) : (s.setFifo f x).hw.line = s.hw.line := rfl
@[simp] theorem setFifo_hw_stSel (f : Nat) (x : Fifo) : (s.setFifo f x).hw.stSel = s.hw.stSel := rfl
@[simp] theorem setFifo_hw_syncSel (f : Nat) (x : Fifo) : (s.setFifo f x).hw.syncSel = s.hw.syncSel := rfl
@[simp] theorem setFifo_hw_fifoSel (f : Nat) (x : Fifo) : (s.setFifo f x).hw.fifoSel = s.hw.fifoSel := rfl
@[simp] theorem setFifo_hw_tickCtrl (f : Nat) (x : Fifo) : (s.setFifo f x).hw.tickCtrl = s.hw.tickCtrl := rfl
@[simp] theorem setFifo_hw_miscStat (f : Nat) (x : Fifo) : (s.setFifo f x).hw.miscStat = s.hw.miscStat := rfl
@[simp] theorem setFifo_hw_sci (f : Nat) (x : Fifo) : (s.setFifo f x).hw.sci = s.hw.sci := rfl
@[simp] theorem setFifo_hw_fifoStat (f : Nat) (x : Fifo) : (s.setFifo f x).hw.fifoStat = s.hw.fifoStat := rfl
@[simp] theorem setFifo_hw_busy (f : Nat) (x : Fifo) : (s.setFifo f x).hw.busy = s.hw.busy := rfl
@[simp] theorem setFifo_hw_linelog (f : Nat) (x : Fifo) : (s.setFifo f x).hw.linelog = s.hw.linelog := rfl

/-! ### `modFifo` -/

@[simp] theorem modFifo_cfg (f : Nat) (g : Fifo → Fifo) : (s.modFifo f g).cfg = s.cfg := rfl
@[simp] theorem modFifo_strap (f : Nat) (g : Fifo → Fifo) : (s.modFifo f g).strap = s.strap := rfl
@[simp] theorem modFifo_live (f : Nat) (g : Fifo → Fifo) : (s.modFifo f g).live = s.live := rfl
@[simp] theorem modFifo_card (f : Nat) (g : Fifo → Fifo) : (s.modFifo f g).card = s.card := rfl
@[simp] theorem modFifo_ports (f : Nat) (g : Fifo → Fifo) : (s.modFifo f g).ports = s.ports := rfl
@[simp] theorem modFifo_sess (f : Nat) (g : Fifo → Fifo) : (s.modFifo f g).sess = s.sess := rfl
@[simp] theorem modFifo_host (f : Nat) (g : Fifo → Fifo) : (s.modFifo f g).host = s.host := rfl
@[simp] theorem modFifo_script (f : Nat) (g : Fifo → Fifo) : (s.modFifo f g).script = s.script := rfl
@[simp] theorem modFifo_sched (f : Nat) (g : Fifo → Fifo) : (s.modFifo f g).sched = s.sched := rfl
@[simp] theorem modFifo_draws (f : Nat) (g : Fifo → Fifo) : (s.modFifo f g).draws = s.draws := rfl
@[simp] theorem modFifo_hw_line (f : Nat) (g : Fifo → Fifo) : (s.modFifo f g).hw.line = s.hw.line := rfl
@[simp] theorem modFifo_hw_stSel (f : Nat) (g : Fifo → Fifo) : (s.modFifo f g).hw.stSel = s.hw.stSel := rfl
@[simp] theorem modFifo_hw_syncSel (f : Nat) (g : Fifo → Fifo) : (s.modFifo f g).hw.syncSel = s.hw.syncSel := rfl
@[simp] theorem modFifo_hw_fifoSel (f : Nat) (g : Fifo → Fifo) : (s.modFifo f g).hw.fifoSel = s.hw.fifoSel := rfl
@[simp] theorem modFifo_hw_tickCtrl (f : Nat) (g : Fifo → Fifo) : (s.modFifo f g).hw.tickCtrl = s.hw.tickCtrl := rfl
@[simp] theorem modFifo_hw_miscStat (f : Nat) (g : Fifo → Fifo) : (s.modFifo f g).hw.miscStat = s.hw.miscStat := rfl
@[simp] theorem modFifo_hw_sci (f : Nat) (g : Fifo → Fifo) : (s.modFifo f g).hw.sci = s.hw.sci := rfl
@[simp] theorem modFifo_hw_fifoStat (f : Nat) (g : Fifo → Fifo) : (s.modFifo f g).hw.fifoStat = s.hw.fifoStat := rfl
@[simp] theorem modFifo_hw_busy (f : Nat) (g : Fifo → Fifo) : (s.modFifo f g).hw.busy = s.hw.busy := rfl
@[simp] theorem modFifo_hw_linelog (f : Nat) (g : Fifo → Fifo) : (s.modFifo f g).hw.linelog = s.hw.linelog := rfl

/-! ### `setFifoStat` -/

@[simp] theorem setFifoStat_cfg (b : Nat) (v : Byte) : (s.setFifoStat b v).cfg = s.cfg := rfl
@[simp] theorem setFifoStat_strap (b : Nat) (v : Byte) : (s.setFifoStat b v).strap = s.strap := rfl
@[simp] theorem setFifoStat_live (b : Nat) (v : Byte) : (s.setFifoStat b v).live = s.live := rfl
@[simp] theorem setFifoStat_card (b : Nat) (v : Byte) : (s.setFifoStat b v).card = s.card := rfl
@[simp] theorem setFifoStat_ports (b : Nat) (v : Byte) : (s.setFifoStat b v).ports = s.ports := rfl
@[simp] theorem setFifoStat_sess (b : Nat) (v : Byte) : (s.setFifoStat b v).sess = s.sess := rfl
@[simp] theorem setFifoStat_host (b : Nat) (v : Byte) : (s.setFifoStat b v).host = s.host := rfl
@[simp] theorem setFifoStat_script (b : Nat) (v : Byte) : (s.setFifoStat b v).script = s.script := rfl
@[simp] theorem setFifoStat_sched (b : Nat) (v : Byte) : (s.setFifoStat b v).sched = s.sched := rfl
@[simp] theorem setFifoStat_draws (b : Nat) (v : Byte) : (s.setFifoStat b v).draws = s.draws := rfl
@[simp] theorem setFifoStat_hw_line (b : Nat) (v : Byte) : (s.setFifoStat b v).hw.line = s.hw.line := rfl
@[simp] theorem setFifoStat_hw_stSel (b : Nat) (v : Byte) : (s.setFifoStat b v).hw.stSel = s.hw.stSel := rfl
@[simp] theorem setFifoStat_hw_syncSel (b : Nat) (v : Byte) : (s.setFifoStat b v).hw.syncSel = s.hw.syncSel := rfl
@[simp] theorem setFifoStat_hw_fifoSel (b : Nat) (v : Byte) : (s.setFifoStat b v).hw.fifoSel = s.hw.fifoSel := rfl
@[simp] theorem setFifoStat_hw_tickCtrl (b : Nat) (v : Byte) : (s.setFifoStat b v).hw.tickCtrl = s.hw.tickCtrl := rfl
@[simp] theorem setFifoStat_hw_miscStat (b : Nat) (v : Byte) : (s.setFifoStat b v).hw.miscStat = s.hw.miscStat := rfl
@[simp] theorem setFifoStat_hw_sci (b : Nat) (v : Byte) : (s.setFifoStat b v).hw.sci = s.hw.sci := rfl
@[simp] theorem setFifoStat_hw_fifos (b : Nat) (v : Byte) : (s.setFifoStat b v).hw.fifos = s.hw.fifos := rfl
@[simp] theorem setFifoStat_hw_busy (b : Nat) (v : Byte) : (s.setFifoStat b v).hw.busy = s.hw.busy := rfl
@[simp] theorem setFifoStat_hw_linelog (b : Nat) (v : Byte) : (s.setFifoStat b v).hw.linelog = s.hw.linelog := rfl

/-! ### `raisePending` -/

@[simp] theorem raisePending_cfg (f : Nat) (d : Dir) : (s.raisePending f d).cfg = s.cfg := rfl
@[simp] theorem raisePending_strap (f : Nat) (d : Dir) : (s.raisePending f d).strap = s.strap := rfl
@[simp] theorem raisePending_live (f : Nat) (d : Dir) : (s.raisePending f d).live = s.live := rfl
@[simp] theorem raisePending_card (f : Nat) (d : Dir) : (s.raisePending f d).card = s.card := rfl
@[simp] theorem raisePending_ports (f : Nat) (d : Dir) : (s.raisePending f d).ports = s.ports := rfl
@[simp] theorem raisePending_sess (f : Nat) (d : Dir) : (s.raisePending f d).sess = s.sess := rfl
@[simp] theorem raisePending_host (f : Nat) (d : Dir) : (s.raisePending f d).host = s.host := rfl
@[simp] theorem raisePending_script (f : Nat) (d : Dir) : (s.raisePending f d).script = s.script := rfl
@[simp] theorem raisePending_sched (f : Nat) (d : Dir) : (s.raisePending f d).sched = s.sched := rfl
@[simp] theorem raisePending_draws (f : Nat) (d : Dir) : (s.raisePending f d).draws = s.draws := rfl
@[simp] theorem raisePending_hw_line (f : Nat) (d : Dir) : (s.raisePending f d).hw.line = s.hw.line := rfl
@[simp] theorem raisePending_hw_stSel (f : Nat) (d : Dir) : (s.raisePending f d).hw.stSel = s.hw.stSel := rfl
@[simp] theorem raisePending_hw_syncSel (f : Nat) (d : Dir) : (s.raisePending f d).hw.syncSel = s.hw.syncSel := rfl
@[simp] theorem raisePending_hw_fifoSel (f : Nat) (d : Dir) : (s.raisePending f d).hw.fifoSel = s.hw.fifoSel := rfl
@[simp] theorem raisePending_hw_tickCtrl (f : Nat) (d : Dir) : (s.raisePending f d).hw.tickCtrl = s.hw.tickCtrl := rfl
@[simp] theorem raisePending_hw_miscStat (f : Nat) (d : Dir) : (s.raisePending f d).hw.miscStat = s.hw.miscStat := rfl
@[simp] theorem raisePending_hw_sci (f : Nat) (d : Dir) : (s.raisePending f d).hw.sci = s.hw.sci := rfl
@[simp] theorem raisePending_hw_fifos (f : Nat) (d : Dir) : (s.raisePending f d).hw.fifos = s.hw.fifos := rfl
@[simp] theorem raisePending_hw_busy (f : Nat) (d : Dir) : (s.raisePending f d).hw.busy = s.hw.busy := rfl
@[simp] theorem raisePending_hw_linelog (f : Nat) (d : Dir) : (s.raisePending f d).hw.linelog = s.hw.linelog := rfl

/-! ### `clearPending` -/

@[simp] theorem clearPending_cfg (f : Nat) (d : Dir) : (s.clearPending f d).cfg = s.cfg := rfl
@[simp] theorem clearPending_strap (f : Nat) (d : Dir) : (s.clearPending f d).strap = s.strap := rfl
@[simp] theorem clearPending_live (f : Nat) (d : Dir) : (s.clearPending f d).live = s.live := rfl
@[simp] theorem clearPending_card (f : Nat) (d : Dir) : (s.clearPending f d).card = s.card := rfl
@[simp] theorem clearPending_ports (f : Nat) (d : Dir) : (s.clearPending f d).ports = s.ports := rfl
@[simp] theorem clearPending_sess (f : Nat) (d : Dir) : (s.clearPending f d).sess = s.sess := rfl
@[simp] theorem clearPending_host (f : Nat) (d : Dir) : (s.clearPending f d).host = s.host := rfl
@[simp] theorem clearPending_script (f : Nat) (d : Dir) : (s.clearPending f d).script = s.script := rfl
@[simp] theorem clearPending_sched (f : Nat) (d : Dir) : (s.clearPending f d).sched = s.sched := rfl
@[simp] theorem clearPending_draws (f : Nat) (d : Dir) : (s.clearPending f d).draws = s.draws := rfl
@[simp] theorem clearPending_hw_line (f : Nat) (d : Dir) : (s.clearPending f d).hw.line = s.hw.line := rfl
@[simp] theorem clearPending_hw_stSel (f : Nat) (d : Dir) : (s.clearPending f d).hw.stSel = s.hw.stSel := rfl
@[simp] theorem clearPending_hw_syncSel (f : Nat) (d : Dir) : (s.clearPending f d).hw.syncSel = s.hw.syncSel := rfl
@[simp] theorem clearPending_hw_fifoSel (f : Nat) (d : Dir) : (s.clearPending f d).hw.fifoSel = s.hw.fifoSel := rfl
@[simp] theorem clearPending_hw_tickCtrl (f : Nat) (d : Dir) : (s.clearPending f d).hw.tickCtrl = s.hw.tickCtrl := rfl
@[simp] theorem clearPending_hw_miscStat (f : Nat) (d : Dir) : (s.clearPending f d).hw.miscStat = s.hw.miscStat := rfl
@[simp] theorem clearPending_hw_sci (f : Nat) (d : Dir) : (s.clearPending f d).hw.sci = s.hw.sci := rfl
@[simp] theorem clearPending_hw_fifos (f : Nat) (d : Dir) : (s.clearPending f d).hw.fifos = s.hw.fifos := rfl
@[simp] theorem clearPending_hw_busy (f : Nat) (d : Dir) : (s.clearPending f d).hw.busy = s.hw.busy := rfl
@[simp] theorem clearPending_hw_linelog (f : Nat) (d : Dir) : (s.clearPending f d).hw.linelog = s.hw.linelog := rfl

/-! ### `select` -/

@[simp] theorem select_cfg (f : Nat) (d : Dir) : (s.select f d).cfg = s.cfg := rfl
@[simp] theorem select_strap (f : Nat) (d : Dir) : (s.select f d).strap = s.strap := rfl
@[simp] theorem select_live (f : Nat) (d : Dir) : (s.select f d).live = s.live := rfl
@[simp] theorem select_card (f : Nat) (d : Dir) : (s.select f d).card = s.card := rfl
@[simp] theorem select_ports (f : Nat) (d : Dir) : (s.select f d).ports = s.ports := rfl
@[simp] theorem select_sess (f : Nat) (d : Dir) : (s.select f d).sess = s.sess := rfl
@[simp] theorem select_host (f : Nat) (d : Dir) : (s.select f d).host = s.host := rfl
@[simp] theorem select_script (f : Nat) (d : Dir) : (s.select f d).script = s.script := rfl
@[simp] theorem select_sched (f : Nat) (d : Dir) : (s.select f d).sched = s.sched := rfl
@[simp] theorem select_draws (f : Nat) (d : Dir) : (s.select f d).draws = s.draws := rfl
@[simp] theorem select_hw_line (f : Nat) (d : Dir) : (s.select f d).hw.line = s.hw.line := rfl
@[simp] theorem select_hw_stSel (f : Nat) (d : Dir) : (s.select f d).hw.stSel = s.hw.stSel := rfl
@[simp] theorem select_hw_syncSel (f : Nat) (d : Dir) : (s.select f d).hw.syncSel = s.hw.syncSel := rfl
@[simp] theorem select_hw_tickCtrl (f : Nat) (d : Dir) : (s.select f d).hw.tickCtrl = s.hw.tickCtrl := rfl
@[simp] theorem select_hw_miscStat (f : Nat) (d : Dir) : (s.select f d).hw.miscStat = s.hw.miscStat := rfl
@[simp] theorem select_hw_sci (f : Nat) (d : Dir) : (s.select f d).hw.sci = s.hw.sci := rfl
@[simp] theorem select_hw_fifoStat (f : Nat) (d : Dir) : (s.select f d).hw.fifoStat = s.hw.fifoStat := rfl
@[simp] theorem select_hw_fifos (f : Nat) (d : Dir) : (s.select f d).hw.fifos = s.hw.fifos := rfl
@[simp] theorem select_hw_busy (f : Nat) (d : Dir) : (s.select f d).hw.busy = s.hw.busy := rfl
@[simp] theorem select_hw_linelog (f : Nat) (d : Dir) : (s.select f d).hw.linelog = s.hw.linelog := rfl
@[simp] theorem select_hw_fifoSel (f : Nat) (d : Dir) : (s.select f d).hw.fifoSel = selByte f d := rfl

/-! ### `lineout` -/

@[simp] theorem lineout_cfg (e : LineEvent) : (s.lineout e).cfg = s.cfg := rfl
@[simp] theorem lineout_strap (e : LineEvent) : (s.lineout e).strap = s.strap := rfl
@[simp] theorem lineout_live (e : LineEvent) : (s.lineout e).live = s.live := rfl
@[simp] theorem lineout_card (e : LineEvent) : (s.lineout e).card = s.card := rfl
@[simp] theorem lineout_ports (e : LineEvent) : (s.lineout e).ports = s.ports := rfl
@[simp] theorem lineout_sess (e : LineEvent) : (s.lineout e).sess = s.sess := rfl
@[simp] theorem lineout_host (e : LineEvent) : (s.lineout e).host = s.host := rfl
@[simp] theorem lineout_script (e : LineEvent) : (s.lineout e).script = s.script := rfl
@[simp] theorem lineout_sched (e : LineEvent) : (s.lineout e).sched = s.sched := rfl
@[simp] theorem lineout_draws (e : LineEvent) : (s.lineout e).draws = s.draws := rfl
@[simp] theorem lineout_hw_line (e : LineEvent) : (s.lineout e).hw.line = s.hw.line := rfl
@[simp] theorem lineout_hw_stSel (e : LineEvent) : (s.lineout e).hw.stSel = s.hw.stSel := rfl
@[simp] theorem lineout_hw_syncSel (e : LineEvent) : (s.lineout e).hw.syncSel = s.hw.syncSel := rfl
@[simp] theorem lineout_hw_fifoSel (e : LineEvent) : (s.lineout e).hw.fifoSel = s.hw.fifoSel := rfl
@[simp] theorem lineout_hw_tickCtrl (e : LineEvent) : (s.lineout e).hw.tickCtrl = s.hw.tickCtrl := rfl
@[simp] theorem lineout_hw_miscStat (e : LineEvent) : (s.lineout e).hw.miscStat = s.hw.miscStat := rfl
@[simp] theorem lineout_hw_sci (e : LineEvent) : (s.lineout e).hw.sci = s.hw.sci := rfl
@[simp] theorem lineout_hw_fifoStat (e : LineEvent) : (s.lineout e).hw.fifoStat = s.hw.fifoStat := rfl
@[simp] theorem lineout_hw_fifos (e : LineEvent) : (s.lineout e).hw.fifos = s.hw.fifos := rfl
@[simp] theorem lineout_hw_busy (e : LineEvent) : (s.lineout e).hw.busy = s.hw.busy := rfl
@[simp] theorem lineout_hw_linelog (e : LineEvent) : (s.lineout e).hw.linelog = s.hw.linelog ++ [e] := rfl

/-! ### `setFifoAcc` -/

@[simp] theorem setFifoAcc_cfg (b : Nat) (v : Byte) : (s.setFifoAcc b v).cfg = s.cfg := rfl
@[simp] theorem setFifoAcc_strap (b : Nat) (v : Byte) : (s.setFifoAcc b v).strap = s.strap := rfl
@[simp] theorem setFifoAcc_live (b : Nat) (v : Byte) : (s.setFifoAcc b v).live = s.live := rfl
@[simp] theorem setFifoAcc_ports (b : Nat) (v : Byte) : (s.setFifoAcc b v).ports = s.ports := rfl
@[simp] theorem setFifoAcc_sess (b : Nat) (v : Byte) : (s.setFifoAcc b v).sess = s.sess := rfl
@[simp] theorem setFifoAcc_host (b : Nat) (v : Byte) : (s.setFifoAcc b v).host = s.host := rfl
@[simp] theorem setFifoAcc_hw (b : Nat) (v : Byte) : (s.setFifoAcc b v).hw = s.hw := rfl
@[simp] theorem setFifoAcc_script (b : Nat) (v : Byte) : (s.setFifoAcc b v).script = s.script := rfl
@[simp] theorem setFifoAcc_sched (b : Nat) (v : Byte) : (s.setFifoAcc b v).sched = s.sched := rfl
@[simp] theorem setFifoAcc_draws (b : Nat) (v : Byte) : (s.setFifoAcc b v).draws = s.draws := rfl
@[simp] theorem setFifoAcc_card_running (b : Nat) (v : Byte) : (s.setFifoAcc b v).card.running = s.card.running := rfl
@[simp] theorem setFifoAcc_card_ticks (b : Nat) (v : Byte) : (s.setFifoAcc b v).card.ticks = s.card.ticks := rfl
@[simp] theorem setFifoAcc_card_syncsrc (b : Nat) (v : Byte) : (s.setFifoAcc b v).card.syncsrc = s.card.syncsrc := rfl
@[simp] theorem setFifoAcc_card_miscAcc (b : Nat) (v : Byte) : (s.setFifoAcc b v).card.miscAcc = s.card.miscAcc := rfl
@[simp] theorem setFifoAcc_card_hostlog (b : Nat) (v : Byte) : (s.setFifoAcc b v).card.hostlog = s.card.hostlog := rfl
@[simp] theorem setFifoAcc_card_diaglog (b : Nat) (v : Byte) : (s.setFifoAcc b v).card.diaglog = s.card.diaglog := rfl

/-! ### `emit` -/

@[simp] theorem emit_cfg (e : HostEvent) : (s.emit e).cfg = s.cfg := rfl
@[simp] theorem emit_strap (e : HostEvent) : (s.emit e).strap = s.strap := rfl
@[simp] theorem emit_live (e : HostEvent) : (s.emit e).live = s.live := rfl
@[simp] theorem emit_ports (e : HostEvent) : (s.emit e).ports = s.ports := rfl
@[simp] theorem emit_sess (e : HostEvent) : (s.emit e).sess = s.sess := rfl
@[simp] theorem emit_host (e : HostEvent) : (s.emit e).host = s.host := rfl
@[simp] theorem emit_hw (e : HostEvent) : (s.emit e).hw = s.hw := rfl
@[simp] theorem emit_script (e : HostEvent) : (s.emit e).script = s.script := rfl
@[simp] theorem emit_sched (e : HostEvent) : (s.emit e).sched = s.sched := rfl
@[simp] theorem emit_draws (e : HostEvent) : (s.emit e).draws = s.draws := rfl
@[simp] theorem emit_card_running (e : HostEvent) : (s.emit e).card.running = s.card.running := rfl
@[simp] theorem emit_card_ticks (e : HostEvent) : (s.emit e).card.ticks = s.card.ticks := rfl
@[simp] theorem emit_card_syncsrc (e : HostEvent) : (s.emit e).card.syncsrc = s.card.syncsrc := rfl
@[simp] theorem emit_card_fifoAcc (e : HostEvent) : (s.emit e).card.fifoAcc = s.card.fifoAcc := rfl
@[simp] theorem emit_card_miscAcc (e : HostEvent) : (s.emit e).card.miscAcc = s.card.miscAcc := rfl
@[simp] theorem emit_card_diaglog (e : HostEvent) : (s.emit e).card.diaglog = s.card.diaglog := rfl
@[simp] theorem emit_card_hostlog (e : HostEvent) : (s.emit e).card.hostlog = s.card.hostlog ++ [e] := rfl

/-! ### `diag` -/

@[simp] theorem diag_cfg (e : DiagEvent) : (s.diag e).cfg = s.cfg := rfl
@[simp] theorem diag_strap (e : DiagEvent) : (s.diag e).strap = s.strap := rfl
@[simp] theorem diag_live (e : DiagEvent) : (s.diag e).live = s.live := rfl
@[simp] theorem diag_ports (e : DiagEvent) : (s.diag e).ports = s.ports := rfl
@[simp] theorem diag_sess (e : DiagEvent) : (s.diag e).sess = s.sess := rfl
@[simp] theorem diag_host (e : DiagEvent) : (s.diag e).host = s.host := rfl
@[simp] theorem diag_hw (e : DiagEvent) : (s.diag e).hw = s.hw := rfl
@[simp] theorem diag_script (e : DiagEvent) : (s.diag e).script = s.script := rfl
@[simp] theorem diag_sched (e : DiagEvent) : (s.diag e).sched = s.sched := rfl
@[simp] theorem diag_draws (e : DiagEvent) : (s.diag e).draws = s.draws := rfl
@[simp] theorem diag_card_running (e : DiagEvent) : (s.diag e).card.running = s.card.running := rfl
@[simp] theorem diag_card_ticks (e : DiagEvent) : (s.diag e).card.ticks = s.card.ticks := rfl
@[simp] theorem diag_card_syncsrc (e : DiagEvent) : (s.diag e).card.syncsrc = s.card.syncsrc := rfl
@[simp] theorem diag_card_fifoAcc (e : DiagEvent) : (s.diag e).card.fifoAcc = s.card.fifoAcc := rfl
@[simp] theorem diag_card_miscAcc (e : DiagEvent) : (s.diag e).card.miscAcc = s.card.miscAcc := rfl
@[simp] theorem diag_card_hostlog (e : DiagEvent) : (s.diag e).card.hostlog = s.card.hostlog := rfl
@[simp] theorem diag_card_diaglog (e : DiagEvent) : (s.diag e).card.diaglog = s.card.diaglog ++ [e] := rfl

/-! ### `countDraw` -/

@[simp] theorem countDraw_cfg : (s.countDraw).cfg = s.cfg := rfl
@[simp] theorem countDraw_strap : (s.countDraw).strap = s.strap := rfl
@[simp] theorem countDraw_live : (s.countDraw).live = s.live := rfl
@[simp] theorem countDraw_card : (s.countDraw).card = s.card := rfl
@[simp] theorem countDraw_ports : (s.countDraw).ports = s.ports := rfl
@[simp] theorem countDraw_sess : (s.countDraw).sess = s.sess := rfl
@[simp] theorem countDraw_host : (s.countDraw).host = s.host := rfl
@[simp] theorem countDraw_hw : (s.countDraw).hw = s.hw := rfl
@[simp] theorem countDraw_script : (s.countDraw).script = s.script := rfl
@[simp] theorem countDraw_sched : (s.countDraw).sched = s.sched := rfl
@[simp] theorem countDraw_draws : s.countDraw.draws = s.draws + 1 := rfl

/-! ### `answered` -/

@[simp] theorem answered_cfg (v : Result) : (s.answered v).cfg = s.cfg := rfl
@[simp] theorem answered_strap (v : Result) : (s.answered v).strap = s.strap := rfl
@[simp] theorem answered_live (v : Result) : (s.answered v).live = s.live := rfl
@[simp] theorem answered_card (v : Result) : (s.answered v).card = s.card := rfl
@[simp] theorem answered_ports (v : Result) : (s.answered v).ports = s.ports := rfl
@[simp] theorem answered_sess (v : Result) : (s.answered v).sess = s.sess := rfl
@[simp] theorem answered_host (v : Result) : (s.answered v).host = s.host := rfl
@[simp] theorem answered_hw (v : Result) : (s.answered v).hw = s.hw := rfl
@[simp] theorem answered_sched (v : Result) : (s.answered v).sched = s.sched := rfl
@[simp] theorem answered_draws (v : Result) : (s.answered v).draws = s.draws := rfl
@[simp] theorem answered_words (v : Result) : (s.answered v).script.words = s.script.words := rfl
@[simp] theorem answered_pc (v : Result) : (s.answered v).script.pc = s.script.pc := rfl
@[simp] theorem answered_results (v : Result) :
    (s.answered v).script.results = s.script.results ++ [v] := rfl

end Sys2Proof.Machine
end

