-- ==== Sys2Proof/Laws/Tables.lean ====
section
/-! SUPPORT. Reads of the tables of State after writes of them: a read of the entry written finds what was
written, a read of any other entry or table finds what stood there. -/

namespace Sys2Proof.Machine

/-! ### Vectors -/

/-- A read of an entry just written, in range. -/
theorem getD_setIfInBounds_self {α : Type} {n : Nat} (v : Vector α n) (i : Nat) (x d : α) (h : i < n) :
    ((v.setIfInBounds i x)[i]?).getD d = x := by
  simp [h]

/-- A read of another entry than the one written. -/
theorem getD_setIfInBounds_ne {α : Type} {n : Nat} (v : Vector α n) (i j : Nat) (x d : α) (h : j ≠ i) :
    ((v.setIfInBounds i x)[j]?).getD d = (v[j]?).getD d := by
  rw [Vector.getElem?_setIfInBounds, if_neg (Ne.symm h)]

/-- Writing the entry that stands there changes nothing. -/
theorem setIfInBounds_getD {α : Type} {n : Nat} (v : Vector α n) (i : Nat) (d : α) :
    v.setIfInBounds i ((v[i]?).getD d) = v := by
  by_cases h : i < n
  · apply Vector.ext
    intro j hj
    rw [Vector.getElem_setIfInBounds]
    split
    · subst_vars; simp [hj]
    · rfl
  · apply Vector.ext
    intro j hj
    rw [Vector.getElem_setIfInBounds, if_neg (by omega)]

variable (s : State)

/-! ### `setPort` and `port` -/

@[simp] theorem port_setPort (p : Nat) (x : Port) (h : p < 8) : (s.setPort p x).port p = x :=
  getD_setIfInBounds_self _ _ _ _ h
theorem port_setPort_ne (p q : Nat) (x : Port) (h : q ≠ p) : (s.setPort p x).port q = s.port q :=
  getD_setIfInBounds_ne _ _ _ _ _ h
theorem port_setPort_eq (p q : Nat) (x : Port) (h : p < 8) :
    (s.setPort p x).port q = if q = p then x else s.port q := by
  by_cases e : q = p
  · subst e; rw [if_pos rfl, port_setPort _ _ _ h]
  · rw [if_neg e, port_setPort_ne _ _ _ _ e]
@[simp] theorem setPort_setPort (p : Nat) (x y : Port) : (s.setPort p x).setPort p y = s.setPort p y := by
  simp [State.setPort]
@[simp] theorem setPort_port (p : Nat) : s.setPort p (s.port p) = s := by
  simp [State.setPort, State.port, setIfInBounds_getD]
@[simp] theorem port_modPort (p : Nat) (k : Port → Port) (h : p < 8) :
    (s.modPort p k).port p = k (s.port p) := by
  simp [State.modPort, h]
theorem port_modPort_ne (p q : Nat) (k : Port → Port) (h : q ≠ p) :
    (s.modPort p k).port q = s.port q :=
  port_setPort_ne _ _ _ _ h
theorem port_modPort_eq (p q : Nat) (k : Port → Port) (h : p < 8) :
    (s.modPort p k).port q = if q = p then k (s.port p) else s.port q :=
  port_setPort_eq _ _ _ _ h
@[simp] theorem modPort_modPort (p : Nat) (k l : Port → Port) (h : p < 8) :
    (s.modPort p k).modPort p l = s.modPort p fun x => l (k x) := by
  simp [State.modPort, h]
theorem modPort_congr (p : Nat) {k l : Port → Port} (h : k (s.port p) = l (s.port p)) :
    s.modPort p k = s.modPort p l := by
  rw [State.modPort, State.modPort, h]
theorem modPort_self (p : Nat) {k : Port → Port} (h : k (s.port p) = s.port p) : s.modPort p k = s := by
  rw [State.modPort, h, setPort_port]
theorem setPort_eq_modPort (p : Nat) (x : Port) : s.setPort p x = s.modPort p fun _ => x := rfl

/-! ### `setSession` and `session` -/

@[simp] theorem session_setSession (p : Nat) (x : Session) (h : p < 8) : (s.setSession p x).session p = x :=
  getD_setIfInBounds_self _ _ _ _ h
theorem session_setSession_ne (p q : Nat) (x : Session) (h : q ≠ p) : (s.setSession p x).session q = s.session q :=
  getD_setIfInBounds_ne _ _ _ _ _ h
theorem session_setSession_eq (p q : Nat) (x : Session) (h : p < 8) :
    (s.setSession p x).session q = if q = p then x else s.session q := by
  by_cases e : q = p
  · subst e; rw [if_pos rfl, session_setSession _ _ _ h]
  · rw [if_neg e, session_setSession_ne _ _ _ _ e]
@[simp] theorem setSession_setSession (p : Nat) (x y : Session) : (s.setSession p x).setSession p y = s.setSession p y := by
  simp [State.setSession]
@[simp] theorem setSession_session (p : Nat) : s.setSession p (s.session p) = s := by
  simp [State.setSession, State.session, setIfInBounds_getD]
@[simp] theorem session_modSession (p : Nat) (k : Session → Session) (h : p < 8) :
    (s.modSession p k).session p = k (s.session p) := by
  simp [State.modSession, h]
theorem session_modSession_ne (p q : Nat) (k : Session → Session) (h : q ≠ p) :
    (s.modSession p k).session q = s.session q :=
  session_setSession_ne _ _ _ _ h
theorem session_modSession_eq (p q : Nat) (k : Session → Session) (h : p < 8) :
    (s.modSession p k).session q = if q = p then k (s.session p) else s.session q :=
  session_setSession_eq _ _ _ _ h
@[simp] theorem modSession_modSession (p : Nat) (k l : Session → Session) (h : p < 8) :
    (s.modSession p k).modSession p l = s.modSession p fun x => l (k x) := by
  simp [State.modSession, h]
theorem modSession_congr (p : Nat) {k l : Session → Session} (h : k (s.session p) = l (s.session p)) :
    s.modSession p k = s.modSession p l := by
  rw [State.modSession, State.modSession, h]
theorem modSession_self (p : Nat) {k : Session → Session} (h : k (s.session p) = s.session p) : s.modSession p k = s := by
  rw [State.modSession, h, setSession_session]
theorem setSession_eq_modSession (p : Nat) (x : Session) : s.setSession p x = s.modSession p fun _ => x := rfl

/-! ### `setHostPort` and `hostPort` -/

@[simp] theorem hostPort_setHostPort (p : Nat) (x : HostPort) (h : p < 8) : (s.setHostPort p x).hostPort p = x :=
  getD_setIfInBounds_self _ _ _ _ h
theorem hostPort_setHostPort_ne (p q : Nat) (x : HostPort) (h : q ≠ p) : (s.setHostPort p x).hostPort q = s.hostPort q :=
  getD_setIfInBounds_ne _ _ _ _ _ h
theorem hostPort_setHostPort_eq (p q : Nat) (x : HostPort) (h : p < 8) :
    (s.setHostPort p x).hostPort q = if q = p then x else s.hostPort q := by
  by_cases e : q = p
  · subst e; rw [if_pos rfl, hostPort_setHostPort _ _ _ h]
  · rw [if_neg e, hostPort_setHostPort_ne _ _ _ _ e]
@[simp] theorem setHostPort_setHostPort (p : Nat) (x y : HostPort) : (s.setHostPort p x).setHostPort p y = s.setHostPort p y := by
  simp [State.setHostPort]
@[simp] theorem setHostPort_hostPort (p : Nat) : s.setHostPort p (s.hostPort p) = s := by
  simp [State.setHostPort, State.hostPort, setIfInBounds_getD]
@[simp] theorem hostPort_modHostPort (p : Nat) (k : HostPort → HostPort) (h : p < 8) :
    (s.modHostPort p k).hostPort p = k (s.hostPort p) := by
  simp [State.modHostPort, h]
theorem hostPort_modHostPort_ne (p q : Nat) (k : HostPort → HostPort) (h : q ≠ p) :
    (s.modHostPort p k).hostPort q = s.hostPort q :=
  hostPort_setHostPort_ne _ _ _ _ h
theorem hostPort_modHostPort_eq (p q : Nat) (k : HostPort → HostPort) (h : p < 8) :
    (s.modHostPort p k).hostPort q = if q = p then k (s.hostPort p) else s.hostPort q :=
  hostPort_setHostPort_eq _ _ _ _ h
@[simp] theorem modHostPort_modHostPort (p : Nat) (k l : HostPort → HostPort) (h : p < 8) :
    (s.modHostPort p k).modHostPort p l = s.modHostPort p fun x => l (k x) := by
  simp [State.modHostPort, h]
theorem modHostPort_congr (p : Nat) {k l : HostPort → HostPort} (h : k (s.hostPort p) = l (s.hostPort p)) :
    s.modHostPort p k = s.modHostPort p l := by
  rw [State.modHostPort, State.modHostPort, h]
theorem modHostPort_self (p : Nat) {k : HostPort → HostPort} (h : k (s.hostPort p) = s.hostPort p) : s.modHostPort p k = s := by
  rw [State.modHostPort, h, setHostPort_hostPort]
theorem setHostPort_eq_modHostPort (p : Nat) (x : HostPort) : s.setHostPort p x = s.modHostPort p fun _ => x := rfl

/-! ### `setLatch` and `latch` -/

@[simp] theorem latch_setLatch (p : Nat) (x : LineLatch) (h : p < 8) : (s.setLatch p x).latch p = x :=
  getD_setIfInBounds_self _ _ _ _ h
theorem latch_setLatch_ne (p q : Nat) (x : LineLatch) (h : q ≠ p) : (s.setLatch p x).latch q = s.latch q :=
  getD_setIfInBounds_ne _ _ _ _ _ h
theorem latch_setLatch_eq (p q : Nat) (x : LineLatch) (h : p < 8) :
    (s.setLatch p x).latch q = if q = p then x else s.latch q := by
  by_cases e : q = p
  · subst e; rw [if_pos rfl, latch_setLatch _ _ _ h]
  · rw [if_neg e, latch_setLatch_ne _ _ _ _ e]
@[simp] theorem setLatch_setLatch (p : Nat) (x y : LineLatch) : (s.setLatch p x).setLatch p y = s.setLatch p y := by
  simp [State.setLatch, State.modHw]
@[simp] theorem setLatch_latch (p : Nat) : s.setLatch p (s.latch p) = s := by
  simp [State.setLatch, State.latch, State.modHw, setIfInBounds_getD]

/-! ### `setFifo` and `fifo` -/

@[simp] theorem fifo_setFifo (p : Nat) (x : Fifo) (h : p < 32) : (s.setFifo p x).fifo p = x :=
  getD_setIfInBounds_self _ _ _ _ h
theorem fifo_setFifo_ne (p q : Nat) (x : Fifo) (h : q ≠ p) : (s.setFifo p x).fifo q = s.fifo q :=
  getD_setIfInBounds_ne _ _ _ _ _ h
theorem fifo_setFifo_eq (p q : Nat) (x : Fifo) (h : p < 32) :
    (s.setFifo p x).fifo q = if q = p then x else s.fifo q := by
  by_cases e : q = p
  · subst e; rw [if_pos rfl, fifo_setFifo _ _ _ h]
  · rw [if_neg e, fifo_setFifo_ne _ _ _ _ e]
@[simp] theorem setFifo_setFifo (p : Nat) (x y : Fifo) : (s.setFifo p x).setFifo p y = s.setFifo p y := by
  simp [State.setFifo, State.modHw]
@[simp] theorem setFifo_fifo (p : Nat) : s.setFifo p (s.fifo p) = s := by
  simp [State.setFifo, State.fifo, State.modHw, setIfInBounds_getD]
@[simp] theorem fifo_modFifo (p : Nat) (k : Fifo → Fifo) (h : p < 32) :
    (s.modFifo p k).fifo p = k (s.fifo p) := by
  simp [State.modFifo, h]
theorem fifo_modFifo_ne (p q : Nat) (k : Fifo → Fifo) (h : q ≠ p) :
    (s.modFifo p k).fifo q = s.fifo q :=
  fifo_setFifo_ne _ _ _ _ h
theorem fifo_modFifo_eq (p q : Nat) (k : Fifo → Fifo) (h : p < 32) :
    (s.modFifo p k).fifo q = if q = p then k (s.fifo p) else s.fifo q :=
  fifo_setFifo_eq _ _ _ _ h
@[simp] theorem modFifo_modFifo (p : Nat) (k l : Fifo → Fifo) (h : p < 32) :
    (s.modFifo p k).modFifo p l = s.modFifo p fun x => l (k x) := by
  simp [State.modFifo, h]
theorem modFifo_congr (p : Nat) {k l : Fifo → Fifo} (h : k (s.fifo p) = l (s.fifo p)) :
    s.modFifo p k = s.modFifo p l := by
  rw [State.modFifo, State.modFifo, h]
theorem modFifo_self (p : Nat) {k : Fifo → Fifo} (h : k (s.fifo p) = s.fifo p) : s.modFifo p k = s := by
  rw [State.modFifo, h, setFifo_fifo]
theorem setFifo_eq_modFifo (p : Nat) (x : Fifo) : s.setFifo p x = s.modFifo p fun _ => x := rfl

/-! ### `setFifoStat` and `fifoStat` -/

@[simp] theorem fifoStat_setFifoStat (p : Nat) (x : Byte) (h : p < 8) : (s.setFifoStat p x).fifoStat p = x :=
  getD_setIfInBounds_self _ _ _ _ h
theorem fifoStat_setFifoStat_ne (p q : Nat) (x : Byte) (h : q ≠ p) : (s.setFifoStat p x).fifoStat q = s.fifoStat q :=
  getD_setIfInBounds_ne _ _ _ _ _ h
theorem fifoStat_setFifoStat_eq (p q : Nat) (x : Byte) (h : p < 8) :
    (s.setFifoStat p x).fifoStat q = if q = p then x else s.fifoStat q := by
  by_cases e : q = p
  · subst e; rw [if_pos rfl, fifoStat_setFifoStat _ _ _ h]
  · rw [if_neg e, fifoStat_setFifoStat_ne _ _ _ _ e]
@[simp] theorem setFifoStat_setFifoStat (p : Nat) (x y : Byte) : (s.setFifoStat p x).setFifoStat p y = s.setFifoStat p y := by
  simp [State.setFifoStat, State.modHw]
@[simp] theorem setFifoStat_fifoStat (p : Nat) : s.setFifoStat p (s.fifoStat p) = s := by
  simp [State.setFifoStat, State.fifoStat, State.modHw, setIfInBounds_getD]

/-! ### `setFifoAcc` and `fifoAcc` -/

@[simp] theorem fifoAcc_setFifoAcc (p : Nat) (x : Byte) (h : p < 8) : (s.setFifoAcc p x).fifoAcc p = x :=
  getD_setIfInBounds_self _ _ _ _ h
theorem fifoAcc_setFifoAcc_ne (p q : Nat) (x : Byte) (h : q ≠ p) : (s.setFifoAcc p x).fifoAcc q = s.fifoAcc q :=
  getD_setIfInBounds_ne _ _ _ _ _ h
theorem fifoAcc_setFifoAcc_eq (p q : Nat) (x : Byte) (h : p < 8) :
    (s.setFifoAcc p x).fifoAcc q = if q = p then x else s.fifoAcc q := by
  by_cases e : q = p
  · subst e; rw [if_pos rfl, fifoAcc_setFifoAcc _ _ _ h]
  · rw [if_neg e, fifoAcc_setFifoAcc_ne _ _ _ _ e]
@[simp] theorem setFifoAcc_setFifoAcc (p : Nat) (x y : Byte) : (s.setFifoAcc p x).setFifoAcc p y = s.setFifoAcc p y := by
  simp [State.setFifoAcc, State.modCard]
@[simp] theorem setFifoAcc_fifoAcc (p : Nat) : s.setFifoAcc p (s.fifoAcc p) = s := by
  simp [State.setFifoAcc, State.fifoAcc, State.modCard, setIfInBounds_getD]

/-! ### Reads of other tables -/

@[simp] theorem setPort_nports (p : Nat) (x : Port) :
    (s.setPort p x).nports = s.nports := rfl
@[simp] theorem setPort_session (p : Nat) (x : Port) (q : Nat) :
    (s.setPort p x).session q = s.session q := rfl
@[simp] theorem setPort_hostPort (p : Nat) (x : Port) (q : Nat) :
    (s.setPort p x).hostPort q = s.hostPort q := rfl
@[simp] theorem setPort_latch (p : Nat) (x : Port) (q : Nat) :
    (s.setPort p x).latch q = s.latch q := rfl
@[simp] theorem setPort_fifo (p : Nat) (x : Port) (q : Nat) :
    (s.setPort p x).fifo q = s.fifo q := rfl
@[simp] theorem setPort_fifoRegs (p : Nat) (x : Port) (q : Nat) (d : Dir) :
    (s.setPort p x).fifoRegs q d = s.fifoRegs q d := rfl
@[simp] theorem setPort_fifoStat (p : Nat) (x : Port) (q : Nat) :
    (s.setPort p x).fifoStat q = s.fifoStat q := rfl
@[simp] theorem setPort_fifoAcc (p : Nat) (x : Port) (q : Nat) :
    (s.setPort p x).fifoAcc q = s.fifoAcc q := rfl
@[simp] theorem setPort_selNum (p : Nat) (x : Port) :
    (s.setPort p x).selNum = s.selNum := rfl
@[simp] theorem setPort_selDir (p : Nat) (x : Port) :
    (s.setPort p x).selDir = s.selDir := rfl
@[simp] theorem modPort_nports (p : Nat) (k : Port → Port) :
    (s.modPort p k).nports = s.nports := rfl
@[simp] theorem modPort_session (p : Nat) (k : Port → Port) (q : Nat) :
    (s.modPort p k).session q = s.session q := rfl
@[simp] theorem modPort_hostPort (p : Nat) (k : Port → Port) (q : Nat) :
    (s.modPort p k).hostPort q = s.hostPort q := rfl
@[simp] theorem modPort_latch (p : Nat) (k : Port → Port) (q : Nat) :
    (s.modPort p k).latch q = s.latch q := rfl
@[simp] theorem modPort_fifo (p : Nat) (k : Port → Port) (q : Nat) :
    (s.modPort p k).fifo q = s.fifo q := rfl
@[simp] theorem modPort_fifoRegs (p : Nat) (k : Port → Port) (q : Nat) (d : Dir) :
    (s.modPort p k).fifoRegs q d = s.fifoRegs q d := rfl
@[simp] theorem modPort_fifoStat (p : Nat) (k : Port → Port) (q : Nat) :
    (s.modPort p k).fifoStat q = s.fifoStat q := rfl
@[simp] theorem modPort_fifoAcc (p : Nat) (k : Port → Port) (q : Nat) :
    (s.modPort p k).fifoAcc q = s.fifoAcc q := rfl
@[simp] theorem modPort_selNum (p : Nat) (k : Port → Port) :
    (s.modPort p k).selNum = s.selNum := rfl
@[simp] theorem modPort_selDir (p : Nat) (k : Port → Port) :
    (s.modPort p k).selDir = s.selDir := rfl
@[simp] theorem setSession_nports (p : Nat) (x : Session) :
    (s.setSession p x).nports = s.nports := rfl
@[simp] theorem setSession_port (p : Nat) (x : Session) (q : Nat) :
    (s.setSession p x).port q = s.port q := rfl
@[simp] theorem setSession_hostPort (p : Nat) (x : Session) (q : Nat) :
    (s.setSession p x).hostPort q = s.hostPort q := rfl
@[simp] theorem setSession_latch (p : Nat) (x : Session) (q : Nat) :
    (s.setSession p x).latch q = s.latch q := rfl
@[simp] theorem setSession_fifo (p : Nat) (x : Session) (q : Nat) :
    (s.setSession p x).fifo q = s.fifo q := rfl
@[simp] theorem setSession_fifoRegs (p : Nat) (x : Session) (q : Nat) (d : Dir) :
    (s.setSession p x).fifoRegs q d = s.fifoRegs q d := rfl
@[simp] theorem setSession_fifoStat (p : Nat) (x : Session) (q : Nat) :
    (s.setSession p x).fifoStat q = s.fifoStat q := rfl
@[simp] theorem setSession_fifoAcc (p : Nat) (x : Session) (q : Nat) :
    (s.setSession p x).fifoAcc q = s.fifoAcc q := rfl
@[simp] theorem setSession_selNum (p : Nat) (x : Session) :
    (s.setSession p x).selNum = s.selNum := rfl
@[simp] theorem setSession_selDir (p : Nat) (x : Session) :
    (s.setSession p x).selDir = s.selDir := rfl
@[simp] theorem modSession_nports (p : Nat) (k : Session → Session) :
    (s.modSession p k).nports = s.nports := rfl
@[simp] theorem modSession_port (p : Nat) (k : Session → Session) (q : Nat) :
    (s.modSession p k).port q = s.port q := rfl
@[simp] theorem modSession_hostPort (p : Nat) (k : Session → Session) (q : Nat) :
    (s.modSession p k).hostPort q = s.hostPort q := rfl
@[simp] theorem modSession_latch (p : Nat) (k : Session → Session) (q : Nat) :
    (s.modSession p k).latch q = s.latch q := rfl
@[simp] theorem modSession_fifo (p : Nat) (k : Session → Session) (q : Nat) :
    (s.modSession p k).fifo q = s.fifo q := rfl
@[simp] theorem modSession_fifoRegs (p : Nat) (k : Session → Session) (q : Nat) (d : Dir) :
    (s.modSession p k).fifoRegs q d = s.fifoRegs q d := rfl
@[simp] theorem modSession_fifoStat (p : Nat) (k : Session → Session) (q : Nat) :
    (s.modSession p k).fifoStat q = s.fifoStat q := rfl
@[simp] theorem modSession_fifoAcc (p : Nat) (k : Session → Session) (q : Nat) :
    (s.modSession p k).fifoAcc q = s.fifoAcc q := rfl
@[simp] theorem modSession_selNum (p : Nat) (k : Session → Session) :
    (s.modSession p k).selNum = s.selNum := rfl
@[simp] theorem modSession_selDir (p : Nat) (k : Session → Session) :
    (s.modSession p k).selDir = s.selDir := rfl
@[simp] theorem setHostPort_nports (p : Nat) (x : HostPort) :
    (s.setHostPort p x).nports = s.nports := rfl
@[simp] theorem setHostPort_port (p : Nat) (x : HostPort) (q : Nat) :
    (s.setHostPort p x).port q = s.port q := rfl
@[simp] theorem setHostPort_session (p : Nat) (x : HostPort) (q : Nat) :
    (s.setHostPort p x).session q = s.session q := rfl
@[simp] theorem setHostPort_latch (p : Nat) (x : HostPort) (q : Nat) :
    (s.setHostPort p x).latch q = s.latch q := rfl
@[simp] theorem setHostPort_fifo (p : Nat) (x : HostPort) (q : Nat) :
    (s.setHostPort p x).fifo q = s.fifo q := rfl
@[simp] theorem setHostPort_fifoRegs (p : Nat) (x : HostPort) (q : Nat) (d : Dir) :
    (s.setHostPort p x).fifoRegs q d = s.fifoRegs q d := rfl
@[simp] theorem setHostPort_fifoStat (p : Nat) (x : HostPort) (q : Nat) :
    (s.setHostPort p x).fifoStat q = s.fifoStat q := rfl
@[simp] theorem setHostPort_fifoAcc (p : Nat) (x : HostPort) (q : Nat) :
    (s.setHostPort p x).fifoAcc q = s.fifoAcc q := rfl
@[simp] theorem setHostPort_selNum (p : Nat) (x : HostPort) :
    (s.setHostPort p x).selNum = s.selNum := rfl
@[simp] theorem setHostPort_selDir (p : Nat) (x : HostPort) :
    (s.setHostPort p x).selDir = s.selDir := rfl
@[simp] theorem modHostPort_nports (p : Nat) (k : HostPort → HostPort) :
    (s.modHostPort p k).nports = s.nports := rfl
@[simp] theorem modHostPort_port (p : Nat) (k : HostPort → HostPort) (q : Nat) :
    (s.modHostPort p k).port q = s.port q := rfl
@[simp] theorem modHostPort_session (p : Nat) (k : HostPort → HostPort) (q : Nat) :
    (s.modHostPort p k).session q = s.session q := rfl
@[simp] theorem modHostPort_latch (p : Nat) (k : HostPort → HostPort) (q : Nat) :
    (s.modHostPort p k).latch q = s.latch q := rfl
@[simp] theorem modHostPort_fifo (p : Nat) (k : HostPort → HostPort) (q : Nat) :
    (s.modHostPort p k).fifo q = s.fifo q := rfl
@[simp] theorem modHostPort_fifoRegs (p : Nat) (k : HostPort → HostPort) (q : Nat) (d : Dir) :
    (s.modHostPort p k).fifoRegs q d = s.fifoRegs q d := rfl
@[simp] theorem modHostPort_fifoStat (p : Nat) (k : HostPort → HostPort) (q : Nat) :
    (s.modHostPort p k).fifoStat q = s.fifoStat q := rfl
@[simp] theorem modHostPort_fifoAcc (p : Nat) (k : HostPort → HostPort) (q : Nat) :
    (s.modHostPort p k).fifoAcc q = s.fifoAcc q := rfl
@[simp] theorem modHostPort_selNum (p : Nat) (k : HostPort → HostPort) :
    (s.modHostPort p k).selNum = s.selNum := rfl
@[simp] theorem modHostPort_selDir (p : Nat) (k : HostPort → HostPort) :
    (s.modHostPort p k).selDir = s.selDir := rfl
@[simp] theorem modCard_nports (k : Card → Card) :
    (s.modCard k).nports = s.nports := rfl
@[simp] theorem modCard_port (k : Card → Card) (q : Nat) :
    (s.modCard k).port q = s.port q := rfl
@[simp] theorem modCard_session (k : Card → Card) (q : Nat) :
    (s.modCard k).session q = s.session q := rfl
@[simp] theorem modCard_hostPort (k : Card → Card) (q : Nat) :
    (s.modCard k).hostPort q = s.hostPort q := rfl
@[simp] theorem modCard_latch (k : Card → Card) (q : Nat) :
    (s.modCard k).latch q = s.latch q := rfl
@[simp] theorem modCard_fifo (k : Card → Card) (q : Nat) :
    (s.modCard k).fifo q = s.fifo q := rfl
@[simp] theorem modCard_fifoRegs (k : Card → Card) (q : Nat) (d : Dir) :
    (s.modCard k).fifoRegs q d = s.fifoRegs q d := rfl
@[simp] theorem modCard_fifoStat (k : Card → Card) (q : Nat) :
    (s.modCard k).fifoStat q = s.fifoStat q := rfl
@[simp] theorem modCard_selNum (k : Card → Card) :
    (s.modCard k).selNum = s.selNum := rfl
@[simp] theorem modCard_selDir (k : Card → Card) :
    (s.modCard k).selDir = s.selDir := rfl
@[simp] theorem modHw_nports (k : Hardware → Hardware) :
    (s.modHw k).nports = s.nports := rfl
@[simp] theorem modHw_port (k : Hardware → Hardware) (q : Nat) :
    (s.modHw k).port q = s.port q := rfl
@[simp] theorem modHw_session (k : Hardware → Hardware) (q : Nat) :
    (s.modHw k).session q = s.session q := rfl
@[simp] theorem modHw_hostPort (k : Hardware → Hardware) (q : Nat) :
    (s.modHw k).hostPort q = s.hostPort q := rfl
@[simp] theorem modHw_fifoAcc (k : Hardware → Hardware) (q : Nat) :
    (s.modHw k).fifoAcc q = s.fifoAcc q := rfl
@[simp] theorem setLatch_nports (p : Nat) (x : LineLatch) :
    (s.setLatch p x).nports = s.nports := rfl
@[simp] theorem setLatch_port (p : Nat) (x : LineLatch) (q : Nat) :
    (s.setLatch p x).port q = s.port q := rfl
@[simp] theorem setLatch_session (p : Nat) (x : LineLatch) (q : Nat) :
    (s.setLatch p x).session q = s.session q := rfl
@[simp] theorem setLatch_hostPort (p : Nat) (x : LineLatch) (q : Nat) :
    (s.setLatch p x).hostPort q = s.hostPort q := rfl
@[simp] theorem setLatch_fifo (p : Nat) (x : LineLatch) (q : Nat) :
    (s.setLatch p x).fifo q = s.fifo q := rfl
@[simp] theorem setLatch_fifoRegs (p : Nat) (x : LineLatch) (q : Nat) (d : Dir) :
    (s.setLatch p x).fifoRegs q d = s.fifoRegs q d := rfl
@[simp] theorem setLatch_fifoStat (p : Nat) (x : LineLatch) (q : Nat) :
    (s.setLatch p x).fifoStat q = s.fifoStat q := rfl
@[simp] theorem setLatch_fifoAcc (p : Nat) (x : LineLatch) (q : Nat) :
    (s.setLatch p x).fifoAcc q = s.fifoAcc q := rfl
@[simp] theorem setLatch_selNum (p : Nat) (x : LineLatch) :
    (s.setLatch p x).selNum = s.selNum := rfl
@[simp] theorem setLatch_selDir (p : Nat) (x : LineLatch) :
    (s.setLatch p x).selDir = s.selDir := rfl
@[simp] theorem setFifo_nports (p : Nat) (x : Fifo) :
    (s.setFifo p x).nports = s.nports := rfl
@[simp] theorem setFifo_port (p : Nat) (x : Fifo) (q : Nat) :
    (s.setFifo p x).port q = s.port q := rfl
@[simp] theorem setFifo_session (p : Nat) (x : Fifo) (q : Nat) :
    (s.setFifo p x).session q = s.session q := rfl
@[simp] theorem setFifo_hostPort (p : Nat) (x : Fifo) (q : Nat) :
    (s.setFifo p x).hostPort q = s.hostPort q := rfl
@[simp] theorem setFifo_latch (p : Nat) (x : Fifo) (q : Nat) :
    (s.setFifo p x).latch q = s.latch q := rfl
@[simp] theorem setFifo_fifoStat (p : Nat) (x : Fifo) (q : Nat) :
    (s.setFifo p x).fifoStat q = s.fifoStat q := rfl
@[simp] theorem setFifo_fifoAcc (p : Nat) (x : Fifo) (q : Nat) :
    (s.setFifo p x).fifoAcc q = s.fifoAcc q := rfl
@[simp] theorem setFifo_selNum (p : Nat) (x : Fifo) :
    (s.setFifo p x).selNum = s.selNum := rfl
@[simp] theorem setFifo_selDir (p : Nat) (x : Fifo) :
    (s.setFifo p x).selDir = s.selDir := rfl
@[simp] theorem modFifo_nports (p : Nat) (k : Fifo → Fifo) :
    (s.modFifo p k).nports = s.nports := rfl
@[simp] theorem modFifo_port (p : Nat) (k : Fifo → Fifo) (q : Nat) :
    (s.modFifo p k).port q = s.port q := rfl
@[simp] theorem modFifo_session (p : Nat) (k : Fifo → Fifo) (q : Nat) :
    (s.modFifo p k).session q = s.session q := rfl
@[simp] theorem modFifo_hostPort (p : Nat) (k : Fifo → Fifo) (q : Nat) :
    (s.modFifo p k).hostPort q = s.hostPort q := rfl
@[simp] theorem modFifo_latch (p : Nat) (k : Fifo → Fifo) (q : Nat) :
    (s.modFifo p k).latch q = s.latch q := rfl
@[simp] theorem modFifo_fifoStat (p : Nat) (k : Fifo → Fifo) (q : Nat) :
    (s.modFifo p k).fifoStat q = s.fifoStat q := rfl
@[simp] theorem modFifo_fifoAcc (p : Nat) (k : Fifo → Fifo) (q : Nat) :
    (s.modFifo p k).fifoAcc q = s.fifoAcc q := rfl
@[simp] theorem modFifo_selNum (p : Nat) (k : Fifo → Fifo) :
    (s.modFifo p k).selNum = s.selNum := rfl
@[simp] theorem modFifo_selDir (p : Nat) (k : Fifo → Fifo) :
    (s.modFifo p k).selDir = s.selDir := rfl
@[simp] theorem setFifoStat_nports (p : Nat) (x : Byte) :
    (s.setFifoStat p x).nports = s.nports := rfl
@[simp] theorem setFifoStat_port (p : Nat) (x : Byte) (q : Nat) :
    (s.setFifoStat p x).port q = s.port q := rfl
@[simp] theorem setFifoStat_session (p : Nat) (x : Byte) (q : Nat) :
    (s.setFifoStat p x).session q = s.session q := rfl
@[simp] theorem setFifoStat_hostPort (p : Nat) (x : Byte) (q : Nat) :
    (s.setFifoStat p x).hostPort q = s.hostPort q := rfl
@[simp] theorem setFifoStat_latch (p : Nat) (x : Byte) (q : Nat) :
    (s.setFifoStat p x).latch q = s.latch q := rfl
@[simp] theorem setFifoStat_fifo (p : Nat) (x : Byte) (q : Nat) :
    (s.setFifoStat p x).fifo q = s.fifo q := rfl
@[simp] theorem setFifoStat_fifoRegs (p : Nat) (x : Byte) (q : Nat) (d : Dir) :
    (s.setFifoStat p x).fifoRegs q d = s.fifoRegs q d := rfl
@[simp] theorem setFifoStat_fifoAcc (p : Nat) (x : Byte) (q : Nat) :
    (s.setFifoStat p x).fifoAcc q = s.fifoAcc q := rfl
@[simp] theorem setFifoStat_selNum (p : Nat) (x : Byte) :
    (s.setFifoStat p x).selNum = s.selNum := rfl
@[simp] theorem setFifoStat_selDir (p : Nat) (x : Byte) :
    (s.setFifoStat p x).selDir = s.selDir := rfl
@[simp] theorem raisePending_nports (p : Nat) (x : Dir) :
    (s.raisePending p x).nports = s.nports := rfl
@[simp] theorem raisePending_port (p : Nat) (x : Dir) (q : Nat) :
    (s.raisePending p x).port q = s.port q := rfl
@[simp] theorem raisePending_session (p : Nat) (x : Dir) (q : Nat) :
    (s.raisePending p x).session q = s.session q := rfl
@[simp] theorem raisePending_hostPort (p : Nat) (x : Dir) (q : Nat) :
    (s.raisePending p x).hostPort q = s.hostPort q := rfl
@[simp] theorem raisePending_latch (p : Nat) (x : Dir) (q : Nat) :
    (s.raisePending p x).latch q = s.latch q := rfl
@[simp] theorem raisePending_fifo (p : Nat) (x : Dir) (q : Nat) :
    (s.raisePending p x).fifo q = s.fifo q := rfl
@[simp] theorem raisePending_fifoRegs (p : Nat) (x : Dir) (q : Nat) (d : Dir) :
    (s.raisePending p x).fifoRegs q d = s.fifoRegs q d := rfl
@[simp] theorem raisePending_fifoAcc (p : Nat) (x : Dir) (q : Nat) :
    (s.raisePending p x).fifoAcc q = s.fifoAcc q := rfl
@[simp] theorem raisePending_selNum (p : Nat) (x : Dir) :
    (s.raisePending p x).selNum = s.selNum := rfl
@[simp] theorem raisePending_selDir (p : Nat) (x : Dir) :
    (s.raisePending p x).selDir = s.selDir := rfl
@[simp] theorem clearPending_nports (p : Nat) (x : Dir) :
    (s.clearPending p x).nports = s.nports := rfl
@[simp] theorem clearPending_port (p : Nat) (x : Dir) (q : Nat) :
    (s.clearPending p x).port q = s.port q := rfl
@[simp] theorem clearPending_session (p : Nat) (x : Dir) (q : Nat) :
    (s.clearPending p x).session q = s.session q := rfl
@[simp] theorem clearPending_hostPort (p : Nat) (x : Dir) (q : Nat) :
    (s.clearPending p x).hostPort q = s.hostPort q := rfl
@[simp] theorem clearPending_latch (p : Nat) (x : Dir) (q : Nat) :
    (s.clearPending p x).latch q = s.latch q := rfl
@[simp] theorem clearPending_fifo (p : Nat) (x : Dir) (q : Nat) :
    (s.clearPending p x).fifo q = s.fifo q := rfl
@[simp] theorem clearPending_fifoRegs (p : Nat) (x : Dir) (q : Nat) (d : Dir) :
    (s.clearPending p x).fifoRegs q d = s.fifoRegs q d := rfl
@[simp] theorem clearPending_fifoAcc (p : Nat) (x : Dir) (q : Nat) :
    (s.clearPending p x).fifoAcc q = s.fifoAcc q := rfl
@[simp] theorem clearPending_selNum (p : Nat) (x : Dir) :
    (s.clearPending p x).selNum = s.selNum := rfl
@[simp] theorem clearPending_selDir (p : Nat) (x : Dir) :
    (s.clearPending p x).selDir = s.selDir := rfl
@[simp] theorem select_nports (f : Nat) (x : Dir) :
    (s.select f x).nports = s.nports := rfl
@[simp] theorem select_port (f : Nat) (x : Dir) (q : Nat) :
    (s.select f x).port q = s.port q := rfl
@[simp] theorem select_session (f : Nat) (x : Dir) (q : Nat) :
    (s.select f x).session q = s.session q := rfl
@[simp] theorem select_hostPort (f : Nat) (x : Dir) (q : Nat) :
    (s.select f x).hostPort q = s.hostPort q := rfl
@[simp] theorem select_latch (f : Nat) (x : Dir) (q : Nat) :
    (s.select f x).latch q = s.latch q := rfl
@[simp] theorem select_fifo (f : Nat) (x : Dir) (q : Nat) :
    (s.select f x).fifo q = s.fifo q := rfl
@[simp] theorem select_fifoRegs (f : Nat) (x : Dir) (q : Nat) (d : Dir) :
    (s.select f x).fifoRegs q d = s.fifoRegs q d := rfl
@[simp] theorem select_fifoStat (f : Nat) (x : Dir) (q : Nat) :
    (s.select f x).fifoStat q = s.fifoStat q := rfl
@[simp] theorem select_fifoAcc (f : Nat) (x : Dir) (q : Nat) :
    (s.select f x).fifoAcc q = s.fifoAcc q := rfl
@[simp] theorem lineout_nports (x : LineEvent) :
    (s.lineout x).nports = s.nports := rfl
@[simp] theorem lineout_port (x : LineEvent) (q : Nat) :
    (s.lineout x).port q = s.port q := rfl
@[simp] theorem lineout_session (x : LineEvent) (q : Nat) :
    (s.lineout x).session q = s.session q := rfl
@[simp] theorem lineout_hostPort (x : LineEvent) (q : Nat) :
    (s.lineout x).hostPort q = s.hostPort q := rfl
@[simp] theorem lineout_latch (x : LineEvent) (q : Nat) :
    (s.lineout x).latch q = s.latch q := rfl
@[simp] theorem lineout_fifo (x : LineEvent) (q : Nat) :
    (s.lineout x).fifo q = s.fifo q := rfl
@[simp] theorem lineout_fifoRegs (x : LineEvent) (q : Nat) (d : Dir) :
    (s.lineout x).fifoRegs q d = s.fifoRegs q d := rfl
@[simp] theorem lineout_fifoStat (x : LineEvent) (q : Nat) :
    (s.lineout x).fifoStat q = s.fifoStat q := rfl
@[simp] theorem lineout_fifoAcc (x : LineEvent) (q : Nat) :
    (s.lineout x).fifoAcc q = s.fifoAcc q := rfl
@[simp] theorem lineout_selNum (x : LineEvent) :
    (s.lineout x).selNum = s.selNum := rfl
@[simp] theorem lineout_selDir (x : LineEvent) :
    (s.lineout x).selDir = s.selDir := rfl
@[simp] theorem setFifoAcc_nports (p : Nat) (x : Byte) :
    (s.setFifoAcc p x).nports = s.nports := rfl
@[simp] theorem setFifoAcc_port (p : Nat) (x : Byte) (q : Nat) :
    (s.setFifoAcc p x).port q = s.port q := rfl
@[simp] theorem setFifoAcc_session (p : Nat) (x : Byte) (q : Nat) :
    (s.setFifoAcc p x).session q = s.session q := rfl
@[simp] theorem setFifoAcc_hostPort (p : Nat) (x : Byte) (q : Nat) :
    (s.setFifoAcc p x).hostPort q = s.hostPort q := rfl
@[simp] theorem setFifoAcc_latch (p : Nat) (x : Byte) (q : Nat) :
    (s.setFifoAcc p x).latch q = s.latch q := rfl
@[simp] theorem setFifoAcc_fifo (p : Nat) (x : Byte) (q : Nat) :
    (s.setFifoAcc p x).fifo q = s.fifo q := rfl
@[simp] theorem setFifoAcc_fifoRegs (p : Nat) (x : Byte) (q : Nat) (d : Dir) :
    (s.setFifoAcc p x).fifoRegs q d = s.fifoRegs q d := rfl
@[simp] theorem setFifoAcc_fifoStat (p : Nat) (x : Byte) (q : Nat) :
    (s.setFifoAcc p x).fifoStat q = s.fifoStat q := rfl
@[simp] theorem setFifoAcc_selNum (p : Nat) (x : Byte) :
    (s.setFifoAcc p x).selNum = s.selNum := rfl
@[simp] theorem setFifoAcc_selDir (p : Nat) (x : Byte) :
    (s.setFifoAcc p x).selDir = s.selDir := rfl
@[simp] theorem emit_nports (x : HostEvent) :
    (s.emit x).nports = s.nports := rfl
@[simp] theorem emit_port (x : HostEvent) (q : Nat) :
    (s.emit x).port q = s.port q := rfl
@[simp] theorem emit_session (x : HostEvent) (q : Nat) :
    (s.emit x).session q = s.session q := rfl
@[simp] theorem emit_hostPort (x : HostEvent) (q : Nat) :
    (s.emit x).hostPort q = s.hostPort q := rfl
@[simp] theorem emit_latch (x : HostEvent) (q : Nat) :
    (s.emit x).latch q = s.latch q := rfl
@[simp] theorem emit_fifo (x : HostEvent) (q : Nat) :
    (s.emit x).fifo q = s.fifo q := rfl
@[simp] theorem emit_fifoRegs (x : HostEvent) (q : Nat) (d : Dir) :
    (s.emit x).fifoRegs q d = s.fifoRegs q d := rfl
@[simp] theorem emit_fifoStat (x : HostEvent) (q : Nat) :
    (s.emit x).fifoStat q = s.fifoStat q := rfl
@[simp] theorem emit_fifoAcc (x : HostEvent) (q : Nat) :
    (s.emit x).fifoAcc q = s.fifoAcc q := rfl
@[simp] theorem emit_selNum (x : HostEvent) :
    (s.emit x).selNum = s.selNum := rfl
@[simp] theorem emit_selDir (x : HostEvent) :
    (s.emit x).selDir = s.selDir := rfl
@[simp] theorem diag_nports (x : DiagEvent) :
    (s.diag x).nports = s.nports := rfl
@[simp] theorem diag_port (x : DiagEvent) (q : Nat) :
    (s.diag x).port q = s.port q := rfl
@[simp] theorem diag_session (x : DiagEvent) (q : Nat) :
    (s.diag x).session q = s.session q := rfl
@[simp] theorem diag_hostPort (x : DiagEvent) (q : Nat) :
    (s.diag x).hostPort q = s.hostPort q := rfl
@[simp] theorem diag_latch (x : DiagEvent) (q : Nat) :
    (s.diag x).latch q = s.latch q := rfl
@[simp] theorem diag_fifo (x : DiagEvent) (q : Nat) :
    (s.diag x).fifo q = s.fifo q := rfl
@[simp] theorem diag_fifoRegs (x : DiagEvent) (q : Nat) (d : Dir) :
    (s.diag x).fifoRegs q d = s.fifoRegs q d := rfl
@[simp] theorem diag_fifoStat (x : DiagEvent) (q : Nat) :
    (s.diag x).fifoStat q = s.fifoStat q := rfl
@[simp] theorem diag_fifoAcc (x : DiagEvent) (q : Nat) :
    (s.diag x).fifoAcc q = s.fifoAcc q := rfl
@[simp] theorem diag_selNum (x : DiagEvent) :
    (s.diag x).selNum = s.selNum := rfl
@[simp] theorem diag_selDir (x : DiagEvent) :
    (s.diag x).selDir = s.selDir := rfl
@[simp] theorem countDraw_nports :
    (s.countDraw).nports = s.nports := rfl
@[simp] theorem countDraw_port (q : Nat) :
    (s.countDraw).port q = s.port q := rfl
@[simp] theorem countDraw_session (q : Nat) :
    (s.countDraw).session q = s.session q := rfl
@[simp] theorem countDraw_hostPort (q : Nat) :
    (s.countDraw).hostPort q = s.hostPort q := rfl
@[simp] theorem countDraw_latch (q : Nat) :
    (s.countDraw).latch q = s.latch q := rfl
@[simp] theorem countDraw_fifo (q : Nat) :
    (s.countDraw).fifo q = s.fifo q := rfl
@[simp] theorem countDraw_fifoRegs (q : Nat) (d : Dir) :
    (s.countDraw).fifoRegs q d = s.fifoRegs q d := rfl
@[simp] theorem countDraw_fifoStat (q : Nat) :
    (s.countDraw).fifoStat q = s.fifoStat q := rfl
@[simp] theorem countDraw_fifoAcc (q : Nat) :
    (s.countDraw).fifoAcc q = s.fifoAcc q := rfl
@[simp] theorem countDraw_selNum :
    (s.countDraw).selNum = s.selNum := rfl
@[simp] theorem countDraw_selDir :
    (s.countDraw).selDir = s.selDir := rfl
@[simp] theorem answered_nports (v : Result) :
    (s.answered v).nports = s.nports := rfl
@[simp] theorem answered_port (v : Result) (q : Nat) :
    (s.answered v).port q = s.port q := rfl
@[simp] theorem answered_session (v : Result) (q : Nat) :
    (s.answered v).session q = s.session q := rfl
@[simp] theorem answered_hostPort (v : Result) (q : Nat) :
    (s.answered v).hostPort q = s.hostPort q := rfl
@[simp] theorem answered_latch (v : Result) (q : Nat) :
    (s.answered v).latch q = s.latch q := rfl
@[simp] theorem answered_fifo (v : Result) (q : Nat) :
    (s.answered v).fifo q = s.fifo q := rfl
@[simp] theorem answered_fifoRegs (v : Result) (q : Nat) (d : Dir) :
    (s.answered v).fifoRegs q d = s.fifoRegs q d := rfl
@[simp] theorem answered_fifoStat (v : Result) (q : Nat) :
    (s.answered v).fifoStat q = s.fifoStat q := rfl
@[simp] theorem answered_fifoAcc (v : Result) (q : Nat) :
    (s.answered v).fifoAcc q = s.fifoAcc q := rfl
@[simp] theorem answered_selNum (v : Result) :
    (s.answered v).selNum = s.selNum := rfl
@[simp] theorem answered_selDir (v : Result) :
    (s.answered v).selDir = s.selDir := rfl

end Sys2Proof.Machine
end

