-- ==== Sys2Proof/Laws/Outcome.lean ====
section
/-! SUPPORT. Computations that may fault: what a sequence, a loop and a completed command can answer. -/

namespace Sys2Proof.Machine

/-! ### Sequences -/

@[simp] theorem ok_bind {α β : Type} (a : α) (f : α → Except Fault β) :
    ((.ok a : Except Fault α) >>= f) = f a := rfl

@[simp] theorem error_bind {α β : Type} (e : Fault) (f : α → Except Fault β) :
    ((.error e : Except Fault α) >>= f) = .error e := rfl

/-- A sequence answers what its second part answers on what its first part answers. -/
theorem bind_eq_ok {α β : Type} {x : Except Fault α} {f : α → Except Fault β} {b : β} :
    (x >>= f) = .ok b ↔ ∃ a, x = .ok a ∧ f a = .ok b := by
  cases x <;> simp

theorem map_eq_ok {α β : Type} {x : Except Fault α} {f : α → β} {b : β} :
    x.map f = .ok b ↔ ∃ a, x = .ok a ∧ f a = b := by
  cases x <;> simp [Except.map]

@[simp] theorem map_ok {α β : Type} (f : α → β) (a : α) :
    (.ok a : Except Fault α).map f = .ok (f a) := rfl

/-! ### Loops -/

@[simp] theorem forEach_nil {α : Type} (f : α → State → Except Fault State) (s : State) :
    forEach f [] s = .ok s := rfl

@[simp] theorem forEach_cons {α : Type} (f : α → State → Except Fault State) (x : α) (xs : List α)
    (s : State) : forEach f (x :: xs) s = (f x s >>= forEach f xs) := rfl

theorem forEach_append {α : Type} (f : α → State → Except Fault State) (xs ys : List α) (s : State) :
    forEach f (xs ++ ys) s = (forEach f xs s >>= forEach f ys) := by
  induction xs generalizing s with
  | nil => rfl
  | cons x xs ih =>
    cases h : f x s with
    | error e => simp [h]
    | ok t => simpa [h] using ih t

/-- A loop none of whose rounds changes anything changes nothing. -/
theorem forEach_eq_self {α : Type} {f : α → State → Except Fault State} {xs : List α} {s : State}
    (h : ∀ x ∈ xs, f x s = .ok s) : forEach f xs s = .ok s := by
  induction xs with
  | nil => rfl
  | cons x xs ih =>
    have hx := h x (by simp)
    simp [hx, ih fun y hy => h y (by simp [hy])]

/-- What every round of a loop keeps, the loop keeps. -/
theorem forEach_keeps {α : Type} {f : α → State → Except Fault State} {P : State → Prop} {xs : List α}
    (hf : ∀ x ∈ xs, ∀ s t, P s → f x s = .ok t → P t) {s t : State} (hs : P s)
    (h : forEach f xs s = .ok t) : P t := by
  induction xs generalizing s with
  | nil => cases h; exact hs
  | cons x xs ih =>
    rw [forEach_cons, bind_eq_ok] at h
    obtain ⟨u, hu, ht⟩ := h
    exact ih (fun y hy => hf y (by simp [hy])) (hf x (by simp) s u hs hu) ht

/-! ### Completed commands -/

@[simp] theorem complete_ok (v : Result) (s : State) : complete (.ok (v, s)) = .next (s.answered v) := rfl

@[simp] theorem complete_error (e : Fault) : complete (.error e) = .fault e := rfl

@[simp] theorem completeOk_ok (s : State) : completeOk (.ok s) = .next (s.answered .ok) := rfl

@[simp] theorem completeOk_error (e : Fault) : completeOk (.error e) = .fault e := rfl

/-- A completed command has made its result the last of the script's results. -/
theorem complete_eq_next {r : Except Fault (Result × State)} {t : State} :
    complete r = .next t ↔ ∃ v u, r = .ok (v, u) ∧ t = u.answered v := by
  cases r with
  | error e => simp
  | ok x => obtain ⟨v, u⟩ := x; simp [eq_comm]

theorem completeOk_eq_next {r : Except Fault State} {t : State} :
    completeOk r = .next t ↔ ∃ u, r = .ok u ∧ t = u.answered .ok := by
  cases r with
  | error e => simp
  | ok u => simp [eq_comm]

/-- A command is never refused. -/
theorem complete_ne_refused (r : Except Fault (Result × State)) (e : Refusal) : complete r ≠ .refused e := by
  cases r <;> simp [complete]

theorem complete_eq_fault {r : Except Fault (Result × State)} {e : Fault} :
    complete r = .fault e ↔ r = .error e := by
  cases r <;> simp [complete]

theorem completeOk_eq_fault {r : Except Fault State} {e : Fault} :
    completeOk r = .fault e ↔ r = .error e := by
  cases r <;> simp

end Sys2Proof.Machine
end

