-- ==== Sys2Proof/Laws/Closed.lean ====
section
/-! SUPPORT. What the operations are made of. A property of states that survives each elementary change of
the access layer survives every sequence of register accesses; one that survives the elementary changes of the
operations too survives every command. Every invariant and every "nothing else changes" rule is then a check
of the elementary changes alone. -/

namespace Sys2Proof.Machine

/-! ### Points -/

/-- `P` survives what other agents do at a point. -/
def Point.Keeps (pt : Point) (P : State → Prop) : Prop := ∀ s t, P s → pt s = .ok t → P t

/-! ### Elementary changes -/

/-- `P` survives what a register access may do (20_memory.md R48 to R51, 40_register_access.md R78, R79,
R81). -/
structure AccessClosed (P : State → Prop) : Prop where
  /-- the line agent and the tick agent step inside an indexed sequence (20_memory.md R53) -/
  line : ∀ s, P s → P (linePoint s)
  /-- a read has its side effect -/
  read : ∀ r s v, P s → readValue r s = .ok v → P (readEffect r s)
  /-- a write has its effect -/
  write : ∀ r v s t, P s → v &&& r.reserved = 0 → writeEffect r v s = .ok t → P t
  /-- a draw is made, whether or not it lets a gated write take effect -/
  draw : ∀ s, P s → P s.countDraw
  /-- a diagnostic event is logged -/
  diag : ∀ s e, P s → P (s.diag e)

/-- `P` survives each thing a step of the line agent or the tick agent can do. -/
structure LineClosed (P : State → Prop) : Prop where
  busy : ∀ s b, P s → P (s.modHw fun h => { h with busy := b })
  lineState : ∀ s (p b : Byte), p.toNat < s.nports → (s.latch p.toNat).auto = true → P s →
    P ((s.setLatch p.toNat (latchOf b (s.latch p.toNat))).modHw fun h =>
      { h with sci := h.sci ||| (1#8 <<< p.toNat) })
  event : ∀ s f d, f < s.cfg.nfifo → P s → P (s.raisePending f d)
  rxframe : ∀ s f bytes, f < s.cfg.nfifo → bytes ≠ [] → (s.fifo f).rxq.length < s.cfg.fmax →
    (s.fifo f).rxStored + bytes.length ≤ s.cfg.fifoDepth → P s →
    P (s.setFifo f { s.fifo f with rxq := (s.fifo f).rxq ++ [bytes] })
  txtake : ∀ s f fr rest, f < s.cfg.nfifo → (s.fifo f).txclosed = fr :: rest → P s →
    P ((s.setFifo f { s.fifo f with txclosed := rest }).lineout (.lineTx f fr))
  brx : ∀ s f bytes, f < s.cfg.nfifo → (s.fifo f).rxStored + bytes.length ≤ s.cfg.fifoDepth → P s →
    P (s.setFifo f { s.fifo f with brx := (s.fifo f).brx ++ bytes })
  btxtake : ∀ s f n, f < s.cfg.nfifo → n ≤ (s.fifo f).btx.length → P s →
    P ((s.setFifo f { s.fifo f with btx := (s.fifo f).btx.drop n }).lineout
      (.lineBTx f ((s.fifo f).btx.take n)))
  tick : ∀ s, P s → P (s.modHw fun h => { h with miscStat := h.miscStat ||| 0x02 })

/-- `P` survives the elementary changes that the operations of the line-state machine and the host's lock-free
operations make on port `p`. -/
structure SpanClosed (P : State → Prop) (p : Nat) : Prop extends AccessClosed P where
  record : ∀ s sta, P s → P (recordState p sta s)
  stopT1 : ∀ s, P s → P (s.modPort p fun q => { q with t1On := false })
  stopT3 : ∀ s, P s → P (s.modPort p fun q => { q with t3On := false })
  armT1 : ∀ s, (s.port p).mode = .nt → P s → P (armT1 p s)
  armT3 : ∀ s, (s.port p).mode = .te → P s → P (armT3 p s)
  run : ∀ s, P s → P (s.modPort p fun q => { q with spanRunning := true })
  stop : ∀ s, P s → P (stopSpan p s)
  submit : ∀ s frame, frame ≠ [] → (s.session p).active = true → P s → P (submitFrame p frame s)
  txbuf : ∀ s role bytes, bytes.length = s.cfg.chunk → P s →
    P (s.modHostPort p fun h => h.setTxbuf role bytes)

/-- `P` survives the elementary changes of the operations on the whole card that write no `FIFO_SEL`. -/
structure CardClosed (P : State → Prop) : Prop extends AccessClosed P where
  span : ∀ p, SpanClosed P p
  prio : ∀ s p k, p < s.nports → k ≤ s.nports → P s → P (s.modPort p fun q => { q with syncPrio := k })
  sync : ∀ s src, (∀ p, src = .port p → p < s.nports) → P s → P (s.modCard fun c => { c with syncsrc := src })
  running : ∀ s b, P s → P (s.modCard fun c => { c with running := b })
  accumulate : ∀ s (b : Fin 8), P s →
    P ((readEffect (.fifoStat b) s).setFifoAcc b.val (s.fifoAcc b.val ||| s.fifoStat b.val))
  accumulateMisc : ∀ s, P s →
    P ((readEffect .miscStat s).modCard fun c => { c with miscAcc := c.miscAcc ||| s.hw.miscStat })

/-- `P` survives what other agents may do at a point inside a FIFO section (20_memory.md R54): the steps of the
line agent and the tick agent, changes of the parameters, and the operations that write no `FIFO_SEL`. -/
structure FifoClosed (P : State → Prop) : Prop extends CardClosed P, LineClosed P where
  pop : ∀ s, P s → P { s with sched := s.sched.tail }
  live : ∀ s l, P s → P { s with live := l }
  strap : ∀ (s : State) (c : Config), c.valid = true → P s → P { s with strap := c }

/-- What is known of a point inside a FIFO section that the service agent opens: every property that survives
what may happen there, where no deferred phase may be taken. -/
def FifoPoint (pt : Point) : Prop := ∀ Q, FifoClosed Q → pt.Keeps Q

/-- `P` survives the elementary changes that operations on port `p` make. -/
structure PortClosed (P : State → Prop) (p : Nat) : Prop extends SpanClosed P p where
  map : ∀ s role, P s → P (s.modPort p fun q => q.setFifoNum role (fifoOf s.cfg p role))
  attach : ∀ s, P s → P ((clearTxq p s).setSession p
    { active := true, pending := 0, framesIn := 0, framesOut := 0 })
  detach : ∀ s, P s → P (clearTxq p (s.modSession p fun x => { x with active := false, pending := 0 }))
  report : ∀ s len bytes, P s → P (reportFrame p len bytes s)
  chunk : ∀ pt f s more t, FifoPoint pt → pt.Keeps P → P s → txPassOn pt p f s = .ok (more, t) → P t
  rxbuf : ∀ s role bytes, bytes.length = s.cfg.chunk → P s →
    P (s.modHostPort p fun h => h.setRxbuf role bytes)

/-- `P` survives the elementary changes of the service and host operations but for the publication of an
alarm, those that only the deferred phase makes, and a reset. -/
structure ServiceClosed (P : State → Prop) : Prop extends CardClosed P where
  port : ∀ p, PortClosed P p
  hooks : ∀ s p rx1 rx2, P s → P (s.emit (.tickHooks p rx1 rx2))

/-- `P` survives the publication of an alarm (42_st_state_machine.md R113). -/
def PublishClosed (P : State → Prop) : Prop :=
  ∀ s p, publishes p s = true → P s →
    P ((s.modPort p fun q => { q with alarm := (s.port p).newalarm }).emit (.alarm p (s.port p).newalarm))

/-- `P` survives the changes that only the deferred phase makes, and the publications of its sweep
(60_exceptions.md R175, R176). -/
structure DeferClosed (P : State → Prop) : Prop where
  publish : PublishClosed P
  clearAcc : ∀ s f d, accBit f d s = true → P s → P (clearAcc f d s)
  count : ∀ s, P s → P (s.modCard fun c => { c with ticks := c.ticks + 1 })
  clear : ∀ s, P s → P (s.modCard fun c => { c with miscAcc := c.miscAcc ^^^ 0x02 })

/-- `P` survives the points of an operation. -/
structure EnvKeeps (E : Env) (P : State → Prop) : Prop where
  free : E.free.Keeps P
  raw : E.raw.Keeps P
  fifo : E.fifo.Keeps P
  own : E.own.Keeps P

/-- `P` survives the points of an operation of the service agent, and those inside its FIFO sections are such. -/
structure ServiceKeeps (E : Env) (P : State → Prop) : Prop extends EnvKeeps E P where
  section_ : FifoPoint E.fifo

/-! ### Register accesses -/

namespace AccessClosed

variable {P : State → Prop} (H : AccessClosed P) {s t : State} {pt : Point}
include H

theorem readReg {r : Reg} {v : BitVec 16} (h : P s) (e : readReg r s = .ok (v, t)) : P t := by
  obtain ⟨w, hw, he⟩ := bind_eq_ok.1 e
  cases he
  exact H.read r s _ h hw

theorem writeRegMust {must : Bool} {r : Reg} {v : Byte} (h : P s) (e : writeRegMust must r v s = .ok t) :
    P t := by
  unfold Machine.writeRegMust at e
  split at e
  · next hv =>
    split at e
    · split at e
      · exact H.write r v _ t (H.draw s h) hv e
      · cases e; exact H.draw s h
    · exact H.write r v s t h hv e
  · cases e

theorem writeReg {r : Reg} {v : Byte} (h : P s) (e : writeReg r v s = .ok t) : P t := H.writeRegMust h e

theorem memRead {off : Byte} {n : Nat} {v : BitVec 16} (h : P s) (e : memRead off n s = .ok (v, t)) :
    P t := by
  unfold Machine.memRead at e
  split at e
  · cases e
  · exact H.readReg h e

theorem memWrite {off v : Byte} (h : P s) (e : memWrite off v s = .ok t) : P t := by
  unfold Machine.memWrite at e
  split at e
  · cases e
  · exact H.writeReg h e

variable (hp : pt.Keeps P)
include hp

theorem rdRaw {r : Reg} {v : BitVec 16} (h : P s) (e : rdRaw pt r s = .ok (v, t)) : P t := by
  obtain ⟨u, hu, e⟩ := bind_eq_ok.1 e
  exact H.readReg (hp s u h hu) e

theorem rd {r : Reg} {v : Byte} (h : P s) (e : rd pt r s = .ok (v, t)) : P t := by
  obtain ⟨⟨w, u⟩, hw, he⟩ := bind_eq_ok.1 e
  cases he
  exact H.rdRaw hp h hw

theorem wr {r : Reg} {v : Byte} (h : P s) (e : wr pt r v s = .ok t) : P t := by
  obtain ⟨u, hu, e⟩ := bind_eq_ok.1 e
  exact H.writeReg (hp s u h hu) e

theorem rdx {sel r : Reg} {sv v : Byte} (h : P s) (e : rdx pt sel sv r s = .ok (v, t)) : P t := by
  obtain ⟨u, hu, e⟩ := bind_eq_ok.1 e
  obtain ⟨⟨w, u'⟩, hw, he⟩ := bind_eq_ok.1 e
  cases he
  exact H.readReg (H.line u (H.wr hp h hu)) hw

theorem wrx {sel r : Reg} {sv v : Byte} (h : P s) (e : wrx pt sel sv r v s = .ok t) : P t := by
  obtain ⟨u, hu, e⟩ := bind_eq_ok.1 e
  exact H.writeReg (H.line u (H.wr hp h hu)) e

theorem waitNotBusy {n : Nat} {which : Wait} {off : Byte} (h : P s)
    (e : waitNotBusy n pt which off s = .ok t) : P t := by
  induction n generalizing s with
  | zero =>
    obtain ⟨u, hu, e⟩ := bind_eq_ok.1 e
    have hu := hp s u h hu
    cases e
    split
    · exact H.diag _ _ hu
    · exact hu
  | succ n ih =>
    obtain ⟨u, hu, e⟩ := bind_eq_ok.1 e
    have hu := hp s u h hu
    split at e
    · split at e
      · cases e; exact H.diag _ _ (H.draw _ hu)
      · exact ih (H.draw _ hu) e
    · cases e; exact hu

theorem betweenWaits {off : Byte} {write : State → Except Fault State}
    (hw : ∀ u v, P u → write u = .ok v → P v) (h : P s) (e : betweenWaits pt off write s = .ok t) : P t := by
  obtain ⟨u, hu, e⟩ := bind_eq_ok.1 e
  obtain ⟨v, hv, e⟩ := bind_eq_ok.1 e
  exact H.waitNotBusy hp (hw _ _ (H.waitNotBusy hp h hu) hv) e

theorem wrbMust {must : Bool} {r : Reg} {v : Byte} (h : P s) (e : wrbMust must pt r v s = .ok t) : P t := by
  refine H.betweenWaits hp (fun a b ha hb => ?_) h e
  obtain ⟨u, hu, hb⟩ := bind_eq_ok.1 hb
  exact H.writeRegMust (hp a u ha hu) hb

theorem wrb {r : Reg} {v : Byte} (h : P s) (e : wrb pt r v s = .ok t) : P t := H.wrbMust hp h e

theorem stableRead {n : Nat} {r : Reg} {prev v : BitVec 16} (h : P s)
    (e : stableRead pt n r prev s = .ok (v, t)) : P t := by
  induction n generalizing s prev with
  | zero => cases e; exact H.diag _ _ h
  | succ n ih =>
    obtain ⟨⟨w, u⟩, hw, he⟩ := bind_eq_ok.1 e
    dsimp only at he
    split at he
    · cases he; exact H.rdRaw hp h hw
    · exact ih (H.rdRaw hp h hw) he

theorem rds {r : Reg} {v : BitVec 16} (h : P s) (e : rds pt r s = .ok (v, t)) : P t := by
  obtain ⟨⟨w, u⟩, hw, he⟩ := bind_eq_ok.1 e
  exact H.stableRead hp (H.rdRaw hp h hw) he

theorem fifoSelectMust {must : Bool} {f : Nat} {d : Dir} (h : P s)
    (e : fifoSelectMust must pt f d s = .ok t) : P t := by
  unfold Machine.fifoSelectMust at e
  split at e
  · exact H.wrbMust hp h e
  · cases e

theorem fifoSelect {f : Nat} {d : Dir} (h : P s) (e : fifoSelect pt f d s = .ok t) : P t :=
  H.fifoSelectMust hp h e

theorem setIrqEn {en : Bool} (h : P s) (e : setIrqEn pt en s = .ok t) : P t := by
  obtain ⟨⟨w, u⟩, hw, he⟩ := bind_eq_ok.1 e
  exact H.wr hp (H.rd hp h hw) he

theorem fifoIrqSection {f : Nat} {d : Dir} {en : Bool} (h : P s)
    (e : fifoIrqSection pt f d en s = .ok t) : P t := by
  obtain ⟨u, hu, he⟩ := bind_eq_ok.1 e
  exact H.setIrqEn hp (H.fifoSelect hp h hu) he

theorem readBytes {n : Nat} {bytes : List Byte} (h : P s) (e : readBytes pt n s = .ok (bytes, t)) : P t := by
  induction n generalizing s bytes with
  | zero => cases e; exact h
  | succ n ih =>
    obtain ⟨⟨b, u⟩, hb, e⟩ := bind_eq_ok.1 e
    obtain ⟨⟨bs, v⟩, hbs, e⟩ := bind_eq_ok.1 e
    cases e
    exact ih (H.rd hp h hb) hbs

/-- Writes of the data port, of whatever bytes. -/
theorem writeBytes {α : Type} {byte : α → State → Byte} {xs : List α} (h : P s)
    (e : forEach (fun x s => Machine.wr pt .fifoData (byte x s) s) xs s = .ok t) : P t :=
  forEach_keeps (fun _ _ _ _ hu he => H.wr hp hu he) h e

theorem loadState {p code : Nat} {resume : Bool} (h : P s) (e : loadState pt p code resume s = .ok t) :
    P t := by
  unfold Machine.loadState at e
  split at e
  · obtain ⟨u, hu, e⟩ := bind_eq_ok.1 e
    split at e
    · exact H.wrx hp (H.wrx hp h hu) e
    · cases e; exact H.wrx hp h hu
  · cases e

theorem finishChunk_of {p : Nat} {r : Pull} {more : Bool} (h : P s)
    (hdone : ∀ u, P u → P ((decrement p u).modSession p fun x => { x with framesOut := x.framesOut + 1 }))
    (e : finishChunk pt p r s = .ok (more, t)) : P t := by
  unfold finishChunk at e
  cases r with
  | done =>
    obtain ⟨u, hu, he⟩ := bind_eq_ok.1 e
    cases he
    exact hdone u (H.wrb hp h hu)
  | more =>
    obtain ⟨u, hu, he⟩ := bind_eq_ok.1 e
    cases he
    exact H.setIrqEn hp h hu
  | noFrames =>
    obtain ⟨u, hu, he⟩ := bind_eq_ok.1 e
    cases he
    exact H.setIrqEn hp h hu

/-- A transmit pass keeps what its pull and its completion keep (43_hdlc_framer.md R139). -/
theorem txPassOn_of {p f : Nat} {more : Bool} (hpull : ∀ s cap, P s → P (hostPull p cap s).2)
    (hdone : ∀ s, P s → P ((decrement p s).modSession p fun x => { x with framesOut := x.framesOut + 1 }))
    (h : P s) (e : txPassOn pt p f s = .ok (more, t)) : P t := by
  unfold txPassOn at e
  split at e
  · dsimp only at e
    obtain ⟨u, hu, e⟩ := bind_eq_ok.1 e
    obtain ⟨v, hv, e⟩ := bind_eq_ok.1 e
    exact H.finishChunk_of hp (H.writeBytes hp (byte := fun b _ => b) (H.fifoSelect hp (hpull s _ h) hu) hv)
      hdone e
  · obtain ⟨u, hu, e⟩ := bind_eq_ok.1 e
    cases e
    exact H.fifoIrqSection hp h hu

end AccessClosed

/-- What one read of many delivers: a read of `n` bytes answers `n` bytes. -/
theorem readBytes_length {pt : Point} {n : Nat} {s t : State} {bytes : List Byte}
    (e : readBytes pt n s = .ok (bytes, t)) : bytes.length = n := by
  induction n generalizing s bytes t with
  | zero => cases e; rfl
  | succ n ih =>
    obtain ⟨⟨b, u⟩, hb, e⟩ := bind_eq_ok.1 e
    obtain ⟨⟨bs, v⟩, hbs, e⟩ := bind_eq_ok.1 e
    cases e
    simp [ih hbs]

end Sys2Proof.Machine
end

