-- ==== Sys2Proof/Laws/Elementary.lean ====
section
/-! SUPPORT. The elementary changes themselves: what a raw access can change, what a step of the line agent or
the tick agent can change, and from them ready-made closure proofs (Sys2Proof/Laws/Closed.lean). -/

namespace Sys2Proof.Machine

/-! ### A raw access changes the hardware only -/

/-- `t` is `s` but for the hardware, the count of draws and the diagnostic log. -/
def HwOnly (s t : State) : Prop :=
  t = { s with
    hw := t.hw, draws := t.draws, card := { s.card with diaglog := t.card.diaglog } }

theorem HwOnly.refl (s : State) : HwOnly s s := rfl

theorem hwOnly_modHw (s : State) (g : Hardware → Hardware) : HwOnly s (s.modHw g) := rfl

theorem hwOnly_countDraw (s : State) : HwOnly s s.countDraw := rfl

theorem hwOnly_diag (s : State) (e : DiagEvent) : HwOnly s (s.diag e) := rfl

theorem HwOnly.fields {s t : State} (h : HwOnly s t) :
    t.cfg = s.cfg ∧ t.strap = s.strap ∧ t.live = s.live ∧ t.ports = s.ports ∧ t.sess = s.sess ∧
    t.host = s.host ∧ t.script = s.script ∧ t.sched = s.sched ∧
    t.card.running = s.card.running ∧ t.card.ticks = s.card.ticks ∧ t.card.syncsrc = s.card.syncsrc ∧
    t.card.fifoAcc = s.card.fifoAcc ∧ t.card.miscAcc = s.card.miscAcc ∧ t.card.hostlog = s.card.hostlog := by
  unfold HwOnly at h
  rw [h]
  exact ⟨rfl, rfl, rfl, rfl, rfl, rfl, rfl, rfl, rfl, rfl, rfl, rfl, rfl, rfl⟩

theorem readEffect_hwOnly (r : Reg) (s : State) : HwOnly s (readEffect r s) := by
  cases r <;> rfl

theorem writeEffect_hwOnly {r : Reg} {v : Byte} {s t : State} (h : writeEffect r v s = .ok t) :
    HwOnly s t := by
  cases r with
  | stRd => obtain ⟨p, -, rfl⟩ := map_eq_ok.1 h; rfl
  | stWr => obtain ⟨p, -, rfl⟩ := map_eq_ok.1 h; rfl
  | fifoData =>
    change writeData v s = .ok t at h
    unfold writeData at h
    split at h
    · cases h
    · split at h <;> cases h
      rfl
  | fifoCmd =>
    change writeCmd v s = .ok t at h
    unfold writeCmd at h
    split at h
    · cases h; rfl
    · split at h
      · unfold advanceFrame at h
        dsimp only at h
        split at h
        · split at h <;> cases h
          rfl
        · split at h
          · cases h
          · split at h <;> cases h
            rfl
      · cases h; rfl
  | _ => cases h; rfl

/-- A property that does not look at the hardware, the draws or the diagnostic log, and that the
steps inside an indexed sequence keep, is closed under register accesses. -/
theorem AccessClosed.of_hwOnly {P : State → Prop} (hP : ∀ s t, HwOnly s t → P s → P t)
    (hline : ∀ s, P s → P (linePoint s)) : AccessClosed P where
  line := hline
  read r s _ h _ := hP _ _ (readEffect_hwOnly r s) h
  write _ _ _ _ h _ e := hP _ _ (writeEffect_hwOnly e) h
  draw s h := hP _ _ (hwOnly_countDraw s) h
  diag s e h := hP _ _ (hwOnly_diag s e) h

/-! ### Steps of the line agent and the tick agent -/

theorem LineClosed.fifoEvent {P : State → Prop} (H : LineClosed P) {s : State} {f : Nat} {d : Dir}
    (hf : f < s.cfg.nfifo) (h : P s) : P (s.fifoEvent f d) := by
  unfold State.fifoEvent
  split
  · exact H.event s f d hf h
  · exact h

/-- A step of the line agent or the tick agent that is enabled keeps what its elementary changes keep. -/
theorem LineClosed.lineStep {P : State → Prop} (H : LineClosed P) {s t : State} {i : Instr} (h : P s)
    (e : lineStep i s = some t) : P t := by
  cases i with
  | lineBusy b =>
    change lineBusyStep b s = some t at e
    unfold lineBusyStep at e
    split at e
    · cases e; exact H.busy s false h
    · split at e <;> cases e
      exact H.busy s true h
  | lineState p b =>
    change lineStateStep p b s = some t at e
    unfold lineStateStep at e
    dsimp only at e
    split at e
    · next hc =>
      split at e <;> cases e
      · exact h
      · exact H.lineState s p b hc.1 hc.2.1 h
    · cases e
  | lineRxframe f bytes =>
    change lineRxframeStep f bytes s = some t at e
    unfold lineRxframeStep at e
    dsimp only at e
    split at e
    · next hc =>
      cases e
      obtain ⟨hf, -, -, hb, hq, hd⟩ := hc
      exact H.fifoEvent hf (H.rxframe s _ _ hf (by rintro rfl; simp at hb) hq hd h)
    · cases e
  | lineTxtake f =>
    change lineTxtakeStep f s = some t at e
    unfold lineTxtakeStep at e
    dsimp only at e
    split at e
    · next hc =>
      split at e
      · cases e; exact H.fifoEvent hc.1 h
      · next fr rest hq => cases e; exact H.fifoEvent hc.1 (H.txtake s _ _ _ hc.1 hq h)
    · cases e
  | lineBrx f bytes =>
    change lineBrxStep f bytes s = some t at e
    unfold lineBrxStep at e
    dsimp only at e
    split at e
    · next hc => cases e; exact H.brx s _ _ hc.1 hc.2.2.2.2 h
    · cases e
  | lineBtxtake f n =>
    change lineBtxtakeStep f n s = some t at e
    unfold lineBtxtakeStep at e
    dsimp only at e
    split at e
    · next hc => cases e; exact H.btxtake s _ _ hc.1 hc.2.2.2.2 h
    · cases e
  | lineFifoirq f dir =>
    change lineFifoirqStep f dir s = some t at e
    unfold lineFifoirqStep at e
    split at e
    · cases e
    · dsimp only at e
      split at e
      · next hc => cases e; exact H.event s _ _ hc.1 h
      · cases e
  | tick =>
    change tickStep s = some t at e
    unfold tickStep at e
    split at e <;> cases e
    exact H.tick s h
  | _ => cases e

/-- The point inside an indexed sequence keeps what the line agent's and the tick agent's steps keep. -/
theorem LineClosed.linePoint {P : State → Prop} (H : LineClosed P)
    (hpop : ∀ s, P s → P { s with sched := s.sched.tail }) {s : State} (h : P s) : P (linePoint s) := by
  have fold : ∀ (es : List EnvStep) (u : State), P u → P (es.foldl takeLine u) := by
    intro es
    induction es with
    | nil => exact fun _ hu => hu
    | cons e es ih =>
      refine fun u hu => ih _ ?_
      cases e with
      | issue i =>
        change P ((Machine.lineStep i u).getD u)
        cases he : Machine.lineStep i u with
        | none => exact hu
        | some t => exact H.lineStep hu he
      | setLive l => exact hu
      | setStrap c => exact hu
  unfold Machine.linePoint
  split
  · exact h
  · next es rest hs =>
    have := hpop s h
    rw [hs] at this
    exact fold _ _ this

/-- A property that reads neither the hardware, the draws, the diagnostic log nor the schedule is
kept by the line agent, the tick agent and every register access. -/
theorem LineClosed.of_hwOnly {P : State → Prop} (hP : ∀ s t, HwOnly s t → P s → P t) : LineClosed P := by
  constructor <;> intro s <;> intros <;> exact hP s _ rfl ‹_›

end Sys2Proof.Machine
end

