-- ==== Sys2Proof/Laws/Quiet.lean ====
section
/-! SUPPORT. The register access layer while no other agent steps between accesses: what each access of
40_register_access.md answers, once for each register. -/

namespace Sys2Proof.Machine

variable {s : State} {pt : Point} {E : Env}

/-! ### Points at which no other agent steps -/

/-- Nothing happens at the point while the schedule is empty. -/
def Point.Calm (pt : Point) : Prop := ∀ s : State, s.sched = [] → pt s = .ok s

/-- Nothing happens at the points of an operation while the schedule is empty. -/
structure Env.Calm (E : Env) : Prop where
  free : E.free.Calm
  raw : E.raw.Calm
  fifo : E.fifo.Calm
  own : E.own.Calm

/-- In a scripted run nothing happens at a point (40_register_access.md R78). -/
theorem pointAt_calm (n : Nat) (r : Rights) : (pointAt n r).Calm := by
  intro s h
  obtain ⟨⟩ := s
  cases h
  cases n <;> rfl

theorem hostEnv_calm (s : State) : s.hostEnv.Calm := by
  constructor <;> exact pointAt_calm _ _

theorem serviceEnv_calm (s : State) : s.serviceEnv.Calm := by
  constructor <;> exact pointAt_calm _ _

theorem immEnv_calm (s : State) : s.immEnv.Calm := by
  constructor <;> exact pointAt_calm _ _

/-- Nothing happens between two commands while the schedule is empty. -/
theorem betweenCommands_calm : betweenCommands.Calm := fun _ h => pointAt_calm _ _ _ h

@[simp] theorem linePoint_of_nil (h : s.sched = []) : linePoint s = s := by
  simp [linePoint, h]

/-! ### The selected FIFO -/

@[simp] theorem selNum_select (s : State) (f : Nat) (d : Dir) (hf : f < 32) : (s.select f d).selNum = f := by
  have : ∀ f < 32, ∀ d : Dir, ((selByte f d).extractLsb' 0 5).toNat = f := by
    intro f hf d; cases d <;> revert f <;> decide
  exact this f hf d

@[simp] theorem selDir_select (s : State) (f : Nat) (d : Dir) (hf : f < 32) : (s.select f d).selDir = d := by
  have : ∀ f < 32, ∀ d : Dir, (if (selByte f d).getLsbD 7 then Dir.rx else .tx) = d := by
    intro f hf d; cases d <;> revert f <;> decide
  exact this f hf d

/-- A FIFO number fits `FIFO_SEL`: its reserved bits are 0 (10_state.md R30). -/
theorem selByte_reserved (f : Nat) (d : Dir) (hf : f < 32) : selByte f d &&& 0x60 = 0 := by
  have : ∀ f < 32, ∀ d : Dir, selByte f d &&& 0x60 = 0 := by
    intro f hf d; cases d <;> revert f <;> decide
  exact this f hf d

@[simp] theorem select_select (s : State) (f g : Nat) (d e : Dir) :
    (s.select f d).select g e = s.select g e := rfl

/-! ### Raw accesses by name -/

theorem rdRaw_of_nil (c : pt.Calm) (r : Reg) (h : s.sched = []) : rdRaw pt r s = readReg r s := by
  rw [rdRaw, c s h, ok_bind]

theorem rd_of_nil (c : pt.Calm) (r : Reg) (h : s.sched = []) :
    rd pt r s = (readValue r s).map fun v => (v.setWidth 8, readEffect r s) := by
  rw [rd, rdRaw_of_nil c r h]
  unfold readReg
  cases readValue r s <;> rfl

theorem wr_of_nil (c : pt.Calm) (r : Reg) (v : Byte) (h : s.sched = []) : wr pt r v s = writeReg r v s := by
  rw [wr, c s h, ok_bind]

/-- A write whose reserved bits are 0 to a register that the busy flag does not gate. -/
theorem writeReg_plain {r : Reg} {v : Byte} (hv : v &&& r.reserved = 0) (hr : r.busyGated = false) :
    writeReg r v s = writeEffect r v s := by
  simp [writeReg, writeRegMust, hv, hr]

/-- A write while the hardware is not busy. -/
theorem writeRegMust_idle (must : Bool) {r : Reg} {v : Byte} (hv : v &&& r.reserved = 0)
    (hb : s.hw.busy = false) : writeRegMust must r v s = writeEffect r v s := by
  simp [writeRegMust, hv, hb]

theorem writeReg_idle {r : Reg} {v : Byte} (hv : v &&& r.reserved = 0) (hb : s.hw.busy = false) :
    writeReg r v s = writeEffect r v s := writeRegMust_idle false hv hb

/-- A write to a gated register while the hardware is busy makes one draw; by it, whatever was drawn before, the
write has its effect or none, and it has it if it must (40_register_access.md R81). -/
theorem writeRegMust_busy (must : Bool) {r : Reg} {v : Byte} (hv : v &&& r.reserved = 0)
    (hr : r.busyGated = true) (hb : s.hw.busy = true) :
    writeRegMust must r v s =
      if must || Config.takenDraw s.draws then writeEffect r v s.countDraw else .ok s.countDraw := by
  simp [writeRegMust, hv, hr, hb]

theorem writeReg_busy {r : Reg} {v : Byte} (hv : v &&& r.reserved = 0) (hr : r.busyGated = true)
    (hb : s.hw.busy = true) :
    writeReg r v s = if Config.takenDraw s.draws then writeEffect r v s.countDraw else .ok s.countDraw :=
  writeRegMust_busy false hv hr hb

/-! ### Busy waits (40_register_access.md R78) -/

/-- Bit 2 of `STATUS` is the busy flag (10_state.md R23). -/
theorem busyBit_eq (s : State) : busyBit s = s.hw.busy := by
  have : ∀ a b c : Bool, ((0#5) ++ BitVec.ofBool a ++ BitVec.ofBool b ++ BitVec.ofBool c).getLsbD 2 = a := by
    decide
  exact this _ _ _

/-- A wait while the hardware is not busy answers at once, with nothing changed. -/
theorem waitNotBusy_idle (c : pt.Calm) (n : Nat) (which : Wait) (off : Byte) (h : s.quiet) :
    waitNotBusy n pt which off s = .ok s := by
  have hb : busyBit s = false := by
    rw [busyBit_eq, h.2]
  cases n <;> simp [waitNotBusy, c s h.1, hb]

/-- A wait while the hardware stays busy ends in its timeout. -/
theorem waitNotBusy_stuck (c : pt.Calm) (which : Wait) (off : Byte) (h : s.sched = []) (hb : s.hw.busy = true) :
    waitNotBusy 0 pt which off s = .ok (s.diag (.timeoutBusy which off)) := by
  have hb : busyBit s = true := by
    rw [busyBit_eq, hb]
  simp [waitNotBusy, c s h, hb]

/-- A write between two waits that finds the hardware idle is the write. -/
theorem betweenWaits_idle (c : pt.Calm) {off : Byte} {write : State → Except Fault State} (h : s.quiet)
    {t : State} (hw : write s = .ok t) (ht : t.quiet) : betweenWaits pt off write s = .ok t := by
  rw [betweenWaits, waitNotBusy_idle c _ _ _ h, ok_bind, hw, ok_bind, waitNotBusy_idle c _ _ _ ht]

/-- A busy-wait write that finds the hardware idle is the write. -/
theorem wrbMust_idle (c : pt.Calm) (must : Bool) {r : Reg} {v : Byte} (h : s.quiet) (hv : v &&& r.reserved = 0)
    {t : State} (hw : writeEffect r v s = .ok t) (ht : t.quiet) : wrbMust must pt r v s = .ok t :=
  betweenWaits_idle c h (by rw [c s h.1, ok_bind, writeRegMust_idle must hv h.2, hw]) ht

theorem wrb_idle (c : pt.Calm) {r : Reg} {v : Byte} (h : s.quiet) (hv : v &&& r.reserved = 0)
    {t : State} (hw : writeEffect r v s = .ok t) (ht : t.quiet) : wrb pt r v s = .ok t :=
  wrbMust_idle c false h hv hw ht

/-- `FIFO.SEL(f, d)` (41_flow_mapper.md R92). -/
theorem fifoSelectMust_idle (c : pt.Calm) (must : Bool) {f : Nat} (d : Dir) (h : s.quiet) (hf : f < s.cfg.nfifo)
    (hn : f < 32) : fifoSelectMust must pt f d s = .ok (s.select f d) := by
  rw [fifoSelectMust, if_pos hf]
  exact wrbMust_idle c must (r := .fifoSel) h (selByte_reserved f d hn) rfl ⟨h.1, h.2⟩

theorem fifoSelect_idle (c : pt.Calm) {f : Nat} (d : Dir) (h : s.quiet) (hf : f < s.cfg.nfifo) (hn : f < 32) :
    fifoSelect pt f d s = .ok (s.select f d) := fifoSelectMust_idle c false d h hf hn

/-! ### Stable reads (40_register_access.md R79) -/

/-- A stable read of a counter whose two first reads agree. -/
theorem rds_of_nil (c : pt.Calm) {r : Reg} (h : s.sched = []) (hr : 1 ≤ s.cfg.stableRetries) {v : BitVec 16}
    (hv : readValue r s = .ok v) (he : readEffect r s = s) : rds pt r s = .ok (v, s) := by
  obtain ⟨n, hn⟩ : ∃ n, s.cfg.stableRetries = n + 1 := ⟨s.cfg.stableRetries - 1, by omega⟩
  have hrd : rdRaw pt r s = .ok (v, s) := by
    rw [rdRaw_of_nil c r h, readReg, hv, ok_bind, he]
  simp [rds, hrd, hn, stableRead]

theorem rds_fCnt (c : pt.Calm) (h : s.sched = []) (hr : 1 ≤ s.cfg.stableRetries) :
    rds pt .fCnt s = .ok (BitVec.ofNat 16 ((s.fifo s.selNum).frameCount s.selDir), s) :=
  rds_of_nil c h hr rfl rfl

theorem rds_zCnt (c : pt.Calm) (h : s.sched = []) (hr : 1 ≤ s.cfg.stableRetries) :
    rds pt .zCnt s = .ok (BitVec.ofNat 16 ((s.fifo s.selNum).byteCount s.selDir), s) :=
  rds_of_nil c h hr rfl rfl

/-! ### Interrupt enables (41_flow_mapper.md R94) -/

/-- The value `FIFO_CTRL` has after its interrupt enable is written. -/
def withIrqEn (en : Bool) (c : Byte) : Byte := if en then c ||| 0x01 else c &&& 0xFE

theorem withIrqEn_reserved {c : Byte} (en : Bool) (h : c &&& 0xF8 = 0) : withIrqEn en c &&& 0xF8 = 0 := by
  revert c; cases en <;> decide

/-- Setting or clearing the interrupt enable of the selected FIFO. -/
theorem setIrqEn_idle (c : pt.Calm) (en : Bool) (h : s.sched = [])
    (hc : (s.fifoRegs s.selNum s.selDir).ctrl &&& 0xF8 = 0) :
    setIrqEn pt en s = .ok (s.modFifo s.selNum fun x =>
      x.modRegs s.selDir fun c => { c with ctrl := withIrqEn en (s.fifoRegs s.selNum s.selDir).ctrl }) := by
  unfold setIrqEn
  rw [rd_of_nil c _ h]
  simp only [readValue, map_ok, readEffect, ok_bind]
  rw [wr_of_nil c _ _ h, writeReg_plain _ rfl]
  · cases en <;> simp [writeEffect, withIrqEn]
  · have := withIrqEn_reserved en hc
    cases en <;> simpa [Reg.reserved, withIrqEn] using this

/-! ### Commands (10_state.md R34) -/

/-- `FIFO.RESET(f, d)` (41_flow_mapper.md R93). -/
theorem fifoResetOp_idle (c : E.Calm) {f : Nat} (d : Dir) (h : s.quiet) (hf : f < s.cfg.nfifo) (hn : f < 32) :
    fifoResetOp E f d s = .ok (((s.select f d).modFifo f fun x => x.emptied d).clearPending f d) := by
  rw [fifoResetOp, c.free s h.1, ok_bind, fifoSelect_idle c.fifo d h hf hn, ok_bind]
  refine wrb_idle c.fifo (s := s.select f d) (r := .fifoCmd) (v := 0x02) ⟨h.1, h.2⟩ (by decide) ?_ ⟨h.1, h.2⟩
  simp [writeEffect, writeCmd, resetFifo, hn]

/-- The section of `FIFO.IRQ(f, d, en)` (41_flow_mapper.md R94). -/
theorem fifoIrqSection_idle (c : pt.Calm) {f : Nat} (d : Dir) (en : Bool) (h : s.quiet) (hf : f < s.cfg.nfifo)
    (hn : f < 32) (hc : (s.fifoRegs f d).ctrl &&& 0xF8 = 0) :
    fifoIrqSection pt f d en s = .ok ((s.select f d).modFifo f fun x =>
      x.modRegs d fun c => { c with ctrl := withIrqEn en (s.fifoRegs f d).ctrl }) := by
  rw [fifoIrqSection, fifoSelect_idle c d h hf hn, ok_bind,
    setIrqEn_idle c (s := s.select f d) en h.1 (by simpa [hn] using hc)]
  simp [hn]

/-- `FIFO.IRQ(f, d, en)` (41_flow_mapper.md R94). -/
theorem fifoIrqOp_idle (c : E.Calm) {f : Nat} (d : Dir) (en : Bool) (h : s.quiet) (hf : f < s.cfg.nfifo)
    (hn : f < 32) (hc : (s.fifoRegs f d).ctrl &&& 0xF8 = 0) :
    fifoIrqOp E f d en s = .ok ((s.select f d).modFifo f fun x =>
      x.modRegs d fun c => { c with ctrl := withIrqEn en (s.fifoRegs f d).ctrl }) := by
  rw [fifoIrqOp, c.free s h.1, ok_bind, fifoIrqSection_idle c.fifo d en h hf hn hc]

/-! ### The data port (10_state.md R33) -/

/-- `n` reads of the data port of a transparent receive FIFO take its `n` oldest bytes, in order. -/
theorem readBytes_transparent (c : pt.Calm) (n : Nat) {s : State} (h : s.sched = []) (hd : s.selDir = .rx)
    (hs : s.selNum < 32) (hm : hdlcMode (s.fifo s.selNum).rxRegs.ctrl = false)
    (hn : n ≤ (s.fifo s.selNum).brx.length) :
    readBytes pt n s = .ok ((s.fifo s.selNum).brx.take n,
      s.modFifo s.selNum fun x => { x with brx := x.brx.drop n }) := by
  induction n generalizing s with
  | zero => simp [readBytes, modFifo_self]
  | succ n ih =>
    obtain ⟨b, bs, hb⟩ : ∃ b bs, (s.fifo s.selNum).brx = b :: bs := by
      cases hx : (s.fifo s.selNum).brx with
      | nil => simp [hx] at hn
      | cons b bs => exact ⟨b, bs, rfl⟩
    have hv : readValue .fifoData s = .ok (b.setWidth 16) := by
      simp [readValue, hd, Fifo.front, hm, hb]
    have he : readEffect .fifoData s = s.modFifo s.selNum fun x => { x with brx := bs } :=
      modFifo_congr _ _ (by simp [Fifo.popped, hm, hb])
    have ih := ih (s := s.modFifo s.selNum fun x => { x with brx := bs })
      h hd hs (by simpa [hs] using hm) (by simpa [hs, hb] using hn)
    have hsel : (s.modFifo s.selNum fun x => { x with brx := bs }).selNum = s.selNum := rfl
    rw [hsel] at ih
    rw [readBytes, rd_of_nil c _ h, hv, he, map_ok, ok_bind]
    simp only [ih]
    simp only [hb, hs, modFifo_modFifo, fifo_modFifo, ok_bind, List.take_succ_cons]
    rw [modFifo_congr (k := fun x => { x with brx := bs.drop n })
      (l := fun x => { x with brx := x.brx.drop (n + 1) }) _ _ (by simp [hb])]
    simp

/-- `n` reads of the data port of a receive FIFO in HDLC mode take the next `n` bytes of the head frame. -/
theorem readBytes_hdlc (c : pt.Calm) (n : Nat) {s : State} (h : s.sched = []) (hd : s.selDir = .rx)
    (hs : s.selNum < 32) (hm : hdlcMode (s.fifo s.selNum).rxRegs.ctrl = true) {fr : Frame} {rest : List Frame}
    (hq : (s.fifo s.selNum).rxq = fr :: rest) (hn : (s.fifo s.selNum).rxpos + n ≤ fr.length) :
    readBytes pt n s = .ok ((fr.drop (s.fifo s.selNum).rxpos).take n,
      s.modFifo s.selNum fun x => { x with rxpos := x.rxpos + n }) := by
  induction n generalizing s with
  | zero => simp [readBytes, modFifo_self]
  | succ n ih =>
    have hlt : (s.fifo s.selNum).rxpos < fr.length := by omega
    have hv : readValue .fifoData s = .ok ((fr[(s.fifo s.selNum).rxpos]'hlt).setWidth 16) := by
      simp [readValue, hd, Fifo.front, hm, hq, hlt]
    have he : readEffect .fifoData s = s.modFifo s.selNum fun x => { x with rxpos := x.rxpos + 1 } :=
      modFifo_congr _ _ (by simp [Fifo.popped, hm])
    have ih := ih (s := s.modFifo s.selNum fun x => { x with rxpos := x.rxpos + 1 })
      h hd hs (by simpa [hs] using hm) (by simpa [hs] using hq) (by simp [hs]; omega)
    have hsel : (s.modFifo s.selNum fun x => { x with rxpos := x.rxpos + 1 }).selNum = s.selNum := rfl
    rw [hsel] at ih
    rw [readBytes, rd_of_nil c _ h, hv, he, map_ok, ok_bind]
    simp only [ih]
    have htake : (fr.drop (s.fifo s.selNum).rxpos).take (n + 1) =
        fr[(s.fifo s.selNum).rxpos] :: (fr.drop ((s.fifo s.selNum).rxpos + 1)).take n := by
      rw [List.drop_eq_getElem_cons hlt, List.take_succ_cons]
    rw [htake]
    simp [hs, Nat.add_assoc, Nat.add_comm 1]

/-- Writes of the data port of a transparent transmit FIFO with room append the bytes. -/
theorem writeBytes_transparent (c : pt.Calm) (bytes : List Byte) {s : State} (h : s.sched = []) (hd : s.selDir = .tx)
    (hs : s.selNum < 32) (hm : hdlcMode (s.fifo s.selNum).txRegs.ctrl = false)
    (hn : (s.fifo s.selNum).txStored + bytes.length ≤ s.cfg.fifoDepth) :
    forEach (fun b s => wr pt .fifoData b s) bytes s =
      .ok (s.modFifo s.selNum fun x => { x with btx := x.btx ++ bytes }) := by
  induction bytes generalizing s with
  | nil => simp [modFifo_self]
  | cons b bs ih =>
    have hw : wr pt .fifoData b s = .ok (s.modFifo s.selNum fun x => { x with btx := x.btx ++ [b] }) := by
      rw [wr_of_nil c _ _ h, writeReg_plain (by simp [Reg.reserved]) rfl]
      simp at hn
      have : ¬ s.cfg.fifoDepth ≤ (s.fifo s.selNum).txStored := by omega
      simp [writeEffect, writeData, hd, hm, Fifo.pushed, State.modFifo, this]
    have ih := ih (s := s.modFifo s.selNum fun x => { x with btx := x.btx ++ [b] })
      h hd hs (by simpa [hs] using hm) (by simp [hs, Fifo.txStored] at hn ⊢; omega)
    have hsel : (s.modFifo s.selNum fun x => { x with btx := x.btx ++ [b] }).selNum = s.selNum := rfl
    rw [hsel] at ih
    rw [forEach_cons, hw, ok_bind, ih]
    simp [hs]

/-- Writes of the data port of a transmit FIFO in HDLC mode with room append the bytes to the open frame. -/
theorem writeBytes_hdlc (c : pt.Calm) (bytes : List Byte) {s : State} (h : s.sched = []) (hd : s.selDir = .tx)
    (hs : s.selNum < 32) (hm : hdlcMode (s.fifo s.selNum).txRegs.ctrl = true)
    (hn : (s.fifo s.selNum).txStored + bytes.length ≤ s.cfg.fifoDepth) :
    forEach (fun b s => wr pt .fifoData b s) bytes s =
      .ok (s.modFifo s.selNum fun x => { x with txopen := x.txopen ++ bytes }) := by
  induction bytes generalizing s with
  | nil => simp [modFifo_self]
  | cons b bs ih =>
    have hw : wr pt .fifoData b s = .ok (s.modFifo s.selNum fun x => { x with txopen := x.txopen ++ [b] }) := by
      rw [wr_of_nil c _ _ h, writeReg_plain (by simp [Reg.reserved]) rfl]
      simp at hn
      have : ¬ s.cfg.fifoDepth ≤ (s.fifo s.selNum).txStored := by omega
      simp [writeEffect, writeData, hd, hm, Fifo.pushed, State.modFifo, this]
    have ih := ih (s := s.modFifo s.selNum fun x => { x with txopen := x.txopen ++ [b] })
      h hd hs (by simpa [hs] using hm) (by simp [hs, Fifo.txStored] at hn ⊢; omega)
    have hsel : (s.modFifo s.selNum fun x => { x with txopen := x.txopen ++ [b] }).selNum = s.selNum := rfl
    rw [hsel] at ih
    rw [forEach_cons, hw, ok_bind, ih]
    simp [hs]

/-- The writes of an exchange, each of the byte the transmit buffer then holds, while nothing writes the buffer:
the chunk (44_bearer_pump.md R161). -/
theorem writeChunk_of_nil (c : pt.Calm) (p : Nat) (role : Role) {s : State} (h : s.sched = []) (hd : s.selDir = .tx)
    (hs : s.selNum < 32) (hm : hdlcMode (s.fifo s.selNum).txRegs.ctrl = false)
    (hl : ((s.hostPort p).txbuf role).length = s.cfg.chunk)
    (hn : (s.fifo s.selNum).txStored + s.cfg.chunk ≤ s.cfg.fifoDepth) :
    forEach (fun i s => wr pt .fifoData (((s.hostPort p).txbuf role)[i]?.getD 0) s) (List.range s.cfg.chunk) s =
      .ok (s.modFifo s.selNum fun x => { x with btx := x.btx ++ (s.hostPort p).txbuf role }) := by
  have key : ∀ (l : List Byte) (is : List Nat) (u : State), (u.hostPort p).txbuf role = l → u.sched = [] →
      u.selDir = .tx → u.selNum < 32 → hdlcMode (u.fifo u.selNum).txRegs.ctrl = false →
      (u.fifo u.selNum).txStored + is.length ≤ u.cfg.fifoDepth →
      forEach (fun i s => wr pt .fifoData (((s.hostPort p).txbuf role)[i]?.getD 0) s) is u =
        forEach (fun b s => wr pt .fifoData b s) (is.map fun i => l[i]?.getD 0) u := by
    intro l is
    induction is with
    | nil => intros; rfl
    | cons i is ih =>
      intro u hu h hd hs hm hn
      rw [forEach_cons, List.map_cons, forEach_cons, hu]
      have hw := writeBytes_transparent c [l[i]?.getD 0] h hd hs hm (by simp at hn ⊢; omega)
      rw [forEach_cons] at hw
      have hw : wr pt .fifoData (l[i]?.getD 0) u =
          .ok (u.modFifo u.selNum fun x => { x with btx := x.btx ++ [l[i]?.getD 0] }) := by
        cases hx : wr pt .fifoData (l[i]?.getD 0) u with
        | error e => rw [hx] at hw; cases hw
        | ok v => rw [hx] at hw; exact hw
      have hsel : (u.modFifo u.selNum fun x => { x with btx := x.btx ++ [l[i]?.getD 0] }).selNum = u.selNum := rfl
      rw [hw, ok_bind, ok_bind]
      refine ih _ hu h hd hs ?_ ?_
      · rw [hsel, fifo_modFifo _ _ _ hs]
        exact hm
      · rw [hsel, fifo_modFifo _ _ _ hs]
        simp [Fifo.txStored] at hn ⊢
        omega
  have hid : (List.range s.cfg.chunk).map (fun i => ((s.hostPort p).txbuf role)[i]?.getD 0) =
      (s.hostPort p).txbuf role := by
    apply List.ext_getElem
    · simp [hl]
    · intro i h1 h2
      simp [h2]
  rw [key _ _ s rfl h hd hs hm (by simpa using hn), hid,
    writeBytes_transparent c _ h hd hs hm (by rw [hl]; exact hn)]

/-! ### The line-state registers (10_state.md R26 to R28) -/

/-- Every card has at most eight ports (00_scope.md R6). -/
theorem nports_le_eight (s : State) : s.nports ≤ 8 := by
  unfold State.nports
  cases s.cfg.nports <;> decide

/-- A port number fits `ST_SEL`: its reserved bits are 0 (10_state.md R26). -/
theorem portByte_reserved {p : Nat} (hp : p < 8) : BitVec.ofNat 8 p &&& 0xF8 = 0 := by
  have : ∀ p < 8, BitVec.ofNat 8 p &&& 0xF8 = 0 := by decide
  exact this p hp

/-- `ST_SEL` written with a port number. -/
theorem wr_stSel (c : pt.Calm) {p : Nat} (h : s.sched = []) (hp : p < 8) :
    wr pt .stSel (BitVec.ofNat 8 p) s = .ok (s.modHw fun x => { x with stSel := BitVec.ofNat 8 p }) := by
  rw [wr_of_nil c _ _ h, writeReg_plain (portByte_reserved hp) rfl]
  rfl

/-- `ST_SEL` names the port it was written with. -/
theorem selPort_stSel {p : Nat} (hp : p < s.nports) :
    (s.modHw fun x => { x with stSel := BitVec.ofNat 8 p }).selPort = .ok p := by
  have h8 := nports_le_eight s
  have e : (BitVec.ofNat 8 p).toNat = p := by
    rw [BitVec.toNat_ofNat]
    omega
  unfold State.selPort
  have hn : (s.modHw fun x => { x with stSel := BitVec.ofNat 8 p }).nports = s.nports := rfl
  simp [hn, e, hp]

/-- `RDX(ST_SEL, p, ST_RD)`: the latch of port `p`, which stays selected. -/
theorem rdx_stRd (c : pt.Calm) {p : Nat} (h : s.sched = []) (hp : p < s.nports) :
    rdx pt .stSel (BitVec.ofNat 8 p) .stRd s =
      .ok ((s.latch p).byte, s.modHw fun x => { x with stSel := BitVec.ofNat 8 p }) := by
  have h8 := nports_le_eight s
  rw [rdx, wr_stSel c h (by omega), ok_bind, linePoint_of_nil (by exact h)]
  simp only [readReg, readValue, selPort_stSel hp, map_ok, readEffect, ok_bind]
  congr 2
  exact BitVec.setWidth_setWidth_of_le _ (by omega)

/-- `WRX(ST_SEL, p, ST_WR, v)`: the latch of port `p` written. -/
theorem wrx_stWr (c : pt.Calm) {p : Nat} {v : Byte} (h : s.sched = []) (hp : p < s.nports) (hv : v &&& 0xE0 = 0) :
    wrx pt .stSel (BitVec.ofNat 8 p) .stWr v s =
      .ok ((s.modHw fun x => { x with stSel := BitVec.ofNat 8 p }).setLatch p (writeLatch v (s.latch p))) := by
  have h8 := nports_le_eight s
  rw [wrx, wr_stSel c h (by omega), ok_bind, linePoint_of_nil (by exact h), writeReg_plain hv rfl]
  simp only [writeEffect, selPort_stSel hp, map_ok]
  rfl

/-- The state codes of both vocabularies fit four bits (42_st_state_machine.md R101). -/
theorem inVocab_lt {m : Mode} {code : Nat} (h : inVocab m code = true) : code < 16 := by
  unfold inVocab stateName at h
  by_contra hc
  cases m <;> (split at h <;> simp_all)

/-- The register accesses of a forced transition (42_st_state_machine.md R109): the code is loaded, `T2EXP`
cleared, and the port tracks on its own again exactly with `resume`. -/
theorem loadState_of_nil (c : pt.Calm) {p code : Nat} {resume : Bool} (h : s.sched = []) (hp : p < s.nports)
    (hc : inVocab (s.port p).mode code = true) :
    loadState pt p code resume s = .ok ((s.modHw fun x => { x with stSel := BitVec.ofNat 8 p }).setLatch p
      { s.latch p with code := BitVec.ofNat 4 code, t2exp := false, auto := resume }) := by
  have h8 := nports_le_eight s
  have h16 := inVocab_lt hc
  have hload : ∀ code < 16, (0x10 ||| BitVec.ofNat 8 code) &&& 0xE0 = 0 ∧ BitVec.ofNat 8 code &&& 0xE0 = 0 ∧
      (0x10 ||| BitVec.ofNat 8 code).getLsbD 4 = true ∧ (BitVec.ofNat 8 code).getLsbD 4 = false ∧
      stateCode (0x10 ||| BitVec.ofNat 8 code) = BitVec.ofNat 4 code := by decide
  obtain ⟨h1, h2, h3, h4, h5⟩ := hload code h16
  unfold loadState
  rw [if_pos hc, wrx_stWr c h hp h1, ok_bind]
  cases resume with
  | false => simp only [writeLatch, h3, h5, if_true, Bool.false_eq_true, if_false]
  | true =>
    rw [if_pos rfl, wrx_stWr c (by exact h) (by exact hp) h2]
    have hp8 : p < 8 := by omega
    simp only [latch_setLatch _ _ _ hp8, writeLatch, h3, h4, h5, if_true, Bool.false_eq_true, if_false]
    simp [State.setLatch, State.modHw]

end Sys2Proof.Machine
end

