-- ==== Sys2Proof/Laws/Commands.lean ====
section
/-! SUPPORT. The closure principle for whole commands: a property that survives the elementary changes
(Sys2Proof/Laws/Closed.lean) survives every operation, every point, every command and every step. -/

namespace Sys2Proof.Machine

theorem portArg_eq_ok {a : Byte} {s : State} {p : Nat} :
    portArg a s = .ok p ↔ a.toNat < s.nports ∧ p = a.toNat := by
  unfold portArg
  split <;> simp_all [eq_comm]

/-- An operation on a port runs on a port of the card (30_encoding.md R65). -/
theorem onPort_eq_ok {α : Type} {op : Nat → State → Except Fault α} {a : Byte} {s : State} {x : α} :
    onPort op a s = .ok x ↔ a.toNat < s.nports ∧ op a.toNat s = .ok x := by
  unfold onPort
  rw [bind_eq_ok]
  constructor
  · rintro ⟨p, hp, h⟩
    obtain ⟨hlt, rfl⟩ := portArg_eq_ok.1 hp
    exact ⟨hlt, h⟩
  · rintro ⟨hp, h⟩
    exact ⟨_, portArg_eq_ok.2 ⟨hp, rfl⟩, h⟩

theorem onBearer_eq_ok {α : Type} {op : Nat → Role → State → Except Fault α} {a b : Byte} {s : State} {x : α} :
    onBearer op a b s = .ok x ↔ a.toNat < s.nports ∧ ∃ role, bchanArg b = .ok role ∧ op a.toNat role s = .ok x := by
  unfold onBearer
  rw [bind_eq_ok]
  constructor
  · rintro ⟨p, hp, h⟩
    obtain ⟨hlt, rfl⟩ := portArg_eq_ok.1 hp
    obtain ⟨role, hr, h⟩ := bind_eq_ok.1 h
    exact ⟨hlt, role, hr, h⟩
  · rintro ⟨hp, role, hr, h⟩
    exact ⟨_, portArg_eq_ok.2 ⟨hp, rfl⟩, bind_eq_ok.2 ⟨role, hr, h⟩⟩

theorem stateOf_eq_ok {α : Type} {x : Except Fault (α × State)} {t : State} :
    stateOf x = .ok t ↔ ∃ v, x = .ok (v, t) := by
  unfold stateOf
  rw [map_eq_ok]
  constructor
  · rintro ⟨⟨v, u⟩, h, rfl⟩
    exact ⟨v, h⟩
  · rintro ⟨v, h⟩
    exact ⟨_, h, rfl⟩

theorem enabledOnly_eq_ok {o : Option State} {t : State} : enabledOnly o = .ok t ↔ o = some t := by
  cases o <;> simp [enabledOnly]

/-! ### What stays at the points of a FIFO section -/

/-- The configuration in force changes at a reset only (00_scope.md R7), and no reset falls into a FIFO
section (20_memory.md R54). -/
theorem cfg_fifoClosed (c : Config) : FifoClosed fun s => s.cfg = c := by
  have hw : ∀ s t, HwOnly s t → s.cfg = c → t.cfg = c := fun s t h hs => h.fields.1.trans hs
  have L : LineClosed fun s => s.cfg = c := .of_hwOnly hw
  have A : AccessClosed fun s => s.cfg = c := .of_hwOnly hw fun s h => L.linePoint (fun _ h => h) h
  have S : ∀ p, SpanClosed (fun s => s.cfg = c) p := fun p => by
    refine ⟨A, ?_, ?_, ?_, ?_, ?_, ?_, ?_, ?_, ?_⟩ <;> intros <;> assumption
  refine ⟨⟨A, S, ?_, ?_, ?_, ?_, ?_⟩, L, ?_, ?_, ?_⟩ <;> intros <;> assumption

/-- Every issued step of the schedule is one that `A` admits. -/
def Admits (A : Instr → Prop) (s : State) : Prop := ∀ es ∈ s.sched, ∀ i, EnvStep.issue i ∈ es → A i

/-- A schedule is only ever used up. -/
theorem admits_fifoClosed (A : Instr → Prop) : FifoClosed (Admits A) := by
  have hw : ∀ s t, HwOnly s t → Admits A s → Admits A t := fun s t h hs => by
    unfold Admits
    rw [h.fields.2.2.2.2.2.2.2.1]
    exact hs
  have L : LineClosed (Admits A) := .of_hwOnly hw
  have hpop : ∀ s : State, Admits A s → Admits A { s with sched := s.sched.tail } :=
    fun s h es hes => h es (List.mem_of_mem_tail hes)
  have C : AccessClosed (Admits A) := .of_hwOnly hw fun s h => L.linePoint hpop h
  have S : ∀ p, SpanClosed (Admits A) p := fun p => by
    refine ⟨C, ?_, ?_, ?_, ?_, ?_, ?_, ?_, ?_, ?_⟩ <;> intros <;> assumption
  refine ⟨⟨C, S, ?_, ?_, ?_, ?_, ?_⟩, L, hpop, ?_, ?_⟩ <;> intros <;> assumption

/-! ### Operations that write no `FIFO_SEL` -/

namespace SpanClosed

variable {P : State → Prop} {p : Nat} (H : SpanClosed P p) {s t : State} {pt : Point}
include H

theorem submitOp {frame : List Byte} (h : P s) (e : submitOp frame p s = .ok t) : P t := by
  unfold Machine.submitOp at e
  split at e
  · cases e
  · next hf =>
    split at e <;> cases e
    next ha => exact H.submit s frame hf ha h

theorem txbufOp {role : Role} {bytes : List Byte} (h : P s) (e : txbufOp bytes p role s = .ok t) : P t := by
  unfold Machine.txbufOp at e
  split at e <;> cases e
  next hl => exact H.txbuf s role bytes hl h

variable (hp : pt.Keeps P)
include hp

theorem observeWithin {n : Nat} (h : P s) (e : observeWithin n pt p s = .ok t) : P t := by
  induction n generalizing s with
  | zero => cases e; exact h
  | succ n ih =>
    obtain ⟨⟨sta, u⟩, hu, e⟩ := bind_eq_ok.1 e
    have hu : P u := H.rdx hp h hu
    dsimp only at e
    split at e
    · have hr := H.record u sta hu
      split at e
      · obtain ⟨v, hv, e⟩ := bind_eq_ok.1 e
        exact ih (H.loadState hp (H.stopT1 _ hr) hv) e
      · split at e
        · next hc =>
          obtain ⟨v, hv, e⟩ := bind_eq_ok.1 e
          exact ih (H.loadState hp (H.armT3 _ hc.1 hr) hv) e
        · cases e; exact hr
    · cases e

theorem observe (h : P s) (e : observe pt p s = .ok t) : P t := H.observeWithin hp h e

theorem forceState {code : Nat} {resume : Bool} (h : P s) (e : forceState pt p code resume s = .ok t) :
    P t := by
  obtain ⟨u, hu, e⟩ := bind_eq_ok.1 e
  exact H.observe hp (H.loadState hp h hu) e

omit hp in
theorem beginSpan (h : P s) : P (beginSpan p s) := by
  unfold Machine.beginSpan
  dsimp only
  split
  · next hm => exact H.armT1 _ hm (H.run s h)
  · next hm => exact H.armT3 _ hm (H.run s h)

omit hp in
theorem startSpan {E : Env} (K : EnvKeeps E P) (h : P s) (e : startSpan E p s = .ok t) : P t := by
  obtain ⟨u, hu, e⟩ := bind_eq_ok.1 e
  exact H.observe K.raw (K.free _ u (H.beginSpan h) hu) e

theorem expireT1 (h : P s) (e : expireT1 pt p s = .ok t) : P t := by
  unfold Machine.expireT1 at e
  split at e
  · exact H.forceState hp (H.stopT1 s h) e
  · cases e; exact h

theorem expireT3 (h : P s) (e : expireT3 pt p s = .ok t) : P t := by
  unfold Machine.expireT3 at e
  split at e
  · exact H.forceState hp (H.stopT3 s h) e
  · cases e; exact h

end SpanClosed

namespace CardClosed

variable {P : State → Prop} (H : CardClosed P) {s t : State} {pt : Point} (hp : pt.Keeps P)
include H hp

theorem syncSelect (h : P s) (e : syncSelect pt s = .ok t) : P t := by
  unfold Machine.syncSelect at e
  split at e
  · exact H.wr hp (H.sync s .auto (by simp) h) e
  · next p hpick =>
    refine H.wr hp (H.sync s (.port p) ?_ h) e
    rintro q hq
    cases hq
    unfold syncPick at hpick
    rw [Option.map_eq_some_iff] at hpick
    obtain ⟨⟨k, q⟩, hq, rfl⟩ := hpick
    have hm := List.mem_of_find?_eq_some hq
    simp only [syncOrder, List.mem_flatMap, List.mem_map, List.mem_range, Prod.mk.injEq] at hm
    obtain ⟨a, -, b, hb, -, rfl⟩ := hm
    exact hb

omit hp in
theorem setPriority {E : Env} (K : EnvKeeps E P) {p prio : Nat} {r : Result} (h : P s)
    (e : setPriority E p prio s = .ok (r, t)) : P t := by
  unfold Machine.setPriority at e
  split at e
  · cases e; exact h
  · next hc =>
    push Not at hc
    obtain ⟨u, hu, e⟩ := bind_eq_ok.1 e
    obtain ⟨v, hv, e⟩ := bind_eq_ok.1 e
    cases e
    exact H.syncSelect K.raw (K.free _ u (H.prio s p prio hc.1 hc.2 h) hu) hv

theorem startCard (h : P s) (e : startCard pt s = .ok t) : P t := H.wr hp (H.running s true h) e

theorem stopCard (h : P s) (e : stopCard pt s = .ok t) : P t := by
  obtain ⟨u, hu, e⟩ := bind_eq_ok.1 e
  cases e
  exact H.running u false (H.wr hp h hu)

theorem accumulateBlock {b : Fin 8} (h : P s) (e : accumulateBlock pt b s = .ok t) : P t := by
  obtain ⟨⟨v, u⟩, hu, e⟩ := bind_eq_ok.1 e
  cases e
  obtain ⟨⟨w, u'⟩, hw, hu⟩ := bind_eq_ok.1 hu
  cases hu
  obtain ⟨s', hs', hw⟩ := bind_eq_ok.1 hw
  cases hw
  have h := H.accumulate _ b (hp s s' h hs')
  have hv : ((s'.fifoStat b.val).setWidth 16).setWidth 8 = s'.fifoStat b.val := by
    apply BitVec.eq_of_toNat_eq
    simp
  show P ((readEffect (.fifoStat b) s').setFifoAcc b.val
    (s'.fifoAcc b.val ||| ((s'.fifoStat b.val).setWidth 16).setWidth 8))
  rw [hv]
  exact h

theorem accumulateMiscOp {m : Byte} (h : P s) (e : Machine.accumulateMisc pt s = .ok (m, t)) : P t := by
  obtain ⟨⟨m, c⟩, hc, e⟩ := bind_eq_ok.1 e
  cases e
  obtain ⟨⟨w, c'⟩, hw, hc⟩ := bind_eq_ok.1 hc
  cases hc
  obtain ⟨s', hs', hw⟩ := bind_eq_ok.1 hw
  cases hw
  have hm : ((s'.hw.miscStat).setWidth 16).setWidth 8 = s'.hw.miscStat := by
    apply BitVec.eq_of_toNat_eq
    simp
  show P ((readEffect .miscStat s').modCard fun c =>
    { c with miscAcc := c.miscAcc ||| ((s'.hw.miscStat).setWidth 16).setWidth 8 })
  rw [hm]
  exact H.accumulateMisc s' (hp s s' h hs')

theorem takeInterrupt {taken : Option Bool} (h : P s) (e : takeInterrupt pt s = .ok (taken, t)) : P t := by
  obtain ⟨⟨st, a⟩, ha, e⟩ := bind_eq_ok.1 e
  have ha := H.rd hp h ha
  dsimp only at e
  split at e
  · cases e; exact ha
  · obtain ⟨b, hb, e⟩ := bind_eq_ok.1 e
    have hb : P b := forEach_keeps (fun x _ u v hu he => H.accumulateBlock hp hu he) ha hb
    obtain ⟨⟨m, c⟩, hc, e⟩ := bind_eq_ok.1 e
    cases e
    exact H.accumulateMiscOp hp hb hc

end CardClosed

theorem ecRequest_keeps {P : State → Prop} {ch n : Byte} {p : Nat} {r : Result} {s t : State} (h : P s)
    (e : ecRequest ch n p s = .ok (r, t)) : P t := by
  unfold ecRequest at e
  split at e <;> cases e <;> exact h

theorem allowed_keeps {P : State → Prop} {b : Bool} {op : State → Except Fault State} {s t : State} (h : P s)
    (hop : b = true → op s = .ok t → P t) (e : allowed b op s = .ok t) : P t := by
  unfold allowed at e
  split at e
  · next hb => exact hop hb e
  · cases e; exact h

theorem allowedMapped_keeps {P : State → Prop} {b : Bool} {op : Nat → State → Except Fault State} {p : Nat}
    {s t : State} (h : P s) (hop : op p s = .ok t → P t) (e : allowedMapped b op p s = .ok t) : P t := by
  unfold allowedMapped at e
  split at e
  · exact hop e
  · obtain ⟨f, -, rfl⟩ := map_eq_ok.1 e
    exact h

/-! ### The phases of the interrupt inside a FIFO section -/

theorem wouldSelect_ne_some {α : Type} {p : Nat} {role : Role} {s : State} {x : α} :
    wouldSelect p role s ≠ .ok (some x) := by
  unfold wouldSelect
  cases mappedFifo s p role <;> simp [Except.map]

theorem pumpWouldSelect_ne_some {α : Type} {s : State} {x : α} : pumpWouldSelect s ≠ .ok (some x) := by
  unfold pumpWouldSelect
  split
  · exact wouldSelect_ne_some
  · simp

/-- An immediate phase that falls inside a FIFO section is its register reads, and no tick was read
(60_exceptions.md R173, 20_memory.md R54). -/
theorem immediateOutsideFifo_eq_some {E : Env} {s t : State} {mine : Bool} :
    immediateOutsideFifo E s = .ok (some (mine, t)) ↔
      takeInterrupt E.raw s = .ok (if mine then some false else none, t) := by
  unfold immediateOutsideFifo
  rw [bind_eq_ok]
  constructor
  · rintro ⟨⟨taken, u⟩, hu, h⟩
    rw [hu]
    rcases taken with _ | _ | _
    · cases h; rfl
    · cases h; rfl
    · exact absurd h pumpWouldSelect_ne_some
  · intro h
    refine ⟨_, h, ?_⟩
    cases mine <;> rfl

/-- It is then the whole immediate phase. -/
theorem immediatePhase_of_outsideFifo {E : Env} {s t : State} {mine : Bool}
    (h : immediateOutsideFifo E s = .ok (some (mine, t))) : immediatePhase E s = .ok (mine, t) := by
  rw [immediatePhase, immediateOutsideFifo_eq_some.1 h]
  cases mine <;> rfl

theorem stateOf_immediatePhase_of_outsideFifo {E : Env} {s t : State}
    (h : (immediateOutsideFifo E s).map (fun x => x.map Prod.snd) = .ok (some t)) :
    stateOf (immediatePhase E s) = .ok t := by
  obtain ⟨x, hx, h⟩ := map_eq_ok.1 h
  obtain ⟨⟨mine, u⟩, rfl, rfl⟩ := Option.map_eq_some_iff.1 h
  exact stateOf_eq_ok.2 ⟨mine, immediatePhase_of_outsideFifo hx⟩

theorem scan_of_outsideFifo {E : Env} {fs : List Nat} {s t : State}
    (h : scanOutsideFifo E fs s = .ok (some t)) : forEach (scanFifo E) fs s = .ok t := by
  induction fs generalizing s with
  | nil => cases h; rfl
  | cons f fs ih =>
    obtain ⟨a, ha, h⟩ := bind_eq_ok.1 h
    split at h
    · exact absurd h wouldSelect_ne_some
    · obtain ⟨b, hb, h⟩ := bind_eq_ok.1 h
      obtain ⟨c, hc, h⟩ := bind_eq_ok.1 h
      split at h
      · exact absurd h wouldSelect_ne_some
      · obtain ⟨d, hd, h⟩ := bind_eq_ok.1 h
        simp [scanFifo, ha, hb, hc, hd, ih h]

theorem drain_of_outsideFifo {E : Env} {ps : List Nat} {s t : State}
    (h : drainOutsideFifo E ps s = .ok (some t)) : forEach (drainPort E) ps s = .ok t := by
  induction ps generalizing s with
  | nil => cases h; rfl
  | cons p ps ih =>
    obtain ⟨a, ha, h⟩ := bind_eq_ok.1 h
    split at h
    · exact absurd h wouldSelect_ne_some
    · next hp => simp [drainPort, ha, hp, ih h]

/-- A deferred phase that falls inside a FIFO section is a whole deferred phase (60_exceptions.md R175,
20_memory.md R54). -/
theorem deferredPhase_of_outsideFifo {E : Env} {s t : State} (h : deferredOutsideFifo E s = .ok (some t)) :
    deferredPhase E s = .ok t := by
  obtain ⟨x, hx, h⟩ := bind_eq_ok.1 h
  cases x with
  | none => cases h
  | some u =>
    obtain ⟨v, hv, h⟩ := bind_eq_ok.1 h
    simp [deferredPhase, deferredDrain, scan_of_outsideFifo hx, hv, drain_of_outsideFifo h]

/-- Both phases inside a FIFO section are both phases (60_exceptions.md R178, 20_memory.md R54). -/
theorem interrupt_of_outsideFifo {I D : Env} {s t : State} (h : interruptOutsideFifo I D s = .ok (some t)) :
    ∃ mine, interrupt I D s = .ok (mine, t) := by
  obtain ⟨x, hx, h⟩ := bind_eq_ok.1 h
  rcases x with _ | ⟨_ | _, u⟩
  · cases h
  · cases h
    exact ⟨false, by simp [interrupt, immediatePhase_of_outsideFifo hx]⟩
  · have h : deferredOutsideFifo D u = .ok (some t) := h
    exact ⟨true, by simp [interrupt, immediatePhase_of_outsideFifo hx, deferredPhase_of_outsideFifo h]⟩

/-- A phase of the interrupt that falls where it may is the whole phase; else nothing changes. -/
theorem phase_eq_ok {open_ : Bool} {op : State → Except Fault State}
    {outside : State → Except Fault (Option State)} {s t : State}
    (ho : ∀ u, outside s = .ok (some u) → op s = .ok u) (h : phase open_ op outside s = .ok t) :
    t = s ∨ op s = .ok t := by
  unfold phase at h
  split at h
  · exact .inr h
  · obtain ⟨x, hx, rfl⟩ := map_eq_ok.1 h
    cases x with
    | none => exact .inl rfl
    | some u => exact .inr (ho u hx)

/-! ### Points inside a FIFO section -/

/-- A point at which no step may write `FIFO_SEL` and no deferred phase may be taken keeps what may happen inside
a FIFO section of the service agent. -/
theorem pointAt_section (n : Nat) (r : Rights) (hr : r.select = false) (hd : r.defer = false) :
    FifoPoint (pointAt n r) := by
  intro P H
  induction n generalizing r with
  | zero =>
    intro s t h e
    cases e
    exact H.pop s h
  | succ n ih =>
    intro s t h e
    unfold pointAt at e
    split at e
    · cases e; exact h
    · next es rest hs =>
      have hpop := H.pop s h
      rw [hs] at hpop
      refine forEach_keeps (fun x _ u v hu he => ?_) hpop e
      have K : EnvKeeps (hostEnv (pointAt n) r) P := ⟨ih _ hr hd, ih _ hr hd, ih _ rfl hd, ih _ rfl hd⟩
      cases x with
      | setLive l => cases he; exact H.live u l hu
      | setStrap c =>
        cases he
        split
        · next hc => exact H.strap u c hc hu
        · exact hu
      | issue i =>
        have line : ∀ i, P ((lineStep i u).getD u) := fun i => by
          cases hi : lineStep i u with
          | none => exact hu
          | some w => exact H.toLineClosed.lineStep hu hi
        have shut : ∀ op : State → Except Fault State, allowed r.select op u = .ok v → P v := by
          intro op e
          rw [hr] at e
          cases e
          exact hu
        have shutMapped : ∀ op a, onPort (allowedMapped r.select op) a u = .ok v → P v := by
          intro op a e
          obtain ⟨-, e⟩ := onPort_eq_ok.1 e
          rw [hr] at e
          obtain ⟨f, -, rfl⟩ := map_eq_ok.1 e
          exact hu
        cases i with
        | hdlcSubmit a frame =>
          obtain ⟨-, he⟩ := onPort_eq_ok.1 he
          exact (H.span _).submitOp hu he
        | stStart a =>
          obtain ⟨-, he⟩ := onPort_eq_ok.1 he
          exact (H.span _).startSpan K hu he
        | stStop a =>
          change onPort (fun p s => .ok (stopSpan p s)) a u = .ok v at he
          obtain ⟨-, he⟩ := onPort_eq_ok.1 he
          cases he
          exact (H.span _).stop u hu
        | stSetprio p prio =>
          obtain ⟨w, he⟩ := stateOf_eq_ok.1 he
          exact H.toCardClosed.setPriority K hu he
        | stSyncsel => exact H.toCardClosed.syncSelect K.raw hu he
        | hostTxbuf a b bytes =>
          obtain ⟨-, role, -, he⟩ := onBearer_eq_ok.1 he
          exact (H.span _).txbufOp hu he
        | ecReq a ch k =>
          obtain ⟨w, he⟩ := stateOf_eq_ok.1 he
          obtain ⟨-, he⟩ := onPort_eq_ok.1 he
          exact ecRequest_keeps hu he
        | cardStart => exact H.toCardClosed.startCard K.free hu he
        | cardStop => exact H.toCardClosed.stopCard K.free hu he
        | irqImm =>
          refine allowed_keeps hu (fun _ he => ?_) he
          rw [hr] at he
          obtain ⟨o, ho, rfl⟩ := map_eq_ok.1 he
          obtain ⟨x, hx, rfl⟩ := map_eq_ok.1 ho
          cases x with
          | none => exact hu
          | some x =>
            exact H.toCardClosed.takeInterrupt (pt := (immEnv (pointAt n) r).raw) (ih _ hr rfl) hu
              (immediateOutsideFifo_eq_some.1 hx)
        | irqDef =>
          refine allowed_keeps hu (fun hb _ => ?_) he
          simp [hd] at hb
        | irq =>
          refine allowed_keeps hu (fun hb _ => ?_) he
          simp [hd] at hb
        | cardReset => exact shut (fun s => .ok (resetCard s)) he
        | fmMapb a b =>
          obtain ⟨-, role, -, he⟩ := onBearer_eq_ok.1 he
          exact shut _ he
        | fmMapd a =>
          obtain ⟨-, he⟩ := onPort_eq_ok.1 he
          exact shut _ he
        | fmMapall => exact shut _ he
        | hdlcAttach a => exact shutMapped _ _ he
        | hdlcDetach a => exact shutMapped _ _ he
        | hdlcRxdrain a => exact shutMapped _ _ he
        | lineBusy b => cases he; exact line (.lineBusy b)
        | lineState p b => cases he; exact line (.lineState p b)
        | lineRxframe f bytes => cases he; exact line (.lineRxframe f bytes)
        | lineTxtake f => cases he; exact line (.lineTxtake f)
        | lineBrx f bytes => cases he; exact line (.lineBrx f bytes)
        | lineBtxtake f k => cases he; exact line (.lineBtxtake f k)
        | lineFifoirq f d => cases he; exact line (.lineFifoirq f d)
        | tick => cases he; exact line .tick
        | _ => cases he; exact hu

/-! ### Operations on one port -/

namespace AccessClosed

variable {P : State → Prop} (H : AccessClosed P) {s t : State} {E : Env} (K : EnvKeeps E P)
include H K

theorem fifoSelOp {f : Nat} {d : Dir} (h : P s) (e : fifoSelOp E f d s = .ok t) : P t := by
  obtain ⟨u, hu, e⟩ := bind_eq_ok.1 e
  exact H.fifoSelect K.fifo (K.free s u h hu) e

theorem fifoResetOp {f : Nat} {d : Dir} (h : P s) (e : fifoResetOp E f d s = .ok t) : P t := by
  obtain ⟨u, hu, e⟩ := bind_eq_ok.1 e
  obtain ⟨v, hv, e⟩ := bind_eq_ok.1 e
  exact H.wrb K.fifo (H.fifoSelect K.fifo (K.free s u h hu) hv) e

theorem fifoIrqOp {f : Nat} {d : Dir} {en : Bool} (h : P s) (e : fifoIrqOp E f d en s = .ok t) : P t := by
  obtain ⟨u, hu, e⟩ := bind_eq_ok.1 e
  exact H.fifoIrqSection K.fifo (K.free s u h hu) e

theorem programFifo {f : Nat} {d : Dir} {ctrl chan slot : Byte} (h : P s)
    (e : programFifo E f d ctrl chan slot s = .ok t) : P t := by
  obtain ⟨u, hu, e⟩ := bind_eq_ok.1 e
  obtain ⟨v, hv, e⟩ := bind_eq_ok.1 e
  obtain ⟨w, hw, e⟩ := bind_eq_ok.1 e
  exact H.wr K.own (H.wr K.own (H.wr K.own (H.fifoSelect K.fifo h hu) hv) hw) e

theorem reselect (h : P s) (e : reselect E s = .ok t) : P t := by
  obtain ⟨u, hu, e⟩ := bind_eq_ok.1 e
  obtain ⟨⟨v, w⟩, hw, e⟩ := bind_eq_ok.1 e
  exact H.wrb K.fifo (H.rd K.fifo (K.free s u h hu) hw) e

end AccessClosed

namespace PortClosed

variable {P : State → Prop} {p : Nat} (H : PortClosed P p) {s t : State} {E : Env} (K : EnvKeeps E P)
include H K

theorem mapBearer {role : Role} (h : P s) (e : mapBearer E p role s = .ok t) : P t := by
  obtain ⟨u, hu, e⟩ := bind_eq_ok.1 e
  obtain ⟨v, hv, e⟩ := bind_eq_ok.1 e
  obtain ⟨w, hw, e⟩ := bind_eq_ok.1 e
  have A := H.toAccessClosed
  exact A.programFifo K (K.own v w (A.programFifo K (H.map u role (K.free s u h hu)) hv) hw) e

theorem mapSignalling (h : P s) (e : mapSignalling E p s = .ok t) : P t := by
  obtain ⟨u, hu, e⟩ := bind_eq_ok.1 e
  obtain ⟨v, hv, e⟩ := bind_eq_ok.1 e
  obtain ⟨w, hw, e⟩ := bind_eq_ok.1 e
  have A := H.toAccessClosed
  exact A.programFifo K (K.own v w (A.programFifo K (H.map u .d (K.free s u h hu)) hv) hw) e

theorem mapPort (h : P s) (e : mapPort E p s = .ok t) : P t := by
  obtain ⟨a, ha, e⟩ := bind_eq_ok.1 e
  obtain ⟨b, hb, e⟩ := bind_eq_ok.1 e
  exact H.mapSignalling K (H.mapBearer K (H.mapBearer K h ha) hb) e

theorem attachOp (h : P s) (e : attachOp E p s = .ok t) : P t := by
  obtain ⟨u, hu, e⟩ := bind_eq_ok.1 e
  obtain ⟨f, -, e⟩ := bind_eq_ok.1 e
  obtain ⟨a, ha, e⟩ := bind_eq_ok.1 e
  obtain ⟨b, hb, e⟩ := bind_eq_ok.1 e
  obtain ⟨c, hc, e⟩ := bind_eq_ok.1 e
  have A := H.toAccessClosed
  exact A.fifoIrqOp K (A.fifoIrqOp K
    (H.attach b (A.fifoResetOp K (A.fifoResetOp K (K.free s u h hu) ha) hb)) hc) e

theorem detachOp (h : P s) (e : detachOp E p s = .ok t) : P t := by
  obtain ⟨u, hu, e⟩ := bind_eq_ok.1 e
  obtain ⟨f, -, e⟩ := bind_eq_ok.1 e
  obtain ⟨a, ha, e⟩ := bind_eq_ok.1 e
  have A := H.toAccessClosed
  exact A.fifoIrqOp K (A.fifoResetOp K (H.detach u (K.free s u h hu)) ha) e

theorem rxPass {must : Bool} {r : Bool × Nat} (h : P s) (e : rxPass must E p s = .ok (r, t)) : P t := by
  obtain ⟨u, hu, e⟩ := bind_eq_ok.1 e
  have hu := K.free s u h hu
  obtain ⟨f, -, e⟩ := bind_eq_ok.1 e
  obtain ⟨a, ha, e⟩ := bind_eq_ok.1 e
  obtain ⟨⟨n, b⟩, hb, e⟩ := bind_eq_ok.1 e
  have hb := H.rds K.fifo (H.fifoSelectMust K.fifo hu ha) hb
  dsimp only at e
  split at e
  · cases e; exact hb
  · obtain ⟨⟨len, c⟩, hc, e⟩ := bind_eq_ok.1 e
    obtain ⟨⟨bytes, d⟩, hd, e⟩ := bind_eq_ok.1 e
    obtain ⟨u, hu, e⟩ := bind_eq_ok.1 e
    obtain ⟨⟨rem, v⟩, hv, e⟩ := bind_eq_ok.1 e
    have hv := H.rds K.fifo (H.wrbMust K.fifo (H.readBytes K.fifo (H.rds K.fifo hb hc) hd) hu) hv
    cases e
    split
    · exact H.report _ _ _ hv
    · exact hv

theorem rxDrainLoop {n count c : Nat} (h : P s) (e : rxDrainLoop E n p count s = .ok (c, t)) : P t := by
  induction n generalizing s count with
  | zero => cases e; exact h
  | succ n ih =>
    obtain ⟨⟨⟨did, rem⟩, u⟩, hu, e⟩ := bind_eq_ok.1 e
    have hu := H.rxPass K h hu
    dsimp only at e
    split at e
    · cases e; exact hu
    · exact ih hu e

theorem rxDrain {c : Nat} (h : P s) (e : rxDrain E p s = .ok (c, t)) : P t := H.rxDrainLoop K h e

end PortClosed

namespace PortClosed

variable {P : State → Prop} {p : Nat} (H : PortClosed P p) {s t : State} {E : Env} (K : ServiceKeeps E P)
include H K

theorem txChunk {more : Bool} (h : P s) (e : txChunk E p s = .ok (more, t)) : P t := by
  obtain ⟨u, hu, e⟩ := bind_eq_ok.1 e
  obtain ⟨f, -, e⟩ := bind_eq_ok.1 e
  exact H.chunk E.fifo f u more t K.section_ K.fifo (K.free s u h hu) e

theorem txDrainLoop {n count c : Nat} (h : P s) (e : txDrainLoop E n p count s = .ok (c, t)) : P t := by
  induction n generalizing s count with
  | zero => cases e; exact h
  | succ n ih =>
    unfold Machine.txDrainLoop at e
    split at e
    · obtain ⟨⟨more, u⟩, hu, e⟩ := bind_eq_ok.1 e
      have hu := H.txChunk K h hu
      dsimp only at e
      split at e
      · cases e; exact H.diag _ _ hu
      · exact ih hu e
    · cases e; exact h

theorem txDrain {c : Nat} (h : P s) (e : txDrain E p s = .ok (c, t)) : P t := by
  obtain ⟨u, hu, e⟩ := bind_eq_ok.1 e
  obtain ⟨f, -, e⟩ := bind_eq_ok.1 e
  exact H.txDrainLoop K (K.free s u h hu) e

theorem serveTransmitLoop {n : Nat} (h : P s) (e : serveTransmitLoop E n p s = .ok t) : P t := by
  induction n generalizing s with
  | zero => cases e; exact h
  | succ n ih =>
    obtain ⟨⟨more, u⟩, hu, e⟩ := bind_eq_ok.1 e
    have hu := H.txChunk K h hu
    dsimp only at e
    split at e
    · exact ih hu e
    · cases e; exact hu

theorem transferChunk {f : Nat} {role : Role} (h : P s) (e : transferChunk E.fifo p role f s = .ok t) :
    P t := by
  obtain ⟨⟨rx, u⟩, hu, e⟩ := bind_eq_ok.1 e
  obtain ⟨v, hv, e⟩ := bind_eq_ok.1 e
  have hf := cfg_fifoClosed s.cfg
  have hc : u.cfg = s.cfg := hf.toAccessClosed.readBytes (K.section_ _ hf) rfl hu
  have hl : rx.length = u.cfg.chunk := hc ▸ readBytes_length hu
  exact H.writeBytes K.fifo (byte := fun i s => ((s.hostPort p).txbuf role)[i]?.getD 0)
    (H.fifoSelect K.fifo (H.rxbuf u role rx hl (H.readBytes K.fifo h hu)) hv) e

theorem exchange {role : Role} {did : Bool} (h : P s) (e : exchange E p role s = .ok (did, t)) :
    P t := by
  obtain ⟨u, hu, e⟩ := bind_eq_ok.1 e
  have hu := K.free s u h hu
  obtain ⟨f, -, e⟩ := bind_eq_ok.1 e
  obtain ⟨a, ha, e⟩ := bind_eq_ok.1 e
  obtain ⟨⟨avail, b⟩, hb, e⟩ := bind_eq_ok.1 e
  have hb := H.rds K.fifo (H.fifoSelect K.fifo hu ha) hb
  dsimp only at e
  split at e
  · cases e; exact hb
  · obtain ⟨c, hc, e⟩ := bind_eq_ok.1 e
    cases e
    exact H.transferChunk K hb hc

end PortClosed

/-! ### Operations on the whole card -/

namespace ServiceClosed

variable {P : State → Prop} (H : ServiceClosed P) {s t : State} {E : Env} (K : EnvKeeps E P)
include H K

theorem mapAll (h : P s) (e : mapAll E s = .ok t) : P t :=
  forEach_keeps (fun p _ _ _ hu he => (H.port p).mapPort K hu he) h e

theorem pollPorts (h : P s) (e : pollPorts E s = .ok t) : P t := by
  obtain ⟨⟨sci, u⟩, hu, e⟩ := bind_eq_ok.1 e
  refine forEach_keeps (fun p _ a b ha hb => ?_) (H.rd K.free h hu) e
  unfold pollPort at hb
  split at hb
  · obtain ⟨c, hc, hb⟩ := bind_eq_ok.1 hb
    exact (H.port p).observe K.raw (K.free a c ha hc) hb
  · cases hb; exact ha

theorem publishAlarm (hpub : PublishClosed P) {p : Nat} (h : P s)
    (e : publishAlarm E.raw p s = .ok t) : P t := by
  unfold Machine.publishAlarm at e
  split at e
  · next hc =>
    have h := hpub s p hc h
    dsimp only at e
    split at e
    · exact H.toCardClosed.syncSelect K.raw h e
    · cases e; exact h
  · cases e; exact h

theorem sweep (hpub : PublishClosed P) (h : P s) (e : sweep E s = .ok t) : P t := by
  refine forEach_keeps (fun p _ u v hu he => ?_) h e
  obtain ⟨a, ha, he⟩ := bind_eq_ok.1 he
  obtain ⟨b, hb, he⟩ := bind_eq_ok.1 he
  obtain ⟨c, hc, he⟩ := bind_eq_ok.1 he
  obtain ⟨d, hd, he⟩ := bind_eq_ok.1 he
  obtain ⟨w, hw, he⟩ := bind_eq_ok.1 he
  have hb := (H.port p).expireT1 K.raw (K.free _ _ hu ha) hb
  have hd := (H.port p).expireT3 K.raw (K.free _ _ hb hc) hd
  exact H.publishAlarm K hpub (K.free _ _ hd hw) he

end ServiceClosed

namespace ServiceClosed

variable {P : State → Prop} (H : ServiceClosed P) {s t : State} {E : Env} (K : ServiceKeeps E P)
include H K

theorem pumpPorts {ps : List Nat} {any r : Bool} (h : P s) (e : pumpPorts E ps any s = .ok (r, t)) : P t := by
  induction ps generalizing s any with
  | nil => cases e; exact h
  | cons p ps ih =>
    unfold Machine.pumpPorts at e
    split at e
    · obtain ⟨⟨x1, a⟩, ha, e⟩ := bind_eq_ok.1 e
      obtain ⟨⟨x2, b⟩, hb, e⟩ := bind_eq_ok.1 e
      exact ih ((H.port _).exchange K ((H.port _).exchange K h ha) hb) e
    · exact ih h e

theorem pump {any : Bool} (h : P s) (e : pump E s = .ok (any, t)) : P t := by
  obtain ⟨⟨r, a⟩, ha, e⟩ := bind_eq_ok.1 e
  obtain ⟨b, hb, e⟩ := bind_eq_ok.1 e
  cases e
  exact H.toAccessClosed.reselect K.toEnvKeeps (H.pumpPorts K h ha) hb

theorem serveTickNow (h : P s) (e : serveTickNow E s = .ok t) : P t := by
  obtain ⟨⟨any, u⟩, hu, e⟩ := bind_eq_ok.1 e
  refine forEach_keeps (fun p _ a b ha hb => ?_) (H.pump K h hu) e
  obtain ⟨c, hc, hb⟩ := bind_eq_ok.1 hb
  have hc := K.raw a c ha hc
  cases hb
  split
  · exact H.hooks c p _ _ hc
  · exact hc

theorem immediatePhase {mine : Bool} (h : P s) (e : immediatePhase E s = .ok (mine, t)) : P t := by
  obtain ⟨⟨taken, u⟩, hu, e⟩ := bind_eq_ok.1 e
  have hP := H.toCardClosed.takeInterrupt K.raw h hu
  clear hu
  dsimp only at e
  split at e
  · cases e; exact hP
  · cases e; exact hP
  · obtain ⟨v, hv, e⟩ := bind_eq_ok.1 e
    cases e
    exact H.serveTickNow K hP hv

theorem scanFifo (hd : DeferClosed P) {f : Nat} (h : P s) (e : scanFifo E f s = .ok t) : P t := by
  obtain ⟨a, ha, e⟩ := bind_eq_ok.1 e
  have ha := K.free s a h ha
  obtain ⟨u, hu, e⟩ := bind_eq_ok.1 e
  have hu : P u := by
    unfold scanTransmit at hu
    split at hu
    · next hb =>
      have hc := hd.clearAcc _ f .tx hb ha
      dsimp only at hu
      split at hu
      · exact (H.port _).serveTransmitLoop K hc hu
      · cases hu; exact H.diag _ _ hc
    · cases hu; exact ha
  obtain ⟨b, hb, e⟩ := bind_eq_ok.1 e
  have hb := K.free u b hu hb
  unfold scanReceive at e
  split at e
  · next hbit =>
    have hc := hd.clearAcc _ f .rx hbit hb
    dsimp only at e
    split at e
    · obtain ⟨⟨c, v⟩, hv, e⟩ := bind_eq_ok.1 e
      cases e
      exact (H.port _).rxDrain K.toEnvKeeps hc hv
    · cases e; exact H.diag _ _ hc
  · cases e; exact hb

theorem deferredTick (hd : DeferClosed P) (h : P s)
    (e : deferredTick E s = .ok t) : P t := by
  obtain ⟨a, ha, e⟩ := bind_eq_ok.1 e
  have ha := K.free s a h ha
  split at e
  · obtain ⟨b, hb, e⟩ := bind_eq_ok.1 e
    obtain ⟨c, hc, e⟩ := bind_eq_ok.1 e
    obtain ⟨d, hd', e⟩ := bind_eq_ok.1 e
    obtain ⟨u, hu, e⟩ := bind_eq_ok.1 e
    obtain ⟨v, hv, e⟩ := bind_eq_ok.1 e
    cases e
    have hP : P d := K.free _ _ (H.sweep K.toEnvKeeps hd.publish (K.free _ _ (hd.count a ha) hb) hc) hd'
    refine hd.clear _ (K.free _ _ ?_ hv)
    unfold pollIfDue at hu
    split at hu
    · exact H.pollPorts K.toEnvKeeps hP hu
    · cases hu; exact hP
  · cases e; exact ha

theorem deferredPhase (hd : DeferClosed P) (h : P s)
    (e : deferredPhase E s = .ok t) : P t := by
  obtain ⟨u, hu, e⟩ := bind_eq_ok.1 e
  obtain ⟨v, hv, e⟩ := bind_eq_ok.1 e
  have hu : P u := forEach_keeps (fun f _ a b ha he => H.scanFifo K hd ha he) h hu
  refine forEach_keeps (fun p _ a b ha he => ?_) (H.deferredTick K hd hu hv) e
  obtain ⟨c, hc, he⟩ := bind_eq_ok.1 he
  have hc := K.free _ _ ha hc
  split at he
  · obtain ⟨⟨n, w⟩, hw, he⟩ := bind_eq_ok.1 he
    cases he
    exact (H.port _).txDrain K hc hw
  · cases he; exact hc

theorem interrupt {I : Env} (KI : ServiceKeeps I P) (hd : DeferClosed P) {mine : Bool}
    (h : P s) (e : interrupt I E s = .ok (mine, t)) : P t := by
  obtain ⟨⟨m, u⟩, hu, e⟩ := bind_eq_ok.1 e
  have hu := H.immediatePhase KI h hu
  dsimp only at e
  split at e
  · obtain ⟨v, hv, e⟩ := bind_eq_ok.1 e
    cases e
    exact H.deferredPhase K hd hu hv
  · cases e; exact hu

end ServiceClosed

/-! ### Points -/

/-- `P` survives every elementary change that the operations of the machine can make where every operation
issued, by the script or by another agent, is one that `A` admits; `D` says whether deferred phases may be
taken. -/
structure StepClosed (A : Instr → Prop) (D : Prop) (P : State → Prop) : Prop extends
    ServiceClosed P, FifoClosed P where
  publish : A .stSweep → PublishClosed P
  deferred : D → A .irqDef ∨ A .irq → DeferClosed P
  reset : A .cardReset → ∀ s, P s → P (resetCard s)

/-! ### Two properties at once -/

theorem AccessClosed.and {P Q : State → Prop} (H : AccessClosed P) (K : AccessClosed Q) :
    AccessClosed fun s => P s ∧ Q s where
  line s h := ⟨H.line s h.1, K.line s h.2⟩
  read r s v h e := ⟨H.read r s v h.1 e, K.read r s v h.2 e⟩
  write r v s t h hv e := ⟨H.write r v s t h.1 hv e, K.write r v s t h.2 hv e⟩
  draw s h := ⟨H.draw s h.1, K.draw s h.2⟩
  diag s e h := ⟨H.diag s e h.1, K.diag s e h.2⟩

theorem LineClosed.and {P Q : State → Prop} (H : LineClosed P) (K : LineClosed Q) :
    LineClosed fun s => P s ∧ Q s where
  busy s b h := ⟨H.busy s b h.1, K.busy s b h.2⟩
  lineState s p b hp ha h := ⟨H.lineState s p b hp ha h.1, K.lineState s p b hp ha h.2⟩
  event s f d hf h := ⟨H.event s f d hf h.1, K.event s f d hf h.2⟩
  rxframe s f bs hf hb hq hd h := ⟨H.rxframe s f bs hf hb hq hd h.1, K.rxframe s f bs hf hb hq hd h.2⟩
  txtake s f fr rest hf hq h := ⟨H.txtake s f fr rest hf hq h.1, K.txtake s f fr rest hf hq h.2⟩
  brx s f bs hf hd h := ⟨H.brx s f bs hf hd h.1, K.brx s f bs hf hd h.2⟩
  btxtake s f n hf hn h := ⟨H.btxtake s f n hf hn h.1, K.btxtake s f n hf hn h.2⟩
  tick s h := ⟨H.tick s h.1, K.tick s h.2⟩

theorem SpanClosed.and {P Q : State → Prop} {p : Nat} (H : SpanClosed P p) (K : SpanClosed Q p) :
    SpanClosed (fun s => P s ∧ Q s) p where
  toAccessClosed := H.toAccessClosed.and K.toAccessClosed
  record s sta h := ⟨H.record s sta h.1, K.record s sta h.2⟩
  stopT1 s h := ⟨H.stopT1 s h.1, K.stopT1 s h.2⟩
  stopT3 s h := ⟨H.stopT3 s h.1, K.stopT3 s h.2⟩
  armT1 s hm h := ⟨H.armT1 s hm h.1, K.armT1 s hm h.2⟩
  armT3 s hm h := ⟨H.armT3 s hm h.1, K.armT3 s hm h.2⟩
  run s h := ⟨H.run s h.1, K.run s h.2⟩
  stop s h := ⟨H.stop s h.1, K.stop s h.2⟩
  submit s fr hf ha h := ⟨H.submit s fr hf ha h.1, K.submit s fr hf ha h.2⟩
  txbuf s r bs hl h := ⟨H.txbuf s r bs hl h.1, K.txbuf s r bs hl h.2⟩

theorem CardClosed.and {P Q : State → Prop} (H : CardClosed P) (K : CardClosed Q) :
    CardClosed fun s => P s ∧ Q s where
  toAccessClosed := H.toAccessClosed.and K.toAccessClosed
  span p := (H.span p).and (K.span p)
  prio s p k hp hk h := ⟨H.prio s p k hp hk h.1, K.prio s p k hp hk h.2⟩
  sync s src hs h := ⟨H.sync s src hs h.1, K.sync s src hs h.2⟩
  running s b h := ⟨H.running s b h.1, K.running s b h.2⟩
  accumulate s b h := ⟨H.accumulate s b h.1, K.accumulate s b h.2⟩
  accumulateMisc s h := ⟨H.accumulateMisc s h.1, K.accumulateMisc s h.2⟩

theorem FifoClosed.and {P Q : State → Prop} (H : FifoClosed P) (K : FifoClosed Q) :
    FifoClosed fun s => P s ∧ Q s where
  toCardClosed := H.toCardClosed.and K.toCardClosed
  toLineClosed := H.toLineClosed.and K.toLineClosed
  pop s h := ⟨H.pop s h.1, K.pop s h.2⟩
  live s l h := ⟨H.live s l h.1, K.live s l h.2⟩
  strap s c hc h := ⟨H.strap s c hc h.1, K.strap s c hc h.2⟩

/-- A pull changes the host's queue only. -/
theorem hostPull_eq (p cap : Nat) (s : State) :
    (hostPull p cap s).2 = { s with host := (hostPull p cap s).2.host } := by
  unfold hostPull
  dsimp only
  split
  · rfl
  · split <;> rfl

/-- A countdown changes the session or the diagnostic log only. -/
theorem decrement_eq (p : Nat) (s : State) :
    decrement p s = { s with
      sess := (decrement p s).sess
      card := { s.card with diaglog := (decrement p s).card.diaglog } } := by
  unfold decrement
  split <;> rfl

/-- A report of a frame changes the session's count and the two logs only. -/
theorem reportFrame_eq (p len : Nat) (bytes : List Byte) (s : State) :
    reportFrame p len bytes s = { s with
      sess := (reportFrame p len bytes s).sess
      card := { s.card with
        hostlog := (reportFrame p len bytes s).card.hostlog
        diaglog := (reportFrame p len bytes s).card.diaglog } } := by
  unfold reportFrame
  dsimp only
  split <;> split <;> rfl

/-- The operations of a port only use the schedule up. -/
theorem admits_portClosed (A : Instr → Prop) (p : Nat) : PortClosed (Admits A) p where
  toSpanClosed := (admits_fifoClosed A).span p
  map _ _ h := h
  attach _ h := h
  detach _ h := h
  report s len bytes h := by rw [reportFrame_eq]; exact h
  chunk pt f s more t _ hk h e := by
    refine (admits_fifoClosed A).toAccessClosed.txPassOn_of hk ?_ ?_ h e
    · intro s cap h
      rw [hostPull_eq]
      exact h
    · intro s h
      rw [decrement_eq]
      exact h
  rxbuf _ _ _ _ h := h

/-- What survives every elementary change survives it together with what the schedule admits. -/
theorem StepClosed.admits {A : Instr → Prop} {D : Prop} {P : State → Prop} (H : StepClosed A D P) :
    StepClosed A D fun s => P s ∧ Admits A s where
  toFifoClosed := H.toFifoClosed.and (admits_fifoClosed A)
  port p :=
    { toSpanClosed := ((H.port p).toSpanClosed).and ((admits_fifoClosed A).span p)
      map := fun s r h => ⟨(H.port p).map s r h.1, h.2⟩
      attach := fun s h => ⟨(H.port p).attach s h.1, h.2⟩
      detach := fun s h => ⟨(H.port p).detach s h.1, h.2⟩
      report := fun s len bytes h =>
        ⟨(H.port p).report s len bytes h.1, (admits_portClosed A p).report s len bytes h.2⟩
      chunk := fun pt f s more t hpt _ h e =>
        ⟨(H.port p).chunk pt f s more t hpt (hpt _ H.toFifoClosed) h.1 e,
          (admits_portClosed A p).chunk pt f s more t hpt (hpt _ (admits_fifoClosed A)) h.2 e⟩
      rxbuf := fun s r bs hl h => ⟨(H.port p).rxbuf s r bs hl h.1, h.2⟩ }
  hooks s p r1 r2 h := ⟨H.hooks s p r1 r2 h.1, h.2⟩
  publish hA s p hp h := ⟨H.publish hA s p hp h.1, h.2⟩
  deferred hD hA :=
    { publish := fun s p hp h => ⟨(H.deferred hD hA).publish s p hp h.1, h.2⟩
      clearAcc := fun s f d hb h => ⟨(H.deferred hD hA).clearAcc s f d hb h.1, h.2⟩
      count := fun s h => ⟨(H.deferred hD hA).count s h.1, h.2⟩
      clear := fun s h => ⟨(H.deferred hD hA).clear s h.1, h.2⟩ }
  reset hA s h := ⟨H.reset hA s h.1, h.2⟩

/-! ### Points and commands -/

/-- The points of an operation keep what the points at every lower depth keep, those with no deferred phase
where the operation's own rights have none. -/
theorem envKeeps_host {P : State → Prop} {n : Nat} {D : Prop}
    (h : ∀ r : Rights, (r.defer = true → D) → (pointAt n r).Keeps P) (r : Rights) (hr : r.defer = true → D) :
    EnvKeeps (hostEnv (pointAt n) r) P := ⟨h _ hr, h _ hr, h _ hr, h _ hr⟩

theorem envKeeps_service {P : State → Prop} {n : Nat} {D : Prop}
    (h : ∀ r : Rights, (r.defer = true → D) → (pointAt n r).Keeps P) (r : Rights) :
    ServiceKeeps (serviceEnv (pointAt n) r) P :=
  ⟨⟨h _ (by simp), h _ (by simp), h _ (by simp), h _ (by simp)⟩, pointAt_section _ _ rfl rfl⟩

theorem envKeeps_imm {P : State → Prop} {n : Nat} {D : Prop}
    (h : ∀ r : Rights, (r.defer = true → D) → (pointAt n r).Keeps P) (r : Rights) :
    ServiceKeeps (immEnv (pointAt n) r) P :=
  ⟨⟨h _ (by simp), h _ (by simp), h _ (by simp), h _ (by simp)⟩, pointAt_section _ _ rfl rfl⟩

/-- While the schedule is empty every operation's points keep every property that says so. -/
theorem EnvKeeps.of_scripted {P : State → Prop} {E : Env} (h : ∀ s, P s → s.scripted) (c : E.Calm) :
    EnvKeeps E P := by
  have calm : ∀ {pt : Point}, pt.Calm → pt.Keeps P := fun c s t hP e => by
    rw [c s (h s hP)] at e
    cases e
    exact hP
  exact ⟨calm c.free, calm c.raw, calm c.fifo, calm c.own⟩

theorem serviceKeeps_of_scripted {P : State → Prop} (h : ∀ s, P s → s.scripted) (s : State) :
    ServiceKeeps s.serviceEnv P := ⟨.of_scripted h (serviceEnv_calm s), pointAt_section _ _ rfl rfl⟩

theorem immKeeps_of_scripted {P : State → Prop} (h : ∀ s, P s → s.scripted) (s : State) :
    ServiceKeeps s.immEnv P := ⟨.of_scripted h (immEnv_calm s), pointAt_section _ _ rfl rfl⟩

/-- A command keeps what its elementary changes keep, up to its result. What the commands that publish alarms,
serve ticks or reset need beside, and what a step of the line or tick agent does, is asked of those commands
alone. -/
theorem ServiceClosed.exec {P : State → Prop} (H : ServiceClosed P) {i : Instr} {s t : State} (h : P s)
    (hline : ∀ u, lineStep i s = some u → P u)
    (hpub : i = .stSweep → PublishClosed P)
    (hdef : i = .irqDef ∨ i = .irq → DeferClosed P)
    (hreset : i = .cardReset → P (resetCard s))
    (KH : EnvKeeps s.hostEnv P) (KS : ServiceKeeps s.serviceEnv P) (KI : ServiceKeeps s.immEnv P)
    (e : Machine.exec i s = .next t) : ∃ u v, P u ∧ t = u.answered v := by
  have ok : ∀ {x : Except Fault State}, (∀ u, x = .ok u → P u) → completeOk x = .next t →
      ∃ u v, P u ∧ t = u.answered v := by
    intro x hx e
    obtain ⟨u, hu, rfl⟩ := completeOk_eq_next.1 e
    exact ⟨u, _, hx u hu, rfl⟩
  have val : ∀ {x : Except Fault (Result × State)}, (∀ v u, x = .ok (v, u) → P u) → complete x = .next t →
      ∃ u v, P u ∧ t = u.answered v := by
    intro x hx e
    obtain ⟨v, u, hu, rfl⟩ := complete_eq_next.1 e
    exact ⟨u, v, hx v u hu, rfl⟩
  have flag : ∀ {α : Type} {x : Except Fault (α × State)} {g : α → Result},
      (∀ v u, x = .ok (v, u) → P u) → complete (x.map fun y => (g y.1, y.2)) = .next t →
      ∃ u v, P u ∧ t = u.answered v := by
    intro α x g hx
    refine val fun v u hu => ?_
    obtain ⟨⟨w, u'⟩, hw, hgu⟩ := map_eq_ok.1 hu
    cases hgu
    exact hx w _ hw
  have num : ∀ {α : Type} {x : Except Fault (α × State)} {g : α → Nat},
      (∀ v u, x = .ok (v, u) → P u) → complete (withValue (x.map fun y => (g y.1, y.2))) = .next t →
      ∃ u v, P u ∧ t = u.answered v := by
    intro α x g hx
    refine flag (g := fun n => .value n) fun v u hu => ?_
    obtain ⟨⟨w, u'⟩, hw, hgu⟩ := map_eq_ok.1 hu
    cases hgu
    exact hx w _ hw
  have line : ∀ {o : Option State}, (∀ u, o = some u → P u) → completeOk (enabledOnly o) = .next t →
      ∃ u v, P u ∧ t = u.answered v :=
    fun ho => ok fun u hu => ho u (enabledOnly_eq_ok.1 hu)
  cases i with
  | regRd off width =>
    refine val (fun v u hu => ?_) e
    obtain ⟨a, ha, hu⟩ := bind_eq_ok.1 hu
    obtain ⟨⟨w, b⟩, hb, hu⟩ := bind_eq_ok.1 hu
    cases hu
    exact H.memRead (KS.raw s a h ha) hb
  | regWr off v =>
    refine ok (fun u hu => ?_) e
    obtain ⟨a, ha, hu⟩ := bind_eq_ok.1 hu
    exact H.memWrite (KS.raw s a h ha) hu
  | regRdx sel sv off =>
    refine val (fun v u hu => ?_) e
    obtain ⟨a, ha, hu⟩ := bind_eq_ok.1 hu
    obtain ⟨b, hb, hu⟩ := bind_eq_ok.1 hu
    obtain ⟨⟨w, c⟩, hc, hu⟩ := bind_eq_ok.1 hu
    cases hu
    exact H.memRead (H.line _ (H.memWrite (KS.raw s a h ha) hb)) hc
  | regWrx sel sv off v =>
    refine ok (fun u hu => ?_) e
    obtain ⟨a, ha, hu⟩ := bind_eq_ok.1 hu
    obtain ⟨b, hb, hu⟩ := bind_eq_ok.1 hu
    exact H.memWrite (H.line _ (H.memWrite (KS.raw s a h ha) hb)) hu
  | regWrb off v =>
    refine ok (fun u hu => H.betweenWaits KS.raw (fun a b ha hb => ?_) h hu) e
    obtain ⟨c, hc, hb⟩ := bind_eq_ok.1 hb
    exact H.memWrite (KS.raw a c ha hc) hb
  | regRds off =>
    refine val (fun v u hu => ?_) e
    split at hu
    · obtain ⟨⟨w, a⟩, ha, hu⟩ := bind_eq_ok.1 hu
      cases hu
      exact H.rds KS.raw h ha
    · split at hu
      · obtain ⟨⟨w, a⟩, ha, hu⟩ := bind_eq_ok.1 hu
        cases hu
        exact H.rds KS.raw h ha
      · cases hu
  | lineBusy b => exact line hline e
  | fifoSel f dir =>
    refine ok (fun u hu => ?_) e
    obtain ⟨n, -, hu⟩ := bind_eq_ok.1 hu
    obtain ⟨d, -, hu⟩ := bind_eq_ok.1 hu
    exact H.toAccessClosed.fifoSelOp KS.toEnvKeeps h hu
  | fifoReset f dir =>
    refine ok (fun u hu => ?_) e
    obtain ⟨n, -, hu⟩ := bind_eq_ok.1 hu
    obtain ⟨d, -, hu⟩ := bind_eq_ok.1 hu
    exact H.toAccessClosed.fifoResetOp KS.toEnvKeeps h hu
  | fifoIrq f dir en =>
    refine ok (fun u hu => ?_) e
    obtain ⟨n, -, hu⟩ := bind_eq_ok.1 hu
    obtain ⟨d, -, hu⟩ := bind_eq_ok.1 hu
    obtain ⟨b, -, hu⟩ := bind_eq_ok.1 hu
    exact H.toAccessClosed.fifoIrqOp KS.toEnvKeeps h hu
  | fmMapb a bchan =>
    refine ok (fun u hu => ?_) e
    obtain ⟨-, role, -, hu⟩ := onBearer_eq_ok.1 hu
    exact (H.port _).mapBearer KH h hu
  | fmMapd a => exact ok (fun u hu => (H.port _).mapSignalling KH h (onPort_eq_ok.1 hu).2) e
  | fmMapall => exact ok (fun u hu => H.mapAll KH h hu) e
  | stObserve a => exact ok (fun u hu => (H.span _).observe KS.raw h (onPort_eq_ok.1 hu).2) e
  | stForce a code resume =>
    refine ok (fun u hu => ?_) e
    obtain ⟨p, -, hu⟩ := bind_eq_ok.1 hu
    obtain ⟨r, -, hu⟩ := bind_eq_ok.1 hu
    exact (H.span _).forceState KS.raw h hu
  | stStart a => exact ok (fun u hu => (H.span _).startSpan KH h (onPort_eq_ok.1 hu).2) e
  | stStop a =>
    refine ok (fun u hu => ?_) e
    obtain ⟨-, hu⟩ := onPort_eq_ok.1 hu
    cases hu
    exact (H.span _).stop s h
  | stSweep => exact ok (fun u hu => H.sweep KS.toEnvKeeps (hpub rfl) h hu) e
  | stPoll => exact ok (fun u hu => H.pollPorts KS.toEnvKeeps h hu) e
  | stSyncsel => exact ok (fun u hu => H.toCardClosed.syncSelect KS.raw h hu) e
  | stSetprio p prio => exact val (fun v u hu => H.toCardClosed.setPriority KH h hu) e
  | lineState p b => exact line hline e
  | hdlcAttach a => exact ok (fun u hu => (H.port _).attachOp KH h (onPort_eq_ok.1 hu).2) e
  | hdlcDetach a => exact ok (fun u hu => (H.port _).detachOp KH h (onPort_eq_ok.1 hu).2) e
  | hdlcSubmit a frame => exact ok (fun u hu => (H.span _).submitOp h (onPort_eq_ok.1 hu).2) e
  | hdlcRxframe a =>
    exact num (x := onPort (rxPass false s.serviceEnv) a s) (g := Prod.snd)
      (fun v u hu => (H.port _).rxPass KS.toEnvKeeps h (onPort_eq_ok.1 hu).2) e
  | hdlcRxdrain a =>
    exact flag (x := onPort (rxDrain s.serviceEnv) a s) (g := fun n => .value n)
      (fun v u hu => (H.port _).rxDrain KS.toEnvKeeps h (onPort_eq_ok.1 hu).2) e
  | hdlcTxchunk a =>
    exact num (x := onPort (txChunk s.serviceEnv) a s) (g := Bool.toNat)
      (fun v u hu => (H.port _).txChunk KS h (onPort_eq_ok.1 hu).2) e
  | hdlcTxdrain a =>
    exact flag (x := onPort (txDrain s.serviceEnv) a s) (g := fun n => .value n)
      (fun v u hu => (H.port _).txDrain KS h (onPort_eq_ok.1 hu).2) e
  | lineRxframe f bytes => exact line hline e
  | lineTxtake f => exact line hline e
  | bpXchg a bchan =>
    refine num (x := onBearer (exchange s.serviceEnv) a bchan s) (g := Bool.toNat) (fun v u hu => ?_) e
    obtain ⟨-, role, -, hu⟩ := onBearer_eq_ok.1 hu
    exact (H.port _).exchange KS h hu
  | bpPump =>
    exact num (x := Machine.pump s.serviceEnv s) (g := Bool.toNat) (fun v u hu => H.pump KS h hu) e
  | hostTxbuf a bchan bytes =>
    refine ok (fun u hu => ?_) e
    obtain ⟨-, role, -, hu⟩ := onBearer_eq_ok.1 hu
    exact (H.span _).txbufOp h hu
  | lineBrx f bytes => exact line hline e
  | lineBtxtake f n => exact line hline e
  | ecReq a ch n => exact val (fun v u hu => ecRequest_keeps h (onPort_eq_ok.1 hu).2) e
  | lineFifoirq f dir => exact line hline e
  | tick => exact line hline e
  | irqImm =>
    exact flag (x := Machine.immediatePhase s.immEnv s) (g := irqResult) (fun v u hu => H.immediatePhase KI h hu) e
  | irqDef =>
    exact ok (fun u hu => H.deferredPhase KS (hdef (by simp)) h hu) e
  | irq =>
    exact flag (x := Machine.interrupt s.immEnv s.serviceEnv s) (g := irqResult)
      (fun v u hu => H.interrupt KS KI (hdef (by simp)) h hu) e
  | cardReset =>
    refine ok (x := .ok (resetCard s)) (fun u hu => ?_) e
    cases hu
    exact hreset rfl
  | cardStart => exact ok (fun u hu => H.toCardClosed.startCard KH.free h hu) e
  | cardStop => exact ok (fun u hu => H.toCardClosed.stopCard KH.free h hu) e

namespace StepClosed

variable {A : Instr → Prop} {D : Prop} {P : State → Prop}

/-- A step that `A` admits, at a point, keeps what every elementary change keeps, if the points inside it do. -/
theorem agentStep (H : StepClosed A D P) {n : Nat}
    (hpt : ∀ r : Rights, (r.defer = true → D) → (pointAt n r).Keeps P) {r : Rights} (hr : r.defer = true → D)
    {i : Instr} (hi : A i) {s t : State} (h : P s) (e : agentStep (pointAt n) r i s = .ok t) : P t := by
  have KH := envKeeps_host hpt r hr
  have KS := envKeeps_service hpt r
  have KI := envKeeps_imm hpt r
  have line : ∀ i, P ((lineStep i s).getD s) := fun i => by
    cases hl : lineStep i s with
    | none => exact h
    | some w => exact H.toLineClosed.lineStep h hl
  cases i with
  | hdlcSubmit a frame =>
    obtain ⟨-, e⟩ := onPort_eq_ok.1 e
    exact (H.span _).submitOp h e
  | stStart a =>
    obtain ⟨-, e⟩ := onPort_eq_ok.1 e
    exact (H.span _).startSpan KH h e
  | stStop a =>
    change onPort (fun p s => .ok (stopSpan p s)) a s = .ok t at e
    obtain ⟨-, e⟩ := onPort_eq_ok.1 e
    cases e
    exact (H.span _).stop s h
  | stSetprio p prio =>
    obtain ⟨w, e⟩ := stateOf_eq_ok.1 e
    exact H.toCardClosed.setPriority KH h e
  | stSyncsel => exact H.toCardClosed.syncSelect KH.raw h e
  | hostTxbuf a b bytes =>
    obtain ⟨-, role, -, e⟩ := onBearer_eq_ok.1 e
    exact (H.span _).txbufOp h e
  | ecReq a ch k =>
    obtain ⟨w, e⟩ := stateOf_eq_ok.1 e
    obtain ⟨-, e⟩ := onPort_eq_ok.1 e
    exact ecRequest_keeps h e
  | cardStart => exact H.toCardClosed.startCard KH.free h e
  | cardStop => exact H.toCardClosed.stopCard KH.free h e
  | cardReset =>
    refine allowed_keeps (op := fun s => .ok (resetCard s)) h (fun _ e => ?_) e
    cases e
    exact H.reset hi s h
  | fmMapb a b =>
    obtain ⟨-, role, -, e⟩ := onBearer_eq_ok.1 e
    exact allowed_keeps h (fun _ e => (H.port _).mapBearer KH h e) e
  | fmMapd a =>
    obtain ⟨-, e⟩ := onPort_eq_ok.1 e
    exact allowed_keeps h (fun _ e => (H.port _).mapSignalling KH h e) e
  | fmMapall => exact allowed_keeps h (fun _ e => H.toServiceClosed.mapAll KH h e) e
  | hdlcAttach a =>
    obtain ⟨-, e⟩ := onPort_eq_ok.1 e
    exact allowedMapped_keeps h (fun e => (H.port _).attachOp KH h e) e
  | hdlcDetach a =>
    obtain ⟨-, e⟩ := onPort_eq_ok.1 e
    exact allowedMapped_keeps h (fun e => (H.port _).detachOp KH h e) e
  | hdlcRxdrain a =>
    obtain ⟨-, e⟩ := onPort_eq_ok.1 e
    refine allowedMapped_keeps h (fun e => ?_) e
    obtain ⟨w, e⟩ := stateOf_eq_ok.1 e
    exact (H.port _).rxDrain KH h e
  | irqImm =>
    refine allowed_keeps h (fun _ e => ?_) e
    obtain rfl | e := phase_eq_ok (fun u hu => stateOf_immediatePhase_of_outsideFifo hu) e
    · exact h
    · obtain ⟨w, e⟩ := stateOf_eq_ok.1 e
      exact H.toServiceClosed.immediatePhase KI h e
  | irqDef =>
    refine allowed_keeps h (fun hb e => ?_) e
    obtain rfl | e := phase_eq_ok (fun u hu => deferredPhase_of_outsideFifo hu) e
    · exact h
    · exact H.toServiceClosed.deferredPhase KS (H.deferred (hr hb) (.inl hi)) h e
  | irq =>
    refine allowed_keeps h (fun hb e => ?_) e
    rw [Bool.and_eq_true] at hb
    obtain rfl | e := phase_eq_ok (fun u hu => stateOf_eq_ok.2 (interrupt_of_outsideFifo hu)) e
    · exact h
    · obtain ⟨w, e⟩ := stateOf_eq_ok.1 e
      exact H.toServiceClosed.interrupt KS KI (H.deferred (hr hb.2) (.inr hi)) h e
  | lineBusy b => cases e; exact line (.lineBusy b)
  | lineState p b => cases e; exact line (.lineState p b)
  | lineRxframe f bytes => cases e; exact line (.lineRxframe f bytes)
  | lineTxtake f => cases e; exact line (.lineTxtake f)
  | lineBrx f bytes => cases e; exact line (.lineBrx f bytes)
  | lineBtxtake f k => cases e; exact line (.lineBtxtake f k)
  | lineFifoirq f d => cases e; exact line (.lineFifoirq f d)
  | tick => cases e; exact line .tick
  | _ => cases e; exact h

/-- Whatever the other agents do at a point, what every elementary change keeps is kept. -/
theorem pointAt (H : StepClosed A D P) (n : Nat) (r : Rights) (hr : r.defer = true → D) :
    (pointAt n r).Keeps fun s => P s ∧ Admits A s := by
  induction n generalizing r with
  | zero =>
    intro s t h e
    cases e
    exact H.admits.pop s h
  | succ n ih =>
    intro s t h e
    unfold Machine.pointAt at e
    split at e
    · cases e; exact h
    · next es rest hs =>
      have hpop := H.admits.pop s h
      rw [hs] at hpop
      refine forEach_keeps (P := fun s => P s ∧ Admits A s) (fun x hx u v hu he => ?_) hpop e
      cases x with
      | setLive l => cases he; exact H.admits.live u l hu
      | setStrap c =>
        cases he
        split
        · next hc => exact H.admits.strap u c hc hu
        · exact hu
      | issue i =>
        exact H.admits.agentStep ih hr (h.2 es (by rw [hs]; exact List.mem_cons_self) i hx) hu he

/-- A command that `A` admits keeps what every elementary change keeps, up to its result. -/
theorem exec (H : StepClosed A True P) {i : Instr} (hi : A i) {s t : State} (h : P s) (ha : Admits A s)
    (e : exec i s = .next t) : ∃ u v, (P u ∧ Admits A u) ∧ t = u.answered v :=
  H.admits.toServiceClosed.exec ⟨h, ha⟩ (fun _ => H.admits.toLineClosed.lineStep ⟨h, ha⟩)
    (fun hp => H.admits.publish (hp ▸ hi))
    (fun hp => H.admits.deferred trivial (by rcases hp with rfl | rfl <;> simp [hi]))
    (fun hr => H.admits.reset (hr ▸ hi) s ⟨h, ha⟩)
    (envKeeps_host (H.pointAt _) _ fun _ => trivial) (envKeeps_service (H.pointAt _) _)
    (envKeeps_imm (H.pointAt _) _) e

/-- A step whose command `A` admits keeps what every elementary change keeps, if the script's own progress
does. -/
theorem step (H : StepClosed A True P) (hans : ∀ s v, P s → P (s.answered v))
    (hadv : ∀ s n, P s → P (advance n s)) {s t : State} (hi : ∀ i n, fetch s = .ok (i, n) → A i) (h : P s)
    (ha : Admits A s) (e : step s = .next t) : P t := by
  unfold Machine.step at e
  split at e
  · cases e
  · cases e
  · next i n hf =>
    split at e
    · cases e
    · next u hu =>
      have hu := H.pointAt _ _ (fun _ => trivial) s u ⟨h, ha⟩ hu
      split at e
      · next v hv =>
        cases e
        obtain ⟨w, r, hw, rfl⟩ := H.exec (hi i n hf) hu.1 hu.2 hv
        exact hadv _ n (hans w r hw.1)
      · cases e
      · cases e

end StepClosed

end Sys2Proof.Machine
end

