-- ==== Sys2Proof/Laws/Invariant.lean ====
section
/-! SUPPORT. Invariants that do not look at the hardware: such a property is given by a key, the part of the
state it reads, and is kept by every step once the few changes that reach its key keep it. -/

namespace Sys2Proof.Machine

/-- What the proofs about a property `P` that reads only `key` need: the hardware, the draws, the
script, the schedule, the live parameters, the accumulators and the diagnostic log are outside the key. -/
structure Reads {K : Type} (key : State → K) (P : State → Prop) : Prop where
  /-- `P` reads nothing but the key -/
  reads : ∀ s t, key t = key s → P s → P t
  hwOnly : ∀ s t, HwOnly s t → key t = key s
  sched : ∀ s r, key { s with sched := r } = key s
  live : ∀ s l, key { s with live := l } = key s
  answered : ∀ s v, key (s.answered v) = key s
  advance : ∀ s n, key (Machine.advance n s) = key s
  running : ∀ (s : State) b, key (s.modCard fun c => { c with running := b }) = key s
  fifoAcc : ∀ (s : State) v, key (s.modCard fun c => { c with fifoAcc := v }) = key s
  miscAcc : ∀ (s : State) v, key (s.modCard fun c => { c with miscAcc := v }) = key s

namespace Reads

variable {K : Type} {key : State → K} {P : State → Prop} (R : Reads key P)
include R

theorem hardware (s t : State) (h : HwOnly s t) : P s → P t := R.reads s t (R.hwOnly s t h)

/-- Register accesses keep `P`. -/
theorem accessClosed : AccessClosed P :=
  .of_hwOnly R.hardware fun _ => LineClosed.linePoint (.of_hwOnly R.hardware)
    fun s => R.reads s _ (R.sched s _)

/-- Every step keeps `P` if the changes that reach its key do. -/
theorem stepClosed {A : Instr → Prop} {D : Prop} (ports : ∀ p, PortClosed P p)
    (strap : ∀ (s : State) (c : Config), c.valid = true → P s → P { s with strap := c })
    (prio : ∀ s p k, p < s.nports → k ≤ s.nports → P s → P (s.modPort p fun q => { q with syncPrio := k }))
    (sync : ∀ s src, (∀ p, src = .port p → p < s.nports) → P s → P (s.modCard fun c => { c with syncsrc := src }))
    (hooks : ∀ s p rx1 rx2, P s → P (s.emit (.tickHooks p rx1 rx2)))
    (publish : A .stSweep ∨ D ∧ (A .irqDef ∨ A .irq) → PublishClosed P)
    (count : D → A .irqDef ∨ A .irq → ∀ s, P s → P (s.modCard fun c => { c with ticks := c.ticks + 1 }))
    (reset : A .cardReset → ∀ s, P s → P (resetCard s)) : StepClosed A D P where
  toAccessClosed := R.accessClosed
  toLineClosed := .of_hwOnly R.hardware
  span p := (ports p).toSpanClosed
  port := ports
  prio := prio
  sync := sync
  hooks := hooks
  publish hA := publish (.inl hA)
  deferred hD hA :=
    { publish := publish (.inr ⟨hD, hA⟩)
      clearAcc := fun s f _ _ => R.reads s _ (R.fifoAcc s (s.card.fifoAcc.setIfInBounds (f / 4) _))
      count := count hD hA
      clear := fun s => R.reads s _ (R.miscAcc s (s.card.miscAcc ^^^ 0x02)) }
  reset := reset
  strap := strap
  live s l := R.reads s _ (R.live s l)
  pop s := R.reads s _ (R.sched s s.sched.tail)
  running s b := R.reads s _ (R.running s b)
  accumulate s b h :=
    R.reads (readEffect (.fifoStat b) s) _ (R.fifoAcc _ (s.card.fifoAcc.setIfInBounds b.val _))
      (R.hardware s _ (readEffect_hwOnly _ s) h)
  accumulateMisc s h :=
    R.reads (readEffect .miscStat s) _ (R.miscAcc _ (s.card.miscAcc ||| s.hw.miscStat))
      (R.hardware s _ (readEffect_hwOnly _ s) h)

/-- Every step of a run keeps `P` if the changes that reach its key do. -/
theorem step (H : StepClosed (fun _ => True) True P) {s t : State} (h : P s) (e : step s = .next t) : P t :=
  H.step (fun s v => R.reads s _ (R.answered s v)) (fun s n => R.reads s _ (R.advance s n))
    (fun _ _ _ => trivial) h (fun _ _ _ _ => trivial) e

end Reads

/-! ### Tables of eight -/

/-- A property of every port survives an update of one port that gives it the property. -/
theorem ports_modPort {s : State} {p : Nat} {g : Port → Port} {Q : Nat → Port → Prop}
    (h : ∀ q < 8, Q q (s.port q)) (hg : p < 8 → Q p (g (s.port p))) :
    ∀ q < 8, Q q ((s.modPort p g).port q) := by
  intro q hq
  by_cases hp : p < 8
  · rw [port_modPort_eq _ _ _ _ hp]
    split
    · next e => subst e; exact hg hp
    · exact h q hq
  · rw [port_modPort_ne _ _ _ _ (by omega)]
    exact h q hq

/-- A property of every host port survives an update of one that gives it the property. -/
theorem hostPorts_modHostPort {s : State} {p : Nat} {g : HostPort → HostPort} {Q : Nat → HostPort → Prop}
    (h : ∀ q < 8, Q q (s.hostPort q)) (hg : p < 8 → Q p (g (s.hostPort p))) :
    ∀ q < 8, Q q ((s.modHostPort p g).hostPort q) := by
  intro q hq
  by_cases hp : p < 8
  · rw [hostPort_modHostPort_eq _ _ _ _ hp]
    split
    · next e => subst e; exact hg hp
    · exact h q hq
  · rw [hostPort_modHostPort_ne _ _ _ _ (by omega)]
    exact h q hq

/-- A property of every FIFO survives an update of one that gives it the property. -/
theorem fifos_modFifo {s : State} {f : Nat} {g : Fifo → Fifo} {Q : Nat → Fifo → Prop}
    (h : ∀ n < 32, Q n (s.fifo n)) (hg : f < 32 → Q f (g (s.fifo f))) :
    ∀ n < 32, Q n ((s.modFifo f g).fifo n) := by
  intro n hn
  by_cases hf : f < 32
  · rw [fifo_modFifo_eq _ _ _ _ hf]
    split
    · next e => subst e; exact hg hf
    · exact h n hn
  · rw [fifo_modFifo_ne _ _ _ _ (by omega)]
    exact h n hn

/-- A port after a reset (70_reset_and_hazards.md R201). -/
theorem port_resetCard (s : State) (p : Nat) (hp : p < 8) :
    (resetCard s).port p = Port.reset (strappedMode s.strap p) (s.strap.syncPrio[p]?.getD 0) := by
  change (Vector.zipWith Port.reset _ _)[p]?.getD default = _
  simp [hp, strappedMode]

end Sys2Proof.Machine
end

