-- ==== Sys2Proof/Machine/Assembler.lean ====
section
/-! DEFINITION. The assembler of 30_encoding.md R66 and R67: one line of text to the commands it stands for. -/

namespace Sys2Proof.Machine

/-- Why a line is no command. -/
inductive AsmError where
  /-- the mnemonic is neither in the table of R63 nor a pseudo-instruction of R67 -/
  | mnemonic
  /-- too few or too many operands, or a payload where none belongs or none where one does -/
  | shape
  /-- an operand that is no number and no symbol, or does not fit its byte -/
  | operand
deriving DecidableEq, Repr

/-- The mnemonic of a command (30_encoding.md R63). -/
def mnemonic : Instr → String
  | .regRd _ _ => "REG.RD"
  | .regWr _ _ => "REG.WR"
  | .regRdx _ _ _ => "REG.RDX"
  | .regWrx _ _ _ _ => "REG.WRX"
  | .regWrb _ _ => "REG.WRB"
  | .regRds _ => "REG.RDS"
  | .lineBusy _ => "LINE.BUSY"
  | .fifoSel _ _ => "FIFO.SEL"
  | .fifoReset _ _ => "FIFO.RESET"
  | .fifoIrq _ _ _ => "FIFO.IRQ"
  | .fmMapb _ _ => "FM.MAPB"
  | .fmMapd _ => "FM.MAPD"
  | .fmMapall => "FM.MAPALL"
  | .stObserve _ => "ST.OBSERVE"
  | .stForce _ _ _ => "ST.FORCE"
  | .stStart _ => "ST.START"
  | .stStop _ => "ST.STOP"
  | .stSweep => "ST.SWEEP"
  | .stPoll => "ST.POLL"
  | .stSyncsel => "ST.SYNCSEL"
  | .stSetprio _ _ => "ST.SETPRIO"
  | .lineState _ _ => "LINE.STATE"
  | .hdlcAttach _ => "HDLC.ATTACH"
  | .hdlcDetach _ => "HDLC.DETACH"
  | .hdlcSubmit _ _ => "HDLC.SUBMIT"
  | .hdlcRxframe _ => "HDLC.RXFRAME"
  | .hdlcRxdrain _ => "HDLC.RXDRAIN"
  | .hdlcTxchunk _ => "HDLC.TXCHUNK"
  | .hdlcTxdrain _ => "HDLC.TXDRAIN"
  | .lineRxframe _ _ => "LINE.RXFRAME"
  | .lineTxtake _ => "LINE.TXTAKE"
  | .bpXchg _ _ => "BP.XCHG"
  | .bpPump => "BP.PUMP"
  | .hostTxbuf _ _ _ => "HOST.TXBUF"
  | .lineBrx _ _ => "LINE.BRX"
  | .lineBtxtake _ _ => "LINE.BTXTAKE"
  | .ecReq _ _ _ => "EC.REQ"
  | .lineFifoirq _ _ => "LINE.FIFOIRQ"
  | .tick => "TICK"
  | .irqImm => "IRQ.IMM"
  | .irqDef => "IRQ.DEF"
  | .irq => "IRQ"
  | .cardReset => "CARD.RESET"
  | .cardStart => "CARD.START"
  | .cardStop => "CARD.STOP"

/-- The name of a register (10_state.md R22). -/
def Reg.name : Reg → String
  | .status => "STATUS"
  | .miscStat => "MISC_STAT"
  | .sci => "SCI"
  | .stSel => "ST_SEL"
  | .stRd => "ST_RD"
  | .stWr => "ST_WR"
  | .syncSel => "SYNC_SEL"
  | .fifoSel => "FIFO_SEL"
  | .fCnt => "F_CNT"
  | .fifoData => "FIFO_DATA"
  | .fifoCmd => "FIFO_CMD"
  | .fifoCtrl => "FIFO_CTRL"
  | .fcChan => "FC_CHAN"
  | .fcSlot => "FC_SLOT"
  | .tickCtrl => "TICK_CTRL"
  | .fifoStat b => (["FIFO_STAT0", "FIFO_STAT1", "FIFO_STAT2", "FIFO_STAT3", "FIFO_STAT4", "FIFO_STAT5",
      "FIFO_STAT6", "FIFO_STAT7"][b.val]?).getD ""
  | .zCnt => "Z_CNT"

/-- The symbolic operand names (R66): directions, channels, state codes, and the registers' names for their
offsets. -/
def asmSymbols : List (List Char × Nat) :=
  [("TX".toList, 0), ("RX".toList, 1), ("B1".toList, 0), ("B2".toList, 1), ("D".toList, 2),
   ("G0".toList, 0), ("G1".toList, 1), ("G2".toList, 2), ("G3".toList, 3), ("G4".toList, 4),
   ("F0".toList, 0), ("F2".toList, 2), ("F3".toList, 3), ("F4".toList, 4), ("F5".toList, 5),
   ("F6".toList, 6), ("F7".toList, 7), ("F8".toList, 8)] ++
  allRegs.map fun r => (r.name.toList, r.offset.toNat)

/-- The value of a digit. -/
def digit (c : Char) : Option Nat :=
  let n := c.toNat
  if 48 ≤ n ∧ n ≤ 57 then some (n - 48)
  else if 65 ≤ n ∧ n ≤ 70 then some (n - 55)
  else if 97 ≤ n ∧ n ≤ 102 then some (n - 87)
  else none

/-- The number some digits write in a base, continuing `acc`. -/
def digits (base : Nat) : Nat → List Char → Option Nat
  | acc, [] => some acc
  | acc, c :: cs =>
    match digit c with
    | some v => if v < base then digits base (acc * base + v) cs else none
    | none => none

/-- A number, decimal or hexadecimal (R66). -/
def asmNumber : List Char → Option Nat
  | [] => none
  | '0' :: 'x' :: c :: cs => digits 16 0 (c :: cs)
  | c :: cs => digits 10 0 (c :: cs)

/-- The value of an operand: a symbol or a number (R66). -/
def asmValue (cs : List Char) : Option Nat :=
  match asmSymbols.find? fun e => e.1 == cs with
  | some e => some e.2
  | none => asmNumber cs

/-- An operand byte. -/
def asmByte (cs : List Char) : Except AsmError Byte :=
  match asmValue cs with
  | some n => if n < 256 then .ok (BitVec.ofNat 8 n) else .error .operand
  | none => .error .operand

/-- Operand bytes, in order. -/
def asmBytes : List (List Char) → Except AsmError (List Byte)
  | [] => .ok []
  | cs :: rest => do
    let b ← asmByte cs
    let bs ← asmBytes rest
    .ok (b :: bs)

/-- Whether a character separates words. -/
def blank (c : Char) : Bool := c == ' ' || c == '\t'

/-- The non-empty pieces of a text between separators. -/
def pieces (sep : Char → Bool) (cs : List Char) : List (List Char) :=
  let r := cs.foldr (fun c (acc : List Char × List (List Char)) =>
    if sep c then ([], if acc.1 = [] then acc.2 else acc.1 :: acc.2) else (c :: acc.1, acc.2)) ([], [])
  if r.1 = [] then r.2 else r.1 :: r.2

/-- A line split into its mnemonic, its operands and its payload, if it has one, the comment dropped (R66).
DESIGN CHOICE (log 24), since R66 does not say what becomes of a line that is not of its form: blanks separate
operands as commas do, doubled, leading and trailing commas count for nothing, a payload may lack its closing
brace, and text after that brace is dropped. -/
def splitLine (line : List Char) : List Char × List (List Char) × Option (List (List Char)) :=
  let open' := Char.ofNat 123
  let close := Char.ofNat 125
  let text := (line.takeWhile fun c => c != ';').dropWhile blank
  let mn := text.takeWhile fun c => !blank c
  let rest := text.drop mn.length
  let args := pieces (fun c => blank c || c == ',') (rest.takeWhile fun c => c != open')
  match rest.dropWhile fun c => c != open' with
  | [] => (mn, args, none)
  | _ :: body => (mn, args, some (pieces blank (body.takeWhile fun c => c != close)))

/-- The operands of a format, from the bytes written in the order `A`, `B`, `C`, `V`, and the payload (R60,
R66). -/
def asmOperands (fmt : Format) (args : List Byte) (payload : Option (List Byte)) :
    Except AsmError Sys2Proof.Operands :=
  match fmt, args, payload with
  | .n, [], none => .ok {}
  | .a, [a], none => .ok { a := a }
  | .ab, [a, b], none => .ok { a := a, b := b }
  | .abc, [a, b, c], none => .ok { a := a, b := b, c := c }
  | .ac, [a, c], none => .ok { a := a, c := c }
  | .x, [a, b, c, v], none => .ok { a := a, b := b, c := c, v := v }
  | .p, [a], some bytes => if bytes.length < 65536 then .ok { a := a, payload := bytes } else .error .shape
  | .pb, [a, b], some bytes =>
    if bytes.length < 256 then .ok { a := a, b := b, payload := bytes } else .error .shape
  | _, _, _ => .error .shape

/-- The pseudo-instruction of a mnemonic and its operands, if it is one (R67). -/
def asmPseudo (mn : List Char) (args : List (List Char)) : Option (Except AsmError Pseudo) :=
  if mn = "TICKIRQ".toList then some (if args = [] then .ok .tickirq else .error .shape)
  else if mn = "TICKS".toList then
    some (match args with
      | [n] => (match digits 10 0 n with | some k => .ok (.ticks k) | none => .error .operand)
      | _ => .error .shape)
  else if mn = "SELRX".toList then
    some (match args with | [f] => (asmByte f).map .selrx | _ => .error .shape)
  else if mn = "SELTX".toList then
    some (match args with | [f] => (asmByte f).map .seltx | _ => .error .shape)
  else none

/-- The commands a line of assembler text stands for: none for a blank line, one for a command, the expansion
of a pseudo-instruction (R66, R67). -/
def assembleLine (line : List Char) : Except AsmError (List Instr) :=
  match splitLine line with
  | ([], [], none) => .ok []
  | (mn, args, payload) =>
    match asmPseudo mn args with
    | some r => if payload.isSome then .error .shape else r.map Pseudo.expand
    | none =>
      match opTable.find? fun row => row.2.1.toList == mn with
      | none => .error .mnemonic
      | some (_, _, fmt, build) => do
        let bytes ← asmBytes args
        let body ← (match payload with
          | none => .ok none
          | some ps => (asmBytes ps).map some : Except AsmError (Option (List Byte)))
        let o ← asmOperands fmt bytes body
        .ok [build o]

/-- The words of a script, from its lines (R60, R66). -/
def assemble : List (List Char) → Except AsmError (List Word)
  | [] => .ok []
  | line :: rest => do
    let is ← assembleLine line
    let ws ← assemble rest
    .ok (is.flatMap encode ++ ws)

end Sys2Proof.Machine
end

