-- ==== Sys2Proof/Laws/PerInstr.lean ====
section
/-! SUPPORT. A family of statements made for every instruction: the first word of its encoding carries the
opcode of the row of the opcode table that bears its mnemonic (30_encoding.md R60, R63). -/

namespace Sys2Proof.Laws

open Sys2Proof.Machine (mnemonic)

/-- The opcode field of a word built from its four bytes. -/
theorem fieldOp_bytes (op a b c : Byte) : fieldOp (op ++ a ++ b ++ c) = op := by
  apply BitVec.eq_of_getLsbD_eq
  intro i hi
  simp only [fieldOp, BitVec.getLsbD_extractLsb', BitVec.getLsbD_append]
  have h1 : ¬ 24 + i < 8 := by omega
  have h2 : ¬ 24 + i - 8 < 8 := by omega
  have h3 : ¬ 24 + i - 8 - 8 < 8 := by omega
  have h4 : 24 + i - 8 - 8 - 8 = i := by omega
  simp [h1, h2, h3, h4, hi]

/-- The opcode field of a word built from its opcode and 24 bits. -/
theorem fieldOp_bits24 (op : Byte) (x : BitVec 24) : fieldOp (op ++ x) = op := by
  apply BitVec.eq_of_getLsbD_eq
  intro i hi
  simp only [fieldOp, BitVec.getLsbD_extractLsb', BitVec.getLsbD_append]
  have h1 : ¬ 24 + i < 24 := by omega
  simp [hi, h1]

/-- The opcode field of a word built from two bytes and 16 bits. -/
theorem fieldOp_bits16 (op a : Byte) (x : BitVec 16) : fieldOp (op ++ a ++ x) = op := by
  apply BitVec.eq_of_getLsbD_eq
  intro i hi
  simp only [fieldOp, BitVec.getLsbD_extractLsb', BitVec.getLsbD_append]
  have h1 : ¬ 24 + i < 16 := by omega
  have h2 : ¬ 24 + i - 16 < 8 := by omega
  have h4 : 24 + i - 16 - 8 = i := by omega
  simp [h1, h2, h4, hi]

/-- The first word of the encoding names the instruction's row of the opcode table. -/
def EncodeMnemonic.Statement (i : Instr) : Prop :=
  (encode i).head?.bind (fun w => (opRow (fieldOp w)).map fun r => r.2.1) = some (mnemonic i)

/-- A first word with the opcode of the row that bears the mnemonic. -/
theorem encodeMnemonic_of_head {i : Instr} {w : Word} {ws : List Word} {op : Byte} (he : encode i = w :: ws)
    (hop : fieldOp w = op) (hrow : (opRow op).map (fun r => r.2.1) = some (mnemonic i)) :
    EncodeMnemonic.Statement i := by
  rw [EncodeMnemonic.Statement, he, List.head?_cons, Option.bind_some, hop, hrow]

theorem EncodeMnemonic.regRd (off width : Byte) : EncodeMnemonic.Statement (.regRd off width) :=
  encodeMnemonic_of_head rfl (fieldOp_bytes _ _ _ _) rfl

theorem EncodeMnemonic.regWr (off v : Byte) : EncodeMnemonic.Statement (.regWr off v) :=
  encodeMnemonic_of_head rfl (fieldOp_bytes _ _ _ _) rfl

theorem EncodeMnemonic.regRdx (sel sv off : Byte) : EncodeMnemonic.Statement (.regRdx sel sv off) :=
  encodeMnemonic_of_head rfl (fieldOp_bytes _ _ _ _) rfl

theorem EncodeMnemonic.regWrx (sel sv off v : Byte) : EncodeMnemonic.Statement (.regWrx sel sv off v) :=
  encodeMnemonic_of_head rfl (fieldOp_bytes _ _ _ _) rfl

theorem EncodeMnemonic.regWrb (off v : Byte) : EncodeMnemonic.Statement (.regWrb off v) :=
  encodeMnemonic_of_head rfl (fieldOp_bytes _ _ _ _) rfl

theorem EncodeMnemonic.regRds (off : Byte) : EncodeMnemonic.Statement (.regRds off) :=
  encodeMnemonic_of_head rfl (fieldOp_bits16 _ _ _) rfl

theorem EncodeMnemonic.lineBusy (b : Byte) : EncodeMnemonic.Statement (.lineBusy b) :=
  encodeMnemonic_of_head rfl (fieldOp_bits16 _ _ _) rfl

theorem EncodeMnemonic.fifoSel (f dir : Byte) : EncodeMnemonic.Statement (.fifoSel f dir) :=
  encodeMnemonic_of_head rfl (fieldOp_bytes _ _ _ _) rfl

theorem EncodeMnemonic.fifoReset (f dir : Byte) : EncodeMnemonic.Statement (.fifoReset f dir) :=
  encodeMnemonic_of_head rfl (fieldOp_bytes _ _ _ _) rfl

theorem EncodeMnemonic.fifoIrq (f dir en : Byte) : EncodeMnemonic.Statement (.fifoIrq f dir en) :=
  encodeMnemonic_of_head rfl (fieldOp_bytes _ _ _ _) rfl

theorem EncodeMnemonic.fmMapb (p bchan : Byte) : EncodeMnemonic.Statement (.fmMapb p bchan) :=
  encodeMnemonic_of_head rfl (fieldOp_bytes _ _ _ _) rfl

theorem EncodeMnemonic.fmMapd (p : Byte) : EncodeMnemonic.Statement (.fmMapd p) :=
  encodeMnemonic_of_head rfl (fieldOp_bits16 _ _ _) rfl

theorem EncodeMnemonic.fmMapall : EncodeMnemonic.Statement (.fmMapall) :=
  encodeMnemonic_of_head rfl (fieldOp_bits24 _ _) rfl

theorem EncodeMnemonic.stObserve (p : Byte) : EncodeMnemonic.Statement (.stObserve p) :=
  encodeMnemonic_of_head rfl (fieldOp_bits16 _ _ _) rfl

theorem EncodeMnemonic.stForce (p code resume : Byte) : EncodeMnemonic.Statement (.stForce p code resume) :=
  encodeMnemonic_of_head rfl (fieldOp_bytes _ _ _ _) rfl

theorem EncodeMnemonic.stStart (p : Byte) : EncodeMnemonic.Statement (.stStart p) :=
  encodeMnemonic_of_head rfl (fieldOp_bits16 _ _ _) rfl

theorem EncodeMnemonic.stStop (p : Byte) : EncodeMnemonic.Statement (.stStop p) :=
  encodeMnemonic_of_head rfl (fieldOp_bits16 _ _ _) rfl

theorem EncodeMnemonic.stSweep : EncodeMnemonic.Statement (.stSweep) :=
  encodeMnemonic_of_head rfl (fieldOp_bits24 _ _) rfl

theorem EncodeMnemonic.stPoll : EncodeMnemonic.Statement (.stPoll) :=
  encodeMnemonic_of_head rfl (fieldOp_bits24 _ _) rfl

theorem EncodeMnemonic.stSyncsel : EncodeMnemonic.Statement (.stSyncsel) :=
  encodeMnemonic_of_head rfl (fieldOp_bits24 _ _) rfl

theorem EncodeMnemonic.stSetprio (p prio : Byte) : EncodeMnemonic.Statement (.stSetprio p prio) :=
  encodeMnemonic_of_head rfl (fieldOp_bytes _ _ _ _) rfl

theorem EncodeMnemonic.lineState (p b : Byte) : EncodeMnemonic.Statement (.lineState p b) :=
  encodeMnemonic_of_head rfl (fieldOp_bytes _ _ _ _) rfl

theorem EncodeMnemonic.hdlcAttach (p : Byte) : EncodeMnemonic.Statement (.hdlcAttach p) :=
  encodeMnemonic_of_head rfl (fieldOp_bits16 _ _ _) rfl

theorem EncodeMnemonic.hdlcDetach (p : Byte) : EncodeMnemonic.Statement (.hdlcDetach p) :=
  encodeMnemonic_of_head rfl (fieldOp_bits16 _ _ _) rfl

theorem EncodeMnemonic.hdlcSubmit (p : Byte) (frame : List Byte) : EncodeMnemonic.Statement (.hdlcSubmit p frame) :=
  encodeMnemonic_of_head rfl (fieldOp_bits16 _ _ _) rfl

theorem EncodeMnemonic.hdlcRxframe (p : Byte) : EncodeMnemonic.Statement (.hdlcRxframe p) :=
  encodeMnemonic_of_head rfl (fieldOp_bits16 _ _ _) rfl

theorem EncodeMnemonic.hdlcRxdrain (p : Byte) : EncodeMnemonic.Statement (.hdlcRxdrain p) :=
  encodeMnemonic_of_head rfl (fieldOp_bits16 _ _ _) rfl

theorem EncodeMnemonic.hdlcTxchunk (p : Byte) : EncodeMnemonic.Statement (.hdlcTxchunk p) :=
  encodeMnemonic_of_head rfl (fieldOp_bits16 _ _ _) rfl

theorem EncodeMnemonic.hdlcTxdrain (p : Byte) : EncodeMnemonic.Statement (.hdlcTxdrain p) :=
  encodeMnemonic_of_head rfl (fieldOp_bits16 _ _ _) rfl

theorem EncodeMnemonic.lineRxframe (f : Byte) (bytes : List Byte) : EncodeMnemonic.Statement (.lineRxframe f bytes) :=
  encodeMnemonic_of_head rfl (fieldOp_bits16 _ _ _) rfl

theorem EncodeMnemonic.lineTxtake (f : Byte) : EncodeMnemonic.Statement (.lineTxtake f) :=
  encodeMnemonic_of_head rfl (fieldOp_bits16 _ _ _) rfl

theorem EncodeMnemonic.bpXchg (p bchan : Byte) : EncodeMnemonic.Statement (.bpXchg p bchan) :=
  encodeMnemonic_of_head rfl (fieldOp_bytes _ _ _ _) rfl

theorem EncodeMnemonic.bpPump : EncodeMnemonic.Statement (.bpPump) :=
  encodeMnemonic_of_head rfl (fieldOp_bits24 _ _) rfl

theorem EncodeMnemonic.hostTxbuf (p bchan : Byte) (bytes : List Byte) : EncodeMnemonic.Statement (.hostTxbuf p bchan bytes) :=
  encodeMnemonic_of_head rfl (fieldOp_bytes _ _ _ _) rfl

theorem EncodeMnemonic.lineBrx (f : Byte) (bytes : List Byte) : EncodeMnemonic.Statement (.lineBrx f bytes) :=
  encodeMnemonic_of_head rfl (fieldOp_bits16 _ _ _) rfl

theorem EncodeMnemonic.lineBtxtake (f n : Byte) : EncodeMnemonic.Statement (.lineBtxtake f n) :=
  encodeMnemonic_of_head rfl (fieldOp_bytes _ _ _ _) rfl

theorem EncodeMnemonic.ecReq (p ch nparams : Byte) : EncodeMnemonic.Statement (.ecReq p ch nparams) :=
  encodeMnemonic_of_head rfl (fieldOp_bytes _ _ _ _) rfl

theorem EncodeMnemonic.lineFifoirq (f dir : Byte) : EncodeMnemonic.Statement (.lineFifoirq f dir) :=
  encodeMnemonic_of_head rfl (fieldOp_bytes _ _ _ _) rfl

theorem EncodeMnemonic.tick : EncodeMnemonic.Statement (.tick) :=
  encodeMnemonic_of_head rfl (fieldOp_bits24 _ _) rfl

theorem EncodeMnemonic.irqImm : EncodeMnemonic.Statement (.irqImm) :=
  encodeMnemonic_of_head rfl (fieldOp_bits24 _ _) rfl

theorem EncodeMnemonic.irqDef : EncodeMnemonic.Statement (.irqDef) :=
  encodeMnemonic_of_head rfl (fieldOp_bits24 _ _) rfl

theorem EncodeMnemonic.irq : EncodeMnemonic.Statement (.irq) :=
  encodeMnemonic_of_head rfl (fieldOp_bits24 _ _) rfl

theorem EncodeMnemonic.cardReset : EncodeMnemonic.Statement (.cardReset) :=
  encodeMnemonic_of_head rfl (fieldOp_bits24 _ _) rfl

theorem EncodeMnemonic.cardStart : EncodeMnemonic.Statement (.cardStart) :=
  encodeMnemonic_of_head rfl (fieldOp_bits24 _ _) rfl

theorem EncodeMnemonic.cardStop : EncodeMnemonic.Statement (.cardStop) :=
  encodeMnemonic_of_head rfl (fieldOp_bits24 _ _) rfl

end Sys2Proof.Laws
end

