-- ==== Sys2Proof/Tests/Slice0.lean ====
section
/-! SUPPORT. The model's own tests: words written out from the encoding of 30_encoding.md, one-step examples
with the expected results of 95_test_vectors.md (named in each docstring), and for every obligation with
hypotheses a state and operands that meet them. -/

namespace Sys2Proof.Tests

open Sys2Proof Sys2Proof.Machine

set_option Elab.async false

/-! ### Helpers -/

/-- Configurations B, C, E and H of 95_test_vectors.md section 1. -/
def cfgB : Config := { Config.cfgA with
  mode := Vector.replicate 8 .nt, syncPrio := #v[1, 2, 0, 0, 0, 0, 0, 0] }

/-- Configuration C: `HDLC_CAP` 4. -/
def cfgC : Config := { Config.cfgA with hdlcCap := 4 }

/-- Configuration E: EC-routed. -/
def cfgE : Config := { Config.cfgA with ecRouted := true }

/-- Configuration H: 8 TE ports, EC-routed. -/
def cfgH : Config := { Config.cfgA with
  nports := .eight, mode := Vector.replicate 8 .te, ecRouted := true, dBase := 16 }

/-- The state after some commands, or `none` where one does not answer a next state. -/
def runFrom (s : State) : List Instr → Option State
  | [] => some s
  | i :: is =>
    match exec i s with
    | .next t => runFrom t is
    | _ => none

/-- The prefix BOOT of 95_test_vectors.md, then some commands, under configuration `c`. -/
def bootOf (c : Config) (is : List Instr) : Option State :=
  runFrom (State.resetWith c Live.default) ([.cardReset, .fmMapall, .cardStart] ++ is)

/-- BOOT and some commands under configuration A. -/
def boot (is : List Instr) : Option State := bootOf Config.cfgA is

/-- The same as a state. -/
def st (is : List Instr) : State := (boot is).getD State.reset

/-- The command ends in a fault, the commands before it in next states. -/
def faultsAfter (start : Option State) (i : Instr) (e : Fault) : Bool :=
  match start with
  | some s => (match exec i s with | .fault f => decide (f = e) | _ => false)
  | none => false

/-- The last result of a script. -/
def lastResult (s : State) : Option Result := s.script.results.getLast?

/-- A state with a script loaded. -/
def loaded (ws : List Word) : State :=
  { State.reset with script := { words := ws, pc := 0, results := [] } }

/-- An outcome is the next state `t`. -/
def nextIs (o : Host.Outcome State Fault Refusal) (t : State) : Bool :=
  match o with
  | .next u => decide (u = t)
  | _ => false

theorem eq_of_nextIs {o : Host.Outcome State Fault Refusal} {t : State} (h : nextIs o t = true) : o = .next t := by
  cases o with
  | next u => exact congrArg _ (of_decide_eq_true h)
  | fault _ => exact absurd h (by simp [nextIs])
  | refused _ => exact absurd h (by simp [nextIs])

/-! ### Encoding -/

/-- Format N rows and EN1 (30_encoding.md R60, R63). -/
theorem test_decode_n :
    decode [0x15000000] = .ok (.fmMapall, 1) ∧ decode [0x24000000] = .ok (.stSweep, 1) ∧
    decode [0x25000000] = .ok (.stPoll, 1) ∧ decode [0x26000000] = .ok (.stSyncsel, 1) ∧
    decode [0x41000000] = .ok (.bpPump, 1) ∧ decode [0x50000000] = .ok (.tick, 1) ∧
    decode [0x51000000] = .ok (.irqImm, 1) ∧ decode [0x52000000] = .ok (.irqDef, 1) ∧
    decode [0x53000000] = .ok (.irq, 1) ∧ decode [0x70000000] = .ok (.cardReset, 1) ∧
    decode [0x71000000] = .ok (.cardStart, 1) ∧ decode [0x72000000] = .ok (.cardStop, 1) := by decide +kernel

/-- Format A rows (RA20, ST9, HF9, HF20). -/
theorem test_decode_a :
    decode [0x060C0000] = .ok (.regRds 0x0C, 1) ∧ decode [0x07010000] = .ok (.lineBusy 1, 1) ∧
    decode [0x14070000] = .ok (.fmMapd 7, 1) ∧ decode [0x20010000] = .ok (.stObserve 1, 1) ∧
    decode [0x22010000] = .ok (.stStart 1, 1) ∧ decode [0x23010000] = .ok (.stStop 1, 1) ∧
    decode [0x30010000] = .ok (.hdlcAttach 1, 1) ∧ decode [0x31010000] = .ok (.hdlcDetach 1, 1) ∧
    decode [0x33010000] = .ok (.hdlcRxframe 1, 1) ∧ decode [0x34010000] = .ok (.hdlcRxdrain 1, 1) ∧
    decode [0x35010000] = .ok (.hdlcTxchunk 1, 1) ∧ decode [0x36010000] = .ok (.hdlcTxdrain 1, 1) ∧
    decode [0x38080000] = .ok (.lineTxtake 8, 1) := by decide +kernel

/-- Format AB and AC rows (RA3, RA9, RA16, FM6, FM11, FM3, ST16, ST2, BP14, BP15). -/
theorem test_decode_ab_ac :
    decode [0x01180200] = .ok (.regRd 0x18 2, 1) ∧ decode [0x020F0004] = .ok (.regWr 0x0F 0x04, 1) ∧
    decode [0x05070088] = .ok (.regWrb 0x07 0x88, 1) ∧ decode [0x10080100] = .ok (.fifoSel 8 1, 1) ∧
    decode [0x11080100] = .ok (.fifoReset 8 1, 1) ∧ decode [0x13070100] = .ok (.fmMapb 7 1, 1) ∧
    decode [0x27000300] = .ok (.stSetprio 0 3, 1) ∧ decode [0x28004300] = .ok (.lineState 0 0x43, 1) ∧
    decode [0x40000100] = .ok (.bpXchg 0 1, 1) ∧ decode [0x44000900] = .ok (.lineBtxtake 0 9, 1) ∧
    decode [0x46000100] = .ok (.lineFifoirq 0 1, 1) := by decide +kernel

/-- Format ABC and X rows (RA12, FM10, EN2, EN3, BP9). -/
theorem test_decode_abc_x :
    decode [0x03030104] = .ok (.regRdx 0x03 1 0x04, 1) ∧ decode [0x12000001] = .ok (.fifoIrq 0 0 1, 1) ∧
    decode [0x21010301] = .ok (.stForce 1 3 1, 1) ∧ decode [0x45000103] = .ok (.ecReq 0 1 3, 1) ∧
    decode [0x04030105, 0x00000013] = .ok (.regWrx 0x03 1 0x05 0x13, 2) := by decide +kernel

/-- Payload rows: EN4 to EN7, BP12. -/
theorem test_decode_payload :
    decode [0x32000003, 0x007F0102] = .ok (.hdlcSubmit 0 [0x02, 0x01, 0x7F], 2) ∧
    decode [0x32000005, 0x44332211, 0x00000055] = .ok (.hdlcSubmit 0 [0x11, 0x22, 0x33, 0x44, 0x55], 3) ∧
    decode [0x42000108, 0x04030201, 0x08070605] = .ok (.hostTxbuf 0 1 [1, 2, 3, 4, 5, 6, 7, 8], 3) ∧
    decode [0x37080000] = .ok (.lineRxframe 8 [], 1) ∧
    decode [0x43080001, 0x00000000] = .ok (.lineBrx 8 [0], 2) := by decide +kernel

/-- EN8 to EN13: a word that is not in the table, and each must-be-zero field at its lowest and highest bit. -/
theorem test_decode_illegal_word :
    decode [0x00000000] = .error .unknownOpcode ∧ decode [0xFF000000] = .error .unknownOpcode ∧
    decode [0x08000000] = .error .unknownOpcode ∧ decode [0x15000001] = .error .nonzeroField ∧
    decode [0x15800000] = .error .nonzeroField ∧ decode [0x22000100] = .error .nonzeroField ∧
    decode [0x22008000] = .error .nonzeroField ∧ decode [0x01000180] = .error .nonzeroField ∧
    decode [0x02070100] = .error .nonzeroField ∧ decode [0x02078000] = .error .nonzeroField := by decide +kernel

/-- EN14 to EN16: the words after the command word. -/
theorem test_decode_illegal_further :
    decode [0x04030105, 0x00000113] = .error .secondWord ∧ decode [0x04030105] = .error .truncated ∧
    decode [0x32000003, 0x017F0102] = .error .padding ∧
    decode [0x32000005, 0x44332211] = .error .truncated ∧
    decode [0x42000003, 0x01030201] = .error .padding := by decide +kernel

/-- The table numbers the first word's bits from 0: EN3, and a row cut off before its payload. -/
theorem test_table_word :
    decodeTableWord 64 0x0000001304030105 = some (.regWrx 0x03 1 0x05 0x13) ∧
    decodeTableWord 32 0x32000003 = some (.hdlcSubmit 0 [0, 0, 0]) ∧
    decodeTableWord 32 0x00000000 = none := by decide +kernel

/-- WellFormed refuses a payload that its count field cannot say, and takes the longest that it can. -/
theorem test_wellFormed_payloads :
    (Instr.hdlcSubmit 0 (List.replicate 65536 0)).wellFormed = false ∧
    (Instr.lineRxframe 0 (List.replicate 65536 0)).wellFormed = false ∧
    (Instr.lineBrx 0 (List.replicate 65536 0)).wellFormed = false ∧
    (Instr.hostTxbuf 0 0 (List.replicate 256 0)).wellFormed = false ∧
    (Instr.hdlcSubmit 0 (List.replicate 65535 0)).wellFormed = true ∧
    (Instr.hostTxbuf 0 0 (List.replicate 255 0)).wellFormed = true := by
  refine ⟨?_, ?_, ?_, ?_, ?_, ?_⟩ <;> simp only [Instr.wellFormed, List.length_replicate] <;> rfl

/-- R66's three examples (a payload stands in braces: characters 123 and 125). -/
theorem test_assemble :
    assemble ["HDLC.SUBMIT 0, ".toList ++ [Char.ofNat 123] ++ "0x02 0x01 0x7F".toList ++ [Char.ofNat 125]] =
      .ok [0x32000003, 0x007F0102] ∧
    assemble ["ST.FORCE 1, F3, 1".toList] = .ok [0x21010301] ∧
    assemble ["REG.WRX ST_SEL, 1, ST_WR, 0x13 ; hold".toList] = .ok [0x04030105, 0x00000013] := by decide +kernel

/-- R67's pseudo-instructions; a line that is none. -/
theorem test_assemble_pseudo :
    assembleLine "TICKS 2".toList = .ok [.tick, .irq, .tick, .irq] ∧
    assembleLine "TICKIRQ".toList = .ok [.tick, .irq] ∧
    assembleLine "SELRX 8".toList = .ok [.fifoSel 8 1] ∧ assembleLine "SELTX 8".toList = .ok [.fifoSel 8 0] ∧
    assembleLine "NOP".toList = .error .mnemonic ∧ assembleLine "FM.MAPALL 1".toList = .error .shape := by
  decide +kernel

/-! ### The step -/

/-- A step runs the command at the index and moves past its words; the end of the script is no step. -/
theorem test_step_runs :
    (match step (loaded [0x04030105, 0x00000013]) with
      | .next t => decide (t.script.pc = 2 ∧ t.script.results = [.ok] ∧ (t.latch 1).code = 3)
      | _ => false) = true ∧
    (match step (loaded []) with | .refused .scriptEnded => true | _ => false) = true ∧
    (match step (loaded [0x15000001]) with | .fault .illegalOp => true | _ => false) = true := by decide +kernel

/-- `withFetchWord` places the word where the step fetches, beyond the script's end too. -/
theorem test_withFetchWord :
    fetch (State.reset.withFetchWord 32 0x22010000) = .ok (.stStart 1, 1) ∧
    fetch ({ State.reset with script := { words := [0], pc := 3, results := [] } }.withFetchWord 64
      0x0000001304030105) = .ok (.regWrx 3 1 5 0x13, 2) := by decide +kernel

/-! ### Register access (95_test_vectors.md 3.2) -/

/-- RA1, RA2, RA3, RA7. -/
theorem test_regRd :
    (boot [.regRd 0x0F 1]).any (fun s => lastResult s == some (.value 3)) ∧
    (boot [.regRd 0x18 2]).any (fun s => lastResult s == some (.value 0)) ∧
    (boot [.tick, .regRd 0x00 1, .regRd 0x01 1, .regRd 0x01 1, .regRd 0x00 1]).any (fun s =>
      s.script.results.drop 4 == [.value 2, .value 2, .value 0, .value 0]) := by decide +kernel

/-- RA4, RA5, RA6 and the ends of the window; RA22, RA24. -/
theorem test_regRd_faults :
    faultsAfter (boot []) (.regRd 0x18 1) .badAccess ∧ faultsAfter (boot []) (.regRd 0x09 1) .badAccess ∧
    faultsAfter (boot []) (.regRd 0x00 2) .badAccess ∧ faultsAfter (boot []) (.regRd 0x19 1) .badAccess ∧
    faultsAfter (boot [.fifoSel 0 0]) (.regRd 0x0A 1) .fifoDir ∧
    faultsAfter (boot [.fifoSel 0 1]) (.regRd 0x0A 1) .fifoUnderrun := by decide +kernel

/-- RA9, RA10: a read-only register and a read-clears register. -/
theorem test_regWr :
    (boot [.tick, .regWr 0x00 0xFF, .regWr 0x01 0x02]).any (fun s =>
      s.hw.miscStat == 2 && lastResult s == some .ok) ∧
    (boot [.fifoSel 8 0, .regWr 0x0A 0x7E]).any (fun s => (s.fifo 8).txopen == [0x7E]) := by decide +kernel

/-- RA8, RA19, RA23. -/
theorem test_regWr_faults :
    faultsAfter (boot []) (.regWr 0x0F 0x04) .reservedBits ∧
    faultsAfter (boot []) (.regWr 0x07 0x60) .reservedBits ∧
    faultsAfter (boot [.fifoSel 0 1]) (.regWr 0x0A 0x55) .fifoDir := by decide +kernel

/-- RA11 to RA13. -/
theorem test_regWrx :
    (boot [.regWrx 3 1 5 0x13]).any (fun s =>
      s.hw.stSel == 1 && (s.latch 1).code == 3 && (s.latch 1).auto == false && s.hw.sci == 0) ∧
    (boot [.regWrx 3 1 5 0x13, .regWrx 3 1 5 0x00]).any (fun s =>
      (s.latch 1).code == 3 && (s.latch 1).auto == true) ∧
    faultsAfter (boot []) (.regWrx 3 0 5 0x34) .reservedBits := by decide +kernel

/-- RA12, RA14. -/
theorem test_regRdx :
    (boot [.regWrx 3 1 5 0x13, .regRdx 3 1 4]).any (fun s => lastResult s == some (.value 3)) ∧
    faultsAfter (boot []) (.regRdx 3 5 4) .badPort := by decide +kernel

/-- RA16, RA27. -/
theorem test_regWrb :
    (boot [.regWrb 0x07 0x88]).any (fun s => s.hw.fifoSel == 0x88 && s.card.diaglog == []) ∧
    (boot [.fifoSel 8 0, .regWr 0x0A 0x7E, .regWrb 0x0B 0x03]).any (fun s =>
      (s.fifo 8).txopen == [] && (s.fifo 8).txclosed == []) := by decide +kernel

/-- RA25, RA26. -/
theorem test_regWrb_faults :
    faultsAfter (boot [.fifoSel 8 1]) (.regWrb 0x0B 0x01) .frameUnderrun ∧
    faultsAfter (boot [.fifoSel 8 0]) (.regWrb 0x0B 0x01) .emptyFrame := by decide +kernel

/-- RA20, RA21. -/
theorem test_regRds :
    (boot [.lineRxframe 8 [1], .lineRxframe 8 [2], .fifoSel 8 1, .regRds 0x08]).any (fun s =>
      lastResult s == some (.value 2)) ∧
    faultsAfter (boot []) (.regRds 0x0C) .badOperand := by decide +kernel

/-- RA18. -/
theorem test_lineBusy :
    (boot [.lineBusy 1, .regRd 0x00 1]).any (fun s => lastResult s == some (.value 4)) ∧
    faultsAfter (boot []) (.lineBusy 2) .badOperand := by decide +kernel

/-! ### Flow mapper (95_test_vectors.md 3.3) -/

/-- FM6, FM7, FM8. -/
theorem test_fifoSel :
    (boot [.fifoSel 8 1]).any (fun s => s.hw.fifoSel == 0x88) ∧
    faultsAfter (boot []) (.fifoSel 32 0) .badOperand ∧ faultsAfter (boot []) (.fifoSel 8 2) .badOperand := by
  decide +kernel

/-- FM11. -/
theorem test_fifoReset :
    (boot [.lineRxframe 8 [1]]).any (fun s => s.fifoStat 2 == 0x02) ∧
    (boot [.lineRxframe 8 [1], .fifoReset 8 1]).any (fun s =>
      (s.fifo 8).rxq == [] && s.fifoStat 2 == 0 && (s.fifo 8).rxRegs.ctrl == 0x07) := by decide +kernel

/-- FM9, FM10. -/
theorem test_fifoIrq :
    (boot [.fifoIrq 8 0 0]).any (fun s => (s.fifo 8).txRegs.ctrl == 0x06 && s.hw.fifoSel == 0x08) ∧
    (boot [.fifoIrq 0 0 1]).any (fun s => (s.fifo 0).txRegs.ctrl == 0x05) := by decide +kernel

/-- FM3, bearer part; FM12. -/
theorem test_fmMapb :
    (runFrom (State.resetWith cfgH Live.default) [.fmMapb 7 1]).any (fun s =>
      (s.fifo 15).rxRegs == ⟨0x05, 0x9D, 0xBC⟩ && (s.fifo 15).txRegs == ⟨0x04, 0x1D, 0xBC⟩ &&
      (s.port 7).fifoB2 == 15) ∧
    faultsAfter (boot []) (.fmMapb 2 0) .badOperand := by decide +kernel

/-- FM3, D part. -/
theorem test_fmMapd :
    (runFrom (State.resetWith cfgH Live.default) [.fmMapd 7]).any (fun s =>
      (s.fifo 23).rxRegs == ⟨0x07, 0x9E, 0x00⟩ && (s.fifo 23).txRegs == ⟨0x07, 0x1E, 0x00⟩) := by decide +kernel

/-- FM1 and the state after BOOT. -/
theorem test_fmMapall :
    (boot []).any (fun s =>
      s.hw.fifoSel == 0x09 && (s.fifo 0).rxRegs == ⟨0x05, 0x80, 0⟩ && (s.fifo 0).txRegs == ⟨0x04, 0x00, 0⟩ &&
      (s.fifo 1).rxRegs == ⟨0x05, 0x81, 0⟩ && (s.fifo 3).txRegs == ⟨0x04, 0x05, 0⟩ &&
      (s.fifo 8).rxRegs == ⟨0x07, 0x82, 0⟩ && (s.fifo 8).txRegs == ⟨0x07, 0x02, 0⟩ &&
      (s.fifo 9).rxRegs == ⟨0x07, 0x86, 0⟩ && (s.fifo 9).txRegs == ⟨0x07, 0x06, 0⟩ &&
      (s.fifo 10).rxRegs == ⟨0, 0, 0⟩) := by decide +kernel

/-- FM2: the timeslots under configuration E. -/
theorem test_fmMapall_ec :
    (bootOf cfgE []).any (fun s =>
      (s.fifo 0).rxRegs.slot == 0x80 && (s.fifo 1).txRegs.slot == 0x84 && (s.fifo 2).rxRegs.slot == 0x88 &&
      (s.fifo 3).txRegs.slot == 0x8C && (s.fifo 8).rxRegs.slot == 0) := by decide +kernel

/-! ### S/T state machine (95_test_vectors.md 2.9, 3.4) -/

/-- Scenario 8: the T2 expiry of an NT port. -/
theorem test_stObserve :
    (boot [.lineState 1 0x24, .stObserve 1]).any (fun s =>
      s.latch 1 == ⟨1, false, false, true⟩ && (s.port 1).state == 0x01 && (s.port 1).newalarm == .red &&
      (s.port 1).alarmtimer == 500 && (s.port 1).t1On == false && s.card.hostlog == []) := by decide +kernel

/-- ST1, TE: the incoming signal arms T3 and forces F4, 0x44 observed; ST5. -/
theorem test_stObserve_te :
    (boot [.lineState 0 0x43, .stObserve 0]).any (fun s =>
      (s.port 0).t3On == true && (s.port 0).t3Dl == 500 && (s.port 0).state == 0x44 &&
      (s.latch 0).code == 4 && (s.port 0).newalarm == .yellow) ∧
    faultsAfter (boot [.lineState 0 0x01]) (.stObserve 0) .stBadCode := by decide +kernel

/-- ST8, ST6. -/
theorem test_stForce :
    (boot [.stForce 0 3 0]).any (fun s => (s.latch 0).code == 3 && (s.latch 0).auto == false) ∧
    faultsAfter (boot [.stForce 0 3 0]) (.lineState 0 0x04) .badOperand ∧
    faultsAfter (boot []) (.stForce 0 1 1) .stBadCode := by decide +kernel

/-- ST9, ST10, ST11. -/
theorem test_stStart :
    (boot [.stStart 0]).any (fun s =>
      (s.port 0).spanRunning && (s.port 0).t3On && (s.port 0).t3Dl == 500 && !(s.port 0).t3First) ∧
    (boot [.stStart 0, .stStart 0]).any (fun s => (s.port 0).t3Dl == 30000) ∧
    (boot [.stStart 1]).any (fun s => (s.port 1).t1On && (s.port 1).t1Dl == 2000 && !(s.port 1).t3On) := by
  decide +kernel

/-- ST13. -/
theorem test_stStop :
    (boot [.stStart 0, .stStop 0]).any (fun s =>
      !(s.port 0).spanRunning && !(s.port 0).t3On && (s.port 0).t3Dl == 500) := by decide +kernel

/-- A due alarm is published by the sweep: TE activated, `DEBOUNCE_MS` 0 (ST25). -/
theorem test_stSweep :
    (runFrom { st [] with live := { Live.default with debounceMs := 0 } }
      [.lineState 0 0x07, .stObserve 0, .stSweep]).any (fun s =>
        s.card.hostlog == [.alarm 0 .clear] && (s.port 0).alarm == .clear) ∧
    (boot [.lineState 0 0x07, .stObserve 0, .stSweep]).any (fun s => s.card.hostlog == []) := by decide +kernel

/-- ST22. -/
theorem test_stPoll :
    (boot [.lineState 0 0x02, .lineState 1 0x03, .stPoll]).any (fun s =>
      s.hw.sci == 0 && (s.port 0).state == 0x02 && (s.port 1).state == 0x03) := by decide +kernel

/-- The 4-port card of ST19 with given published alarms. -/
def st19 (alarms : Vector Alarm 8) : State :=
  let c : Config := { Config.cfgA with nports := .four, syncPrio := #v[0, 2, 1, 1, 0, 0, 0, 0] }
  let s := State.resetWith c Live.default
  { s with ports := Vector.zipWith (fun q a => { q with alarm := a }) s.ports alarms }

/-- ST19, ST20, ST21. -/
theorem test_stSyncsel :
    (runFrom (st19 #v[.clear, .clear, .red, .clear, .red, .red, .red, .red]) [.stSyncsel]).any (fun s =>
      s.hw.syncSel == 0x0B && s.card.syncsrc == .port 3) ∧
    (runFrom (st19 #v[.clear, .clear, .red, .yellow, .red, .red, .red, .red]) [.stSyncsel]).any (fun s =>
      s.hw.syncSel == 0x09) ∧
    (runFrom (st19 (Vector.replicate 8 .red)) [.stSyncsel]).any (fun s =>
      s.hw.syncSel == 0 && s.card.syncsrc == .auto) := by decide +kernel

/-- ST16, ST17, ST18. -/
theorem test_stSetprio :
    (boot [.stSetprio 0 3]).any (fun s => lastResult s == some .invalid && (s.port 0).syncPrio == 0) ∧
    (boot [.stSetprio 2 1]).any (fun s => lastResult s == some .invalid) ∧
    (boot [.stSetprio 1 1]).any (fun s =>
      lastResult s == some .ok && (s.port 1).syncPrio == 1 && s.hw.syncSel == 0) := by decide +kernel

/-- ST2, ST3, ST4. -/
theorem test_lineState :
    (boot [.lineState 0 0x43]).any (fun s => s.latch 0 == ⟨3, false, true, true⟩ && s.hw.sci == 0x01) ∧
    (boot [.lineState 0 0x43, .regRd 0x02 1, .lineState 0 0x43]).any (fun s => s.hw.sci == 0) ∧
    faultsAfter (boot []) (.lineState 0 0x10) .badOperand := by decide +kernel

/-! ### HDLC framer (95_test_vectors.md 3.5) -/

/-- The start of 3.5; FM13. -/
theorem test_hdlcAttach :
    (boot [.hdlcAttach 0]).any (fun s =>
      s.session 0 == ⟨true, 0, 0, 0⟩ && (s.fifo 8).rxRegs.ctrl == 0x07 && s.hw.fifoSel == 0x08) ∧
    faultsAfter (some State.reset) (.hdlcAttach 0) .notMapped := by decide +kernel

/-- HF23. -/
theorem test_hdlcDetach :
    (boot [.hdlcAttach 0, .hdlcSubmit 0 [1], .hdlcSubmit 0 [2], .hdlcDetach 0]).any (fun s =>
      s.session 0 == ⟨false, 0, 0, 0⟩ && (s.hostPort 0).txq == [] && (s.fifo 8).txRegs.ctrl == 0x06) := by
  decide +kernel

/-- HF14 and a submission. -/
theorem test_hdlcSubmit :
    (boot [.hdlcAttach 0, .hdlcSubmit 0 [1]]).any (fun s =>
      (s.session 0).pending == 1 && (s.hostPort 0).txq == [[1]]) ∧
    faultsAfter (boot []) (.hdlcSubmit 0 [1]) .noSession := by decide +kernel

/-- The host events of one receive pass over one deposited frame. -/
def verdict (c : Config) (fr : List Byte) : Option (List HostEvent) :=
  (bootOf c [.hdlcAttach 0, .lineRxframe 8 fr, .hdlcRxframe 0]).map fun s => s.card.hostlog

/-- HF1, HF2, HF4, HF6, HF7. -/
theorem test_hdlcRxframe :
    verdict Config.cfgA [2, 1, 0x7F, 0x00] = some [.rxPush 0 [2, 1, 0x7F], .rxFinish 0] ∧
    verdict Config.cfgA [2, 1, 0x7F, 0xFF] = some [.rxPush 0 [2, 1, 0x7F], .rxAbort 0] ∧
    verdict Config.cfgA [2, 1, 0x7F, 0xFE] = some [.rxPush 0 [2, 1, 0x7F], .rxBadFcs 0] ∧
    verdict Config.cfgA [0x41, 0x00] = some [.rxPush 0 [0x41], .rxAbort 0] ∧
    verdict Config.cfgA [0x00] = some [.rxAbort 0] := by decide +kernel

/-- HF10, HF11. -/
theorem test_hdlcRxframe_cap :
    verdict cfgC [1, 2, 3, 0x00] = some [.rxPush 0 [1, 2, 3], .rxFinish 0] ∧
    verdict cfgC [1, 2, 3, 4, 0x00] = some [.rxPush 0 [1, 2, 3, 4], .rxAbort 0] := by decide +kernel

/-- P1 without its interrupt: two frames drained; HF9. -/
theorem test_hdlcRxdrain :
    (boot [.hdlcAttach 0, .lineRxframe 8 [2, 1, 0x7F, 0], .lineRxframe 8 [0xAA, 0xFF], .hdlcRxdrain 0]).any
      (fun s => lastResult s == some (.value 2) && (s.fifo 8).rxq == [] && (s.session 0).framesIn == 2 &&
        s.card.hostlog == [.rxPush 0 [2, 1, 0x7F], .rxFinish 0, .rxPush 0 [0xAA], .rxAbort 0]) ∧
    (boot [.hdlcAttach 0, .hdlcRxdrain 0]).any (fun s => lastResult s == some (.value 0)) := by decide +kernel

/-- HF15. -/
theorem test_hdlcTxchunk :
    (boot [.hdlcAttach 0, .hdlcSubmit 0 [2, 1, 0x7F], .hdlcTxchunk 0]).any (fun s =>
      lastResult s == some (.value 0) && (s.fifo 8).txclosed == [[2, 1, 0x7F]] &&
      s.session 0 == ⟨true, 0, 0, 1⟩) ∧
    (boot [.hdlcAttach 0, .hdlcTxchunk 0]).any (fun s => (s.fifo 8).txRegs.ctrl == 0x06) := by decide +kernel

/-- HF17, first pass. -/
theorem test_hdlcTxchunk_more :
    (bootOf cfgC [.hdlcAttach 0, .hdlcSubmit 0 [1, 2, 3, 4, 5], .hdlcTxchunk 0]).any (fun s =>
      lastResult s == some (.value 1) && (s.hostPort 0).txoff == 4 && (s.session 0).pending == 1 &&
      (s.fifo 8).txopen == [1, 2, 3, 4]) := by decide +kernel

/-- P2's first drain; HF18. -/
theorem test_hdlcTxdrain :
    (bootOf cfgC [.hdlcAttach 0, .hdlcSubmit 0 [0, 1, 2, 3, 4, 5], .hdlcSubmit 0 [0xA0, 0xA1],
      .hdlcTxdrain 0]).any (fun s =>
        lastResult s == some (.value 3) && (s.session 0).pending == 0 &&
        (s.fifo 8).txclosed == [[0, 1, 2, 3, 4, 5], [0xA0, 0xA1]]) ∧
    (boot [.hdlcTxdrain 0]).any (fun s => lastResult s == some (.value 0)) := by decide +kernel

/-- A deposit, HF24, HF25. -/
theorem test_lineRxframe :
    (boot [.lineRxframe 8 [0xAA, 0xFF]]).any (fun s => (s.fifo 8).rxq == [[0xAA, 0xFF]] && s.fifoStat 2 == 0x02) ∧
    (boot [.fifoIrq 8 1 0, .lineRxframe 8 [1]]).any (fun s => s.fifoStat 2 == 0) ∧
    faultsAfter (boot []) (.lineRxframe 0 [1, 0]) .badOperand := by decide +kernel

/-- HF20, HF21, HF22. -/
theorem test_lineTxtake :
    (boot [.hdlcAttach 0, .hdlcSubmit 0 [2, 1, 0x7F], .hdlcTxchunk 0, .lineTxtake 8]).any (fun s =>
      s.hw.linelog == [.lineTx 8 [2, 1, 0x7F]] && s.fifoStat 2 == 0x01) ∧
    (boot [.fifoSel 8 0, .regWr 0x0A 1, .lineTxtake 8]).any (fun s =>
      s.hw.linelog == [] && s.fifoStat 2 == 0x01 && (s.fifo 8).txopen == [1]) ∧
    faultsAfter (boot []) (.lineTxtake 8) .badOperand := by decide +kernel

/-! ### Bearer pump (95_test_vectors.md 3.6) -/

/-- BP1, BP3. -/
theorem test_bpXchg :
    (boot [.lineBrx 0 [1, 2, 3, 4, 5, 6, 7], .bpXchg 0 0]).any (fun s =>
      lastResult s == some (.value 0) && (s.fifo 0).brx.length == 7 && (s.fifo 0).btx == [] &&
      s.hw.fifoSel == 0x80) ∧
    (boot [.lineBrx 0 [0xA0, 0xA1, 0xA2, 0xA3, 0xA4, 0xA5, 0xA6, 0xA7, 0xA8], .bpXchg 0 0]).any (fun s =>
      lastResult s == some (.value 1) && (s.fifo 0).brx == [0xA8] && s.hw.fifoSel == 0x00 &&
      (s.hostPort 0).rxbufB1 == [0xA0, 0xA1, 0xA2, 0xA3, 0xA4, 0xA5, 0xA6, 0xA7]) := by decide +kernel

/-- BP5, BP6. -/
theorem test_bpPump :
    (boot [.bpPump]).any (fun s => lastResult s == some (.value 0) && s.hw.fifoSel == 0x09) ∧
    (boot [.stStart 0, .lineBrx 0 [1, 2, 3, 4, 5, 6, 7, 8], .lineBrx 1 [1, 2, 3, 4, 5, 6, 7, 8],
      .bpPump]).any (fun s => lastResult s == some (.value 1) && s.hw.fifoSel == 0x01) := by decide +kernel

/-- P3's chunk, BP11. -/
theorem test_hostTxbuf :
    (boot [.hostTxbuf 0 1 [1, 2, 3, 4, 5, 6, 7, 8]]).any (fun s =>
      (s.hostPort 0).txbufB2 == [1, 2, 3, 4, 5, 6, 7, 8] && (s.hostPort 0).txbufB1 == List.replicate 8 0) ∧
    faultsAfter (boot []) (.hostTxbuf 0 0 [1, 2, 3]) .badOperand := by decide +kernel

/-- BP12, BP13 and an arrival. -/
theorem test_lineBrx :
    (boot [.lineBrx 0 [5]]).any (fun s => (s.fifo 0).brx == [5] && s.fifoStat 0 == 0) ∧
    faultsAfter (boot []) (.lineBrx 8 [0]) .badOperand ∧ faultsAfter (boot []) (.lineBrx 4 [0]) .badOperand := by
  decide +kernel

/-- BP14 and a departure. -/
theorem test_lineBtxtake :
    (boot [.fifoSel 0 0, .regWr 0x0A 1, .regWr 0x0A 2, .lineBtxtake 0 1]).any (fun s =>
      s.hw.linelog == [.lineBTx 0 [1]] && (s.fifo 0).btx == [2]) ∧
    faultsAfter (boot []) (.lineBtxtake 0 1) .badOperand := by decide +kernel

/-- BP7 to BP10. -/
theorem test_ecReq :
    (boot [.ecReq 0 2 0, .ecReq 0 1 0, .ecReq 0 1 3]).any (fun s =>
      s.script.results.drop 3 == [.invalid, .ok, .invalid]) ∧
    faultsAfter (boot []) (.ecReq 2 0 0) .badOperand := by decide +kernel

/-- BP15, BP16, and positions of IC11. -/
theorem test_lineFifoirq :
    (boot [.lineFifoirq 0 1, .lineFifoirq 3 1, .lineFifoirq 9 0]).any (fun s =>
      s.fifoStat 0 == 0x82 && s.fifoStat 2 == 0x04) ∧
    faultsAfter (boot []) (.lineFifoirq 0 0) .badOperand := by decide +kernel

/-! ### Tick, interrupt, reset (95_test_vectors.md 3.7) -/

/-- IC3, IC5. -/
theorem test_tick :
    (boot [.tick, .tick]).any (fun s => s.hw.miscStat == 0x02) ∧
    faultsAfter (some State.reset) .tick .badOperand := by decide +kernel

/-- IC1, IC12. -/
theorem test_irqImm :
    (runFrom State.reset [.irqImm]).any (fun s => lastResult s == some .notMine) ∧
    (boot [.lineFifoirq 8 1, .irqImm, .lineFifoirq 8 0, .irqImm]).any (fun s =>
      s.fifoAcc 2 == 0x03 && s.fifoStat 2 == 0 && lastResult s == some .handled) := by decide +kernel

/-- IC7, IC8. -/
theorem test_irqDef :
    (boot [.irqDef]).any (fun s => s.card.diaglog == [] && s.card.ticks == 0) ∧
    (boot [.lineFifoirq 0 1, .irqImm, .irqDef]).any (fun s =>
      s.fifoAcc 0 == 0 && s.card.diaglog == [.unexpectedFifoIrq 0 .rx]) := by decide +kernel

/-- IC2, IC4. -/
theorem test_irq :
    (boot [.lineBusy 1, .irq]).any (fun s => lastResult s == some .notMine) ∧
    (boot [.tick, .irq]).any (fun s =>
      lastResult s == some .handled && s.card.ticks == 1 && s.card.miscAcc == 0 && s.hw.miscStat == 0) := by
  decide +kernel

/-- The end of P1: the interrupt drains a received frame. -/
theorem test_irq_receive :
    (boot [.hdlcAttach 0, .lineRxframe 8 [2, 1, 0x7F, 0], .irq]).any (fun s =>
      s.card.hostlog == [.rxPush 0 [2, 1, 0x7F], .rxFinish 0] && s.hw.fifoSel == 0x88 &&
      s.fifoAcc 2 == 0) := by decide +kernel

/-- A reset latches the presented parameters and empties the card. -/
theorem test_cardReset :
    (runFrom { st [.lineRxframe 8 [1]] with strap := cfgC } [.cardReset]).any (fun s =>
      s.cfg == cfgC && s.hw == Hardware.reset && s.card == Card.reset) := by decide +kernel

/-- RA2, IC13. -/
theorem test_cardStart :
    (boot []).any (fun s => s.card.running && s.hw.tickCtrl == 0x03) := by decide +kernel

/-- IC13. -/
theorem test_cardStop :
    (boot [.cardStop]).any (fun s => !s.card.running && s.hw.tickCtrl == 0) ∧
    faultsAfter (boot [.cardStop]) .tick .badOperand := by decide +kernel

/-! ### Other agents inside a command -/

/-- 10_state.md R40: the bytes of both modes count against `FIFO_DEPTH`, here 1. -/
theorem test_depth_both_modes :
    faultsAfter (bootOf { Config.cfgA with fifoDepth := 1 } [.fifoSel 8 0, .regWr 0x0A 1, .regWr 0x0C 0x04])
      (.regWr 0x0A 2) .fifoOverrun ∧
    faultsAfter (bootOf { Config.cfgA with fifoDepth := 1 }
      [.lineRxframe 8 [1], .fifoSel 8 1, .regWr 0x0C 0x04]) (.lineBrx 8 [2]) .badOperand := by decide +kernel

/-- 20_memory.md R53: between the two accesses of an indexed sequence the line agent's step is taken and the
host's is not. -/
theorem test_indexed_excludes_host :
    (runFrom { st [.hdlcAttach 0] with sched := [[], [.issue (.hdlcSubmit 0 [1]), .issue (.lineState 0 0x03)]] }
      [.regRdx 3 0 4]).any (fun s => lastResult s == some (.value 3) && (s.session 0).pending == 0) ∧
    (runFrom { st [.hdlcAttach 0] with sched := [[.issue (.hdlcSubmit 0 [1])]] }
      [.regRdx 3 0 4]).any (fun s => lastResult s == some (.value 0) && (s.session 0).pending == 1) := by
  decide +kernel

/-- 10_state.md R20, 60_exceptions.md R178: inside a transmit drain the host may submit a frame, start a span or reset
the card, after which the next pass finds no mapping. -/
theorem test_host_inside_drain :
    (runFrom { st [.hdlcAttach 0, .hdlcSubmit 0 [1]] with
      sched := [[.issue (.hdlcSubmit 0 [2])], [.issue (.stStart 1)]] } [.hdlcTxdrain 0]).any (fun s =>
        lastResult s == some (.value 2) && (s.fifo 8).txclosed == [[1], [2]] && (s.port 1).spanRunning) ∧
    faultsAfter (some { st [.hdlcAttach 0, .hdlcSubmit 0 [1]] with sched := [[], [.issue .cardReset]] })
      (.hdlcTxdrain 0) .notMapped := by decide +kernel

/-- 60_exceptions.md R190, R193: the `ModelFault` of a host operation inside a command stops the machine, and so
does one between two commands. -/
theorem test_host_fault_stops :
    faultsAfter (some { st [] with sched := [[.issue (.hdlcSubmit 0 [1])]] }) .irqDef .noSession ∧
    (match step { loaded [0x24000000] with sched := [[.issue (.hdlcAttach 0)]] } with
      | .fault .notMapped => true
      | _ => false) = true := by decide +kernel

/-- 20_memory.md R56, 43_hdlc_framer.md R146: an immediate phase and the host's own receive drain between two
operations of the deferred phase: the bit that the one sets is served in the same phase, the frame that the other
drains is not drained twice. -/
theorem test_inside_deferred :
    (runFrom { st [.hdlcAttach 0, .lineRxframe 8 [1, 2, 0]] with sched := [[.issue .irqImm]] } [.irqDef]).any
      (fun s => s.fifoAcc 2 == 0 && s.card.hostlog == [.rxPush 0 [1, 2], .rxFinish 0]) ∧
    (runFrom { st [.hdlcAttach 0, .lineRxframe 8 [1, 2, 0], .irqImm] with
      sched := [[.issue (.hdlcRxdrain 0)]] } [.irqDef]).any
      (fun s => s.fifoAcc 2 == 0 && s.card.hostlog == [.rxPush 0 [1, 2], .rxFinish 0]) := by decide +kernel

/-- 20_memory.md R54: a deferred phase that writes no `FIFO_SEL` falls inside a FIFO section of the host's
operation; one that would serve a D FIFO does not. -/
theorem test_deferred_inside_fifo_section :
    (runFrom { st [.lineFifoirq 0 1, .irqImm] with sched := [[], [], [.issue .irqDef]] } [.hdlcAttach 0]).any
      (fun s => s.fifoAcc 0 == 0 && s.card.diaglog == [.unexpectedFifoIrq 0 .rx]) ∧
    (runFrom { st [.lineFifoirq 8 1, .irqImm] with sched := [[], [], [.issue .irqDef]] } [.hdlcAttach 0]).any
      (fun s => s.fifoAcc 2 == 0x02 && s.card.diaglog == []) := by decide +kernel

/-- 60_exceptions.md R180: an interrupt falls before the `ST.OBSERVE` that `ST.START` calls, not inside it; and
inside the FIFO section of `FM.MAPB` between the `FIFO.SEL` that it calls and its own write. -/
theorem test_imm_outside_service :
    (runFrom { st [.tick] with sched := [[.issue .irqImm]] } [.stStart 0]).any
      (fun s => s.card.miscAcc == 0x02 && s.hw.miscStat == 0) ∧
    (runFrom { st [.tick] with sched := [[], [.issue .irqImm]] } [.stStart 0]).any
      (fun s => s.card.miscAcc == 0 && s.hw.miscStat == 0x02) ∧
    (runFrom { st [.lineFifoirq 0 1] with sched := [[], [], [], [], [.issue .irqImm]] } [.fmMapb 0 0]).any
      (fun s => s.fifoAcc 0 == 0x02) ∧
    (runFrom { st [.lineFifoirq 0 1] with sched := [[], [], [], [.issue .irqImm]] } [.fmMapb 0 0]).any
      (fun s => s.fifoAcc 0 == 0) := by decide +kernel

/-! ### Witnesses: for each obligation with hypotheses, states and operands that meet them -/

/-- The command answers a next state. -/
def completes (i : Instr) (s : State) : Bool :=
  match exec i s with
  | .next _ => true
  | _ => false

theorem next_of_completes {i : Instr} {s : State} (h : completes i s = true) : ∃ t, exec i s = .next t := by
  unfold completes at h
  split at h
  · exact ⟨_, by assumption⟩
  · cases h

/-- The command answers a next state with the result `r`. -/
def answersWith (i : Instr) (s : State) (r : Result) : Bool :=
  match exec i s with
  | .next t => decide (t.script = { s.script with results := s.script.results ++ [r] })
  | _ => false

/-- A state whose last result is dropped again. -/
def unanswered (s t : State) : State := { t with script := s.script }

theorem next_of_answersWith {i : Instr} {s : State} {r : Result} (h : answersWith i s r = true) :
    ∃ v, exec i s = .next v ∧ v = (unanswered s v).answered r := by
  unfold answersWith at h
  split at h
  · rename_i t ht
    refine ⟨t, ht, ?_⟩
    have h := of_decide_eq_true h
    cases t
    simp_all [unanswered, State.answered]
  · cases h

theorem answered_of_answersWith {i : Instr} {s : State} {r : Result} (h : answersWith i s r = true) :
    ∃ t : State, exec i s = .next (t.answered r) := by
  obtain ⟨v, hv, e⟩ := next_of_answersWith h
  exact ⟨unanswered s v, e ▸ hv⟩

theorem answered_with {i : Instr} {s : State} {r : Result} {g : State → Bool}
    (h : (match exec i s with
      | .next v => answersWith i s r && g (unanswered s v)
      | _ => false) = true) : ∃ t : State, exec i s = .next (t.answered r) ∧ g t = true := by
  split at h
  · next v hv =>
    rw [Bool.and_eq_true] at h
    obtain ⟨w, hw, e⟩ := next_of_answersWith h.1
    cases hv.symm.trans hw
    exact ⟨_, hv.trans (congrArg _ e), h.2⟩
  · cases h

theorem forall_dir {P : Dir → Prop} (h : P .tx ∧ P .rx) : ∀ d, P d := by
  intro d
  cases d
  exacts [h.1, h.2]

theorem forall_role {P : Role → Prop} (h : P .b1 ∧ P .b2 ∧ P .d) : ∀ r, P r := by
  intro r
  cases r
  exacts [h.1, h.2.1, h.2.2]

theorem witness_DecodeOfEncode :
    (Instr.hdlcSubmit 1 [1, 2, 3, 4, 5]).wellFormed = true ∧ (Instr.irq).wellFormed = true := by decide +kernel

theorem witness_EncodeOfDecode :
    decode [0x32000005, 0x44332211, 0x00000055, 0xFFFFFFFF] = .ok (.hdlcSubmit 0 [0x11, 0x22, 0x33, 0x44, 0x55], 3) := by
  decide +kernel

/-- A script at an illegal word: the last opcode below the table's first, a must-be-zero bit at each end of each
format's field, a script that ends inside a command, a padding byte. -/
theorem witness_IllegalCommandsFault :
    (loaded [0x08000000]).script.words.drop (loaded [0x08000000]).script.pc = [0x08000000] ∧
    fieldOp 0x08000000 = 0x08 ∧ (0x15000001#32 &&& 0x00FFFFFF ≠ 0) ∧ (0x15800000#32 &&& 0x00FFFFFF ≠ 0) ∧
    (0x22000001#32 &&& 0x0000FFFF ≠ 0) ∧ (0x22008000#32 &&& 0x0000FFFF ≠ 0) ∧
    (0x01000101#32 &&& 0x000000FF ≠ 0) ∧ (0x02070100#32 &&& 0x0000FF00 ≠ 0) ∧
    (0x00000100#32 &&& 0xFFFFFF00 ≠ 0) ∧ ([] : List Word).length < (1 + 3) / 4 ∧
    ([0x0100#32][1 / 4]?.getD 0).extractLsb' (8 * (1 % 4)) 8 ≠ 0 := by decide +kernel

/-- A command that completes, one that faults, a script that has ended; a host operation between two commands
that raises a `ModelFault`. -/
theorem witness_StepRunsFetchedCommand :
    (loaded [0x15000000]).sched = [] ∧ (loaded []).script.words.length ≤ (loaded []).script.pc ∧
    decode ((loaded [0x15000000]).script.words.drop 0) = .ok (.fmMapall, 1) ∧
    betweenCommands (loaded [0x15000000]) = .ok (loaded [0x15000000]) ∧
    (∃ t, exec .fmMapall (loaded [0x15000000]) = .next t) ∧
    decode ((loaded [0x20020000]).script.words.drop 0) = .ok (.stObserve 2, 1) ∧
    betweenCommands (loaded [0x20020000]) = .ok (loaded [0x20020000]) ∧
    faultsAfter (some (loaded [0x20020000])) (.stObserve 2) .badOperand = true ∧
    betweenCommands { loaded [0x15000000] with sched := [[.issue (.hdlcSubmit 0 [1])]] } = .error .noSession :=
  ⟨rfl, by decide +kernel, by decide +kernel, rfl, next_of_completes (by decide +kernel), by decide +kernel,
    rfl, by decide +kernel, rfl⟩

/-- The card at reset with `ST_SEL` at `p`. -/
def selecting (p : Byte) : State := { State.reset with hw := { State.reset.hw with stSel := p } }

theorem witness_LegalAccesses :
    (selecting 1).sched = [] ∧ (selecting 1).hw.stSel.toNat < (selecting 1).nports := by decide +kernel

theorem witness_RegisterReads :
    (selecting 1).sched = [] ∧ (selecting 1).hw.stSel.toNat < (selecting 1).nports ∧
    (selecting 2).sched = [] ∧ ¬ (selecting 2).hw.stSel.toNat < (selecting 2).nports := by decide +kernel

theorem witness_PlainWrites :
    State.reset.sched = [] ∧ State.reset.hw.busy = false ∧
    (let s := st [.lineBusy 1]; s.sched = [] ∧ s.hw.busy = true) := by decide +kernel

/-- Each case of the data port: a byte, the end of a frame, no frame; a byte, none. -/
theorem witness_DataPort :
    (let s := st [.lineRxframe 8 [1, 2], .fifoSel 8 1];
      s.sched = [] ∧ s.selDir = .rx ∧ (s.fifo s.selNum).rxq = [1, 2] :: [] ∧
      [1, 2][(s.fifo s.selNum).rxpos]? = some (1 : Byte)) ∧
    (let s := st [.lineRxframe 8 [1], .fifoSel 8 1, .regRd 0x0A 1];
      (s.fifo s.selNum).rxq = [1] :: [] ∧ [1].length ≤ (s.fifo s.selNum).rxpos) ∧
    (let s := st [.fifoSel 8 1];
      (s.fifo s.selNum).rxRegs.ctrl.getLsbD 1 = true ∧ (s.fifo s.selNum).rxq = []) ∧
    (let s := st [.lineBrx 0 [5], .fifoSel 0 1];
      (s.fifo s.selNum).rxRegs.ctrl.getLsbD 1 = false ∧ (s.fifo s.selNum).brx = 5 :: []) ∧
    (let s := st [.fifoSel 0 1];
      (s.fifo s.selNum).rxRegs.ctrl.getLsbD 1 = false ∧ (s.fifo s.selNum).brx = []) := by decide +kernel

/-- A frame, an open frame; the hardware busy; a reserved bit. -/
theorem witness_FifoCommands :
    (let s := st [.lineRxframe 8 [1], .fifoSel 8 1];
      s.sched = [] ∧ s.hw.busy = false ∧ (s.fifo s.selNum).rxq = [1] :: []) ∧
    (let s := st [.fifoSel 8 0, .regWr 0x0A 1];
      s.sched = [] ∧ s.hw.busy = false ∧ s.selDir = .tx ∧ (s.fifo s.selNum).txopen ≠ [] ∧
      ¬ s.cfg.fmax ≤ (s.fifo s.selNum).txclosed.length) ∧
    (let s := st [.lineBusy 1]; s.sched = [] ∧ s.hw.busy = true ∧ (0x03#8 &&& 0xFC = 0)) ∧
    (0x04#8 &&& 0xFC ≠ 0) := by decide +kernel

theorem witness_IndexedAccesses :
    (∃ u, exec (.regWr 3 7) State.reset = .next u) ∧
    faultsAfter (some State.reset) (.regWr 3 8) .reservedBits = true ∧
    State.reset.sched = [] ∧ (1 : Byte).toNat < State.reset.nports :=
  ⟨next_of_completes (by decide +kernel), by decide +kernel, by decide +kernel, by decide +kernel⟩

/-- Not busy; busy, with a plain write that completes, one that faults, a gated write and a reserved bit. -/
theorem witness_BusyWaitWrites :
    State.reset.sched = [] ∧ State.reset.hw.busy = false ∧ (0x9F#8 &&& 0x60 = 0) ∧
    (let s := st [.lineBusy 1];
      s.sched = [] ∧ s.hw.busy = true ∧
      (∃ u : State, exec (.regWr 3 1) (s.diag (.timeoutBusy .before 3)) = .next (u.answered .ok)) ∧
      faultsAfter (some (s.diag (.timeoutBusy .before 3))) (.regWr 3 8) .reservedBits = true) ∧
    (0x20#8 &&& 0x60 ≠ 0) :=
  ⟨by decide +kernel, by decide +kernel, by decide, ⟨by decide +kernel, by decide +kernel,
    answered_of_answersWith (by decide +kernel), by decide +kernel⟩, by decide⟩

theorem witness_StableReads : State.reset.sched = [] ∧ State.reset.cfg.valid = true := by decide +kernel

theorem witness_BusyFlag :
    (2 : Byte) ≠ 0 ∧ (2 : Byte) ≠ 1 ∧ (st [.lineBusy 1]).scripted ∧
    (∃ t, exec (.stObserve 0) (st [.lineBusy 1]) = .next t) ∧ (∀ b, Instr.stObserve 0 ≠ .lineBusy b) ∧
    Instr.stObserve 0 ≠ .cardReset :=
  ⟨by decide, by decide, by decide +kernel, next_of_completes (by decide +kernel), by simp, by simp⟩

theorem witness_FifoPrimitives :
    State.reset.quiet ∧ State.reset.cfg.valid = true ∧ (0 : Byte).toNat < 32 ∧ (31 : Byte).toNat < 32 ∧
    (State.reset.fifo 31).rxRegs.reservedZero ∧ (State.reset.fifo 31).txRegs.reservedZero ∧
    32 ≤ (32 : Byte).toNat ∧ ((2 : Byte) ≠ 0 ∧ (2 : Byte) ≠ 1) := by decide +kernel

theorem witness_ChannelMapping :
    State.reset.quiet ∧ State.reset.cfg.valid = true ∧ (1 : Byte).toNat < State.reset.nports ∧
    State.reset.nports ≤ (2 : Byte).toNat ∧ ((2 : Byte) ≠ 0 ∧ (2 : Byte) ≠ 1) := by decide +kernel

theorem witness_WholeMapping : State.reset.quiet ∧ State.reset.cfg.valid = true := by decide +kernel

/-- Every configuration of 95_test_vectors.md is in range, and one with the least `D_BASE` of an 8-port card. -/
theorem witness_MappingInjective :
    Config.cfgA.valid = true ∧ cfgB.valid = true ∧ cfgC.valid = true ∧ cfgE.valid = true ∧ cfgH.valid = true ∧
    ({ cfgH with dBase := 24 } : Config).valid = true ∧ 7 < cfgH.nports.toNat ∧
    fifoOf cfgH 7 .d = fifoOf cfgH 7 .d := by decide +kernel

theorem witness_MappingIdempotent :
    State.reset.quiet ∧ State.reset.cfg.valid = true ∧
    ∃ t u, exec .fmMapall State.reset = .next t ∧ exec .fmMapall t = .next u := by
  obtain ⟨t, ht⟩ := next_of_completes (i := .fmMapall) (s := State.reset) (by decide +kernel)
  have h : (match exec .fmMapall State.reset with | .next t => completes .fmMapall t | _ => false) = true := by
    decide +kernel
  rw [ht] at h
  obtain ⟨u, hu⟩ := next_of_completes h
  exact ⟨by decide +kernel, by decide +kernel, t, u, ht, hu⟩

/-- The default classes; no reaction, with the last code of the NT vocabulary; a code just outside it; a port just outside the card. -/
theorem witness_ObservationRecords :
    Config.cfgA.alarmNt = Config.defaultAlarmNt ∧ Config.cfgA.alarmTe = Config.defaultAlarmTe ∧
    (let s := st [.lineState 1 0x04];
      s.sched = [] ∧ (1 : Byte).toNat < s.nports ∧ inVocab (s.port 1).mode (s.latch 1).code.toNat = true ∧
      ¬ ((s.port 1).mode = .nt ∧ (s.latch 1).code.toNat = 4 ∧ (s.latch 1).t2exp = true) ∧
      ¬ ((s.port 1).mode = .te ∧ (s.latch 1).code.toNat = 3 ∧ (s.latch 1).signal = true)) ∧
    (let s := st [.lineState 1 0x05];
      inVocab (s.port 1).mode (s.latch 1).code.toNat = false) ∧ (st []).nports ≤ (2 : Byte).toNat := by
  decide +kernel

theorem witness_ObservationReacts :
    (let s := st [.lineState 1 0x24];
      s.sched = [] ∧ (1 : Byte).toNat < s.nports ∧ (s.port 1).mode = .nt ∧ (s.latch 1).code = 4 ∧
      (s.latch 1).t2exp = true) ∧
    (let s := st [.lineState 0 0x43];
      s.sched = [] ∧ (0 : Byte).toNat < s.nports ∧ (s.port 0).mode = .te ∧ (s.latch 0).code = 3 ∧
      (s.latch 0).signal = true) := by decide +kernel

theorem witness_ForcedTransition :
    (st []).sched = [] ∧ (1 : Byte).toNat < (st []).nports ∧
    inVocab ((st []).port 1).mode (4 : Byte).toNat = true ∧ inVocab ((st []).port 0).mode (8 : Byte).toNat = true ∧
    inVocab ((st []).port 0).mode (1 : Byte).toNat = false ∧ inVocab ((st []).port 0).mode (9 : Byte).toNat = false ∧
    (st []).nports ≤ (2 : Byte).toNat ∧ ((2 : Byte) ≠ 0 ∧ (2 : Byte) ≠ 1) := by decide +kernel

theorem witness_SpanStartStop :
    (st []).sched = [] ∧ (1 : Byte).toNat < (st []).nports ∧ ((st []).port 1).mode = .nt ∧
    ((st []).port 0).mode = .te ∧ inVocab ((st []).port 1).mode ((st []).latch 1).code.toNat = true ∧
    (st []).nports ≤ (2 : Byte).toNat := by decide +kernel

/-- ST19: port 3 is the candidate of least priority; at reset there is none. -/
theorem witness_SyncSelection :
    let s := st19 #v[.clear, .clear, .red, .clear, .red, .red, .red, .red]
    let candidate := fun (s : State) (p : Nat) =>
      p < s.nports ∧ 1 ≤ (s.port p).syncPrio ∧ (s.port p).syncPrio ≤ s.nports ∧ (s.port p).alarm = .clear
    s.sched = [] ∧ candidate s 3 ∧
    (∀ q, candidate s q → (s.port 3).syncPrio < (s.port q).syncPrio ∨
      ((s.port 3).syncPrio = (s.port q).syncPrio ∧ 3 ≤ q)) ∧
    State.reset.sched = [] ∧ ∀ p, ¬ candidate State.reset p := by
  refine ⟨by decide +kernel, by decide +kernel, fun q h => ?_, by decide +kernel, fun p h => ?_⟩
  · have hq : ∀ q < (st19 #v[.clear, .clear, .red, .clear, .red, .red, .red, .red]).nports,
        1 ≤ ((st19 #v[.clear, .clear, .red, .clear, .red, .red, .red, .red]).port q).syncPrio →
        ((st19 #v[.clear, .clear, .red, .clear, .red, .red, .red, .red]).port q).alarm = .clear →
        ((st19 #v[.clear, .clear, .red, .clear, .red, .red, .red, .red]).port 3).syncPrio <
          ((st19 #v[.clear, .clear, .red, .clear, .red, .red, .red, .red]).port q).syncPrio ∨
        (((st19 #v[.clear, .clear, .red, .clear, .red, .red, .red, .red]).port 3).syncPrio =
          ((st19 #v[.clear, .clear, .red, .clear, .red, .red, .red, .red]).port q).syncPrio ∧ 3 ≤ q) := by
      decide +kernel
    exact hq q h.1 h.2.1 h.2.2.2
  · have hp : ∀ p < State.reset.nports, (State.reset.port p).alarm ≠ .clear := by decide +kernel
    exact hp p h.1 h.2.2.2

theorem witness_SetPriority :
    (st []).sched = [] ∧ (st []).nports ≤ (2 : Byte).toNat ∧ (st []).nports < (3 : Byte).toNat ∧
    (1 : Byte).toNat < (st []).nports ∧ (2 : Byte).toNat ≤ (st []).nports := by decide +kernel

/-- No change, a change, and each way not to be enabled. -/
theorem witness_LineStateMoves :
    (let l := (st []).latch 1;
      (1 : Byte).toNat < (st []).nports ∧ l.auto = true ∧ (0x6F#8 &&& 0x90 = 0) ∧
      ({ l with code := (0x00#8).extractLsb' 0 4, t2exp := (0x00#8).getLsbD 5, signal := (0x00#8).getLsbD 6 } = l) ∧
      ({ l with code := (0x6F#8).extractLsb' 0 4, t2exp := (0x6F#8).getLsbD 5, signal := (0x6F#8).getLsbD 6 } ≠ l)) ∧
    (st []).nports ≤ (2 : Byte).toNat ∧ ((st [.stForce 0 3 0]).latch 0).auto = false ∧ (0x10#8 &&& 0x90 ≠ 0) ∧
    (0x80#8 &&& 0x90 ≠ 0) := by decide +kernel

theorem witness_PollObservesFlagged :
    let s := st [.lineState 1 0x03]
    s.sched = [] ∧ s.hw.sci.getLsbD 1 = true ∧ s.hw.sci.getLsbD 0 = false ∧
    (∀ p < s.nports, s.hw.sci.getLsbD p = true →
      inVocab (s.port p).mode (s.latch p).code.toNat = true ∧
      ¬ ((s.port p).mode = .nt ∧ (s.latch p).code = 4 ∧ (s.latch p).t2exp = true) ∧
      ¬ ((s.port p).mode = .te ∧ (s.latch p).code = 3 ∧ (s.latch p).signal = true)) := by decide +kernel

/-- An armed timer that is not due, and an alarm that is due at the very tick of its deadline, of a TE port; of an
NT port, the last that is due. -/
theorem witness_SweepPublishes :
    let s := { st [.stStart 1, .lineState 0 0x07, .stObserve 0] with
      card := { (st [.stStart 1, .lineState 0 0x07, .stObserve 0]).card with ticks := 500 } }
    let u := { st [.lineState 1 0x03, .stObserve 1] with
      card := { (st [.lineState 1 0x03, .stObserve 1]).card with ticks := 500 } }
    s.sched = [] ∧ (s.port 1).t1On = true ∧ (s.port 0).alarmtimer = 500 ∧ (s.port 0).newalarm ≠ (s.port 0).alarm ∧
    (∀ p < s.nports, ((s.port p).t1On = true → s.card.ticks < (s.port p).t1Dl) ∧
      ((s.port p).t3On = true → s.card.ticks < (s.port p).t3Dl)) ∧
    u.sched = [] ∧ (u.port 1).mode = .nt ∧ (u.port 1).alarmtimer = 500 ∧ (u.port 1).newalarm ≠ (u.port 1).alarm ∧
    (∀ p < u.nports, ((u.port p).t1On = true → u.card.ticks < (u.port p).t1Dl) ∧
      ((u.port p).t3On = true → u.card.ticks < (u.port p).t3Dl)) ∧ ∀ q < u.nports, ¬ 1 < q := by decide +kernel

/-- T1 of port 1 due at its very deadline; T3 of port 0 likewise. -/
theorem witness_SweepExpiresTimers :
    (let s := { st [.stStart 1] with card := { (st [.stStart 1]).card with ticks := 2000 } };
      s.sched = [] ∧ 0 < s.live.debounceMs ∧ (1 : Byte).toNat < s.nports ∧
      (∀ r < s.nports, (s.port r).newalarm = (s.port r).alarm ∨ s.card.ticks < (s.port r).alarmtimer) ∧
      (∀ r < s.nports, r ≠ 1 → ((s.port r).t1On = true → s.card.ticks < (s.port r).t1Dl) ∧
        ((s.port r).t3On = true → s.card.ticks < (s.port r).t3Dl)) ∧
      (s.port 1).mode = .nt ∧ (s.port 1).t1On = true ∧ (s.port 1).t1Dl ≤ s.card.ticks ∧ (s.port 1).t3On = false) ∧
    (let s := { st [.stStart 0] with card := { (st [.stStart 0]).card with ticks := 500 } };
      s.sched = [] ∧ 0 < s.live.debounceMs ∧ (0 : Byte).toNat < s.nports ∧
      (∀ r < s.nports, (s.port r).newalarm = (s.port r).alarm ∨ s.card.ticks < (s.port r).alarmtimer) ∧
      (∀ r < s.nports, r ≠ 0 → ((s.port r).t1On = true → s.card.ticks < (s.port r).t1Dl) ∧
        ((s.port r).t3On = true → s.card.ticks < (s.port r).t3Dl)) ∧
      (s.port 0).mode = .te ∧ (s.port 0).t3On = true ∧ (s.port 0).t3Dl ≤ s.card.ticks ∧ (s.port 0).t1On = false) := by
  constructor <;> decide +kernel

/-- A command answers a next state of which `g` holds. -/
def nextHas (i : Instr) (s : State) (g : State → Bool) : Bool :=
  match exec i s with
  | .next t => g t
  | _ => false

theorem next_of_nextHas {i : Instr} {s : State} {g : State → Bool} (h : nextHas i s g = true) :
    ∃ t, exec i s = .next t ∧ g t = true := by
  unfold nextHas at h
  split at h
  · exact ⟨_, by assumption, h⟩
  · cases h

/-- The state before the deferred phase in whose sweep the alarm of port 0 is due. -/
def alarmDue : State :=
  let s := st [.lineState 0 0x07, .stObserve 0, .tick, .irqImm]
  { s with card := { s.card with ticks := 499 } }

/-- Scripted states in which an observation changes the pending alarm, and in which the deferred phase publishes
it at the very tick of its deadline. -/
theorem witness_Debounce :
    (∃ t, exec (.stObserve 0) (st [.lineState 0 0x07]) = .next t ∧
      decide ((t.port 0).newalarm ≠ ((st [.lineState 0 0x07]).port 0).newalarm) = true) ∧
    (st [.lineState 0 0x07]).scripted ∧ (st []).neverIssues .irqDef ∧ (st []).neverIssues .irq ∧
    (st []).neverIssues .cardReset ∧ (∀ p < 2, p < (st []).nports) ∧
    (∃ t, exec .irqDef alarmDue = .next t ∧
      decide ((t.port 0).alarm ≠ (alarmDue.port 0).alarm ∧ t.card.ticks = 500) = true) ∧
    alarmDue.scripted ∧ alarmDue.live.debounceMs ≠ 0 ∧ (alarmDue.port 0).alarmtimer = 500 :=
  ⟨next_of_nextHas (by decide +kernel), by decide +kernel, by decide +kernel, by decide +kernel, by decide +kernel,
    by decide +kernel, next_of_nextHas (by decide +kernel), by decide +kernel, by decide +kernel, by decide +kernel⟩

theorem witness_SessionStartEnd :
    (st []).quiet ∧ (st []).cfg.valid = true ∧ (1 : Byte).toNat < (st []).nports ∧ mapped (st []) 1 .d = true ∧
    ((st []).fifo 9).rxRegs.reservedZero ∧ ((st []).fifo 9).txRegs.reservedZero ∧
    State.reset.quiet ∧ mapped State.reset 0 .d = false ∧ (st []).nports ≤ (2 : Byte).toNat := by decide +kernel

theorem witness_SubmitQueuesFrame :
    (let s := st [.hdlcAttach 1]; (1 : Byte).toNat < s.nports ∧ (s.session 1).active = true) ∧
    ((st []).session 1).active = false ∧ ([7] : List Byte) ≠ [] ∧ (st []).nports ≤ (2 : Byte).toNat := by
  decide +kernel

/-- An empty queue; a frame, with a session and without. -/
theorem witness_ReceivePass :
    (let s := st [.hdlcAttach 0];
      s.quiet ∧ s.cfg.valid = true ∧ (0 : Byte).toNat < s.nports ∧ mapped s 0 .d = true ∧
      (s.fifo 8).rxRegs.ctrl.getLsbD 1 = true ∧ (s.fifo 8).rxq = []) ∧
    (let s := st [.hdlcAttach 0, .lineRxframe 8 [1, 2, 0]];
      s.quiet ∧ (s.fifo 8).rxRegs.ctrl.getLsbD 1 = true ∧ (s.fifo 8).rxq = [1, 2, 0] :: [] ∧
      (s.fifo 8).rxpos = 0 ∧ (s.session 0).active = true) ∧
    (let s := st [.lineRxframe 8 [1, 2, 0]];
      s.quiet ∧ mapped s 0 .d = true ∧ (s.fifo 8).rxq = [1, 2, 0] :: [] ∧ (s.session 0).active = false) := by
  decide +kernel

theorem witness_ReceiveDrain :
    let s := st [.hdlcAttach 0, .lineRxframe 8 [1, 2, 0], .lineRxframe 8 [9]]
    s.quiet ∧ s.cfg.valid = true ∧ (0 : Byte).toNat < s.nports ∧ mapped s 0 .d = true ∧
    (s.fifo 8).rxRegs.ctrl.getLsbD 1 = true ∧ (s.fifo 8).rxpos = 0 ∧ (s.session 0).active = true ∧
    (∀ fr ∈ (s.fifo 8).rxq, fr.length < 65536) := by decide +kernel

/-- A frame of exactly one chunk; one of a byte more; no frame. -/
theorem witness_TransmitPass :
    (let s := (bootOf cfgC [.hdlcAttach 0, .hdlcSubmit 0 [1, 2, 3, 4]]).getD State.reset;
      s.quiet ∧ s.cfg.valid = true ∧ (0 : Byte).toNat < s.nports ∧ mapped s 0 .d = true ∧
      (s.fifo 8).txRegs.ctrl.getLsbD 1 = true ∧ (s.fifo 8).txRegs.reservedZero ∧
      (s.session 0).active = true ∧ 0 < (s.session 0).pending ∧ (s.hostPort 0).txq = [1, 2, 3, 4] :: [] ∧
      (s.hostPort 0).txoff < 4 ∧ 4 ≤ (s.hostPort 0).txoff + s.cfg.hdlcCap ∧
      (s.fifo 8).txclosed.length < s.cfg.fmax ∧
      ((s.fifo 8).txclosed.map List.length).sum + (s.fifo 8).txopen.length + (s.fifo 8).btx.length +
        (4 - (s.hostPort 0).txoff) ≤ s.cfg.fifoDepth) ∧
    (let s := (bootOf cfgC [.hdlcAttach 0, .hdlcSubmit 0 [1, 2, 3, 4, 5]]).getD State.reset;
      s.quiet ∧ mapped s 0 .d = true ∧ (s.session 0).active = true ∧ (s.hostPort 0).txq = [1, 2, 3, 4, 5] :: [] ∧
      (s.hostPort 0).txoff + s.cfg.hdlcCap < 5 ∧
      ((s.fifo 8).txclosed.map List.length).sum + (s.fifo 8).txopen.length + (s.fifo 8).btx.length +
        s.cfg.hdlcCap ≤ s.cfg.fifoDepth) ∧
    (let s := st [.hdlcAttach 0];
      s.quiet ∧ mapped s 0 .d = true ∧ (s.hostPort 0).txq = []) := by decide +kernel

/-- Two frames, the first of two passes; no frame. -/
theorem witness_TransmitDrain :
    let s := (bootOf cfgC [.hdlcAttach 0, .hdlcSubmit 0 [0, 1, 2, 3, 4, 5], .hdlcSubmit 0 [6]]).getD State.reset
    s.quiet ∧ s.cfg.valid = true ∧ (0 : Byte).toNat < s.nports ∧ mapped s 0 .d = true ∧
    (s.fifo 8).txRegs.ctrl.getLsbD 1 = true ∧ (s.fifo 8).txRegs.reservedZero ∧ (s.session 0).active = true ∧
    s.backpressure ∧
    ((s.fifo 8).txclosed.map List.length).sum + (s.fifo 8).txopen.length + (s.fifo 8).btx.length +
      ((s.hostPort 0).txq.map List.length).sum - (s.hostPort 0).txoff ≤ s.cfg.fifoDepth ∧
    (s.fifo 8).txclosed.length + (s.hostPort 0).txq.length ≤ s.cfg.fmax ∧
    (s.hostPort 0).txq = [0, 1, 2, 3, 4, 5] :: [[6]] ∧
    (let u := st [.hdlcAttach 0];
      u.quiet ∧ mapped u 0 .d = true ∧ (u.session 0).active = true ∧ u.backpressure ∧
      (u.hostPort 0).txq = []) := by decide +kernel

/-- An enabled deposit and an enabled take. -/
theorem witness_LineFrames :
    let s := st [.fifoSel 8 0, .regWr 0x0A 1]
    let x := s.fifo 8
    s.cfg.valid = true ∧ (8 : Byte).toNat < 32 ∧ x.rxRegs.ctrl.getLsbD 2 = true ∧ x.rxRegs.ctrl.getLsbD 1 = true ∧
    ([7] : List Byte) ≠ [] ∧ x.rxq.length < s.cfg.fmax ∧ (x.rxq.map List.length).sum + x.brx.length + 1 ≤ s.cfg.fifoDepth ∧
    x.txRegs.ctrl.getLsbD 2 = true ∧ x.txRegs.ctrl.getLsbD 1 = true ∧ (x.txclosed ≠ [] ∨ x.txopen ≠ []) := by
  decide +kernel

theorem witness_SubmittedFrameReachesLine :
    let s := st [.hdlcAttach 1]
    s.quiet ∧ s.cfg.valid = true ∧ (1 : Byte).toNat < s.nports ∧ mapped s 1 .d = true ∧
    (s.fifo 9).txRegs.ctrl.getLsbD 1 = true ∧ (s.fifo 9).txRegs.reservedZero ∧ (s.session 1).active = true ∧
    (s.session 1).pending = 0 ∧ (s.hostPort 1).txq = [] ∧ (s.hostPort 1).txoff = 0 ∧ (s.fifo 9).txclosed = [] ∧
    (s.fifo 9).txopen = [] ∧ (List.replicate 64 (0x7E : Byte)) ≠ [] ∧
    (s.fifo 9).btx.length + (List.replicate 64 (0x7E : Byte)).length ≤ s.cfg.fifoDepth ∧ 1 ≤ s.cfg.fmax := by decide +kernel

/-- One byte less than a chunk; exactly a chunk; a role not mapped; a port outside the card. -/
theorem witness_ChunkExchange :
    (let s := st [.lineBrx 3 [1, 2, 3, 4, 5, 6, 7]];
      s.quiet ∧ s.cfg.valid = true ∧ (1 : Byte).toNat < s.nports ∧ mapped s 1 .b2 = true ∧
      (s.fifo 3).rxRegs.ctrl.getLsbD 1 = false ∧ (s.fifo 3).txRegs.ctrl.getLsbD 1 = false ∧
      (s.hostPort 1).txbufB2.length = s.cfg.chunk ∧ min (s.fifo 3).brx.length 65535 < s.cfg.chunk) ∧
    (let s := st [.lineBrx 3 [1, 2, 3, 4, 5, 6, 7, 8]];
      s.cfg.chunk ≤ min (s.fifo 3).brx.length 65535 ∧ ((s.fifo 3).txclosed.map List.length).sum + (s.fifo 3).txopen.length +
        (s.fifo 3).btx.length + s.cfg.chunk ≤ s.cfg.fifoDepth) ∧
    State.reset.quiet ∧ mapped State.reset 0 .b2 = false ∧ (st []).nports ≤ (2 : Byte).toNat := by decide +kernel

theorem witness_PumpCouplesDirections :
    let s := st [.stStart 0, .lineBrx 0 [1, 2, 3, 4, 5, 6, 7, 8]]
    s.quiet ∧ s.cfg.valid = true ∧ s.reservedZero ∧ s.chunkBuffers ∧ (s.port 0).spanRunning = true ∧
    (∀ p < s.nports, (s.port p).spanRunning = true → ∀ role, role ≠ .d →
      mapped s p role = true ∧ (s.fifo (fifoOf s.cfg p role)).rxRegs.ctrl.getLsbD 1 = false ∧
      (s.fifo (fifoOf s.cfg p role)).txRegs.ctrl.getLsbD 1 = false ∧
      (s.fifo (fifoOf s.cfg p role)).txStored + s.cfg.chunk ≤ s.cfg.fifoDepth) ∧
    (∀ q < s.nports, 0 < q → (s.port q).spanRunning = false) ∧
    (s.fifo 0).brx.length = s.cfg.chunk ∧ (s.fifo 1).brx = [] := by
  refine ⟨by decide +kernel, by decide +kernel, by decide +kernel, by decide +kernel, by decide +kernel, ?_,
    by decide +kernel, by decide +kernel, by decide +kernel⟩
  intro p hp hr
  refine forall_role ⟨fun _ => ?_, fun _ => ?_, fun h => absurd rfl h⟩ <;> revert p <;> decide +kernel

theorem witness_HostBearerCalls :
    (1 : Byte).toNat < (st []).nports ∧ (List.replicate 8 (1 : Byte)).length = (st []).cfg.chunk ∧
    (List.replicate 7 (1 : Byte)).length ≠ (st []).cfg.chunk ∧ (List.replicate 9 (1 : Byte)).length ≠ (st []).cfg.chunk ∧
    (st []).nports ≤ (2 : Byte).toNat ∧ ((2 : Byte) ≠ 0 ∧ (2 : Byte) ≠ 1) ∧ (1 : Byte) ≠ 0 := by decide +kernel

/-- An arrival that fills the FIFO, a departure that empties it, a FIFO with its interrupt enabled; none of
them. -/
theorem witness_LineBearerSteps :
    (let s := st [.fifoSel 0 0, .regWr 0x0A 1];
      let x := s.fifo 0;
      s.cfg.valid = true ∧ (0 : Byte).toNat < 32 ∧ x.rxRegs.ctrl.getLsbD 2 = true ∧ x.rxRegs.ctrl.getLsbD 1 = false ∧
      (List.replicate 64 (1 : Byte)) ≠ [] ∧ (x.rxq.map List.length).sum + x.brx.length + (List.replicate 64 (1 : Byte)).length ≤
        s.cfg.fifoDepth ∧
      x.txRegs.ctrl.getLsbD 2 = true ∧ x.txRegs.ctrl.getLsbD 1 = false ∧ (1 : Byte) ≠ 0 ∧
      (1 : Byte).toNat ≤ x.btx.length ∧ x.rxRegs.ctrl.getLsbD 0 = true ∧ x.txRegs.ctrl.getLsbD 0 = false) ∧
    ((2 : Byte) ≠ 0 ∧ (2 : Byte) ≠ 1) ∧ ¬ (32 : Byte).toNat < 32 := by decide +kernel

theorem witness_TickSetsBit :
    (st []).hw.tickCtrl.getLsbD 0 = true ∧ (st [.tick]).hw.tickCtrl.getLsbD 0 = true ∧
    (st []).hw.tickCtrl.getLsbD 1 = true ∧ (st [.tick]).hw.miscStat.getLsbD 1 = true ∧ State.reset.hw.tickCtrl.getLsbD 0 = false := by decide +kernel

theorem witness_ForeignInterrupt :
    let s := st [.lineBusy 1]
    s.sched = [] ∧ (∀ b < 8, s.fifoStat b = 0) ∧ s.hw.miscStat = 0 := by decide +kernel

/-- A FIFO bit alone; the tick with no span running; the tick with one running, where the pump completes. -/
theorem witness_ImmediateAccumulates :
    (let s := st [.lineFifoirq 0 1];
      s.quiet ∧ s.hw.fifoStat ≠ Vector.replicate 8 0 ∧ s.hw.miscStat.getLsbD 1 = false) ∧
    (let s := st [.tick];
      s.quiet ∧ s.hw.miscStat ≠ 0 ∧ s.hw.miscStat.getLsbD 1 = true ∧ s.hw.fifoSel &&& 0x60 = 0 ∧
      ∀ p < s.nports, (s.port p).spanRunning = false) ∧
    (let s := st [.stStart 0, .tick];
      s.quiet ∧ s.hw.miscStat.getLsbD 1 = true ∧ ∃ t : State, exec .bpPump { s with
        card := { s.card with
          fifoAcc := Vector.zipWith (fun x y => x ||| y) s.card.fifoAcc s.hw.fifoStat
          miscAcc := s.card.miscAcc ||| s.hw.miscStat }
        hw := { s.hw with fifoStat := Vector.replicate 8 0, miscStat := 0 } } = .next (t.answered (.value 0))) :=
  ⟨by decide +kernel, by decide +kernel, by decide +kernel, by decide +kernel,
    answered_of_answersWith (by decide +kernel)⟩

theorem witness_ImmediateKeepsBits :
    (st [.lineFifoirq 0 1]).neverIssues .cardReset ∧ ∃ t, exec .irqImm (st [.lineFifoirq 0 1]) = .next t :=
  ⟨by decide +kernel, next_of_completes (by decide +kernel)⟩

/-- A bearer bit pending in the accumulators and nothing else. -/
theorem witness_DeferredReportsUnexpected :
    let s := st [.lineFifoirq 0 1, .irqImm]
    s.scripted ∧ s.cfg.valid = true ∧ accBit 0 .rx s = true ∧
    (∀ f < 32, isD s.cfg f = true → ∀ d, accBit f d s = false) ∧ s.card.miscAcc.getLsbD 1 = false ∧
    (∀ p < s.nports, (s.session p).pending = 0) := by
  refine ⟨by decide +kernel, by decide +kernel, by decide +kernel, ?_, by decide +kernel, by decide +kernel⟩
  intro f hf hd
  refine forall_dir ⟨?_, ?_⟩ <;> revert f <;> decide +kernel

/-- Accumulator bits of port 1's D FIFO, 9, and outstanding frames on both ports: a transmit bit, whose pass leaves
more and whose pass does not; a receive bit; no bit at all, with one port and with two ports to drain. -/
theorem witness_DeferredDrains :
    (let s := (bootOf cfgC [.hdlcAttach 1, .hdlcSubmit 1 [1, 2, 3, 4, 5], .lineFifoirq 9 0, .irqImm]).getD State.reset;
      s.quiet ∧ s.cfg.valid = true ∧ (1 : Byte).toNat < s.nports ∧ (∀ g < 9, ∀ d, accBit g d s = false) ∧
      accBit 9 .tx s = true ∧ s.backpressure ∧
      ∃ t : State, exec (.hdlcTxchunk 1) (s.setFifoAcc 2 (s.fifoAcc 2 &&& ~~~ 0x04)) =
        .next (t.answered (.value 1))) ∧
    (let s := st [.hdlcAttach 1, .hdlcSubmit 1 [1], .lineFifoirq 9 0, .irqImm];
      s.quiet ∧ accBit 9 .tx s = true ∧ s.backpressure ∧
      ∃ t : State, exec (.hdlcTxchunk 1) (s.setFifoAcc 2 (s.fifoAcc 2 &&& ~~~ 0x04)) =
        .next (t.answered (.value 0))) ∧
    (let s := st [.hdlcAttach 1, .lineRxframe 9 [1, 2, 0], .irqImm];
      s.quiet ∧ accBit 9 .tx s = false ∧ accBit 9 .rx s = true ∧
      ∃ t : State, exec (.hdlcRxdrain 1) (s.setFifoAcc 2 (s.fifoAcc 2 &&& ~~~ 0x08)) =
        .next (t.answered (.value 1))) ∧
    (let s := st [.hdlcAttach 0, .hdlcAttach 1, .hdlcSubmit 0 [1], .hdlcSubmit 1 [2]];
      s.quiet ∧ (∀ b < 8, s.fifoAcc b = 0) ∧ s.card.miscAcc.getLsbD 1 = false ∧ 0 < (s.session 0).pending ∧
      (∀ q < 0, (s.session q).pending = 0) ∧ 0 < (s.session 1).pending ∧
      ∃ t : State, exec (.hdlcTxdrain 0) s = .next (t.answered (.value 1)) ∧ (t.session 0).pending = 0) ∧
    (let s := st [.hdlcAttach 1, .hdlcSubmit 1 [2]];
      s.quiet ∧ (∀ b < 8, s.fifoAcc b = 0) ∧ s.card.miscAcc.getLsbD 1 = false ∧ 0 < (s.session 1).pending ∧
      (∀ q < 1, (s.session q).pending = 0) ∧ (∀ q < s.nports, q ≠ 1 → (s.session q).pending = 0) ∧
      ∃ t : State, exec (.hdlcTxdrain 1) s = .next (t.answered (.value 1))) := by
  refine ⟨⟨by decide +kernel, by decide +kernel, by decide +kernel, ?_, by decide +kernel, by decide +kernel,
    answered_of_answersWith (by decide +kernel)⟩, ⟨by decide +kernel, by decide +kernel, by decide +kernel,
    answered_of_answersWith (by decide +kernel)⟩, ⟨by decide +kernel, by decide +kernel, by decide +kernel,
    answered_of_answersWith (by decide +kernel)⟩, ⟨by decide +kernel, by decide +kernel, by decide +kernel,
    by decide +kernel, by decide +kernel, by decide +kernel, ?_⟩, by decide +kernel, by decide +kernel,
    by decide +kernel, by decide +kernel, by decide +kernel, by decide +kernel,
    answered_of_answersWith (by decide +kernel)⟩
  · intro g hg
    refine forall_dir ⟨?_, ?_⟩ <;> revert g <;> decide +kernel
  · obtain ⟨t, ht, h⟩ := answered_with (i := .hdlcTxdrain 0) (r := .value 1)
      (s := st [.hdlcAttach 0, .hdlcAttach 1, .hdlcSubmit 0 [1], .hdlcSubmit 1 [2]])
      (g := fun t => decide ((t.session 0).pending = 0)) (by decide +kernel)
    exact ⟨t, ht, of_decide_eq_true h⟩

/-- The state before the deferred phase of tick 100, at which the poll is due, port 1 flagged with the code of
`sta`. -/
def pollDueWith (sta : Byte) : State :=
  let s := st [.lineState 1 sta, .tick, .irqImm]
  { s with card := { s.card with ticks := 99 } }

/-- A span running and an alarm pending, each due one tick later; a poll due, that completes and that meets a
code outside the vocabulary. -/
theorem witness_DeferredServesTick :
    (let s := st [.stStart 1, .tick, .irqImm];
    s.scripted ∧ s.cfg.valid = true ∧ s.card.miscAcc.getLsbD 1 = true ∧ (∀ b < 8, s.fifoAcc b = 0) ∧
    (∀ p < s.nports, (s.session p).pending = 0) ∧ (s.port 1).t1On = true ∧
    (∀ p < s.nports, ((s.port p).t1On = true → s.card.ticks + 1 < (s.port p).t1Dl) ∧
      ((s.port p).t3On = true → s.card.ticks + 1 < (s.port p).t3Dl) ∧
      ((s.port p).newalarm = (s.port p).alarm ∨ s.card.ticks + 1 < (s.port p).alarmtimer)) ∧
    (s.card.ticks + 1) % s.cfg.pollTicks ≠ 0 ∧
    ∃ t : State, exec .stSweep { s with card := { s.card with ticks := s.card.ticks + 1 } } =
      .next (t.answered .ok)) ∧
    (let s := pollDueWith 0x03;
    s.scripted ∧ s.card.miscAcc.getLsbD 1 = true ∧ (∀ b < 8, s.fifoAcc b = 0) ∧
    (∀ p < s.nports, (s.session p).pending = 0) ∧ (s.card.ticks + 1) % s.cfg.pollTicks = 0 ∧
    ∃ t : State, exec .stSweep { s with card := { s.card with ticks := s.card.ticks + 1 } } =
      .next (t.answered .ok) ∧ ∃ u : State, exec .stPoll t = .next (u.answered .ok)) ∧
    (let s := pollDueWith 0x05;
    ∃ t : State, exec .stSweep { s with card := { s.card with ticks := s.card.ticks + 1 } } =
      .next (t.answered .ok) ∧ faultsAfter (some t) .stPoll .stBadCode = true) := by
  refine ⟨?_, ?_, ?_⟩
  · exact ⟨by decide +kernel, by decide +kernel, by decide +kernel, by decide +kernel, by decide +kernel,
      by decide +kernel, by decide +kernel, by decide +kernel, answered_of_answersWith (by decide +kernel)⟩
  · refine ⟨by decide +kernel, by decide +kernel, by decide +kernel, by decide +kernel, by decide +kernel, ?_⟩
    obtain ⟨t, ht, h⟩ := answered_with (i := .stSweep) (r := .ok)
      (s := { pollDueWith 0x03 with card := { (pollDueWith 0x03).card with ticks := 100 } })
      (g := fun t => answersWith .stPoll t .ok) (by decide +kernel)
    exact ⟨t, ht, answered_of_answersWith h⟩
  · exact answered_with (i := .stSweep) (r := .ok) (g := fun t => faultsAfter (some t) .stPoll .stBadCode)
      (s := { pollDueWith 0x05 with card := { (pollDueWith 0x05).card with ticks := 100 } }) (by decide +kernel)

/-- Not the card's; the card's, with both phases; a phase that a host operation's `ModelFault` stops. -/
theorem witness_InterruptRunsBothPhases :
    (∃ t : State, exec .irqImm (st []) = .next (t.answered .notMine)) ∧
    (∃ t u : State, exec .irqImm (st [.tick]) = .next (t.answered .handled) ∧ (st [.tick]).scripted ∧
      exec .irqDef t = .next (u.answered .ok)) ∧
    faultsAfter (some { st [.tick] with sched := [[.issue (.ecReq 2 0 0)]] }) .irqImm .badOperand = true := by
  refine ⟨answered_of_answersWith (by decide +kernel), ?_, by decide +kernel⟩
  obtain ⟨t, ht, h⟩ := answered_with (i := .irqImm) (s := st [.tick]) (r := .handled)
    (g := fun t => answersWith .irqDef t .ok) (by decide +kernel)
  obtain ⟨u, hu⟩ := answered_of_answersWith h
  exact ⟨t, u, ht, by decide +kernel, hu⟩

theorem witness_InterruptServesTick :
    let s := st [.tick]
    s.scripted ∧ s.hw.busy = false ∧ s.cfg.valid = true ∧ s.hw.miscStat = 0x02 ∧ s.card.miscAcc = 0 ∧
    (∀ b < 8, s.fifoStat b = 0 ∧ s.fifoAcc b = 0) ∧ s.hw.fifoSel &&& 0x60 = 0 ∧
    (∀ p < s.nports, (s.session p).pending = 0 ∧ (s.port p).spanRunning = false ∧
      ((s.port p).t1On = true → s.card.ticks + 1 < (s.port p).t1Dl) ∧
      ((s.port p).t3On = true → s.card.ticks + 1 < (s.port p).t3Dl) ∧
      ((s.port p).newalarm = (s.port p).alarm ∨ s.card.ticks + 1 < (s.port p).alarmtimer)) ∧
    (s.card.ticks + 1) % s.cfg.pollTicks ≠ 0 := by decide +kernel

/-- A card with a scheduled interrupt, and one without. -/
theorem witness_TicksServedOncePerPhase :
    (∃ t, exec .irq (st [.tick]) = .next t) ∧ Instr.irq ≠ .cardReset ∧ (st [.tick]).neverIssues .cardReset ∧
    (st [.tick]).neverIssues .irqDef ∧ (st [.tick]).neverIssues .irq ∧
    (let s : State := { st [.tick] with sched := [[.issue .irq]] };
      s.neverIssues .cardReset ∧ ∃ t, exec .fmMapall s = .next t ∧ decide (t.card.ticks = 1) = true) :=
  ⟨next_of_completes (by decide +kernel), by simp, by decide +kernel, by decide +kernel, by decide +kernel,
    by decide +kernel, next_of_nextHas (by decide +kernel)⟩

theorem witness_CardStartStop : State.reset.sched = [] := by decide +kernel

theorem witness_CommandsAnswerOnce :
    (∃ t, exec .fmMapall State.reset = .next t) ∧ Instr.fmMapall ≠ .cardReset ∧
    State.reset.neverIssues .cardReset :=
  ⟨next_of_completes (by decide +kernel), by simp, by decide +kernel⟩

theorem witness_LogsAppendOnly :
    (∃ t, exec (.hdlcRxframe 0) (st [.hdlcAttach 0, .lineRxframe 8 [0]]) = .next t) ∧
    Instr.hdlcRxframe 0 ≠ .cardReset ∧ (st [.hdlcAttach 0]).neverIssues .cardReset :=
  ⟨next_of_completes (by decide +kernel), by simp, by decide +kernel⟩

theorem witness_PortsIsolated :
    (st [.lineState 0 0x07]).sched = [] ∧ (1 : Nat) < 8 ∧ 1 ≠ (0 : Byte).toNat ∧
    ∃ t, exec (.stObserve 0) (st [.lineState 0 0x07]) = .next t :=
  ⟨by decide +kernel, by decide, by decide, next_of_completes (by decide +kernel)⟩

/-- A good state about to run a command, its alarms as reported. -/
theorem witness_GoodStatesStayGood :
    let s := { st [.hdlcAttach 0, .hdlcSubmit 0 [1, 2]] with script := { words := [0x36000000], pc := 0, results := [] } }
    s.good ∧ s.alarmsReported ∧ ∃ t, step s = .next t := by
  refine ⟨⟨by decide +kernel, by decide +kernel, by decide +kernel, by decide +kernel, by decide +kernel,
    by decide +kernel, by decide +kernel⟩, by decide +kernel, ?_⟩
  have h : (match step { st [.hdlcAttach 0, .hdlcSubmit 0 [1, 2]] with
      script := { words := [0x36000000], pc := 0, results := [] } } with
    | .next _ => true
    | _ => false) = true := by decide +kernel
  split at h
  · exact ⟨_, by assumption⟩
  · cases h

end Sys2Proof.Tests
end

/-! PROOFS of the statements about the encoding (30_encoding.md): the decoder's failures, one lemma for each
of its parts. -/

namespace Sys2Proof.Encoding

open Sys2Proof Sys2Proof.Machine

/-! ### The opcode table by format (30_encoding.md R63) -/

/-- The format of an opcode, if the table has a row for it. -/
def opFormat (op : Byte) : Option Format := (opRow op).map fun r => r.2.2.1

/-- The opcodes that the table lists with a format. -/
def opcodesOf (fmt : Format) : List Byte := (opTable.filter fun r => r.2.2.1 = fmt).map fun r => r.1

theorem opTable_opcodes_nodup : (opTable.map fun r => r.1).Nodup := by decide

theorem opRow_eq_some_iff {op : Byte} {r : OpRow} : opRow op = some r ↔ r ∈ opTable ∧ r.1 = op := by
  constructor
  · intro h
    exact ⟨List.mem_of_find?_eq_some h, by simpa using List.find?_some h⟩
  · rintro ⟨hr, rfl⟩
    obtain ⟨r', hr'⟩ : ∃ r', opRow r.1 = some r' :=
      Option.isSome_iff_exists.mp (List.find?_isSome.mpr ⟨r, hr, by simp⟩)
    have hkey : r'.1 = r.1 := by simpa using List.find?_some hr'
    rw [hr', List.inj_on_of_nodup_map opTable_opcodes_nodup (List.mem_of_find?_eq_some hr') hr hkey]

theorem opFormat_eq_some_iff {op : Byte} {fmt : Format} : opFormat op = some fmt ↔ op ∈ opcodesOf fmt := by
  simp only [opFormat, opcodesOf, Option.map_eq_some_iff, opRow_eq_some_iff, List.mem_map, List.mem_filter,
    decide_eq_true_eq]
  constructor
  · rintro ⟨r, ⟨hr, hop⟩, hfmt⟩
    exact ⟨r, ⟨hr, hfmt⟩, hop⟩
  · rintro ⟨r, ⟨hr, hfmt⟩, hop⟩
    exact ⟨r, ⟨hr, hop⟩, hfmt⟩

theorem opcodesOf_n :
    opcodesOf .n = [0x15, 0x24, 0x25, 0x26, 0x41, 0x50, 0x51, 0x52, 0x53, 0x70, 0x71, 0x72] := rfl

theorem opcodesOf_a :
    opcodesOf .a = [0x06, 0x07, 0x14, 0x20, 0x22, 0x23, 0x30, 0x31, 0x33, 0x34, 0x35, 0x36, 0x38] := rfl

theorem opcodesOf_ab :
    opcodesOf .ab = [0x01, 0x10, 0x11, 0x13, 0x27, 0x28, 0x40, 0x44, 0x46] := rfl

theorem opcodesOf_abc : opcodesOf .abc = [0x03, 0x12, 0x21, 0x45] := rfl

theorem opcodesOf_ac : opcodesOf .ac = [0x02, 0x05] := rfl

theorem opcodesOf_x : opcodesOf .x = [0x04] := rfl

theorem opcodesOf_p : opcodesOf .p = [0x32, 0x37, 0x43] := rfl

theorem opcodesOf_pb : opcodesOf .pb = [0x42] := rfl

/-- A property of some format, format by format. -/
theorem exists_format {P : Format → Prop} :
    (∃ fmt, P fmt) ↔ P .n ∨ P .a ∨ P .ab ∨ P .abc ∨ P .ac ∨ P .x ∨ P .p ∨ P .pb := by
  constructor
  · rintro ⟨fmt, h⟩
    cases fmt <;> simp only [h, true_or, or_true]
  · rintro (h | h | h | h | h | h | h | h) <;> exact ⟨_, h⟩

/-! ### Masks of a word and its fields (30_encoding.md R60, R61) -/

theorem toNat_and_halfword (w : Word) : (w &&& 0x0000FFFF).toNat = (w.extractLsb' 0 16).toNat := by
  simpa using Nat.and_two_pow_sub_one_eq_mod w.toNat 16

theorem toNat_and_byte (w : Word) : (w &&& 0x000000FF).toNat = (w.extractLsb' 0 8).toNat := by
  simpa using Nat.and_two_pow_sub_one_eq_mod w.toNat 8

/-- Bits 31:8 of a word are zero as a field exactly when they are zero under their mask. -/
theorem extract_high_eq_zero_iff (v : Word) : v.extractLsb' 8 24 = 0 ↔ v &&& 0xFFFFFF00 = 0 := by
  have hsplit : v = v.extractLsb' 8 24 ++ v.extractLsb' 0 8 := by
    rw [BitVec.extractLsb'_append_extractLsb'_eq_extractLsb' (by rfl)]
    simp
  have hmask : v &&& 0xFFFFFF00 = v.extractLsb' 8 24 ++ 0#8 := by
    rw [show (0xFFFFFF00 : Word) = BitVec.allOnes 24 ++ 0#8 by decide]
    conv_lhs => rw [hsplit, BitVec.and_append, BitVec.and_allOnes, BitVec.and_zero]
  rw [hmask]
  exact (BitVec.append_left_inj (s₂ := 0#24) 0#8).symm

/-! ### The payload (30_encoding.md R61, R64) -/

/-- Byte `k` of a list of words, four bytes to a word. -/
def payloadByte (ws : List Word) (k : Nat) : Byte := (ws[k / 4]?.getD 0).extractLsb' (8 * (k % 4)) 8

/-- The words after word 0 are no payload of `n` bytes: too few, or a padding byte is not zero. -/
def BadPayload (n : Nat) (ws : List Word) : Prop :=
  ws.length < payloadWords n ∨ ∃ k, n ≤ k ∧ k < 4 * payloadWords n ∧ payloadByte ws k ≠ 0

@[simp] theorem length_wordBytes (w : Word) : (wordBytes w).length = 4 := rfl

@[simp] theorem length_flatMap_wordBytes (ws : List Word) : (ws.flatMap wordBytes).length = 4 * ws.length := by
  simp [List.length_flatMap, Nat.mul_comm]

theorem getElem_wordBytes (w : Word) {k : Nat} (hk : k < (wordBytes w).length) :
    (wordBytes w)[k] = w.extractLsb' (8 * k) 8 := by
  match k, hk with
  | 0, _ | 1, _ | 2, _ | 3, _ => rfl

theorem getElem_flatMap_wordBytes (ws : List Word) {k : Nat} (hk : k < (ws.flatMap wordBytes).length) :
    (ws.flatMap wordBytes)[k] = payloadByte ws k := by
  induction ws generalizing k with
  | nil => simp at hk
  | cons w ws ih =>
    simp only [List.flatMap_cons]
    by_cases h : k < 4
    · rw [List.getElem_append_left (by simpa using h), getElem_wordBytes]
      simp [payloadByte, Nat.div_eq_of_lt h, Nat.mod_eq_of_lt h]
    · obtain ⟨j, rfl⟩ : ∃ j, k = j + 4 := ⟨k - 4, by omega⟩
      rw [List.getElem_append_right (by simp), ih]
      simp [payloadByte]

theorem takePayload_of_lt {n : Nat} {ws : List Word} (h : ws.length < payloadWords n) :
    takePayload n ws = .error .truncated := by
  simp [takePayload, h]

theorem payloadByte_take {m k : Nat} (ws : List Word) (hk : k < 4 * m) :
    payloadByte (ws.take m) k = payloadByte ws k := by
  rw [payloadByte, payloadByte, List.getElem?_take_of_lt (by omega)]

/-- The bytes past the first `n` are all zero. -/
theorem drop_all_zero_iff (bytes : List Byte) (n : Nat) :
    (bytes.drop n).all (fun b => b == 0) = true ↔ ∀ k, n ≤ k → ∀ hk : k < bytes.length, bytes[k] = 0 := by
  simp only [List.all_eq_true, List.mem_drop_iff_getElem, beq_iff_eq]
  constructor
  · intro h k hn hk
    exact h _ ⟨k - n, by omega, by simp [Nat.add_sub_cancel' hn]⟩
  · rintro h _ ⟨j, hj, rfl⟩
    exact h _ (by omega) _

/-- Enough words for `n` bytes hold no payload exactly when a padding byte is not zero. -/
theorem takePayload_error_iff_of_le {n : Nat} {ws : List Word} (h : payloadWords n ≤ ws.length) :
    (∃ e, takePayload n ws = .error e) ↔ ∃ k, n ≤ k ∧ k < 4 * payloadWords n ∧ payloadByte ws k ≠ 0 := by
  have hlen : (ws.take (payloadWords n)).length = payloadWords n := by simp [h]
  have herr : (∃ e, takePayload n ws = .error e) ↔
      ¬ ((((ws.take (payloadWords n)).flatMap wordBytes).drop n).all fun b => b == 0) = true := by
    simp only [takePayload, hlen, Nat.lt_irrefl, if_false]
    split
    · next hz => simpa using hz
    · next hz => simpa using hz
  rw [herr, drop_all_zero_iff]
  simp only [getElem_flatMap_wordBytes, length_flatMap_wordBytes, hlen]
  push Not
  refine exists_congr fun k => and_congr_right fun _ => ?_
  exact and_congr_right fun hk => by rw [payloadByte_take ws hk]

theorem takePayload_error_iff {n : Nat} {ws : List Word} :
    (∃ e, takePayload n ws = .error e) ↔ BadPayload n ws := by
  by_cases h : ws.length < payloadWords n
  · simp [BadPayload, takePayload_of_lt h, h]
  · rw [takePayload_error_iff_of_le (by omega), BadPayload, or_iff_right h]

/-! ### The operands, format by format (30_encoding.md R60, R64) -/

theorem takeOperands_x_error_iff {w : Word} {rest : List Word} :
    (∃ e, takeOperands .x w rest = .error e) ↔
      rest = [] ∨ ∃ v more, rest = v :: more ∧ v &&& 0xFFFFFF00 ≠ 0 := by
  cases rest with
  | nil => simp [takeOperands]
  | cons v more =>
    by_cases hv : v.extractLsb' 8 24 = 0
    · have hm : v &&& 0xFFFFFF00 = 0 := (extract_high_eq_zero_iff v).mp hv
      simp only [takeOperands, if_pos hv]
      simpa using hm
    · have hm : v &&& 0xFFFFFF00 ≠ 0 := mt (extract_high_eq_zero_iff v).mpr hv
      simp only [takeOperands, if_neg hv]
      simpa using hm

/-- In the two payload formats the operands fail as the payload does. -/
theorem takeOperands_payload_error_iff {fmt : Format} (hfmt : fmt = .p ∨ fmt = .pb) {w : Word}
    {rest : List Word} : (∃ e, takeOperands fmt w rest = .error e) ↔ BadPayload (fmt.byteCount w) rest := by
  rw [← takePayload_error_iff]
  cases hbytes : takePayload (fmt.byteCount w) rest <;>
    obtain rfl | rfl := hfmt <;> simp [takeOperands, hbytes]

theorem takeOperands_p_error_iff {w : Word} {rest : List Word} :
    (∃ e, takeOperands .p w rest = .error e) ↔ BadPayload (w &&& 0x0000FFFF).toNat rest := by
  rw [takeOperands_payload_error_iff (.inl rfl), toNat_and_halfword, Format.byteCount]

theorem takeOperands_pb_error_iff {w : Word} {rest : List Word} :
    (∃ e, takeOperands .pb w rest = .error e) ↔ BadPayload (w &&& 0x000000FF).toNat rest := by
  rw [takeOperands_payload_error_iff (.inr rfl), toNat_and_byte, Format.byteCount]

/-! ### The decoder and the step (30_encoding.md R64) -/

/-- A command whose opcode has the format `fmt` breaks the format: a must-be-zero field is not zero, or its
operands fail. -/
def Breaks (fmt : Format) (w : Word) (rest : List Word) : Prop :=
  w &&& fmt.mustBeZero ≠ 0 ∨ ∃ e, takeOperands fmt w rest = .error e

theorem breaks_n_iff {w : Word} {rest : List Word} : Breaks .n w rest ↔ w &&& 0x00FFFFFF ≠ 0 := by
  simp [Breaks, takeOperands, Format.mustBeZero]

theorem breaks_a_iff {w : Word} {rest : List Word} : Breaks .a w rest ↔ w &&& 0x0000FFFF ≠ 0 := by
  simp [Breaks, takeOperands, Format.mustBeZero]

theorem breaks_ab_iff {w : Word} {rest : List Word} : Breaks .ab w rest ↔ w &&& 0x000000FF ≠ 0 := by
  simp [Breaks, takeOperands, Format.mustBeZero]

theorem not_breaks_abc {w : Word} {rest : List Word} : ¬ Breaks .abc w rest := by
  simp [Breaks, takeOperands, Format.mustBeZero]

theorem breaks_ac_iff {w : Word} {rest : List Word} : Breaks .ac w rest ↔ w &&& 0x0000FF00 ≠ 0 := by
  simp [Breaks, takeOperands, Format.mustBeZero]

theorem breaks_x_iff {w : Word} {rest : List Word} :
    Breaks .x w rest ↔ rest = [] ∨ ∃ v more, rest = v :: more ∧ v &&& 0xFFFFFF00 ≠ 0 := by
  rw [Breaks, takeOperands_x_error_iff, or_iff_right (by simp [Format.mustBeZero])]

theorem breaks_p_iff {w : Word} {rest : List Word} :
    Breaks .p w rest ↔ BadPayload (w &&& 0x0000FFFF).toNat rest := by
  rw [Breaks, takeOperands_p_error_iff, or_iff_right (by simp [Format.mustBeZero])]

theorem breaks_pb_iff {w : Word} {rest : List Word} :
    Breaks .pb w rest ↔ BadPayload (w &&& 0x000000FF).toNat rest := by
  rw [Breaks, takeOperands_pb_error_iff, or_iff_right (by simp [Format.mustBeZero])]

theorem decode_cons_error_iff {w : Word} {rest : List Word} :
    (∃ e, decode (w :: rest) = .error e) ↔
      (¬ ∃ fmt, opFormat (fieldOp w) = some fmt) ∨
      ∃ fmt, opFormat (fieldOp w) = some fmt ∧ Breaks fmt w rest := by
  cases hrow : opRow (fieldOp w) with
  | none => simp [decode, opFormat, hrow]
  | some r =>
    obtain ⟨op, name, fmt, build⟩ := r
    by_cases hz : w &&& fmt.mustBeZero = 0
    · cases ho : takeOperands fmt w rest <;> simp [decode, opFormat, Breaks, hrow, hz, ho]
    · simp only [decode, hrow, if_neg hz, opFormat, Breaks]
      simpa using Or.inl hz

theorem takePayload_ne_noWord (n : Nat) (ws : List Word) : takePayload n ws ≠ .error .noWord := by
  simp only [takePayload]
  split
  · simp
  · split <;> simp

theorem takeOperands_ne_noWord (fmt : Format) (w : Word) (rest : List Word) :
    takeOperands fmt w rest ≠ .error .noWord := by
  cases fmt with
  | n | a | ab | abc | ac => simp [takeOperands]
  | x =>
    cases rest with
    | nil => simp [takeOperands]
    | cons v more =>
      simp only [takeOperands]
      split <;> simp
  | p | pb =>
    have h := takePayload_ne_noWord
    simp only [takeOperands]
    split
    · simp
    · next he =>
      rintro ⟨⟩
      exact h _ _ he

/-- Only the end of the script has no word to decode. -/
theorem decode_cons_ne_noWord (w : Word) (rest : List Word) : decode (w :: rest) ≠ .error .noWord := by
  have h := takeOperands_ne_noWord
  simp only [decode]
  split
  · simp
  · split
    · split
      · simp
      · next he =>
        rintro ⟨⟩
        exact h _ _ _ he
    · simp

/-- Words that do not decode are executed as `ILLEGAL_OP`. -/
theorem step_eq_illegalOp {s : State} {w : Word} {rest : List Word}
    (hs : s.script.words.drop s.script.pc = w :: rest) (h : ∃ e, decode (w :: rest) = .error e) :
    step s = .fault .illegalOp := by
  obtain ⟨e, he⟩ := h
  have hne : e ≠ .noWord := by
    rintro rfl
    exact decode_cons_ne_noWord w rest he
  cases e <;> simp_all [step, fetch]

/-- Settles O4: the failures of the decoder, collected format by format. -/
theorem illegalCommandsFault : Obligations.IllegalCommandsFault := by
  unfold Obligations.IllegalCommandsFault
  intro w rest op fmtN fmtA fmtAB fmtABC fmtAC fmtP badPayload illegal
  have hiff : (∃ e, decode (w :: rest) = .error e) ↔ illegal := by
    rw [decode_cons_error_iff]
    simp only [exists_format, opFormat_eq_some_iff, opcodesOf_n, opcodesOf_a, opcodesOf_ab, opcodesOf_abc,
      opcodesOf_ac, opcodesOf_x, opcodesOf_p, opcodesOf_pb, breaks_n_iff, breaks_a_iff, breaks_ab_iff,
      not_breaks_abc, breaks_ac_iff, breaks_x_iff, breaks_p_iff, breaks_pb_iff, and_false, false_or,
      illegal, List.mem_append, List.mem_singleton, or_assoc]
    exact Iff.rfl
  exact ⟨hiff, fun s hs hill => step_eq_illegalOp hs (hiff.mpr hill)⟩

end Sys2Proof.Encoding

/-! PROOFS of the statements about the flow mapper (41_flow_mapper.md): the numbers it assigns. -/

namespace Sys2Proof.Mapping

open Sys2Proof Sys2Proof.Machine

variable {c : Config} {p q f : Nat} {role role' : Role}

/-! ### The mapping functions, one equation each (41_flow_mapper.md R87, R90) -/

@[simp] theorem fifoOf_b1 : fifoOf c p .b1 = 2 * p := rfl

@[simp] theorem fifoOf_b2 : fifoOf c p .b2 = 2 * p + 1 := rfl

@[simp] theorem fifoOf_d : fifoOf c p .d = c.dBase + p := rfl

@[simp] theorem isD_eq_true_iff : isD c f = true ↔ c.dBase ≤ f ∧ f < c.dBase + c.nports.toNat := by
  simp [isD]

@[simp] theorem portOfD_add : portOfD c (c.dBase + p) = p := Nat.add_sub_cancel_left ..

/-! ### The bearer range and the D range -/

theorem two_mul_nports_le_dBase (hc : c.valid = true) : 2 * c.nports.toNat ≤ c.dBase := by
  simp only [Config.valid, Bool.and_eq_true, decide_eq_true_eq] at hc
  omega

theorem dBase_add_nports_le (hc : c.valid = true) : c.dBase + c.nports.toNat ≤ 32 := by
  simp only [Config.valid, Bool.and_eq_true, decide_eq_true_eq] at hc
  omega

theorem fifoOf_bearer_lt (hp : p < c.nports.toNat) (hrole : role ≠ .d) :
    fifoOf c p role < 2 * c.nports.toNat := by
  cases role with
  | b1 => rw [fifoOf_b1]; omega
  | b2 => rw [fifoOf_b2]; omega
  | d => contradiction

/-- Every number below twice the port count is `2 * p` or `2 * p + 1` of a port, by its parity. -/
theorem lt_two_mul_nports_iff :
    f < 2 * c.nports.toNat ↔ ∃ p < c.nports.toNat, ∃ role, role ≠ .d ∧ fifoOf c p role = f := by
  constructor
  · intro hf
    obtain ⟨p, rfl | rfl⟩ := Nat.even_or_odd' f
    · exact ⟨p, by omega, .b1, by decide, fifoOf_b1⟩
    · exact ⟨p, by omega, .b2, by decide, fifoOf_b2⟩
  · rintro ⟨p, hp, role, hrole, rfl⟩
    exact fifoOf_bearer_lt hp hrole

theorem isD_iff_exists_port :
    isD c f = true ↔ ∃ p < c.nports.toNat, fifoOf c p .d = f ∧ portOfD c f = p := by
  rw [isD_eq_true_iff]
  constructor
  · rintro ⟨hlo, hhi⟩
    obtain ⟨p, rfl⟩ := Nat.exists_eq_add_of_le hlo
    exact ⟨p, by omega, fifoOf_d, portOfD_add⟩
  · rintro ⟨p, hp, rfl, -⟩
    rw [fifoOf_d]
    omega

theorem fifoOf_lt_nfifo (hc : c.valid = true) (hp : p < c.nports.toNat) : fifoOf c p role < 32 := by
  have hlo := two_mul_nports_le_dBase hc
  have hhi := dBase_add_nports_le hc
  by_cases hrole : role = .d
  · subst hrole
    rw [fifoOf_d]
    omega
  · have := fifoOf_bearer_lt hp hrole
    omega

/-! ### No two channel roles share a FIFO -/

/-- The two ranges are disjoint, since `D_BASE` clears the bearer FIFOs. -/
theorem fifoOf_bearer_ne_fifoOf_d (hc : c.valid = true) (hp : p < c.nports.toNat) (hrole : role ≠ .d) :
    fifoOf c p role ≠ fifoOf c q .d := by
  have hbearer := fifoOf_bearer_lt hp hrole
  have hlo := two_mul_nports_le_dBase hc
  rw [fifoOf_d]
  omega

/-- Within the bearer range the half of the number tells the port and its parity the channel. -/
theorem fifoOf_bearer_injective (hrole : role ≠ .d) (hrole' : role' ≠ .d)
    (h : fifoOf c p role = fifoOf c q role') : p = q ∧ role = role' := by
  cases role with
  | b1 =>
    cases role' with
    | b1 => exact ⟨by simpa using h, rfl⟩
    | b2 => rw [fifoOf_b1, fifoOf_b2] at h; omega
    | d => contradiction
  | b2 =>
    cases role' with
    | b1 => rw [fifoOf_b1, fifoOf_b2] at h; omega
    | b2 => exact ⟨by simpa using h, rfl⟩
    | d => contradiction
  | d => contradiction

theorem fifoOf_injective (hc : c.valid = true) (hp : p < c.nports.toNat) (hq : q < c.nports.toNat)
    (h : fifoOf c p role = fifoOf c q role') : p = q ∧ role = role' := by
  by_cases hrole : role = .d <;> by_cases hrole' : role' = .d
  · subst hrole hrole'
    exact ⟨Nat.add_left_cancel h, rfl⟩
  · subst hrole
    exact absurd h.symm (fifoOf_bearer_ne_fifoOf_d hc hq hrole')
  · subst hrole'
    exact absurd h (fifoOf_bearer_ne_fifoOf_d hc hp hrole)
  · exact fifoOf_bearer_injective hrole hrole' h

/-- Settles O18: the bearer and the D range are disjoint, and the mapping is injective onto each. -/
theorem mappingInjective : Obligations.MappingInjective := fun _ hc =>
  ⟨fun _ _ _ _ hp hq => fifoOf_injective hc hp hq,
    fun _ _ hp => fifoOf_lt_nfifo hc hp,
    fun _ => lt_two_mul_nports_iff,
    fun _ => isD_iff_exists_port⟩

end Sys2Proof.Mapping

/-! PROOFS of the statements about the S/T line state (42_st_state_machine.md): the line agent's move of a latch,
the priorities of the synchronization source, and the start and stop of a span. -/

namespace Sys2Proof.LineStateFamily

open Sys2Proof Sys2Proof.Machine

variable {s : State} {pt pt' : Point} {p : Nat}

/-! ### Operations on a port operand (30_encoding.md R65) -/

theorem onPort_of_lt {α : Type} (op : Nat → State → Except Fault α) {a : Byte} (h : a.toNat < s.nports) :
    onPort op a s = op a.toNat s := by
  rw [onPort, portArg, if_pos h, ok_bind]

theorem onPort_of_le {α : Type} (op : Nat → State → Except Fault α) {a : Byte} (h : s.nports ≤ a.toNat) :
    onPort op a s = .error .badOperand := by
  rw [onPort, portArg, if_neg (by omega), error_bind]

/-! ### A move of the line agent (R102) -/

/-- The bits of a state byte that `LINE.STATE` takes no 1 in, as a mask and one by one (10_state.md R27). -/
theorem and_0x90_eq_zero_iff (b : Byte) : b &&& 0x90 = 0 ↔ b.getLsbD 4 = false ∧ b.getLsbD 7 = false := by
  revert b
  decide

/-- When the line agent may move the latch of port `a` by the state byte `b`. -/
def LineMoveEnabled (a b : Byte) (s : State) : Prop :=
  a.toNat < s.nports ∧ (s.latch a.toNat).auto = true ∧ b &&& 0x90 = 0

theorem lineStateStep_of_same {a b : Byte} (h : LineMoveEnabled a b s)
    (hsame : latchOf b (s.latch a.toNat) = s.latch a.toNat) : lineStateStep a b s = some s := by
  obtain ⟨hport, hauto, hbits⟩ := h
  rw [lineStateStep, if_pos ⟨hport, hauto, (and_0x90_eq_zero_iff b).1 hbits⟩, if_pos hsame]

theorem lineStateStep_of_change {a b : Byte} (h : LineMoveEnabled a b s)
    (hchange : latchOf b (s.latch a.toNat) ≠ s.latch a.toNat) :
    lineStateStep a b s = some ((s.setLatch a.toNat (latchOf b (s.latch a.toNat))).modHw fun x =>
      { x with sci := x.sci ||| (1#8 <<< a.toNat) }) := by
  obtain ⟨hport, hauto, hbits⟩ := h
  rw [lineStateStep, if_pos ⟨hport, hauto, (and_0x90_eq_zero_iff b).1 hbits⟩, if_neg hchange]

theorem lineStateStep_of_not_enabled {a b : Byte} (h : ¬ LineMoveEnabled a b s) : lineStateStep a b s = none := by
  rw [LineMoveEnabled, and_0x90_eq_zero_iff] at h
  exact if_neg h

theorem exec_lineState (a b : Byte) (s : State) :
    exec (.lineState a b) s = completeOk (enabledOnly (lineStateStep a b s)) := rfl

/-- Settles O26: the step by its guard, and then by whether the latch changes. -/
theorem lineStateMoves : Obligations.LineStateMoves := by
  unfold Obligations.LineStateMoves
  intro s a b p l new
  constructor
  · intro hport hauto hbits
    have henabled : LineMoveEnabled a b s := ⟨hport, hauto, hbits⟩
    constructor
    · intro hsame
      rw [exec_lineState, lineStateStep_of_same henabled hsame]
      rfl
    · intro hchange
      rw [exec_lineState, lineStateStep_of_change henabled hchange]
      rfl
  · intro hout
    have hdisabled : ¬ LineMoveEnabled a b s := by
      rintro ⟨hport, hauto, hbits⟩
      rcases hout with hfar | hheld | hreserved
      · exact absurd hport (Nat.not_lt.2 hfar)
      · exact absurd hauto (by rw [hheld]; decide)
      · exact hreserved hbits
    rw [exec_lineState, lineStateStep_of_not_enabled hdisabled]
    rfl

/-! ### The synchronization source (R117, R118) -/

/-- The port picked is a port of the card. -/
theorem syncPick_lt (h : syncPick s = some p) : p < s.nports := by
  simp only [syncPick, Option.map_eq_some_iff] at h
  obtain ⟨⟨k, q⟩, hfound, rfl⟩ := h
  have hmem := List.mem_of_find?_eq_some hfound
  simp only [syncOrder, List.mem_flatMap, List.mem_map, List.mem_range, Prod.mk.injEq] at hmem
  obtain ⟨_, _, _, hq, _, rfl⟩ := hmem
  exact hq

/-- The value that names a port fits `SYNC_SEL`: its reserved bits are 0 (10_state.md R29). -/
theorem syncByte_reserved (hp : p < 8) : (0x08 ||| BitVec.ofNat 8 p) &&& 0xF0 = 0 := by
  have : ∀ p < 8, (0x08 ||| BitVec.ofNat 8 p) &&& 0xF0 = 0 := by decide
  exact this p hp

/-- `SYNC_SEL` written, which the busy flag does not gate. -/
theorem wr_syncSel (c : pt.Calm) {v : Byte} (h : s.sched = []) (hv : v &&& 0xF0 = 0) :
    wr pt .syncSel v s = .ok (s.modHw fun x => { x with syncSel := v }) := by
  rw [wr_of_nil c _ _ h, writeReg_plain hv rfl]
  rfl

/-- While no other agent steps a selection completes, at every point with the same state. -/
theorem syncSelect_completes (h : s.sched = []) :
    ∃ t, ∀ pt : Point, pt.Calm → syncSelect pt s = .ok t := by
  cases hpick : syncPick s with
  | none =>
    refine ⟨(s.modCard fun x => { x with syncsrc := .auto }).modHw fun x => { x with syncSel := 0x00 },
      fun pt c => ?_⟩
    rw [syncSelect, hpick]
    exact wr_syncSel c h (by decide)
  | some p =>
    have hp := syncPick_lt hpick
    have h8 := nports_le_eight s
    refine ⟨(s.modCard fun x => { x with syncsrc := .port p }).modHw fun x =>
      { x with syncSel := 0x08 ||| BitVec.ofNat 8 p }, fun pt c => ?_⟩
    rw [syncSelect, hpick]
    exact wr_syncSel c h (syncByte_reserved (by omega))

theorem exec_stSetprio (a k : Byte) (s : State) :
    exec (.stSetprio a k) s = complete (setPriority s.hostEnv a.toNat k.toNat s) := rfl

theorem exec_stSyncsel (s : State) : exec .stSyncsel s = completeOk (syncSelect s.serviceEnv.raw s) := rfl

theorem setPriority_of_out {E : Env} {prio : Nat} (h : s.nports ≤ p ∨ s.nports < prio) :
    setPriority E p prio s = .ok (.invalid, s) := if_pos h

/-- A priority in range is set, and then the source selected. -/
theorem setPriority_of_nil {E : Env} (c : E.Calm) {prio : Nat} (h : s.sched = []) (hp : p < s.nports)
    (hprio : prio ≤ s.nports) :
    setPriority E p prio s =
      (syncSelect E.raw (s.setPort p { s.port p with syncPrio := prio })).map fun t => (.ok, t) := by
  rw [setPriority, if_neg (by omega), c.free _ (by exact h), ok_bind]
  rfl

/-- Settles O25: outside the range at once; inside it, since a selection completes whatever calm point it has. -/
theorem setPriority : Obligations.SetPriority := by
  unfold Obligations.SetPriority
  intro s a k h p
  constructor
  · intro hout
    rw [exec_stSetprio, setPriority_of_out hout, complete_ok]
  · intro hp hk
    obtain ⟨t, ht⟩ := syncSelect_completes (s := s.setPort p { s.port p with syncPrio := k.toNat }) h
    refine ⟨t.answered .ok, ?_, ?_⟩
    · rw [exec_stSetprio, setPriority_of_nil (hostEnv_calm s) h hp hk, ht _ (hostEnv_calm s).raw, map_ok, complete_ok]
    · rw [exec_stSyncsel, ht _ (serviceEnv_calm _).raw, completeOk_ok]

/-! ### The state byte of a latch (10_state.md R27) -/

@[simp] theorem stateCode_byte (l : LineLatch) : stateCode l.byte = l.code := by
  have : ∀ (c : BitVec 4) (t g : Bool),
      stateCode ((0#1) ++ BitVec.ofBool g ++ BitVec.ofBool t ++ (0#1) ++ c) = c := by decide
  exact this _ _ _

@[simp] theorem stateT2exp_byte (l : LineLatch) : stateT2exp l.byte = l.t2exp := by
  have : ∀ (c : BitVec 4) (t g : Bool),
      stateT2exp ((0#1) ++ BitVec.ofBool g ++ BitVec.ofBool t ++ (0#1) ++ c) = t := by decide
  exact this _ _ _

@[simp] theorem stateSignal_byte (l : LineLatch) : stateSignal l.byte = l.signal := by
  have : ∀ (c : BitVec 4) (t g : Bool),
      stateSignal ((0#1) ++ BitVec.ofBool g ++ BitVec.ofBool t ++ (0#1) ++ c) = g := by decide
  exact this _ _ _

/-! ### What an observation keeps of its port (R106) -/

@[simp] theorem disarmIfClear_mode (q : Port) (v : Alarm) : (q.disarmIfClear v).mode = q.mode := by
  unfold Port.disarmIfClear
  split
  · cases q.mode <;> rfl
  · rfl

@[simp] theorem disarmIfClear_spanRunning (q : Port) (v : Alarm) :
    (q.disarmIfClear v).spanRunning = q.spanRunning := by
  unfold Port.disarmIfClear
  split
  · cases q.mode <;> rfl
  · rfl

@[simp] theorem debounce_mode (q : Port) (v : Alarm) (d : Nat) : (q.debounce v d).mode = q.mode := by
  unfold Port.debounce
  split <;> rfl

@[simp] theorem debounce_spanRunning (q : Port) (v : Alarm) (d : Nat) :
    (q.debounce v d).spanRunning = q.spanRunning := by
  unfold Port.debounce
  split <;> rfl

/-- `s` with port `p` selected and its state byte recorded. -/
def observed (p : Nat) (s : State) : State :=
  recordState p (s.latch p).byte (s.modHw fun x => { x with stSel := BitVec.ofNat 8 p })

/-- `s` with port `p` selected, its latch moved to `code` and tracking. -/
def released (p code : Nat) (s : State) : State :=
  (s.modHw fun x => { x with stSel := BitVec.ofNat 8 p }).setLatch p
    { s.latch p with code := BitVec.ofNat 4 code, t2exp := false, auto := true }

theorem port_observed (hp : p < 8) : (observed p s).port p =
    (({ s.port p with state := (s.latch p).byte } : Port).disarmIfClear
      (alarmClass s.cfg (s.port p).mode (s.latch p).code.toNat)).debounce
      (alarmClass s.cfg (s.port p).mode (s.latch p).code.toNat) (s.card.ticks + s.live.debounceMs) := by
  rw [observed, recordState, port_modPort _ _ _ hp]
  simp

theorem observed_mode (hp : p < 8) : ((observed p s).port p).mode = (s.port p).mode := by
  simp [port_observed hp]

theorem observed_spanRunning (hp : p < 8) : ((observed p s).port p).spanRunning = (s.port p).spanRunning := by
  simp [port_observed hp]

@[simp] theorem released_port (code q : Nat) : (released p code s).port q = s.port q := rfl

theorem armT3_mode (hp : p < 8) : ((armT3 p s).port p).mode = (s.port p).mode := by
  simp [armT3, hp]

theorem armT3_spanRunning (hp : p < 8) : ((armT3 p s).port p).spanRunning = (s.port p).spanRunning := by
  simp [armT3, hp]

theorem released_code (code : Nat) (hp : p < 8) : ((released p code s).latch p).code = BitVec.ofNat 4 code := by
  rw [released, latch_setLatch _ _ _ hp]

/-! ### One level of an observation while no other agent steps (R106 to R108) -/

/-- Port `p` stands in a code of its vocabulary (R101). -/
abbrev CodeNamed (p : Nat) (s : State) : Prop := inVocab (s.port p).mode (s.latch p).code.toNat = true

/-- An observation of port `p` finds the expiry of T2 (R107). -/
abbrev T2Expired (p : Nat) (s : State) : Prop :=
  (s.port p).mode = .nt ∧ (s.latch p).code = 4 ∧ (s.latch p).t2exp = true

/-- An observation of port `p` finds an incoming signal (R108). -/
abbrev SignalSeen (p : Nat) (s : State) : Prop :=
  (s.port p).mode = .te ∧ (s.latch p).code = 3 ∧ (s.latch p).signal = true

/-- `s` after the reaction to the expiry of T2, up to its inner observation (R107). -/
def t2Reacted (p : Nat) (s : State) : State :=
  released p 1 ((observed p s).modPort p fun q => { q with t1On := false })

/-- `s` after the reaction to an incoming signal, up to its inner observation (R108). -/
def signalReacted (p : Nat) (s : State) : State := released p 4 (armT3 p (observed p s))

section Level

variable (n : Nat) (c : pt.Calm) (h : s.sched = []) (hp : p < s.nports)
include c h hp

theorem observeWithin_succ : observeWithin (n + 1) pt p s =
    if CodeNamed p s then
      if T2Expired p s then reactT2 pt p (observed p s) >>= observeWithin n pt p
      else if SignalSeen p s then reactSignal pt p (observed p s) >>= observeWithin n pt p
      else .ok (observed p s)
    else .error .stBadCode := by
  have h8 := nports_le_eight s
  have hmode := observed_mode (s := s) (p := p) (by omega)
  have hrecord : recordState p (s.latch p).byte (s.modHw fun x => { x with stSel := BitVec.ofNat 8 p }) =
    observed p s := rfl
  rw [observeWithin, rdx_stRd c h hp, ok_bind]
  simp only [stateCode_byte, stateT2exp_byte, stateSignal_byte, hrecord, hmode]
  rfl

variable {n}

theorem observeWithin_of_not_named (hn : ¬ CodeNamed p s) :
    observeWithin (n + 1) pt p s = .error .stBadCode := by
  rw [observeWithin_succ n c h hp, if_neg hn]

theorem observeWithin_of_t2Expired (hn : CodeNamed p s) (ht : T2Expired p s) :
    observeWithin (n + 1) pt p s = observeWithin n pt p (t2Reacted p s) := by
  have h8 := nports_le_eight s
  have hp8 : p < 8 := by omega
  obtain ⟨hmode, hcode, hexp⟩ := ht
  have hload : reactT2 pt p (observed p s) = .ok (t2Reacted p s) := by
    refine loadState_of_nil c h hp ?_
    rw [port_modPort _ _ _ hp8, observed_mode hp8, hmode]
    rfl
  rw [observeWithin_succ n c h hp, if_pos hn, if_pos ⟨hmode, hcode, hexp⟩, hload, ok_bind]

theorem observeWithin_of_signalSeen (hn : CodeNamed p s) (hs : SignalSeen p s) :
    observeWithin (n + 1) pt p s = observeWithin n pt p (signalReacted p s) := by
  have h8 := nports_le_eight s
  have hp8 : p < 8 := by omega
  obtain ⟨hmode, hcode, hsig⟩ := hs
  have hload : reactSignal pt p (observed p s) = .ok (signalReacted p s) := by
    refine loadState_of_nil c h hp ?_
    rw [armT3_mode hp8, observed_mode hp8, hmode]
    rfl
  have hnt : ¬ T2Expired p s := fun ht => by simp [ht.1] at hmode
  rw [observeWithin_succ n c h hp, if_pos hn, if_neg hnt, if_pos ⟨hmode, hcode, hsig⟩, hload, ok_bind]

theorem observeWithin_of_no_reaction (hn : CodeNamed p s) (ht : ¬ T2Expired p s) (hs : ¬ SignalSeen p s) :
    observeWithin (n + 1) pt p s = .ok (observed p s) := by
  rw [observeWithin_succ n c h hp, if_pos hn, if_neg ht, if_neg hs]

end Level

/-! ### A whole observation while no other agent steps -/

/-- The inner observation of the reaction to T2 finds a code of the vocabulary, G1. -/
theorem codeNamed_t2Reacted (hp : p < 8) (ht : T2Expired p s) : CodeNamed p (t2Reacted p s) := by
  rw [CodeNamed, t2Reacted, released_code _ hp, released_port, port_modPort _ _ _ hp, observed_mode hp, ht.1]
  rfl

/-- The inner observation of the reaction to a signal finds a code of the vocabulary, F4. -/
theorem codeNamed_signalReacted (hp : p < 8) (hs : SignalSeen p s) : CodeNamed p (signalReacted p s) := by
  rw [CodeNamed, signalReacted, released_code _ hp, released_port, armT3_mode hp, observed_mode hp, hs.1]
  rfl

theorem t2Reacted_spanRunning (hp : p < 8) :
    ((t2Reacted p s).port p).spanRunning = (s.port p).spanRunning := by
  rw [t2Reacted, released_port, port_modPort _ _ _ hp, observed_spanRunning hp]

theorem signalReacted_spanRunning (hp : p < 8) :
    ((signalReacted p s).port p).spanRunning = (s.port p).spanRunning := by
  rw [signalReacted, released_port, armT3_spanRunning hp, observed_spanRunning hp]

/-- An observation of a code of the vocabulary completes, at every point with the same state, and leaves the span
running or not as it was: each reaction observes a code of the vocabulary again. -/
theorem observeWithin_completes (n : Nat) (h : s.sched = []) (hp : p < s.nports) (hn : CodeNamed p s) :
    ∃ t, (∀ pt : Point, pt.Calm → observeWithin n pt p s = .ok t) ∧
      (t.port p).spanRunning = (s.port p).spanRunning := by
  induction n generalizing s with
  | zero => exact ⟨s, fun _ _ => rfl, rfl⟩
  | succ n ih =>
    have h8 := nports_le_eight s
    have hp8 : p < 8 := by omega
    by_cases ht : T2Expired p s
    · obtain ⟨t, hrun, hspan⟩ := ih (s := t2Reacted p s) h hp (codeNamed_t2Reacted hp8 ht)
      refine ⟨t, fun pt c => ?_, hspan.trans (t2Reacted_spanRunning hp8)⟩
      rw [observeWithin_of_t2Expired c h hp hn ht, hrun pt c]
    · by_cases hs : SignalSeen p s
      · obtain ⟨t, hrun, hspan⟩ := ih (s := signalReacted p s) h hp (codeNamed_signalReacted hp8 hs)
        refine ⟨t, fun pt c => ?_, hspan.trans (signalReacted_spanRunning hp8)⟩
        rw [observeWithin_of_signalSeen c h hp hn hs, hrun pt c]
      · exact ⟨observed p s, fun pt c => observeWithin_of_no_reaction c h hp hn ht hs, observed_spanRunning hp8⟩

/-- An observation does not depend on the points at which no other agent steps. -/
theorem observe_eq_of_calm (c : pt.Calm) (c' : pt'.Calm) (h : s.sched = []) (hp : p < s.nports) :
    observe pt p s = observe pt' p s := by
  by_cases hn : CodeNamed p s
  · obtain ⟨t, hrun, -⟩ := observeWithin_completes (s.sched.length + 2) h hp hn
    exact (hrun pt c).trans (hrun pt' c').symm
  · exact (observeWithin_of_not_named c h hp hn).trans (observeWithin_of_not_named c' h hp hn).symm

/-! ### Start and stop (R111, R112) -/

theorem exec_stObserve {a : Byte} (ha : a.toNat < s.nports) :
    exec (.stObserve a) s = completeOk (observe s.serviceEnv.raw a.toNat s) :=
  congrArg completeOk (onPort_of_lt _ ha)

theorem exec_stStop (a : Byte) (s : State) :
    exec (.stStop a) s = completeOk (onPort (fun p s => .ok (stopSpan p s)) a s) := rfl

theorem beginSpan_of_nt (hp : p < 8) (hm : (s.port p).mode = .nt) :
    beginSpan p s = s.setPort p { s.port p with
      spanRunning := true, t1Dl := s.card.ticks + s.live.t1Ms, t1On := true, t3On := false } := by
  rw [beginSpan, port_modPort _ _ _ hp, hm]
  simp only [armT1, modPort_modPort _ _ _ _ hp]
  rfl

theorem beginSpan_of_te (hp : p < 8) (hm : (s.port p).mode = .te) :
    beginSpan p s = s.setPort p { s.port p with
      spanRunning := true
      t3Dl := s.card.ticks + (if (s.port p).t3First then s.cfg.t3FirstMs else s.live.t3Ms)
      t3First := false
      t3On := true
      t1On := false } := by
  rw [beginSpan, port_modPort _ _ _ hp, hm]
  simp only [armT3, modPort_modPort _ _ _ _ hp]
  rfl

/-- What a start sets before its observation stands in its port alone, which keeps its mode. -/
theorem beginSpan_eq_setPort (hp : p < 8) :
    ∃ q, beginSpan p s = s.setPort p q ∧ q.mode = (s.port p).mode ∧ q.spanRunning = true := by
  cases hm : (s.port p).mode with
  | nt => exact ⟨_, beginSpan_of_nt hp hm, hm, rfl⟩
  | te => exact ⟨_, beginSpan_of_te hp hm, hm, rfl⟩

section Span

variable {a : Byte} (h : s.sched = []) (ha : a.toNat < s.nports)
include h ha

/-- While no other agent steps, a start is the observation of the armed port. -/
theorem exec_stStart : exec (.stStart a) s = exec (.stObserve a) (beginSpan a.toNat s) := by
  have h8 := nports_le_eight s
  obtain ⟨q, hq, -, -⟩ := beginSpan_eq_setPort (s := s) (p := a.toNat) (by omega)
  have hstart : exec (.stStart a) s = completeOk (startSpan s.hostEnv a.toNat s) :=
    congrArg completeOk (onPort_of_lt _ ha)
  calc exec (.stStart a) s
      = completeOk (observe s.hostEnv.raw a.toNat (s.setPort a.toNat q)) := by
        rw [hstart, startSpan, hq, (hostEnv_calm s).free _ (by exact h), ok_bind]
    _ = completeOk (observe (s.setPort a.toNat q).serviceEnv.raw a.toNat (s.setPort a.toNat q)) :=
        congrArg completeOk (observe_eq_of_calm (hostEnv_calm s).raw (serviceEnv_calm _).raw h ha)
    _ = exec (.stObserve a) (beginSpan a.toNat s) := by
        rw [hq]
        exact (exec_stObserve (s := s.setPort a.toNat q) ha).symm

/-- A start of a port in a code of its vocabulary completes with the span running. -/
theorem exec_stStart_completes (hn : CodeNamed a.toNat s) :
    ∃ t, exec (.stStart a) s = .next t ∧ (t.port a.toNat).spanRunning = true := by
  have h8 := nports_le_eight s
  have hp : a.toNat < 8 := by omega
  obtain ⟨q, hq, hmode, hspan⟩ := beginSpan_eq_setPort (s := s) hp
  have hnamed : CodeNamed a.toNat (s.setPort a.toNat q) := by
    rw [CodeNamed, port_setPort _ _ _ hp, setPort_latch, hmode]
    exact hn
  obtain ⟨t, hrun, hkeep⟩ := observeWithin_completes _ (s := s.setPort a.toNat q) h ha hnamed
  refine ⟨t.answered .ok, ?_, ?_⟩
  · rw [exec_stStart h ha, hq, exec_stObserve (s := s.setPort a.toNat q) ha, observe,
      hrun _ (serviceEnv_calm _).raw, completeOk_ok]
  · rw [port_setPort _ _ _ hp, hspan] at hkeep
    exact hkeep

end Span

/-- Settles O23: the armed state by the port's mode, the start as an observation of it, and the stop. -/
theorem spanStartStop : Obligations.SpanStartStop := by
  unfold Obligations.SpanStartStop
  intro s a h p q started
  refine ⟨fun hp => ⟨?_, fun hn => exec_stStart_completes h hp hn, ?_⟩, fun hout => ⟨?_, ?_⟩⟩
  · have h8 := nports_le_eight s
    have hp8 : p < 8 := by omega
    have harmed : beginSpan p s = started := by
      cases hm : (s.port p).mode with
      | nt => simp only [beginSpan_of_nt hp8 hm, started, q, hm]
      | te => simp only [beginSpan_of_te hp8 hm, started, q, hm]
    rw [exec_stStart h hp, harmed]
  · rw [exec_stStop, onPort_of_lt _ hp, completeOk_ok]
    rfl
  · exact congrArg completeOk (onPort_of_le _ hout)
  · exact congrArg completeOk (onPort_of_le _ hout)

end Sys2Proof.LineStateFamily

/-! PROOFS of the statements about the HDLC framer (43_hdlc_framer.md): the start and the end of a session, and the
receive drain. -/

namespace Sys2Proof.HdlcFramer

open Sys2Proof Sys2Proof.Machine
open Sys2Proof.Mapping (fifoOf_lt_nfifo)
open Sys2Proof.LineStateFamily (onPort_of_lt onPort_of_le)

variable {s : State} {E : Env} {pt : Point} {p f : Nat} {role : Role} {a : Byte}

/-! ### The mapping of a port's channel (70_reset_and_hazards.md R202) -/

theorem mappedFifo_of_mapped (h : mapped s p role = true) :
    mappedFifo s p role = .ok (fifoOf s.cfg p role) := by
  rw [mappedFifo, if_pos h]
  simp only [mapped, Bool.and_eq_true, decide_eq_true_eq] at h
  obtain ⟨⟨hnum, -⟩, -⟩ := h
  rw [hnum]

theorem mappedFifo_of_not_mapped (h : mapped s p role = false) : mappedFifo s p role = .error .notMapped := by
  rw [mappedFifo, h]
  rfl

theorem nfifo_of_valid {c : Config} (hc : c.valid = true) : c.nfifo = 32 := by
  simp only [Config.valid, Bool.and_eq_true, decide_eq_true_eq] at hc
  omega

theorem one_le_stableRetries_of_valid {c : Config} (hc : c.valid = true) : 1 ≤ c.stableRetries := by
  simp only [Config.valid, Bool.and_eq_true, decide_eq_true_eq] at hc
  omega

/-- The D channel of port `p` is mapped, no other agent steps and the hardware is not busy. -/
structure Ready (p : Nat) (s : State) : Prop where
  quiet : s.quiet
  valid : s.cfg.valid = true
  port : p < s.nports
  mapped : mapped s p .d = true

namespace Ready

theorem port_lt (h : Ready p s) : p < 8 := h.port.trans_le (nports_le_eight s)

theorem fifo_lt (h : Ready p s) : fifoOf s.cfg p .d < 32 := fifoOf_lt_nfifo h.valid h.port

theorem fifo_lt_nfifo (h : Ready p s) : fifoOf s.cfg p .d < s.cfg.nfifo := by
  rw [nfifo_of_valid h.valid]
  exact h.fifo_lt

end Ready

/-! ### One FIFO with its status block (10_state.md R34, R39) -/

/-- `s` with FIFO `f` holding `x`, the status block of `f` being `v`, and `(f, d)` selected. -/
def placed (f : Nat) (x : Fifo) (v : Byte) (d : Dir) (s : State) : State :=
  ((s.setFifo f x).setFifoStat (f / 4) v).select f d

theorem placed_fifo (x : Fifo) (v : Byte) (d : Dir) (hn : f < 32) : (placed f x v d s).fifo f = x :=
  fifo_setFifo s f x hn

theorem placed_fifoStat (x : Fifo) (v : Byte) (d : Dir) (hn : f < 32) : (placed f x v d s).fifoStat (f / 4) = v :=
  fifoStat_setFifoStat (s.setFifo f x) (f / 4) v (by omega)

theorem placed_setFifo (x y : Fifo) (v : Byte) (d : Dir) :
    (placed f x v d s).setFifo f y = ((s.setFifo f y).setFifoStat (f / 4) v).select f d :=
  congrArg (fun t => (t.setFifoStat (f / 4) v).select f d) (setFifo_setFifo s f x y)

theorem placed_placed (x y : Fifo) (v w : Byte) (d e : Dir) :
    placed f y w e (placed f x v d s) = placed f y w e s := by
  rw [placed, placed_setFifo]
  change (((s.setFifo f y).setFifoStat (f / 4) v).setFifoStat (f / 4) w).select f e = placed f y w e s
  rw [setFifoStat_setFifoStat, placed]

theorem fifoResetOp_eq_placed (c : E.Calm) (d : Dir) (h : s.quiet) (hf : f < s.cfg.nfifo) (hn : f < 32) :
    fifoResetOp E f d s =
      .ok (placed f ((s.fifo f).emptied d) (s.fifoStat (f / 4) &&& ~~~ pendingMask f d) d s) :=
  fifoResetOp_idle c d h hf hn

section Placed

variable (c : E.Calm) (h : s.quiet) (hf : f < s.cfg.nfifo) (hn : f < 32) (x : Fifo) (v : Byte) (e d : Dir)
include c h hf hn

theorem fifoResetOp_placed :
    fifoResetOp E f d (placed f x v e s) = .ok (placed f (x.emptied d) (v &&& ~~~ pendingMask f d) d s) := by
  rw [fifoResetOp_eq_placed c d (by exact h) (by exact hf) hn, placed_fifo x v e hn, placed_fifoStat x v e hn,
    placed_placed]

theorem fifoIrqOp_placed (en : Bool) (hx : (x.regs d).ctrl &&& 0xF8 = 0) :
    fifoIrqOp E f d en (placed f x v e s) =
      .ok (placed f (x.modRegs d fun r => { r with ctrl := withIrqEn en (x.regs d).ctrl }) v d s) := by
  have hfifo := placed_fifo (s := s) x v e hn
  have hidle := fifoIrqOp_idle c (s := placed f x v e s) d en (by exact h) (by exact hf) hn
    (by rw [State.fifoRegs, hfifo]; exact hx)
  rw [hidle, State.modFifo, State.fifoRegs, select_fifo, hfifo]
  exact congrArg (fun t => Except.ok (State.select t f d)) (placed_setFifo x _ v e)

end Placed

/-- The two pending bits of a FIFO cleared one after the other are cleared by one mask. -/
theorem and_not_pendingMasks (v : Byte) (f : Nat) :
    v &&& ~~~ pendingMask f .rx &&& ~~~ pendingMask f .tx = v &&& ~~~ ((3 : Byte) <<< (2 * (f % 4))) := by
  have hmask : ∀ k < 4, (~~~ ((1 : Byte) <<< (2 * k + 1))) &&& ~~~ ((1 : Byte) <<< (2 * k)) =
      ~~~ ((3 : Byte) <<< (2 * k)) := by decide
  rw [BitVec.and_assoc]
  exact congrArg (v &&& ·) (hmask (f % 4) (Nat.mod_lt _ (by decide)))

/-! ### The session (R133, R134) -/

/-- The host's queue of port `p` dropped and a fresh session begun (R133). -/
def startSession (p : Nat) (s : State) : State :=
  (clearTxq p s).setSession p { active := true, pending := 0, framesIn := 0, framesOut := 0 }

/-- The session of port `p` ended and the host's queue dropped (R134). -/
def endSession (p : Nat) (s : State) : State :=
  clearTxq p (s.modSession p fun x => { x with active := false, pending := 0 })

theorem startSession_placed (x : Fifo) (v : Byte) (d : Dir) :
    startSession p (placed f x v d s) = placed f x v d (startSession p s) := rfl

theorem attachOp_of_free (c : E.Calm) (h : s.sched = []) :
    attachOp E p s = (do
      let f ← mappedFifo s p .d
      let u ← fifoResetOp E f .rx s
      let u ← fifoResetOp E f .tx u
      let u ← fifoIrqOp E f .rx true (startSession p u)
      fifoIrqOp E f .tx true u) := by
  rw [attachOp, c.free s h, ok_bind]
  rfl

theorem detachOp_of_free (c : E.Calm) (h : s.sched = []) :
    detachOp E p s = (do
      let f ← mappedFifo s p .d
      let u ← fifoResetOp E f .tx (endSession p s)
      fifoIrqOp E f .tx false u) := by
  rw [detachOp, c.free s h, ok_bind]
  rfl

section Session

variable (c : E.Calm) (h : Ready p s) (hf : fifoOf s.cfg p .d = f)
include c h hf

/-- An attach empties the D FIFO in both directions, clears both its pending bits and enables both interrupts. -/
theorem attachOp_of_ready (hrx : (s.fifo f).rxRegs.ctrl &&& 0xF8 = 0) (htx : (s.fifo f).txRegs.ctrl &&& 0xF8 = 0) :
    attachOp E p s = .ok (placed f
      { rxq := [], rxpos := 0, brx := [], txopen := [], txclosed := [], btx := [],
        rxRegs := { (s.fifo f).rxRegs with ctrl := (s.fifo f).rxRegs.ctrl ||| 0x01 },
        txRegs := { (s.fifo f).txRegs with ctrl := (s.fifo f).txRegs.ctrl ||| 0x01 } }
      (s.fifoStat (f / 4) &&& ~~~ ((3 : Byte) <<< (2 * (f % 4)))) .tx (startSession p s)) := by
  have hn : f < 32 := hf ▸ h.fifo_lt
  have hnf : f < s.cfg.nfifo := hf ▸ h.fifo_lt_nfifo
  have hq : (startSession p s).quiet := h.quiet
  have hnf' : f < (startSession p s).cfg.nfifo := hnf
  rw [attachOp_of_free c h.quiet.1, mappedFifo_of_mapped h.mapped, hf, ok_bind,
    fifoResetOp_eq_placed c .rx h.quiet hnf hn, ok_bind, fifoResetOp_placed c h.quiet hnf hn, ok_bind,
    startSession_placed, fifoIrqOp_placed c hq hnf' hn _ _ _ .rx true (by exact hrx), ok_bind,
    fifoIrqOp_placed c hq hnf' hn _ _ _ .tx true (by exact htx), and_not_pendingMasks]
  rfl

/-- A detach empties the transmit direction, clears its pending bit and disables its interrupt. -/
theorem detachOp_of_ready (htx : (s.fifo f).txRegs.ctrl &&& 0xF8 = 0) :
    detachOp E p s = .ok (placed f
      { s.fifo f with
        txopen := [], txclosed := [], btx := [],
        txRegs := { (s.fifo f).txRegs with ctrl := (s.fifo f).txRegs.ctrl &&& 0xFE } }
      (s.fifoStat (f / 4) &&& ~~~ pendingMask f .tx) .tx (endSession p s)) := by
  have hn : f < 32 := hf ▸ h.fifo_lt
  have hq : (endSession p s).quiet := h.quiet
  have hnf : f < (endSession p s).cfg.nfifo := hf ▸ h.fifo_lt_nfifo
  rw [detachOp_of_free c h.quiet.1, mappedFifo_of_mapped h.mapped, hf, ok_bind,
    fifoResetOp_eq_placed c .tx hq hnf hn, ok_bind, fifoIrqOp_placed c hq hnf hn _ _ _ .tx false (by exact htx)]
  rfl

end Session

theorem exec_hdlcAttach (a : Byte) (s : State) :
    exec (.hdlcAttach a) s = completeOk (onPort (attachOp s.hostEnv) a s) := rfl

theorem exec_hdlcDetach (a : Byte) (s : State) :
    exec (.hdlcDetach a) s = completeOk (onPort (detachOp s.hostEnv) a s) := rfl

/-- Settles O31: the attach and the detach of a mapped port, of an unmapped one, and of none. -/
theorem sessionStartEnd : Obligations.SessionStartEnd := by
  unfold Obligations.SessionStartEnd
  intro s a hquiet hvalid p f x cleared unpend
  have c := hostEnv_calm s
  refine ⟨fun hp hm hrx htx => ?_, fun hp hm htx => ?_, fun hp hm => ⟨?_, ?_⟩, fun hp => ⟨?_, ?_⟩⟩
  · rw [exec_hdlcAttach, onPort_of_lt _ hp, attachOp_of_ready c ⟨hquiet, hvalid, hp, hm⟩ rfl hrx.1 htx.1]
    rfl
  · rw [exec_hdlcDetach, onPort_of_lt _ hp, detachOp_of_ready c ⟨hquiet, hvalid, hp, hm⟩ rfl htx.1]
    rfl
  · rw [exec_hdlcAttach, onPort_of_lt _ hp, attachOp_of_free c hquiet.1, mappedFifo_of_not_mapped hm]
    rfl
  · rw [exec_hdlcDetach, onPort_of_lt _ hp, detachOp_of_free c hquiet.1, mappedFifo_of_not_mapped hm]
    rfl
  · rw [exec_hdlcAttach, onPort_of_le _ hp, completeOk_error]
  · rw [exec_hdlcDetach, onPort_of_le _ hp, completeOk_error]

/-! ### What a pass reports of a drained frame (R135, R142, R143) -/

theorem rxPayload_eq (cap : Nat) (fr : Frame) :
    rxPayload cap fr.length fr = if cap < fr.length then fr.take cap else fr.dropLast := by
  unfold rxPayload
  split
  · rfl
  · next hfits => rw [List.take_of_length_le (l := fr) (Nat.le_of_not_lt hfits), List.dropLast_eq_take]

theorem verdict_eq (cap p : Nat) (fr : Frame) :
    verdict p fr.length (decide (cap < fr.length)) (fr.getLastD 0) =
      if fr.length < 3 ∨ cap < fr.length then .rxAbort p
      else if fr.getLast? = some 0x00 then .rxFinish p
      else if fr.getLast? = some 0xFF then .rxAbort p
      else .rxBadFcs p := by
  unfold verdict
  by_cases hshort : fr.length < 3
  · rw [if_pos hshort, if_pos (Or.inl hshort)]
  · have hne : fr ≠ [] := by
      rintro rfl
      exact hshort (by decide)
    have hlast : fr.getLast? = some (fr.getLastD 0) := by
      rw [List.getLastD_eq_getLast?, List.getLast?_eq_some_getLast hne, Option.getD_some]
    simp only [hlast, hshort, if_false, false_or, decide_eq_true_eq, Option.some.injEq]

/-- What the session of port `p`, if it has one, is told of the drained frames `frames`: their events in order and
their number. -/
def reported (p : Nat) (frames : List Frame) (s : State) : State :=
  if (s.session p).active then
    (s.modSession p fun x => { x with framesIn := x.framesIn + frames.length }).modCard fun c =>
      { c with
        hostlog := c.hostlog ++ frames.flatMap (frameEvents s.cfg.hdlcCap p)
        diaglog := c.diaglog ++ frames.flatMap (frameWarnings s.cfg.hdlcCap p) }
  else s

theorem reported_of_active {frames : List Frame} (h : (s.session p).active = true) :
    reported p frames s =
      (s.modSession p fun x => { x with framesIn := x.framesIn + frames.length }).modCard fun c =>
        { c with
          hostlog := c.hostlog ++ frames.flatMap (frameEvents s.cfg.hdlcCap p)
          diaglog := c.diaglog ++ frames.flatMap (frameWarnings s.cfg.hdlcCap p) } := if_pos h

theorem reported_of_inactive {frames : List Frame} (h : (s.session p).active = false) : reported p frames s = s :=
  if_neg (by rw [h]; decide)

theorem emit_payload_emit (payload : List Byte) (v : HostEvent) :
    (if payload = [] then s else s.emit (.rxPush p payload)).emit v =
      s.modCard fun c =>
        { c with hostlog := c.hostlog ++ ((if payload = [] then [] else [.rxPush p payload]) ++ [v]) } := by
  split
  · rfl
  · simp [State.emit, State.modCard]

theorem diag_if (truncated : Prop) [Decidable truncated] (e : DiagEvent) :
    (if truncated then s.diag e else s) =
      s.modCard fun c => { c with diaglog := c.diaglog ++ if truncated then [e] else [] } := by
  split
  · rfl
  · simp [State.modCard]

theorem reportFrame_eq_reported (fr : Frame) (h : (s.session p).active = true) :
    reportFrame p fr.length fr s = reported p [fr] s := by
  rw [reported_of_active h]
  simp only [reportFrame, rxPayload_eq, verdict_eq, frameEvents, frameWarnings, List.flatMap_singleton,
    decide_eq_true_eq, emit_payload_emit, diag_if]
  rfl

@[simp] theorem reported_cfg (frames : List Frame) : (reported p frames s).cfg = s.cfg := by
  unfold reported
  split <;> rfl

@[simp] theorem reported_hw (frames : List Frame) : (reported p frames s).hw = s.hw := by
  unfold reported
  split <;> rfl

@[simp] theorem reported_fifo (frames : List Frame) (g : Nat) : (reported p frames s).fifo g = s.fifo g := by
  rw [State.fifo, reported_hw, State.fifo]

@[simp] theorem reported_nil : reported p [] s = s := by
  unfold reported
  split
  · simp [modSession_self, State.modCard]
  · rfl

/-- Reports of one frame and then of others are one report of them all. -/
theorem reported_reported (hp : p < 8) (frames frames' : List Frame) :
    reported p frames' (reported p frames s) = reported p (frames ++ frames') s := by
  cases hactive : (s.session p).active with
  | false => rw [reported_of_inactive hactive, reported_of_inactive hactive, reported_of_inactive hactive]
  | true =>
    have hsession : (reported p frames s).session p =
        { s.session p with framesIn := (s.session p).framesIn + frames.length } := by
      rw [reported_of_active hactive, modCard_session, session_modSession s p _ hp]
    rw [reported_of_active (s := reported p frames s) (by rw [hsession]; exact hactive), reported_of_active hactive,
      reported_of_active hactive]
    simp [State.modSession, State.modCard, State.setSession, State.session, hp, Nat.add_assoc]

/-! ### The receive queue of a port's D FIFO -/

/-- `s` with the receive direction of port `p`'s D FIFO selected and holding `frames`, none of them begun. -/
def withQueue (p : Nat) (frames : List Frame) (s : State) : State :=
  (s.select (fifoOf s.cfg p .d) .rx).setFifo (fifoOf s.cfg p .d)
    { s.fifo (fifoOf s.cfg p .d) with rxq := frames, rxpos := 0 }

theorem withQueue_fifo (frames : List Frame) (hn : fifoOf s.cfg p .d < 32) :
    (withQueue p frames s).fifo (fifoOf s.cfg p .d) =
      { s.fifo (fifoOf s.cfg p .d) with rxq := frames, rxpos := 0 } :=
  fifo_setFifo _ _ _ hn

theorem withQueue_withQueue (frames frames' : List Frame) (hn : fifoOf s.cfg p .d < 32) :
    withQueue p frames' (withQueue p frames s) = withQueue p frames' s := by
  have hcfg : (withQueue p frames s).cfg = s.cfg := rfl
  rw [withQueue, hcfg, withQueue_fifo frames hn]
  exact setFifo_setFifo (s.select (fifoOf s.cfg p .d) .rx) _ _ _

theorem withQueue_reported (frames frames' : List Frame) :
    withQueue p frames (reported p frames' s) = reported p frames' (withQueue p frames s) := by
  cases hactive : (s.session p).active with
  | false => rw [reported_of_inactive hactive, reported_of_inactive (s := withQueue p frames s) hactive]
  | true =>
    rw [reported_of_active hactive, reported_of_active (s := withQueue p frames s) hactive]
    rfl

theorem mapped_withQueue (frames : List Frame) (hn : fifoOf s.cfg p .d < 32) :
    mapped (withQueue p frames s) p .d = mapped s p .d := by
  have hcfg : (withQueue p frames s).cfg = s.cfg := rfl
  have hport : (withQueue p frames s).port p = s.port p := rfl
  simp only [mapped, hcfg, hport, State.fifoRegs, withQueue_fifo frames hn]
  rfl

/-- Port `p` is ready, its D FIFO receives in HDLC mode, no queued frame is begun, and `Z_CNT` holds the length of
each (10_state.md R32). -/
structure Receiving (p : Nat) (s : State) : Prop extends Ready p s where
  hdlc : hdlcMode (s.fifo (fifoOf s.cfg p .d)).rxRegs.ctrl = true
  whole : (s.fifo (fifoOf s.cfg p .d)).rxpos = 0
  short : ∀ fr ∈ (s.fifo (fifoOf s.cfg p .d)).rxq, fr.length < 65536

namespace Receiving

theorem withQueue (h : Receiving p s) {frames : List Frame} (hshort : ∀ fr ∈ frames, fr.length < 65536) :
    Receiving p (withQueue p frames s) := by
  have hfifo := withQueue_fifo frames h.fifo_lt
  have hcfg : (HdlcFramer.withQueue p frames s).cfg = s.cfg := rfl
  refine ⟨⟨h.quiet, h.valid, h.port, (mapped_withQueue frames h.fifo_lt).trans h.mapped⟩, ?_, ?_, ?_⟩
  · rw [hcfg, hfifo]
    exact h.hdlc
  · rw [hcfg, hfifo]
  · rw [hcfg, hfifo]
    exact hshort

theorem reported (h : Receiving p s) (frames : List Frame) : Receiving p (reported p frames s) := by
  unfold HdlcFramer.reported
  split
  · exact ⟨⟨h.quiet, h.valid, h.port, h.mapped⟩, h.hdlc, h.whole, h.short⟩
  · exact h

theorem answered (h : Receiving p s) (v : Result) : Receiving p (s.answered v) :=
  ⟨⟨h.quiet, h.valid, h.port, h.mapped⟩, h.hdlc, h.whole, h.short⟩

end Receiving

/-! ### One receive pass (R135) -/

/-- `F_CNT` read stably: the frames queued, saturating (10_state.md R31). -/
theorem rds_fCnt_rx (c : pt.Calm) (h : s.quiet) (hr : 1 ≤ s.cfg.stableRetries) (hs : s.selNum = f)
    (hd : s.selDir = .rx) :
    rds pt .fCnt s = .ok (BitVec.ofNat 16 (min (s.fifo f).rxq.length 255), s) := by
  rw [rds_fCnt c h.1 hr, hs, hd]
  rfl

theorem toNat_ofNat_min_255 (n : Nat) : (BitVec.ofNat 16 (min n 255)).toNat = min n 255 := by
  rw [BitVec.toNat_ofNat]
  omega

/-- `INC_F` releases the head frame of the selected receive FIFO (10_state.md R34). -/
theorem wrbMust_incF (c : pt.Calm) (must : Bool) (h : s.quiet) (hs : s.selNum = f) (hd : s.selDir = .rx)
    {fr : Frame} {rest : List Frame} (hq : (s.fifo f).rxq = fr :: rest) :
    wrbMust must pt .fifoCmd 0x01 s = .ok (s.setFifo f { s.fifo f with rxq := rest, rxpos := 0 }) := by
  refine wrbMust_idle c must h (by decide) ?_ h
  have hcmd : writeEffect .fifoCmd 0x01 s = advanceFrame s := rfl
  rw [hcmd]
  simp only [advanceFrame, hs, hd, hq]

namespace Receiving

variable (h : Receiving p s)
include h

theorem selNum_select : (s.select (fifoOf s.cfg p .d) .rx).selNum = fifoOf s.cfg p .d :=
  Machine.selNum_select s _ .rx h.fifo_lt

theorem selDir_select : (s.select (fifoOf s.cfg p .d) .rx).selDir = .rx := Machine.selDir_select s _ .rx h.fifo_lt

theorem stableRetries : 1 ≤ s.cfg.stableRetries := one_le_stableRetries_of_valid h.valid

variable {fr : Frame} {rest : List Frame} (c : pt.Calm)
include c

/-- `Z_CNT` is the length of the head frame. -/
theorem rds_zCnt (hq : (s.fifo (fifoOf s.cfg p .d)).rxq = fr :: rest) :
    rds pt .zCnt (s.select (fifoOf s.cfg p .d) .rx) =
      .ok (BitVec.ofNat 16 fr.length, s.select (fifoOf s.cfg p .d) .rx) := by
  have hlen : fr.length ≤ 65535 := Nat.le_of_lt_succ (h.short fr (hq ▸ List.mem_cons_self))
  rw [Machine.rds_zCnt c (by exact h.quiet.1) (by exact h.stableRetries), h.selNum_select, h.selDir_select, select_fifo]
  simp only [Fifo.byteCount, h.hdlc, hq, h.whole, if_true, Nat.sub_zero, Nat.min_eq_left hlen]

/-- The head frame is read whole, and then released. -/
theorem readBytes_incF (must : Bool) (hq : (s.fifo (fifoOf s.cfg p .d)).rxq = fr :: rest) :
    ∃ t, readBytes pt fr.length (s.select (fifoOf s.cfg p .d) .rx) = .ok (fr, t) ∧
      wrbMust must pt .fifoCmd 0x01 t = .ok (HdlcFramer.withQueue p rest s) := by
  have hn := h.fifo_lt
  have hnum := h.selNum_select
  have hdir := h.selDir_select
  refine ⟨(s.select (fifoOf s.cfg p .d) .rx).modFifo (fifoOf s.cfg p .d)
    fun x => { x with rxpos := x.rxpos + fr.length }, ?_, ?_⟩
  · have hread := readBytes_hdlc c fr.length (s := s.select (fifoOf s.cfg p .d) .rx) h.quiet.1 hdir
      (by rw [hnum]; exact hn) (by rw [hnum]; exact h.hdlc) (by rw [hnum]; exact hq)
      (by rw [hnum, select_fifo, h.whole, Nat.zero_add])
    rw [hread, hnum, select_fifo, h.whole, List.drop_zero, List.take_length]
  · rw [wrbMust_incF c must (by exact h.quiet) (by exact hnum) (by exact hdir)
      (by rw [fifo_modFifo _ _ _ hn]; exact hq), fifo_modFifo _ _ _ hn, State.modFifo, setFifo_setFifo]
    rfl

end Receiving

section Pass

variable (c : E.Calm) (must : Bool) (h : Receiving p s)
include c h

theorem rxPass_eq_rxPassOn : rxPass must E p s = rxPassOn must E.fifo p (fifoOf s.cfg p .d) s := by
  rw [rxPass, c.free s h.quiet.1, ok_bind, mappedFifo_of_mapped h.mapped, ok_bind]

theorem rxPass_of_nil (hq : (s.fifo (fifoOf s.cfg p .d)).rxq = []) :
    rxPass must E p s = .ok ((false, 0), s.select (fifoOf s.cfg p .d) .rx) := by
  have hcount := rds_fCnt_rx c.fifo (by exact h.quiet) (by exact h.stableRetries) h.selNum_select h.selDir_select
  rw [rxPass_eq_rxPassOn c must h, rxPassOn,
    fifoSelectMust_idle c.fifo must .rx h.quiet h.fifo_lt_nfifo h.fifo_lt, ok_bind, hcount, select_fifo, hq]
  rfl

/-- A pass drains the head frame whole, reports it, and answers how many frames remain. -/
theorem rxPass_of_cons {fr : Frame} {rest : List Frame} (hq : (s.fifo (fifoOf s.cfg p .d)).rxq = fr :: rest) :
    rxPass must E p s =
      .ok ((true, min rest.length 255), reported p [fr] (withQueue p rest s)) := by
  have hsome : BitVec.ofNat 16 (min (fr :: rest).length 255) ≠ 0 := by
    rw [ne_eq, ← BitVec.toNat_inj, toNat_ofNat_min_255]
    simp
  have hlen : (BitVec.ofNat 16 fr.length).toNat = fr.length := by
    rw [BitVec.toNat_ofNat, Nat.mod_eq_of_lt (h.short fr (hq ▸ List.mem_cons_self))]
  have hcount := rds_fCnt_rx c.fifo (by exact h.quiet) (by exact h.stableRetries) h.selNum_select h.selDir_select
  obtain ⟨t, hread, hinc⟩ := h.readBytes_incF c.fifo must hq
  have hrem : rds E.fifo .fCnt (withQueue p rest s) =
      .ok (BitVec.ofNat 16 (min rest.length 255), withQueue p rest s) := by
    rw [rds_fCnt_rx c.fifo (by exact h.quiet) (by exact h.stableRetries) (by exact h.selNum_select)
      (by exact h.selDir_select), withQueue_fifo rest h.fifo_lt]
  rw [rxPass_eq_rxPassOn c must h, rxPassOn,
    fifoSelectMust_idle c.fifo must .rx h.quiet h.fifo_lt_nfifo h.fifo_lt, ok_bind, hcount, select_fifo, hq, ok_bind]
  simp only [if_neg hsome, h.rds_zCnt c.fifo hq, ok_bind, hlen, hread, hinc, hrem, toNat_ofNat_min_255]
  cases hactive : ((withQueue p rest s).session p).active with
  | false => rw [reported_of_inactive hactive]; rfl
  | true => rw [if_pos rfl, reportFrame_eq_reported fr hactive]

end Pass

/-! ### The receive drain (R136, R147) -/

/-- `s` after a receive drain of port `p`: the queue empty, its frames reported. -/
def drained (p : Nat) (s : State) : State :=
  reported p (s.fifo (fifoOf s.cfg p .d)).rxq (withQueue p [] s)

theorem Receiving.drained (h : Receiving p s) : Receiving p (drained p s) :=
  (h.withQueue (frames := []) (by simp)).reported _

theorem drained_cfg : (drained p s).cfg = s.cfg := reported_cfg _

theorem drained_hw : (drained p s).hw = (withQueue p [] s).hw := reported_hw _

theorem drained_rxq (hn : fifoOf s.cfg p .d < 32) : ((drained p s).fifo (fifoOf s.cfg p .d)).rxq = [] := by
  rw [drained, reported_fifo, withQueue_fifo _ hn]

/-- Without a queued frame a drain only selects. -/
theorem drained_of_nil (h : Receiving p s) (hq : (s.fifo (fifoOf s.cfg p .d)).rxq = []) :
    drained p s = s.select (fifoOf s.cfg p .d) .rx := by
  have hfifo : ({ s.fifo (fifoOf s.cfg p .d) with rxq := [], rxpos := 0 } : Fifo) = s.fifo (fifoOf s.cfg p .d) := by
    rw [← hq, ← h.whole]
  rw [drained, hq, reported_nil, withQueue, hfifo]
  exact setFifo_fifo (s.select (fifoOf s.cfg p .d) .rx) _

/-- A pass and then a drain are the drain. -/
theorem drained_reported_withQueue (h : Receiving p s) {fr : Frame} {rest : List Frame}
    (hq : (s.fifo (fifoOf s.cfg p .d)).rxq = fr :: rest) :
    drained p (reported p [fr] (withQueue p rest s)) = drained p s := by
  have hcfg : (withQueue p rest s).cfg = s.cfg := rfl
  rw [drained, drained, reported_cfg, reported_fifo, hcfg, withQueue_fifo _ h.fifo_lt, hq, withQueue_reported,
    withQueue_withQueue _ _ h.fifo_lt, reported_reported h.port_lt]
  rfl

theorem rxDrainLoop_succ (n count : Nat) {did : Bool} {rem : Nat} {t : State}
    (hpass : rxPass (decide (n ≤ rxWork s)) E p s = .ok ((did, rem), t)) :
    rxDrainLoop E (n + 1) p count s =
      if rem = 0 then .ok (if did then count + 1 else count, t)
      else rxDrainLoop E n p (if did then count + 1 else count) t := by
  rw [rxDrainLoop, hpass]
  rfl

/-- With passes enough for the queued frames the loop drains them all and counts them. -/
theorem rxDrainLoop_of_receiving (c : E.Calm) {n : Nat} (count : Nat) (h : Receiving p s)
    (hn : (s.fifo (fifoOf s.cfg p .d)).rxq.length ≤ n) :
    rxDrainLoop E (n + 1) p count s = .ok (count + (s.fifo (fifoOf s.cfg p .d)).rxq.length, drained p s) := by
  induction n generalizing s count with
  | zero =>
    have hq := List.eq_nil_of_length_eq_zero (Nat.le_zero.1 hn)
    rw [rxDrainLoop_succ 0 count (rxPass_of_nil c _ h hq), drained_of_nil h hq, hq]
    rfl
  | succ n ih =>
    cases hq : (s.fifo (fifoOf s.cfg p .d)).rxq with
    | nil =>
      rw [rxDrainLoop_succ (n + 1) count (rxPass_of_nil c _ h hq), drained_of_nil h hq]
      rfl
    | cons fr rest =>
      have hrest : rest.length ≤ n := by
        rw [hq] at hn
        exact Nat.le_of_succ_le_succ hn
      rw [rxDrainLoop_succ (n + 1) count (rxPass_of_cons c _ h hq), if_pos rfl]
      cases rest with
      | nil =>
        rw [drained, hq]
        rfl
      | cons fr' rest' =>
        have hmore : min (fr' :: rest').length 255 ≠ 0 := by simp
        have hnext : Receiving p (reported p [fr] (withQueue p (fr' :: rest') s)) :=
          (h.withQueue fun x hx => h.short x (hq ▸ List.mem_cons_of_mem fr hx)).reported [fr]
        have hqueue : ((reported p [fr] (withQueue p (fr' :: rest') s)).fifo
            (fifoOf (reported p [fr] (withQueue p (fr' :: rest') s)).cfg p .d)).rxq = fr' :: rest' := by
          rw [reported_cfg, reported_fifo]
          exact congrArg Fifo.rxq (withQueue_fifo _ h.fifo_lt)
        rw [if_neg hmore, ih (count + 1) hnext (by rw [hqueue]; exact hrest), hqueue, drained_reported_withQueue h hq,
          List.length_cons (a := fr), Nat.add_assoc, Nat.add_comm 1]

theorem rxq_length_le_rxWork (hf : f < 32) : (s.fifo f).rxq.length ≤ rxWork s := by
  have hmem : s.fifo f ∈ s.hw.fifos.toList := by
    rw [State.fifo, Vector.getElem?_eq_getElem hf]
    simp
  have hsum : (s.fifo f).rxq.length ≤ (s.hw.fifos.toList.map fun x => x.rxq.length).sum :=
    List.le_sum_of_mem (List.mem_map.2 ⟨_, hmem, rfl⟩)
  exact hsum.trans (Nat.le_add_right _ _)

theorem exec_hdlcRxdrain (a : Byte) (s : State) :
    exec (.hdlcRxdrain a) s = complete (withValue (onPort (rxDrain s.serviceEnv) a s)) := rfl

/-- A drain answers how many frames were queued. -/
theorem exec_hdlcRxdrain_of_receiving (h : Receiving a.toNat s) :
    exec (.hdlcRxdrain a) s = .next ((drained a.toNat s).answered
      (.value (s.fifo (fifoOf s.cfg a.toNat .d)).rxq.length)) := by
  have hwork := rxq_length_le_rxWork (s := s) h.fifo_lt
  rw [exec_hdlcRxdrain, onPort_of_lt _ h.port, rxDrain, ← Nat.add_assoc,
    rxDrainLoop_of_receiving (serviceEnv_calm s) 0 h (by omega), Nat.zero_add]
  rfl

/-- Settles O34: the drain as one update, what it reports with a session and without, and the second drain. -/
theorem receiveDrain : Obligations.ReceiveDrain := by
  unfold Obligations.ReceiveDrain
  intro s a hquiet hvalid p f x hp hm hhdlc hpos hshort
  have h : Receiving p s := ⟨⟨hquiet, hvalid, hp, hm⟩, hhdlc, hpos, hshort⟩
  refine ⟨_, exec_hdlcRxdrain_of_receiving h, ?_, ?_, fun hactive => ?_, fun hactive => ?_, ?_⟩
  · unfold drained reported
    split <;> rfl
  · rw [answered_hw, drained_hw]
    rfl
  · rw [drained, reported_of_active (s := withQueue p [] s) hactive]
    exact ⟨rfl, rfl, rfl⟩
  · rw [drained, reported_of_inactive (s := withQueue p [] s) hactive]
    exact ⟨rfl, rfl, rfl⟩
  · have hagain := h.drained.answered (.value x.rxq.length)
    have hempty : (((drained p s).answered (.value x.rxq.length)).fifo
        (fifoOf ((drained p s).answered (.value x.rxq.length)).cfg p .d)).rxq = [] := by
      rw [answered_cfg, answered_fifo, drained_cfg]
      exact drained_rxq h.fifo_lt
    have hsecond := exec_hdlcRxdrain_of_receiving hagain
    rw [hempty, drained_of_nil hagain hempty, answered_cfg, drained_cfg] at hsecond
    exact hsecond

end Sys2Proof.HdlcFramer

/-! PROOFS of the statements about the tick and the interrupt (60_exceptions.md): the tick agent's step, and an
interrupt with no bit of the card. -/

namespace Sys2Proof.TickInterrupt

open Sys2Proof Sys2Proof.Machine

variable {s : State} {E : Env} {pt : Point}

/-! ### The tick step (R171) -/

/-- `s` with the tick bit of `MISC_STAT` set (10_state.md R24). -/
def ticked (s : State) : State := s.modHw fun h => { h with miscStat := h.miscStat ||| 0x02 }

theorem tickStep_of_enabled (h : s.hw.tickCtrl.getLsbD 0 = true) : tickStep s = some (ticked s) := if_pos h

theorem tickStep_of_disabled (h : s.hw.tickCtrl.getLsbD 0 = false) : tickStep s = none :=
  if_neg (by rw [State.tickEn, h]; decide)

theorem exec_tick (s : State) : exec .tick s = completeOk (enabledOnly (tickStep s)) := rfl

theorem exec_tick_of_enabled (h : s.hw.tickCtrl.getLsbD 0 = true) :
    exec .tick s = .next ((ticked s).answered .ok) := by
  rw [exec_tick, tickStep_of_enabled h]
  rfl

theorem exec_tick_of_disabled (h : s.hw.tickCtrl.getLsbD 0 = false) : exec .tick s = .fault .badOperand := by
  rw [exec_tick, tickStep_of_disabled h]
  rfl

/-- Setting a bit that is set changes nothing. -/
theorem or_0x02_of_getLsbD_one {v : Byte} (h : v.getLsbD 1 = true) : v ||| 0x02 = v := by
  revert v
  decide

theorem or_0x02_ne_zero (v : Byte) : v ||| 0x02 ≠ 0 := by
  revert v
  decide

/-- A tick that finds the tick bit still set is absorbed. -/
theorem ticked_of_pending (h : s.hw.miscStat.getLsbD 1 = true) : ticked s = s := by
  rw [ticked, State.modHw, or_0x02_of_getLsbD_one h]

theorem ticked_miscAny (s : State) : (ticked s).miscAny = true := bne_iff_ne.2 (or_0x02_ne_zero s.hw.miscStat)

theorem ticked_irqLine (h : s.hw.tickCtrl.getLsbD 1 = true) : (ticked s).irqLine = true := by
  have hen : (ticked s).hw.tickCtrl.getLsbD 1 = true := h
  rw [State.irqLine, hen, ticked_miscAny]
  rfl

/-- Settles O43: the tick step by `TICK_EN`, the tick bit it sets, and what that bit does to the line. -/
theorem tickSetsBit : Obligations.TickSetsBit := by
  unfold Obligations.TickSetsBit
  intro s
  refine ⟨fun hen => ⟨exec_tick_of_enabled hen, fun hpending => ?_, fun hirq t ht => ?_⟩, exec_tick_of_disabled⟩
  · rw [exec_tick_of_enabled hen, ticked_of_pending hpending]
  · rw [exec_tick_of_enabled hen] at ht
    cases ht
    exact ticked_irqLine hirq

/-! ### The interrupt bits of `STATUS` (10_state.md R23) -/

theorem fifoStat_eq_getElem {b : Nat} (h : b < 8) : s.fifoStat b = s.hw.fifoStat[b] := by
  rw [State.fifoStat, Vector.getElem?_eq_getElem h, Option.getD_some]

theorem fifoAny_eq_false_iff : s.fifoAny = false ↔ ∀ b < 8, s.fifoStat b = 0 := by
  rw [State.fifoAny, List.any_eq_false]
  constructor
  · intro hnone b hb
    have hblock := hnone _ (Vector.mem_toList_iff.2 (Vector.getElem_mem hb))
    rw [fifoStat_eq_getElem hb]
    simpa using hblock
  · intro hzero v hv
    obtain ⟨b, hb, rfl⟩ := Vector.getElem_of_mem (Vector.mem_toList_iff.1 hv)
    rw [← fifoStat_eq_getElem hb, hzero b hb]
    decide

theorem miscAny_eq_false_iff : s.miscAny = false ↔ s.hw.miscStat = 0 := bne_eq_false_iff_eq

/-- Bit 0 of `STATUS` is `FIFO_ANY`. -/
theorem statusByte_getLsbD_zero (s : State) : s.statusByte.getLsbD 0 = s.fifoAny := by
  have : ∀ a b c : Bool, ((0#5) ++ BitVec.ofBool a ++ BitVec.ofBool b ++ BitVec.ofBool c).getLsbD 0 = c := by
    decide
  exact this _ _ _

/-- Bit 1 of `STATUS` is `MISC_ANY`. -/
theorem statusByte_getLsbD_one (s : State) : s.statusByte.getLsbD 1 = s.miscAny := by
  have : ∀ a b c : Bool, ((0#5) ++ BitVec.ofBool a ++ BitVec.ofBool b ++ BitVec.ofBool c).getLsbD 1 = b := by
    decide
  exact this _ _ _

/-! ### An interrupt with no bit of the card (R174) -/

/-- An operation whose first part answers goes on with that answer. -/
theorem bind_of_eq_ok {α β : Type} {x : Except Fault α} {k : α → Except Fault β} {a : α} (h : x = .ok a) :
    (x >>= k) = k a := by
  rw [h, ok_bind]

/-- A read of `STATUS` clears nothing. -/
theorem rd_status (c : pt.Calm) (h : s.sched = []) : rd pt .status s = .ok (s.statusByte, s) := by
  have hvalue : readValue .status s = .ok (s.statusByte.setWidth 16) := rfl
  rw [rd_of_nil c .status h, hvalue, map_ok, BitVec.setWidth_setWidth_of_le _ (by decide), BitVec.setWidth_eq]
  rfl

/-- With no bit pending the one read of `STATUS` is all that is done. -/
theorem takeInterrupt_of_foreign (c : pt.Calm) (h : s.sched = []) (hfifo : s.fifoAny = false)
    (hmisc : s.miscAny = false) : takeInterrupt pt s = .ok (none, s) := by
  have hbits : s.statusByte.getLsbD 0 = false ∧ s.statusByte.getLsbD 1 = false :=
    ⟨(statusByte_getLsbD_zero s).trans hfifo, (statusByte_getLsbD_one s).trans hmisc⟩
  exact (bind_of_eq_ok (rd_status c h)).trans (if_pos hbits)

theorem immediatePhase_of_foreign (c : E.raw.Calm) (h : s.sched = []) (hfifo : s.fifoAny = false)
    (hmisc : s.miscAny = false) : immediatePhase E s = .ok (false, s) :=
  bind_of_eq_ok (takeInterrupt_of_foreign c h hfifo hmisc)

/-- The deferred phase follows a handled immediate phase only (R178). -/
theorem interrupt_of_not_mine {imm dfr : Env} {t : State} (h : immediatePhase imm s = .ok (false, t)) :
    interrupt imm dfr s = .ok (false, t) :=
  bind_of_eq_ok h

theorem exec_irqImm (s : State) :
    exec .irqImm s = complete ((immediatePhase s.immEnv s).map fun x => (irqResult x.1, x.2)) := rfl

theorem exec_irq (s : State) :
    exec .irq s = complete ((interrupt s.immEnv s.serviceEnv s).map fun x => (irqResult x.1, x.2)) := rfl

/-- Settles O44: `STATUS` shows no bit of the card, so the immediate phase ends and no deferred phase follows. -/
theorem foreignInterrupt : Obligations.ForeignInterrupt := by
  unfold Obligations.ForeignInterrupt
  intro s hsched hfifo hmisc
  have himm : immediatePhase s.immEnv s = .ok (false, s) :=
    immediatePhase_of_foreign (immEnv_calm s).raw hsched (fifoAny_eq_false_iff.2 hfifo) (miscAny_eq_false_iff.2 hmisc)
  constructor
  · rw [exec_irqImm, himm, map_ok, complete_ok]
    rfl
  · rw [exec_irq, interrupt_of_not_mine himm, map_ok, complete_ok]
    rfl

end Sys2Proof.TickInterrupt

/-! PROOFS of the statements about starting and stopping the card (70_reset_and_hazards.md): the write of
`TICK_CTRL` and the running flag. -/

namespace Sys2Proof.CardControl

open Sys2Proof Sys2Proof.Machine

variable {s : State} {pt : Point}

/-- The write of `TICK_CTRL` is not gated by the busy flag, so it needs no idle hardware. -/
theorem wr_tickCtrl (c : pt.Calm) {v : Byte} (h : s.sched = []) (hv : v &&& Reg.tickCtrl.reserved = 0) :
    wr pt .tickCtrl v s = .ok (s.modHw fun x => { x with tickCtrl := v }) := by
  rw [wr_of_nil c _ _ h, writeReg_plain hv rfl]
  rfl

/-- `s` with the running flag and `TICK_CTRL` as given. -/
def withControl (s : State) (running : Bool) (v : Byte) : State :=
  { s with card := { s.card with running := running }, hw := { s.hw with tickCtrl := v } }

/-- The flag first, then the register (R203). -/
theorem startCard_of_nil (c : pt.Calm) (h : s.sched = []) : startCard pt s = .ok (withControl s true 0x03) :=
  wr_tickCtrl c h (by decide)

/-- The register first, then the flag (R204). -/
theorem stopCard_of_nil (c : pt.Calm) (h : s.sched = []) : stopCard pt s = .ok (withControl s false 0x00) := by
  rw [stopCard, wr_tickCtrl c h (by decide), ok_bind]
  rfl

theorem exec_cardStart (s : State) : exec .cardStart s = completeOk (startCard s.hostEnv.free s) := rfl

theorem exec_cardStop (s : State) : exec .cardStop s = completeOk (stopCard s.hostEnv.free s) := rfl

/-- Settles O54: each command is one write of `TICK_CTRL` at a calm point and one assignment of the flag. -/
theorem cardStartStop : Obligations.CardStartStop := by
  unfold Obligations.CardStartStop
  intro s hsched
  have hcalm : s.hostEnv.free.Calm := (hostEnv_calm s).free
  constructor
  · rw [exec_cardStart, startCard_of_nil hcalm hsched, completeOk_ok]
    rfl
  · rw [exec_cardStop, stopCard_of_nil hcalm hsched, completeOk_ok]
    rfl

end Sys2Proof.CardControl

/-! PROOFS of the statements about the encoding (30_encoding.md): the round trips between commands and their
words, and the step that runs what was decoded. -/

namespace Sys2Proof.Encoding

open Sys2Proof Sys2Proof.Machine

/-! ### A word and its four bytes (30_encoding.md R60) -/

/-- The word with the given four bytes, that of bits 31:24 first. -/
def bytes4 (b3 b2 b1 b0 : Byte) : Word := b3 ++ b2 ++ b1 ++ b0

theorem bytes4_fields (w : Word) : bytes4 (fieldOp w) (fieldA w) (fieldB w) (fieldC w) = w := by
  have hOpA : fieldOp w ++ fieldA w = w.extractLsb' 16 16 :=
    BitVec.extractLsb'_append_extractLsb'_eq_extractLsb' rfl
  have hOpAB : w.extractLsb' 16 16 ++ fieldB w = w.extractLsb' 8 24 :=
    BitVec.extractLsb'_append_extractLsb'_eq_extractLsb' rfl
  have hall : w.extractLsb' 8 24 ++ fieldC w = w.extractLsb' 0 32 :=
    BitVec.extractLsb'_append_extractLsb'_eq_extractLsb' rfl
  rw [bytes4, hOpA, hOpAB, hall, BitVec.extractLsb'_eq_self]

section Fields

variable (b3 b2 b1 b0 : Byte)

@[simp] theorem fieldC_bytes4 : fieldC (bytes4 b3 b2 b1 b0) = b0 := BitVec.extractLsb'_append_eq_right

@[simp] theorem fieldB_bytes4 : fieldB (bytes4 b3 b2 b1 b0) = b1 := by
  have h0 : fieldB (bytes4 b3 b2 b1 b0) = (b3 ++ b2 ++ b1).extractLsb' 0 8 :=
    BitVec.extractLsb'_append_eq_of_le (by decide)
  exact h0.trans BitVec.extractLsb'_append_eq_right

@[simp] theorem fieldA_bytes4 : fieldA (bytes4 b3 b2 b1 b0) = b2 := by
  have h0 : fieldA (bytes4 b3 b2 b1 b0) = (b3 ++ b2 ++ b1).extractLsb' 8 8 :=
    BitVec.extractLsb'_append_eq_of_le (by decide)
  have h1 : (b3 ++ b2 ++ b1).extractLsb' 8 8 = (b3 ++ b2).extractLsb' 0 8 :=
    BitVec.extractLsb'_append_eq_of_le (by decide)
  exact (h0.trans h1).trans BitVec.extractLsb'_append_eq_right

@[simp] theorem fieldOp_bytes4 : fieldOp (bytes4 b3 b2 b1 b0) = b3 := Laws.fieldOp_bytes b3 b2 b1 b0

@[simp] theorem wordBytes_bytes4 : wordBytes (bytes4 b3 b2 b1 b0) = [b0, b1, b2, b3] := by
  change [fieldC _, fieldB _, fieldA _, fieldOp _] = _
  simp

/-- A word is 0 when its four bytes are. -/
theorem bytes4_eq_zero_iff : bytes4 b3 b2 b1 b0 = 0 ↔ b3 = 0 ∧ b2 = 0 ∧ b1 = 0 ∧ b0 = 0 := by
  constructor
  · intro h
    have hbytes := congrArg wordBytes h
    rw [wordBytes_bytes4] at hbytes
    simp only [wordBytes, BitVec.ofNat_eq_ofNat, BitVec.extractLsb'_zero, List.cons.injEq, and_true] at hbytes
    obtain ⟨h0, h1, h2, h3⟩ := hbytes
    exact ⟨h3, h2, h1, h0⟩
  · rintro ⟨rfl, rfl, rfl, rfl⟩
    rfl

theorem bytes4_and (c3 c2 c1 c0 : Byte) :
    bytes4 b3 b2 b1 b0 &&& bytes4 c3 c2 c1 c0 = bytes4 (b3 &&& c3) (b2 &&& c2) (b1 &&& c1) (b0 &&& c0) := by
  unfold bytes4
  rw [BitVec.and_append, BitVec.and_append, BitVec.and_append]

end Fields

/-- A word is its bytes, so two words with the same bytes are the same. -/
theorem wordBytes_injective : Function.Injective wordBytes := by
  intro v w h
  rw [← bytes4_fields v, ← bytes4_fields w] at h ⊢
  simp only [wordBytes_bytes4, List.cons.injEq, and_true] at h
  obtain ⟨h0, h1, h2, h3⟩ := h
  rw [h0, h1, h2, h3]

/-- Appending bytes to a byte one by one or as a block. -/
theorem append_halfword (b3 b2 : Byte) (x : BitVec 16) :
    (b3 ++ b2 ++ x : Word) = bytes4 b3 b2 (x.extractLsb' 8 8) (x.extractLsb' 0 8) := by
  have hx : x.extractLsb' 8 8 ++ x.extractLsb' 0 8 = x :=
    (BitVec.extractLsb'_append_extractLsb'_eq_extractLsb' rfl).trans BitVec.extractLsb'_eq_self
  conv_lhs => rw [← hx]
  exact (BitVec.append_assoc (w₁ := 16) (w₂ := 8) (w₃ := 8)).symm

theorem append_zeros (b3 : Byte) : (b3 ++ (0#24) : Word) = bytes4 b3 0 0 0 := by
  have hinner : (b3 ++ (0#16) : BitVec 24) = b3 ++ (0#8) ++ (0#8) :=
    (BitVec.append_assoc (w₁ := 8) (w₂ := 8) (w₃ := 8) (x₁ := b3) (x₂ := 0#8) (x₃ := 0#8)).symm
  have houter : (b3 ++ (0#24) : Word) = b3 ++ (0#16) ++ (0#8) :=
    (BitVec.append_assoc (w₁ := 8) (w₂ := 16) (w₃ := 8) (x₁ := b3) (x₂ := 0#16) (x₃ := 0#8)).symm
  rw [houter, hinner]
  rfl

/-! ### The fields a format takes (30_encoding.md R60) -/

theorem and_mustBeZero_iff (w : Word) (c2 c1 c0 : Byte) :
    w &&& bytes4 0 c2 c1 c0 = 0 ↔ fieldA w &&& c2 = 0 ∧ fieldB w &&& c1 = 0 ∧ fieldC w &&& c0 = 0 := by
  conv_lhs => rw [← bytes4_fields w, bytes4_and, bytes4_eq_zero_iff]
  simp

theorem and_0xFF (b : Byte) : b &&& 0xFF#8 = b := BitVec.and_allOnes

theorem mustBeZero_n_iff (w : Word) :
    w &&& Format.mustBeZero .n = 0 ↔ fieldA w = 0 ∧ fieldB w = 0 ∧ fieldC w = 0 := by
  have hmask : Format.mustBeZero .n = bytes4 0 0xFF 0xFF 0xFF := rfl
  rw [hmask, and_mustBeZero_iff]
  simp [and_0xFF]

theorem mustBeZero_a_iff (w : Word) : w &&& Format.mustBeZero .a = 0 ↔ fieldB w = 0 ∧ fieldC w = 0 := by
  have hmask : Format.mustBeZero .a = bytes4 0 0 0xFF 0xFF := rfl
  rw [hmask, and_mustBeZero_iff]
  simp [and_0xFF]

theorem mustBeZero_ab_iff (w : Word) : w &&& Format.mustBeZero .ab = 0 ↔ fieldC w = 0 := by
  have hmask : Format.mustBeZero .ab = bytes4 0 0 0 0xFF := rfl
  rw [hmask, and_mustBeZero_iff]
  simp [and_0xFF]

theorem mustBeZero_ac_iff (w : Word) : w &&& Format.mustBeZero .ac = 0 ↔ fieldB w = 0 := by
  have hmask : Format.mustBeZero .ac = bytes4 0 0 0xFF 0 := rfl
  rw [hmask, and_mustBeZero_iff]
  simp [and_0xFF]

theorem wordN_eq (op : Byte) : wordN op = [bytes4 op 0 0 0] := by
  rw [wordN, append_zeros]

theorem wordA_eq (op a : Byte) : wordA op a = [bytes4 op a 0 0] := congrArg (fun w => [w]) (append_halfword op a 0#16)

theorem wordAB_eq (op a b : Byte) : wordAB op a b = [bytes4 op a b 0] := rfl

theorem wordAC_eq (op a c : Byte) : wordAC op a c = [bytes4 op a 0 c] := rfl

theorem wordABC_eq (op a b c : Byte) : wordABC op a b c = [bytes4 op a b c] := rfl

theorem wordX_eq (op a b c v : Byte) : wordX op a b c v = [bytes4 op a b c, bytes4 0 0 0 v] := rfl

theorem wordPB_eq (op a b : Byte) (bytes : List Byte) :
    wordPB op a b bytes = bytes4 op a b (BitVec.ofNat 8 bytes.length) :: packBytes bytes := rfl

theorem byteCount_p (w : Word) : Format.byteCount .p w = (fieldB w ++ fieldC w).toNat := by
  have h : fieldB w ++ fieldC w = w.extractLsb' 0 16 := BitVec.extractLsb'_append_extractLsb'_eq_extractLsb' rfl
  rw [h]
  rfl

theorem byteCount_pb (w : Word) : Format.byteCount .pb w = (fieldC w).toNat := rfl

/-- The word of format `P` whose count is `n`. -/
theorem byteCount_wordP (op a : Byte) {n : Nat} (hn : n < 65536) :
    Format.byteCount .p (op ++ a ++ BitVec.ofNat 16 n) = n := by
  have h : (op ++ a ++ BitVec.ofNat 16 n : Word).extractLsb' 0 16 = BitVec.ofNat 16 n :=
    BitVec.extractLsb'_append_eq_right
  change ((op ++ a ++ BitVec.ofNat 16 n : Word).extractLsb' 0 16).toNat = n
  rw [h, BitVec.toNat_ofNat, Nat.mod_eq_of_lt hn]

/-! ### The payload and its words (30_encoding.md R61) -/

theorem length_packBytes (bytes : List Byte) : (packBytes bytes).length = payloadWords bytes.length := by
  fun_induction packBytes bytes with
  | case1 | case2 | case3 | case4 => simp [payloadWords]
  | case5 b0 b1 b2 b3 rest ih =>
    simp only [List.length_cons, ih, payloadWords]
    omega

/-- The words of a payload hold its bytes, and then zeros up to a whole word. -/
theorem flatMap_packBytes (bytes : List Byte) : (packBytes bytes).flatMap wordBytes =
    bytes ++ List.replicate (4 * payloadWords bytes.length - bytes.length) 0 := by
  fun_induction packBytes bytes with
  | case1 => rfl
  | case2 b0 =>
    have hword : wordBytes ((0#24) ++ b0) = [b0, 0, 0, 0] := wordBytes_bytes4 0 0 0 b0
    simp [hword, payloadWords, List.replicate]
  | case3 b0 b1 =>
    have hword : wordBytes ((0#16) ++ b1 ++ b0) = [b0, b1, 0, 0] := wordBytes_bytes4 0 0 b1 b0
    simp [hword, payloadWords, List.replicate]
  | case4 b0 b1 b2 =>
    have hword : wordBytes ((0#8) ++ b2 ++ b1 ++ b0) = [b0, b1, b2, 0] := wordBytes_bytes4 0 b2 b1 b0
    simp [hword, payloadWords]
  | case5 b0 b1 b2 b3 rest ih =>
    have hword : wordBytes (b3 ++ b2 ++ b1 ++ b0) = [b0, b1, b2, b3] := wordBytes_bytes4 b3 b2 b1 b0
    have hpad : 4 * payloadWords (rest.length + 1 + 1 + 1 + 1) - (rest.length + 1 + 1 + 1 + 1) =
        4 * payloadWords rest.length - rest.length := by
      unfold payloadWords
      omega
    rw [List.flatMap_cons, hword, ih]
    simp only [List.length_cons, List.cons_append, List.nil_append, hpad]

/-- A payload is read back from its words, whatever words follow. -/
theorem takePayload_packBytes (bytes : List Byte) (rest : List Word) :
    takePayload bytes.length (packBytes bytes ++ rest) = .ok bytes := by
  have htake : (packBytes bytes ++ rest).take (payloadWords bytes.length) = packBytes bytes := by
    rw [← length_packBytes, List.take_left]
  simp [takePayload, htake, length_packBytes, flatMap_packBytes]

/-- A payload read from words fills exactly the words that packing it gives. -/
theorem takePayload_eq_ok {n : Nat} {ws : List Word} {bytes : List Byte} (h : takePayload n ws = .ok bytes) :
    bytes.length = n ∧ payloadWords n ≤ ws.length ∧ packBytes bytes = ws.take (payloadWords n) := by
  have hle : payloadWords n ≤ ws.length := by
    by_contra hlt
    rw [takePayload_of_lt (by omega)] at h
    cases h
  have hlen : (ws.take (payloadWords n)).length = payloadWords n := by simp [hle]
  simp only [takePayload, hlen, Nat.lt_irrefl, if_false] at h
  split at h
  · next hzero =>
    have hn : n ≤ 4 * payloadWords n := by
      unfold payloadWords
      omega
    simp only [Except.ok.injEq] at h
    have hbytes : bytes.length = n := by
      rw [← h, List.length_take, length_flatMap_wordBytes, hlen, Nat.min_eq_left hn]
    have hdrop : ((ws.take (payloadWords n)).flatMap wordBytes).drop n =
        List.replicate (4 * payloadWords n - n) 0 := by
      rw [List.eq_replicate_iff]
      refine ⟨by rw [List.length_drop, length_flatMap_wordBytes, hlen], fun b hb => ?_⟩
      simpa using List.all_eq_true.1 hzero b hb
    refine ⟨hbytes, hle, ?_⟩
    have hflat : (packBytes bytes).flatMap wordBytes = (ws.take (payloadWords n)).flatMap wordBytes := by
      rw [flatMap_packBytes, hbytes, ← hdrop, ← h, List.take_append_drop]
    have hjoin : ∀ {us vs : List Word}, us.flatMap wordBytes = vs.flatMap wordBytes → us = vs := by
      intro us
      induction us with
      | nil =>
        rintro (_ | ⟨v, vs⟩) he
        · rfl
        · simp [wordBytes] at he
      | cons u us ih =>
        rintro (_ | ⟨v, vs⟩) he
        · simp [wordBytes] at he
        · rw [List.flatMap_cons, List.flatMap_cons] at he
          obtain ⟨hhead, htail⟩ := List.append_inj he rfl
          rw [wordBytes_injective hhead, ih htail]
    exact hjoin hflat
  · cases h

/-! ### Decoding the words of each format (30_encoding.md R60 to R63) -/

section Format

variable {op op' : Byte} {name : String} {fmt : Format} {build : Operands → Instr}

theorem decode_of_row {w : Word} {rest : List Word} {o : Operands}
    (hrow : opRow (fieldOp w) = some (op', name, fmt, build)) (hzero : w &&& fmt.mustBeZero = 0)
    (ho : takeOperands fmt w rest = .ok o) : decode (w :: rest) = .ok (build o, fmt.words w) := by
  simp only [decode, hrow, if_pos hzero, ho]

theorem decode_wordN (hrow : opRow op = some (op', name, .n, build)) (rest : List Word) {i : Instr}
    (hi : build {} = i) : decode (wordN op ++ rest) = .ok (i, (wordN op).length) := by
  subst hi
  rw [wordN_eq]
  refine decode_of_row (fmt := .n) (build := build) (o := {}) (by simpa using hrow) ((mustBeZero_n_iff _).2 (by simp)) ?_
  simp [takeOperands]

theorem decode_wordA (hrow : opRow op = some (op', name, .a, build)) (a : Byte) (rest : List Word) {i : Instr}
    (hi : build { a := a } = i) : decode (wordA op a ++ rest) = .ok (i, (wordA op a).length) := by
  subst hi
  rw [wordA_eq]
  refine decode_of_row (fmt := .a) (build := build) (o := { a := a }) (by simpa using hrow) ((mustBeZero_a_iff _).2 (by simp)) ?_
  simp [takeOperands]

theorem decode_wordAB (hrow : opRow op = some (op', name, .ab, build)) (a b : Byte) (rest : List Word) {i : Instr}
    (hi : build { a := a, b := b } = i) : decode (wordAB op a b ++ rest) = .ok (i, (wordAB op a b).length) := by
  subst hi
  rw [wordAB_eq]
  refine decode_of_row (fmt := .ab) (build := build) (o := { a := a, b := b }) (by simpa using hrow) ((mustBeZero_ab_iff _).2 (by simp)) ?_
  simp [takeOperands]

theorem decode_wordAC (hrow : opRow op = some (op', name, .ac, build)) (a c : Byte) (rest : List Word) {i : Instr}
    (hi : build { a := a, c := c } = i) : decode (wordAC op a c ++ rest) = .ok (i, (wordAC op a c).length) := by
  subst hi
  rw [wordAC_eq]
  refine decode_of_row (fmt := .ac) (build := build) (o := { a := a, c := c }) (by simpa using hrow) ((mustBeZero_ac_iff _).2 (by simp)) ?_
  simp [takeOperands]

theorem decode_wordABC (hrow : opRow op = some (op', name, .abc, build)) (a b c : Byte) (rest : List Word) {i : Instr}
    (hi : build { a := a, b := b, c := c } = i) : decode (wordABC op a b c ++ rest) = .ok (i, (wordABC op a b c).length) := by
  subst hi
  rw [wordABC_eq]
  refine decode_of_row (fmt := .abc) (build := build) (o := { a := a, b := b, c := c }) (by simpa using hrow) (by simp [Format.mustBeZero]) ?_
  simp [takeOperands]

theorem decode_wordX (hrow : opRow op = some (op', name, .x, build)) (a b c v : Byte) (rest : List Word) {i : Instr}
    (hi : build { a := a, b := b, c := c, v := v } = i) :
    decode (wordX op a b c v ++ rest) = .ok (i, (wordX op a b c v).length) := by
  subst hi
  have hhigh : (bytes4 0#8 0#8 0#8 v).extractLsb' 8 24 = 0#24 := BitVec.extractLsb'_append_eq_left
  rw [wordX_eq]
  refine decode_of_row (fmt := .x) (build := build) (o := { a := a, b := b, c := c, v := v }) (by simpa using hrow)
    (by simp [Format.mustBeZero]) ?_
  simp [takeOperands, hhigh]

/-- In format `P` bits 15:8 of word 0 belong to the count, so a row of that format does not use them. -/
theorem decode_wordP (hrow : opRow op = some (op', name, .p, build)) (a : Byte) {bytes : List Byte}
    (hlen : bytes.length < 65536) (rest : List Word) {i : Instr}
    (hi : ∀ b, build { a := a, b := b, payload := bytes } = i) :
    decode (wordP op a bytes ++ rest) = .ok (i, (wordP op a bytes).length) := by
  have hcount := byteCount_wordP op a hlen
  have hop : fieldOp (op ++ a ++ BitVec.ofNat 16 bytes.length) = op := Laws.fieldOp_bits16 ..
  have hA : fieldA (op ++ a ++ BitVec.ofNat 16 bytes.length) = a := by
    rw [append_halfword, fieldA_bytes4]
  have hdecode := decode_of_row (rest := packBytes bytes ++ rest)
    (o := { a := a, b := fieldB (op ++ a ++ BitVec.ofNat 16 bytes.length), payload := bytes })
    (hop ▸ hrow) (by simp [Format.mustBeZero])
    (by simp only [takeOperands, hcount, takePayload_packBytes, hA])
  rw [hi] at hdecode
  rw [wordP, List.cons_append, hdecode]
  simp [Format.words, hcount, length_packBytes, Nat.add_comm]

theorem decode_wordPB (hrow : opRow op = some (op', name, .pb, build)) (a b : Byte) {bytes : List Byte}
    (hlen : bytes.length < 256) (rest : List Word) {i : Instr}
    (hi : build { a := a, b := b, payload := bytes } = i) :
    decode (wordPB op a b bytes ++ rest) = .ok (i, (wordPB op a b bytes).length) := by
  subst hi
  have hcount : Format.byteCount .pb (bytes4 op a b (BitVec.ofNat 8 bytes.length)) = bytes.length := by
    rw [byteCount_pb, fieldC_bytes4, BitVec.toNat_ofNat, Nat.mod_eq_of_lt hlen]
  have hdecode := decode_of_row (rest := packBytes bytes ++ rest)
    (w := bytes4 op a b (BitVec.ofNat 8 bytes.length)) (o := { a := a, b := b, payload := bytes })
    (by simpa using hrow) (by simp [Format.mustBeZero])
    (by simp only [takeOperands, hcount, takePayload_packBytes, fieldA_bytes4, fieldB_bytes4])
  rw [wordPB_eq, List.cons_append, hdecode]
  simp [Format.words, hcount, length_packBytes, Nat.add_comm]

end Format

/-- Settles O2: each command by the format of its row. -/
theorem decodeOfEncode : Obligations.DecodeOfEncode := by
  unfold Obligations.DecodeOfEncode
  intro i rest hwf
  cases i with
  | fmMapall | stSweep | stPoll | stSyncsel | bpPump | tick | irqImm | irqDef | irq | cardReset | cardStart
  | cardStop => exact decode_wordN (by rfl) rest (by rfl)
  | regRds a | lineBusy a | fmMapd a | stObserve a | stStart a | stStop a | hdlcAttach a | hdlcDetach a
  | hdlcRxframe a | hdlcRxdrain a | hdlcTxchunk a | hdlcTxdrain a | lineTxtake a => exact decode_wordA (by rfl) a rest (by rfl)
  | regRd a b | fifoSel a b | fifoReset a b | fmMapb a b | stSetprio a b | lineState a b | bpXchg a b
  | lineBtxtake a b | lineFifoirq a b => exact decode_wordAB (by rfl) a b rest (by rfl)
  | regWr a c | regWrb a c => exact decode_wordAC (by rfl) a c rest (by rfl)
  | regRdx a b c | fifoIrq a b c | stForce a b c | ecReq a b c => exact decode_wordABC (by rfl) a b c rest (by rfl)
  | regWrx a b c v => exact decode_wordX (by rfl) a b c v rest (by rfl)
  | hdlcSubmit a bytes | lineRxframe a bytes | lineBrx a bytes =>
    exact decode_wordP (by rfl) a (of_decide_eq_true hwf) rest (fun _ => by rfl)
  | hostTxbuf a b bytes => exact decode_wordPB (by rfl) a b (of_decide_eq_true hwf) rest (by rfl)

/-! ### Encoding what was decoded (30_encoding.md R60 to R64) -/

/-- The words of a command of a format with the given opcode and operands. -/
def formatWords (fmt : Format) (op : Byte) (o : Operands) : List Word :=
  match fmt with
  | .n => wordN op
  | .a => wordA op o.a
  | .ab => wordAB op o.a o.b
  | .abc => wordABC op o.a o.b o.c
  | .ac => wordAC op o.a o.c
  | .x => wordX op o.a o.b o.c o.v
  | .p => wordP op o.a o.payload
  | .pb => wordPB op o.a o.b o.payload

/-- How many bytes a payload of a format must stay below (30_encoding.md R61). -/
def payloadBound : Format → Nat
  | .p => 65536
  | .pb => 256
  | _ => 1

/-- What a row of the table builds is encoded by the format and the opcode of the row. -/
theorem encode_build : ∀ r ∈ opTable, ∀ o, encode (r.2.2.2 o) = formatWords r.2.2.1 r.1 o := by
  simp only [opTable, opRowsAccess, opRowsMapper, opRowsState, opRowsFramer, opRowsBearer, opRowsCore,
    List.forall_mem_append, List.forall_mem_cons, List.not_mem_nil, false_imp_iff, encode, formatWords, implies_true,
    and_self]

theorem wellFormed_build : ∀ r ∈ opTable, ∀ o : Operands, o.payload.length < payloadBound r.2.2.1 →
    (r.2.2.2 o).wellFormed = true := by
  simp only [opTable, opRowsAccess, opRowsMapper, opRowsState, opRowsFramer, opRowsBearer, opRowsCore,
    List.forall_mem_append, List.forall_mem_cons, List.not_mem_nil, false_imp_iff, Instr.wellFormed, payloadBound,
    decide_eq_true_eq, imp_self, implies_true, and_self]

/-- The operands a format takes from words are those whose words they are. -/
theorem takeOperands_eq_ok {fmt : Format} {w : Word} {rest : List Word} {o : Operands}
    (hzero : w &&& fmt.mustBeZero = 0) (h : takeOperands fmt w rest = .ok o) :
    o.payload.length < payloadBound fmt ∧ fmt.words w ≤ (w :: rest).length ∧
      (formatWords fmt (fieldOp w) o).length = fmt.words w ∧
      formatWords fmt (fieldOp w) o = (w :: rest).take (fmt.words w) := by
  cases fmt with
  | n =>
    obtain ⟨hA, hB, hC⟩ := (mustBeZero_n_iff w).1 hzero
    cases h
    have hw := bytes4_fields w
    rw [hA, hB, hC] at hw
    simpa [formatWords, wordN_eq, Format.words, payloadBound] using hw
  | a =>
    obtain ⟨hB, hC⟩ := (mustBeZero_a_iff w).1 hzero
    cases h
    have hw := bytes4_fields w
    rw [hB, hC] at hw
    simpa [formatWords, wordA_eq, Format.words, payloadBound] using hw
  | ab =>
    have hC := (mustBeZero_ab_iff w).1 hzero
    cases h
    have hw := bytes4_fields w
    rw [hC] at hw
    simpa [formatWords, wordAB_eq, Format.words, payloadBound] using hw
  | ac =>
    have hB := (mustBeZero_ac_iff w).1 hzero
    cases h
    have hw := bytes4_fields w
    rw [hB] at hw
    simpa [formatWords, wordAC_eq, Format.words, payloadBound] using hw
  | abc =>
    cases h
    simp [formatWords, wordABC_eq, Format.words, payloadBound, bytes4_fields]
  | x =>
    cases rest with
    | nil => cases h
    | cons v more =>
      simp only [takeOperands] at h
      split at h
      · next hhigh =>
        cases h
        have hv : bytes4 0 0 0 (fieldC v) = v := by
          have hsplit : v.extractLsb' 8 24 ++ fieldC v = v :=
            (BitVec.extractLsb'_append_extractLsb'_eq_extractLsb' rfl).trans BitVec.extractLsb'_eq_self
          rw [hhigh] at hsplit
          exact hsplit
        simpa [formatWords, wordX_eq, Format.words, payloadBound, bytes4_fields] using hv
      · cases h
  | p =>
    simp only [takeOperands] at h
    split at h
    · next bytes hbytes =>
      cases h
      obtain ⟨hlen, hle, hpack⟩ := takePayload_eq_ok hbytes
      have hcount : BitVec.ofNat 16 bytes.length = w.extractLsb' 0 16 := by
        rw [hlen]
        exact (BitVec.ofNat_toNat ..).trans (BitVec.setWidth_eq _)
      have hword : (fieldOp w ++ fieldA w ++ BitVec.ofNat 16 bytes.length : Word) = w := by
        have hOpA : fieldOp w ++ fieldA w = w.extractLsb' 16 16 :=
          BitVec.extractLsb'_append_extractLsb'_eq_extractLsb' rfl
        have hall : w.extractLsb' 16 16 ++ w.extractLsb' 0 16 = w.extractLsb' 0 32 :=
          BitVec.extractLsb'_append_extractLsb'_eq_extractLsb' rfl
        rw [hcount, hOpA, hall, BitVec.extractLsb'_eq_self]
      refine ⟨?_, ?_, ?_, ?_⟩
      · rw [hlen]
        exact BitVec.isLt _
      · simp only [Format.words, List.length_cons]
        omega
      · simp only [formatWords, wordP, List.length_cons, length_packBytes, hlen, Format.words, Nat.add_comm]
      · simp only [formatWords, wordP, hword, hpack, Format.words, Nat.add_comm 1, List.take_succ_cons]
    · cases h
  | pb =>
    simp only [takeOperands] at h
    split at h
    · next bytes hbytes =>
      cases h
      obtain ⟨hlen, hle, hpack⟩ := takePayload_eq_ok hbytes
      have hcount : BitVec.ofNat 8 bytes.length = fieldC w := by
        rw [hlen]
        exact (BitVec.ofNat_toNat ..).trans (BitVec.setWidth_eq _)
      refine ⟨?_, ?_, ?_, ?_⟩
      · rw [hlen]
        exact BitVec.isLt _
      · simp only [Format.words, List.length_cons]
        omega
      · simp only [formatWords, wordPB, List.length_cons, length_packBytes, hlen, Format.words, Nat.add_comm]
      · simp only [formatWords, wordPB_eq, hcount, bytes4_fields, hpack, Format.words, Nat.add_comm 1,
          List.take_succ_cons]
    · cases h

/-- What decoded is what the row of its opcode builds of the operands its format takes. -/
theorem decode_eq_ok {ws : List Word} {i : Instr} {n : Nat} (h : decode ws = .ok (i, n)) :
    ∃ w rest, ws = w :: rest ∧ ∃ r ∈ opTable, r.1 = fieldOp w ∧ w &&& r.2.2.1.mustBeZero = 0 ∧
      ∃ o, takeOperands r.2.2.1 w rest = .ok o ∧ i = r.2.2.2 o ∧ n = r.2.2.1.words w := by
  cases ws with
  | nil => cases h
  | cons w rest =>
    refine ⟨w, rest, rfl, ?_⟩
    simp only [decode] at h
    split at h
    · cases h
    · next op name fmt build hrow =>
      obtain ⟨hmem, hop⟩ := opRow_eq_some_iff.1 hrow
      split at h
      · next hzero =>
        split at h
        · next o ho =>
          cases h
          exact ⟨_, hmem, hop, hzero, o, ho, rfl, rfl⟩
        · cases h
      · cases h

/-- Settles O3: the row found by the opcode, and the words its format takes. -/
theorem encodeOfDecode : Obligations.EncodeOfDecode := by
  unfold Obligations.EncodeOfDecode
  intro ws i n h
  obtain ⟨w, rest, rfl, r, hr, hop, hzero, o, ho, rfl, rfl⟩ := decode_eq_ok h
  obtain ⟨hbound, hle, hlen, hwords⟩ := takeOperands_eq_ok hzero ho
  have hencode : encode (r.2.2.2 o) = formatWords r.2.2.1 (fieldOp w) o := by
    rw [encode_build r hr o, hop]
  rw [hencode]
  exact ⟨wellFormed_build r hr o hbound, hlen.symm, hle, hwords⟩

/-- Settles O1: the decoder run on each of the words. -/
theorem writtenWordsDecode : Obligations.WrittenWordsDecode := by
  unfold Obligations.WrittenWordsDecode
  exact ⟨rfl, rfl, rfl, rfl, rfl, rfl, rfl, rfl, rfl, rfl⟩

end Sys2Proof.Encoding

/-! PROOFS of the invariants (10_state.md): what the operations leave of the parts of the state they do not name,
the machine's invariant, the alarms reported, the logs, the ticks and the accumulators. -/

namespace Sys2Proof.Invariants

open Sys2Proof Sys2Proof.Machine

/-! ### Changes outside what a property reads -/

/-- `t` is `s` but for the sessions, the host's buffers and the diagnostic log. -/
def SessHost (s t : State) : Prop :=
  t = { s with sess := t.sess, host := t.host, card := { s.card with diaglog := t.card.diaglog } }

/-- `t` is `s` but for the ports, the sessions, the host's buffers and the diagnostic log. -/
def PortSide (s t : State) : Prop :=
  t = { s with
    ports := t.ports, sess := t.sess, host := t.host, card := { s.card with diaglog := t.card.diaglog } }

theorem SessHost.portSide {s t : State} (h : SessHost s t) : PortSide s t := by
  unfold SessHost at h
  rw [h]
  rfl

theorem sessHost_hostPull (p cap : Nat) (s : State) : SessHost s (hostPull p cap s).2 := by
  have h := hostPull_eq p cap s
  generalize (hostPull p cap s).2 = t at h ⊢
  rw [h]
  rfl

theorem sessHost_decrement (p : Nat) (s : State) (g : Session → Session) :
    SessHost s ((decrement p s).modSession p g) := by
  have h := decrement_eq p s
  generalize decrement p s = t at h ⊢
  rw [h]
  rfl

/-- A transmit pass changes the hardware, the session and the host's queue only (43_hdlc_framer.md R139). -/
theorem chunk_of_sessHost {P : State → Prop} (A : AccessClosed P) (h : ∀ s t, SessHost s t → P s → P t) {p : Nat}
    (pt : Point) (f : Nat) (s : State) (more : Bool) (t : State) (hk : pt.Keeps P) (hs : P s)
    (e : txPassOn pt p f s = .ok (more, t)) : P t :=
  A.txPassOn_of hk (fun s cap => h s _ (sessHost_hostPull p cap s))
    (fun s => h s _ (sessHost_decrement p s _)) hs e

/-! ### What the operations on a port do to its entry -/

/-- `g` is what an operation on port `p` may do to its entry in the state `s`, but for a priority and a published
alarm (41_flow_mapper.md R95, R96, 42_st_state_machine.md R106 to R112). -/
inductive PortChange (s : State) (p : Nat) : (Port → Port) → Prop
  | record (sta : Byte) : PortChange s p fun q =>
      (({ q with state := sta } : Port).disarmIfClear (alarmClass s.cfg q.mode (stateCode sta).toNat)).debounce
        (alarmClass s.cfg q.mode (stateCode sta).toNat) (s.card.ticks + s.live.debounceMs)
  | stopT1 : PortChange s p fun q => { q with t1On := false }
  | stopT3 : PortChange s p fun q => { q with t3On := false }
  | armT1 : (s.port p).mode = .nt → PortChange s p fun q =>
      { q with t1Dl := s.card.ticks + s.live.t1Ms, t1On := true, t3On := false }
  | armT3 : (s.port p).mode = .te → PortChange s p fun q =>
      { q with
        t3First := false
        t3Dl := s.card.ticks + (if q.t3First then s.cfg.t3FirstMs else s.live.t3Ms)
        t3On := true
        t1On := false }
  | run : PortChange s p fun q => { q with spanRunning := true }
  | stop : PortChange s p fun q => { q with spanRunning := false, t1On := false, t3On := false }
  | map (role : Role) : PortChange s p fun q => q.setFifoNum role (fifoOf s.cfg p role)

/-- A property that survives the changes of port `p`'s entry, and reads neither the sessions nor the host's
buffers, survives the operations on port `p`. -/
theorem portClosed_of_portChange {P : State → Prop} {p : Nat} (A : AccessClosed P)
    (hmod : ∀ s g, PortChange s p g → P s → P (s.modPort p g)) (hside : ∀ s t, SessHost s t → P s → P t)
    (hreport : ∀ s len bytes, P s → P (reportFrame p len bytes s)) : PortClosed P p where
  toAccessClosed := A
  record s sta := hmod s _ (.record sta)
  stopT1 s := hmod s _ .stopT1
  stopT3 s := hmod s _ .stopT3
  armT1 s hm := hmod s _ (.armT1 hm)
  armT3 s hm := hmod s _ (.armT3 hm)
  run s := hmod s _ .run
  stop s := hmod s _ .stop
  submit s _ _ _ := hside s _ rfl
  txbuf s _ _ _ := hside s _ rfl
  map s role := hmod s _ (.map role)
  attach s := hside s _ rfl
  detach s := hside s _ rfl
  report := hreport
  chunk pt f s more t _ := chunk_of_sessHost A hside pt f s more t
  rxbuf s _ _ _ := hside s _ rfl

/-- A property that reads no port, no session and no host buffer survives the operations on a port. -/
theorem portClosed_of_portSide {P : State → Prop} {p : Nat} (A : AccessClosed P)
    (hside : ∀ s t, PortSide s t → P s → P t)
    (hreport : ∀ s len bytes, P s → P (reportFrame p len bytes s)) : PortClosed P p :=
  portClosed_of_portChange A (fun s _ _ => hside s _ rfl) (fun s t h => hside s t h.portSide) hreport

/-! ### The entries of the ports (10_state.md R13, R16, 42_st_state_machine.md R105) -/

theorem debounce_eq (q : Port) (v : Alarm) (d : Nat) :
    q.debounce v d = { q with
      newalarm := (q.debounce v d).newalarm, alarmtimer := (q.debounce v d).alarmtimer } := by
  unfold Port.debounce
  split <;> rfl

theorem disarmIfClear_eq (q : Port) (v : Alarm) :
    q.disarmIfClear v = { q with t1On := (q.disarmIfClear v).t1On, t3On := (q.disarmIfClear v).t3On } := by
  unfold Port.disarmIfClear
  split
  · cases q.mode <;> rfl
  · rfl

/-- An observation arms no timer. -/
theorem disarmIfClear_timers (q : Port) (v : Alarm) :
    ((q.disarmIfClear v).t1On = true → q.t1On = true) ∧ ((q.disarmIfClear v).t3On = true → q.t3On = true) := by
  unfold Port.disarmIfClear
  split
  · cases q.mode with
    | nt => exact ⟨nofun, id⟩
    | te => exact ⟨id, nofun⟩
  · exact ⟨id, id⟩

theorem setFifoNum_eq (q : Port) (role : Role) (f : Nat) :
    q.setFifoNum role f = { q with
      fifoB1 := (q.setFifoNum role f).fifoB1, fifoB2 := (q.setFifoNum role f).fifoB2
      fifoD := (q.setFifoNum role f).fifoD } := by
  cases role <;> rfl

/-- A port's entry as 10_state.md R13 and R16 describe it: the strapped mode, a priority of the card, T2 never
armed, T1 armed on NT ports only and T3 on TE ports only. -/
structure PortGood (c : Config) (p : Nat) (q : Port) : Prop where
  mode : q.mode = strappedMode c p
  prio : q.syncPrio ≤ c.nports.toNat
  t2 : q.t2On = false
  t1 : q.t1On = true → q.mode = .nt
  t3 : q.t3On = true → q.mode = .te

theorem PortChange.good {s : State} {p : Nat} {g : Port → Port} (h : PortChange s p g)
    (hq : PortGood s.cfg p (s.port p)) : PortGood s.cfg p (g (s.port p)) := by
  obtain ⟨hmode, hprio, ht2, ht1, ht3⟩ := hq
  cases h with
  | record sta =>
    dsimp only
    rw [debounce_eq, disarmIfClear_eq]
    have htimers := disarmIfClear_timers { s.port p with state := sta }
    exact ⟨hmode, hprio, ht2, fun h1 => ht1 ((htimers _).1 h1), fun h3 => ht3 ((htimers _).2 h3)⟩
  | stopT1 => exact ⟨hmode, hprio, ht2, nofun, ht3⟩
  | stopT3 => exact ⟨hmode, hprio, ht2, ht1, nofun⟩
  | armT1 hm => exact ⟨hmode, hprio, ht2, fun _ => hm, nofun⟩
  | armT3 hm => exact ⟨hmode, hprio, ht2, nofun, fun _ => hm⟩
  | run => exact ⟨hmode, hprio, ht2, ht1, ht3⟩
  | stop => exact ⟨hmode, hprio, ht2, nofun, nofun⟩
  | map role =>
    dsimp only
    rw [setFifoNum_eq]
    exact ⟨hmode, hprio, ht2, ht1, ht3⟩

/-- The service part of a good state: the configurations in range, every port's entry, the synchronization
source a port of the card. -/
structure ServiceGood (s : State) : Prop where
  cfg : s.cfg.valid = true
  strap : s.strap.valid = true
  ports : ∀ p < 8, PortGood s.cfg p (s.port p)
  sync : s.card.syncsrc = .auto ∨ ∃ p < s.nports, s.card.syncsrc = .port p

theorem serviceGood_iff (s : State) :
    ServiceGood s ↔ s.configured ∧ s.timersExclusive ∧ s.timersByMode := by
  constructor
  · rintro ⟨hcfg, hstrap, hports, hsync⟩
    refine ⟨⟨hcfg, hstrap, fun p hp => (hports p hp).mode, fun p hp => (hports p hp).prio, hsync⟩,
      fun p hp => ⟨?_, (hports p hp).t2⟩, fun p hp => ⟨(hports p hp).t1, (hports p hp).t3⟩⟩
    rintro ⟨h1, h3⟩
    have hnt := (hports p hp).t1 h1
    have hte := (hports p hp).t3 h3
    rw [hnt] at hte
    cases hte
  · rintro ⟨⟨hcfg, hstrap, hmode, hprio, hsync⟩, hexcl, hby⟩
    exact ⟨hcfg, hstrap, fun p hp => ⟨hmode p hp, hprio p hp, (hexcl p hp).2, (hby p hp).1, (hby p hp).2⟩, hsync⟩

theorem serviceGood_reads :
    Reads (fun s => (s.cfg, s.strap, s.ports, s.card.syncsrc)) ServiceGood where
  reads s t e h := by
    simp only [Prod.mk.injEq] at e
    obtain ⟨hc, hs, hp, hy⟩ := e
    refine ⟨hc ▸ h.cfg, hs ▸ h.strap, fun p hlt => ?_, ?_⟩
    · rw [State.port, hc, hp]
      exact h.ports p hlt
    · rw [State.nports, hc, hy]
      exact h.sync
  hwOnly s t h := by
    obtain ⟨hc, hs, -, hp, -, -, -, -, -, -, hy, -⟩ := h.fields
    simp only [hc, hs, hp, hy]
  sched _ _ := rfl
  live _ _ := rfl
  answered _ _ := rfl
  advance _ _ := rfl
  running _ _ := rfl
  fifoAcc _ _ := rfl
  miscAcc _ _ := rfl

theorem syncPrio_le_of_valid {c : Config} (hc : c.valid = true) {p : Nat} (hp : p < 8) :
    c.syncPrio[p]?.getD 0 ≤ c.nports.toNat := by
  simp only [Config.valid, Bool.and_eq_true, List.all_eq_true, decide_eq_true_eq] at hc
  rw [Vector.getElem?_eq_getElem hp]
  exact hc.2 _ (Vector.mem_toList_iff.2 (Vector.getElem_mem hp))

theorem serviceGood_reset {s : State} (h : s.strap.valid = true) : ServiceGood (resetCard s) := by
  refine ⟨h, h, fun p hp => ?_, .inl rfl⟩
  rw [port_resetCard s p hp]
  exact ⟨rfl, syncPrio_le_of_valid h hp, rfl, nofun, nofun⟩

theorem reportFrame_keeps_of_logs {P : State → Prop} {p : Nat}
    (h : ∀ (s : State) x, P s → P { s with sess := x })
    (hl : ∀ (s : State) x y, P s → P (s.modCard fun c => { c with hostlog := x, diaglog := y }))
    (s : State) (len : Nat) (bytes : List Byte) (hs : P s) : P (reportFrame p len bytes s) := by
  rw [reportFrame_eq]
  exact hl _ (reportFrame p len bytes s).card.hostlog (reportFrame p len bytes s).card.diaglog
    (h s (reportFrame p len bytes s).sess hs)

theorem serviceGood_portClosed (p : Nat) : PortClosed ServiceGood p := by
  have R := serviceGood_reads
  refine portClosed_of_portChange R.accessClosed (fun s g hg h => ?_) (fun s t e => R.reads s t ?_)
    (reportFrame_keeps_of_logs (fun s x => R.reads s _ rfl) (fun s x y => R.reads s _ rfl))
  · exact ⟨h.cfg, h.strap, ports_modPort (Q := PortGood s.cfg) h.ports fun hp => hg.good (h.ports p hp), h.sync⟩
  · rw [e]

theorem serviceGood_stepClosed : StepClosed (fun _ => True) True ServiceGood := by
  have R := serviceGood_reads
  refine R.stepClosed serviceGood_portClosed ?_ ?_ ?_ ?_ ?_ ?_ ?_
  · exact fun s c hc h => ⟨h.cfg, hc, h.ports, h.sync⟩
  · intro s p k _ hk h
    refine ⟨h.cfg, h.strap, ports_modPort (Q := PortGood s.cfg) h.ports fun hp => ?_, h.sync⟩
    obtain ⟨hmode, -, ht2, ht1, ht3⟩ := h.ports p hp
    exact ⟨hmode, hk, ht2, ht1, ht3⟩
  · intro s src hsrc h
    refine ⟨h.cfg, h.strap, h.ports, ?_⟩
    cases src with
    | auto => exact .inl rfl
    | port p => exact .inr ⟨p, hsrc p rfl, rfl⟩
  · exact fun s p rx1 rx2 => R.reads s _ rfl
  · intro _ s p _ h
    refine R.reads (s.modPort p fun q => { q with alarm := (s.port p).newalarm }) _ rfl ?_
    refine ⟨h.cfg, h.strap, ports_modPort (Q := PortGood s.cfg) h.ports fun hp => ?_, h.sync⟩
    obtain ⟨hmode, hprio, ht2, ht1, ht3⟩ := h.ports p hp
    exact ⟨hmode, hprio, ht2, ht1, ht3⟩
  · exact fun _ _ s => R.reads s _ rfl
  · exact fun _ s h => serviceGood_reset h.strap

/-! ### The host's queues and buffers (10_state.md R19, 43_hdlc_framer.md R138, R149) -/

/-- The queue of a port is well formed: no empty frame, and the part of its head already pulled less than it. -/
structure QueueGood (h : HostPort) : Prop where
  nonempty : ∀ fr ∈ h.txq, fr ≠ []
  fresh : h.txq = [] → h.txoff = 0
  begun : h.txq ≠ [] → h.txoff < (h.txq.headD []).length

/-- Every buffer of a port holds one chunk. -/
structure BuffersGood (chunk : Nat) (h : HostPort) : Prop where
  tx1 : h.txbufB1.length = chunk
  tx2 : h.txbufB2.length = chunk
  rx1 : h.rxbufB1.length = chunk
  rx2 : h.rxbufB2.length = chunk

/-- The session and the host's queue of a port agree, but for `off` frames pulled whole and not yet counted down. -/
structure PairGood (chunk off : Nat) (x : Session) (h : HostPort) : Prop where
  pending : x.pending = h.txq.length + off
  queue : QueueGood h
  buffers : BuffersGood chunk h

/-- The host part of a good state, `off` telling of each port how many frames are pulled whole and not yet counted
down: none between passes, one inside a pass (43_hdlc_framer.md R139, R149). -/
def HostGood (off : Nat → Nat) (s : State) : Prop :=
  ∀ q < 8, PairGood s.cfg.chunk (off q) (s.session q) (s.hostPort q)

/-- No frame is inside a pass. -/
def settled : Nat → Nat := fun _ => 0

/-- One frame of port `p` is inside a pass. -/
def inside (p : Nat) : Nat → Nat := fun q => if q = p then 1 else 0

theorem hostGood_settled_iff (s : State) : HostGood settled s ↔ s.backpressure ∧ s.chunkBuffers := by
  constructor
  · intro h
    refine ⟨fun q hq => ?_, fun q hq => ?_⟩
    · obtain ⟨hpend, ⟨h1, h2, h3⟩, -⟩ := h q hq
      exact ⟨hpend, h1, h2, h3⟩
    · obtain ⟨-, -, h1, h2, h3, h4⟩ := h q hq
      exact ⟨h1, h2, h3, h4⟩
  · rintro ⟨hback, hbuf⟩ q hq
    obtain ⟨hpend, h1, h2, h3⟩ := hback q hq
    obtain ⟨b1, b2, b3, b4⟩ := hbuf q hq
    exact ⟨hpend, ⟨h1, h2, h3⟩, ⟨b1, b2, b3, b4⟩⟩

theorem hostGood_reads (off : Nat → Nat) : Reads (fun s => (s.cfg, s.sess, s.host)) (HostGood off) where
  reads s t e h q hq := by
    simp only [Prod.mk.injEq] at e
    obtain ⟨hc, hs, hh⟩ := e
    rw [State.session, hs, State.hostPort, hh, hc]
    exact h q hq
  hwOnly s t h := by
    obtain ⟨hc, -, -, -, hs, hh, -⟩ := h.fields
    simp only [hc, hs, hh]
  sched _ _ := rfl
  live _ _ := rfl
  answered _ _ := rfl
  advance _ _ := rfl
  running _ _ := rfl
  fifoAcc _ _ := rfl
  miscAcc _ _ := rfl

/-- A property that reads only its key survives what other agents may do inside a FIFO section if the few changes
that reach its key keep it. -/
theorem fifoClosed_of_reads {K : Type} {key : State → K} {P : State → Prop} (R : Reads key P)
    (span : ∀ p, SpanClosed P p)
    (prio : ∀ s p k, p < s.nports → k ≤ s.nports → P s → P (s.modPort p fun q => { q with syncPrio := k }))
    (sync : ∀ s src, (∀ p, src = .port p → p < s.nports) → P s → P (s.modCard fun c => { c with syncsrc := src }))
    (strap : ∀ (s : State) (c : Config), c.valid = true → P s → P { s with strap := c }) : FifoClosed P where
  toAccessClosed := R.accessClosed
  toLineClosed := .of_hwOnly R.hardware
  span := span
  prio := prio
  sync := sync
  strap := strap
  live s l := R.reads s _ (R.live s l)
  pop s := R.reads s _ (R.sched s s.sched.tail)
  running s b := R.reads s _ (R.running s b)
  accumulate s b h :=
    R.reads (readEffect (.fifoStat b) s) _ (R.fifoAcc _ (s.card.fifoAcc.setIfInBounds b.val _))
      (R.hardware s _ (readEffect_hwOnly _ s) h)
  accumulateMisc s h :=
    R.reads (readEffect .miscStat s) _ (R.miscAcc _ (s.card.miscAcc ||| s.hw.miscStat))
      (R.hardware s _ (readEffect_hwOnly _ s) h)

/-- One port's session and host entry replaced by a good pair. -/
theorem HostGood.set {off off' : Nat → Nat} {s : State} (h : HostGood off s) {p : Nat}
    (hoff : ∀ q, q ≠ p → off' q = off q) {x : Session} {y : HostPort}
    (hp : p < 8 → PairGood s.cfg.chunk (off' p) x y) : HostGood off' ((s.setHostPort p y).setSession p x) := by
  intro q hq
  by_cases hqp : q = p
  · subst hqp
    rw [session_setSession _ _ _ hq, setSession_hostPort, hostPort_setHostPort _ _ _ hq]
    exact hp hq
  · rw [session_setSession_ne _ _ _ _ hqp, setSession_hostPort, hostPort_setHostPort_ne _ _ _ _ hqp, hoff q hqp]
    exact h q hq

theorem HostGood.setHostPort {off off' : Nat → Nat} {s : State} (h : HostGood off s) {p : Nat}
    (hoff : ∀ q, q ≠ p → off' q = off q) {y : HostPort}
    (hp : p < 8 → PairGood s.cfg.chunk (off' p) (s.session p) y) : HostGood off' (s.setHostPort p y) := by
  have hset := h.set hoff (y := y) hp
  have hself := setSession_session (s.setHostPort p y) p
  rw [setHostPort_session] at hself
  rwa [hself] at hset

theorem HostGood.setSession {off off' : Nat → Nat} {s : State} (h : HostGood off s) {p : Nat}
    (hoff : ∀ q, q ≠ p → off' q = off q) {x : Session}
    (hp : p < 8 → PairGood s.cfg.chunk (off' p) x (s.hostPort p)) : HostGood off' (s.setSession p x) := by
  have hset := h.set hoff (x := x) hp
  rwa [setHostPort_hostPort] at hset

theorem BuffersGood.setTxbuf {chunk : Nat} {h : HostPort} (hb : BuffersGood chunk h) (role : Role) {bytes : List Byte}
    (hl : bytes.length = chunk) : BuffersGood chunk (h.setTxbuf role bytes) := by
  obtain ⟨h1, h2, h3, h4⟩ := hb
  cases role with
  | b1 | d => exact ⟨hl, h2, h3, h4⟩
  | b2 => exact ⟨h1, hl, h3, h4⟩

theorem BuffersGood.setRxbuf {chunk : Nat} {h : HostPort} (hb : BuffersGood chunk h) (role : Role) {bytes : List Byte}
    (hl : bytes.length = chunk) : BuffersGood chunk (h.setRxbuf role bytes) := by
  obtain ⟨h1, h2, h3, h4⟩ := hb
  cases role with
  | b1 | d => exact ⟨h1, h2, hl, h4⟩
  | b2 => exact ⟨h1, h2, h3, hl⟩

theorem setTxbuf_queue (h : HostPort) (role : Role) (bytes : List Byte) :
    (h.setTxbuf role bytes).txq = h.txq ∧ (h.setTxbuf role bytes).txoff = h.txoff := by
  cases role <;> exact ⟨rfl, rfl⟩

theorem setRxbuf_queue (h : HostPort) (role : Role) (bytes : List Byte) :
    (h.setRxbuf role bytes).txq = h.txq ∧ (h.setRxbuf role bytes).txoff = h.txoff := by
  cases role <;> exact ⟨rfl, rfl⟩

/-- A pair stays good while neither the queue nor the counter changes. -/
theorem PairGood.of_queue {chunk off : Nat} {x x' : Session} {h h' : HostPort} (hg : PairGood chunk off x h)
    (hx : x'.pending = x.pending) (hq : h'.txq = h.txq ∧ h'.txoff = h.txoff) (hb : BuffersGood chunk h') :
    PairGood chunk off x' h' := by
  obtain ⟨hpend, ⟨h1, h2, h3⟩, -⟩ := hg
  obtain ⟨htxq, htxoff⟩ := hq
  refine ⟨by rw [hx, htxq]; exact hpend, ⟨?_, ?_, ?_⟩, hb⟩
  · rwa [htxq]
  · rwa [htxq, htxoff]
  · rwa [htxq, htxoff]

/-- A frame submitted is counted (43_hdlc_framer.md R137). -/
theorem HostGood.submit {off : Nat → Nat} {s : State} (h : HostGood off s) {p : Nat} {frame : Frame}
    (hf : frame ≠ []) : HostGood off (submitFrame p frame s) := by
  refine h.set (fun _ _ => rfl) fun hp => ?_
  obtain ⟨hpend, ⟨h1, h2, h3⟩, hb⟩ := h p hp
  refine ⟨?_, ⟨fun fr hfr => ?_, fun hnil => ?_, fun _ => ?_⟩, ⟨hb.tx1, hb.tx2, hb.rx1, hb.rx2⟩⟩
  · change (s.session p).pending + 1 = ((s.hostPort p).txq ++ [frame]).length + off p
    rw [hpend, List.length_append, List.length_singleton]
    omega
  · rcases List.mem_append.1 hfr with hold | hnew
    · exact h1 fr hold
    · rw [List.mem_singleton.1 hnew]
      exact hf
  · simp at hnil
  · cases hq : (s.hostPort p).txq with
    | nil =>
      simp only [hq, List.nil_append, List.headD_cons, h2 hq]
      exact List.length_pos_iff.2 hf
    | cons fr rest =>
      rw [hq] at h3
      simpa only [hq, List.cons_append, List.headD_cons] using h3 (by simp)

/-- The host part of a good state survives what other agents do inside a transmit pass, whatever frames are
inside it: they submit and fill buffers, but pull nothing and count nothing down (20_memory.md R54). -/
theorem hostGood_spanClosed (off : Nat → Nat) (p : Nat) : SpanClosed (HostGood off) p where
  toAccessClosed := (hostGood_reads off).accessClosed
  record s _ := (hostGood_reads off).reads s _ rfl
  stopT1 s := (hostGood_reads off).reads s _ rfl
  stopT3 s := (hostGood_reads off).reads s _ rfl
  armT1 s _ := (hostGood_reads off).reads s _ rfl
  armT3 s _ := (hostGood_reads off).reads s _ rfl
  run s := (hostGood_reads off).reads s _ rfl
  stop s := (hostGood_reads off).reads s _ rfl
  submit _ _ hf _ h := h.submit hf
  txbuf _ role bytes hl h := h.setHostPort (fun _ _ => rfl) fun hp =>
    (h p hp).of_queue rfl (setTxbuf_queue _ role bytes) ((h p hp).buffers.setTxbuf role hl)

theorem hostGood_fifoClosed (off : Nat → Nat) : FifoClosed (HostGood off) :=
  fifoClosed_of_reads (hostGood_reads off) (hostGood_spanClosed off)
    (fun s _ _ _ _ => (hostGood_reads off).reads s _ rfl) (fun s _ _ => (hostGood_reads off).reads s _ rfl)
    (fun s _ _ => (hostGood_reads off).reads s _ rfl)

/-- A pull that ends its frame takes it from the queue; it is then inside the pass. A pull that does not leaves
the frame begun, and the queue as long as it was (43_hdlc_framer.md R138). -/
theorem HostGood.pull {p cap : Nat} {s t : State} {bytes : List Byte} {r : Pull} (h : HostGood settled s)
    (e : hostPull p cap s = ((bytes, r), t)) :
    HostGood (if r = .done then inside p else settled) t := by
  unfold hostPull at e
  dsimp only at e
  cases hq : (s.hostPort p).txq with
  | nil =>
    rw [hq] at e
    cases e
    exact h
  | cons fr rest =>
    rw [hq] at e
    dsimp only at e
    split at e
    · cases e
      rw [if_pos rfl]
      refine h.setHostPort (fun q hqp => by simp [inside, settled, hqp]) fun hp => ?_
      obtain ⟨hpend, ⟨h1, -, -⟩, hb⟩ := h p hp
      rw [hq] at hpend h1
      refine ⟨by simpa [inside, settled] using hpend, ⟨fun x hx => h1 x (List.mem_cons_of_mem _ hx), fun _ => rfl,
        fun hne => ?_⟩, ⟨hb.tx1, hb.tx2, hb.rx1, hb.rx2⟩⟩
      cases rest with
      | nil => exact absurd rfl hne
      | cons fr' rest' => exact List.length_pos_iff.2 (h1 fr' (by simp))
    · next hmore =>
      cases e
      rw [if_neg (by decide)]
      refine h.setHostPort (fun _ _ => rfl) fun hp => ?_
      obtain ⟨hpend, ⟨h1, -, h3⟩, hb⟩ := h p hp
      rw [hq] at hpend h1 h3
      have hlt := h3 (List.cons_ne_nil fr rest)
      refine ⟨hpend, ⟨h1, nofun, fun _ => ?_⟩, ⟨hb.tx1, hb.tx2, hb.rx1, hb.rx2⟩⟩
      simp only [List.headD_cons] at hlt ⊢
      omega

/-- A frame that leaves the pass is counted down (43_hdlc_framer.md R139, R140). -/
theorem HostGood.countDown {p : Nat} {s : State} (h : HostGood (inside p) s) :
    HostGood settled ((decrement p s).modSession p fun x => { x with framesOut := x.framesOut + 1 }) := by
  by_cases hp : p < 8
  · obtain ⟨hpend, hqueue, hbuf⟩ := h p hp
    have hin : inside p p = 1 := if_pos rfl
    rw [hin] at hpend
    have hpos : 0 < (s.session p).pending := by omega
    rw [decrement, if_pos hpos, modSession_modSession _ _ _ _ hp]
    refine h.setSession (fun q hqp => by simp [inside, settled, hqp]) fun _ => ⟨?_, hqueue, hbuf⟩
    change (s.session p).pending - 1 = (s.hostPort p).txq.length
    omega
  · intro q hq
    have hqp : q ≠ p := by omega
    have hkeep : HostGood (inside p) ((decrement p s).modSession p fun x => { x with framesOut := x.framesOut + 1 }) := by
      refine HostGood.setSession (off := inside p) ?_ (fun _ _ => rfl) fun hlt => absurd hlt hp
      unfold decrement
      split
      · exact h.setSession (fun _ _ => rfl) fun hlt => absurd hlt hp
      · exact (hostGood_reads _).reads s _ rfl h
    have hgood := hkeep q hq
    rwa [inside, if_neg hqp] at hgood

/-- A transmit pass as a whole leaves queue and counter in agreement (43_hdlc_framer.md R139, R149). -/
theorem hostGood_txPassOn {pt : Point} {p f : Nat} {s t : State} {more : Bool} (hpt : FifoPoint pt)
    (h : HostGood settled s) (e : txPassOn pt p f s = .ok (more, t)) : HostGood settled t := by
  have keeps : ∀ off, pt.Keeps (HostGood off) := fun off => hpt _ (hostGood_fifoClosed off)
  have A : ∀ off, AccessClosed (HostGood off) := fun off => (hostGood_reads off).accessClosed
  unfold txPassOn at e
  split at e
  · rcases hpull : hostPull p s.cfg.hdlcCap s with ⟨⟨bytes, r⟩, u⟩
    rw [hpull] at e
    dsimp only at e
    obtain ⟨v, hv, e⟩ := bind_eq_ok.1 e
    obtain ⟨w, hw, e⟩ := bind_eq_ok.1 e
    have hu := h.pull hpull
    have hw := (A _).writeBytes (keeps _) (byte := fun b _ => b) ((A _).fifoSelect (keeps _) hu hv) hw
    cases r with
    | done =>
      obtain ⟨x, hx, e⟩ := bind_eq_ok.1 e
      cases e
      exact HostGood.countDown ((A _).wrb (keeps _) hw hx)
    | more =>
      obtain ⟨x, hx, e⟩ := bind_eq_ok.1 e
      cases e
      exact (A _).setIrqEn (keeps _) hw hx
    | noFrames =>
      obtain ⟨x, hx, e⟩ := bind_eq_ok.1 e
      cases e
      exact (A _).setIrqEn (keeps _) hw hx
  · obtain ⟨u, hu, e⟩ := bind_eq_ok.1 e
    cases e
    exact (A _).fifoIrqSection (keeps _) h hu

theorem QueueGood.empty {h : HostPort} : QueueGood { h with txq := [], txoff := 0 } :=
  ⟨nofun, fun _ => rfl, fun hne => absurd rfl hne⟩

theorem hostGood_portClosed (p : Nat) : PortClosed (HostGood settled) p where
  toSpanClosed := hostGood_spanClosed settled p
  map s _ := (hostGood_reads settled).reads s _ rfl
  attach s h := h.set (fun _ _ => rfl) fun hp =>
    ⟨rfl, .empty, ⟨(h p hp).buffers.tx1, (h p hp).buffers.tx2, (h p hp).buffers.rx1, (h p hp).buffers.rx2⟩⟩
  detach s h := h.set (fun _ _ => rfl) fun hp =>
    ⟨rfl, .empty, ⟨(h p hp).buffers.tx1, (h p hp).buffers.tx2, (h p hp).buffers.rx1, (h p hp).buffers.rx2⟩⟩
  report s len bytes h := by
    have hkeep : HostGood settled (s.modSession p fun x => { x with framesIn := x.framesIn + 1 }) :=
      h.setSession (fun _ _ => rfl) fun hp => (h p hp).of_queue rfl ⟨rfl, rfl⟩ (h p hp).buffers
    refine (hostGood_reads settled).reads _ _ ?_ hkeep
    unfold reportFrame
    dsimp only
    split <;> split <;> rfl
  chunk _ _ _ _ _ hpt _ h e := hostGood_txPassOn hpt h e
  rxbuf s role bytes hl h := h.setHostPort (fun _ _ => rfl) fun hp =>
    (h p hp).of_queue rfl (setRxbuf_queue _ role bytes) ((h p hp).buffers.setRxbuf role hl)

theorem hostGood_reset (s : State) : HostGood settled (resetCard s) := by
  intro q hq
  have hsess : (resetCard s).session q = Session.reset := by
    change (Vector.replicate 8 Session.reset)[q]?.getD default = _
    simp [hq]
  have hhost : (resetCard s).hostPort q = HostPort.reset s.strap.chunk := by
    change (Vector.replicate 8 (HostPort.reset s.strap.chunk))[q]?.getD default = _
    simp [hq]
  rw [hsess, hhost]
  exact ⟨rfl, .empty (h := HostPort.reset s.strap.chunk),
    ⟨List.length_replicate, List.length_replicate, List.length_replicate, List.length_replicate⟩⟩

theorem hostGood_stepClosed : StepClosed (fun _ => True) True (HostGood settled) := by
  have R := hostGood_reads settled
  exact R.stepClosed hostGood_portClosed (fun s _ _ => R.reads s _ rfl) (fun s _ _ _ _ => R.reads s _ rfl)
    (fun s _ _ => R.reads s _ rfl) (fun s _ _ _ => R.reads s _ rfl) (fun _ s _ _ => R.reads s _ rfl)
    (fun _ _ s => R.reads s _ rfl) (fun _ s _ => hostGood_reset s)

end Sys2Proof.Invariants

namespace Sys2Proof.Invariants

open Sys2Proof Sys2Proof.Machine

/-! ### The hardware of a good state (10_state.md R24 to R40) -/

/-- A property that reads only the configuration, the hardware and the accumulated tick bits survives every step
once the accesses and the steps of the line and tick agents, and a reset, keep it. -/
theorem stepClosed_of_hardware {P : State → Prop}
    (reads : ∀ s t : State, t.cfg = s.cfg → t.hw = s.hw → t.card.miscAcc = s.card.miscAcc → P s → P t)
    (read : ∀ r s v, P s → readValue r s = .ok v → P (readEffect r s))
    (write : ∀ r v s t, P s → v &&& r.reserved = 0 → writeEffect r v s = .ok t → P t) (line : LineClosed P)
    (accumulate : ∀ s, P s → P ((readEffect .miscStat s).modCard fun c => { c with miscAcc := c.miscAcc ||| s.hw.miscStat }))
    (clear : ∀ s, P s → P (s.modCard fun c => { c with miscAcc := c.miscAcc ^^^ 0x02 }))
    (reset : ∀ s, P s → P (resetCard s)) : StepClosed (fun _ => True) True P := by
  have A : AccessClosed P :=
    { line := fun s => line.linePoint fun s => reads s _ rfl rfl rfl
      read := read
      write := write
      draw := fun s => reads s _ rfl rfl rfl
      diag := fun s _ => reads s _ rfl rfl rfl }
  have hside : ∀ s t, PortSide s t → P s → P t := by
    intro s t h
    unfold PortSide at h
    refine reads s t ?_ ?_ ?_ <;> rw [h]
  have ports : ∀ p, PortClosed P p := fun p =>
    portClosed_of_portSide A hside
      (reportFrame_keeps_of_logs (fun s _ => reads s _ rfl rfl rfl) fun s _ _ => reads s _ rfl rfl rfl)
  have publish : PublishClosed P := fun s _ _ => reads s _ rfl rfl rfl
  exact
    { toAccessClosed := A
      toLineClosed := line
      span := fun p => (ports p).toSpanClosed
      port := ports
      prio := fun s _ _ _ _ => reads s _ rfl rfl rfl
      sync := fun s _ _ => reads s _ rfl rfl rfl
      hooks := fun s _ _ _ => reads s _ rfl rfl rfl
      publish := fun _ => publish
      deferred := fun _ _ =>
        { publish := publish
          clearAcc := fun s _ _ _ => reads s _ rfl rfl rfl
          count := fun s => reads s _ rfl rfl rfl
          clear := clear }
      reset := fun _ => reset
      strap := fun s _ _ => reads s _ rfl rfl rfl
      live := fun s _ => reads s _ rfl rfl rfl
      pop := fun s => reads s _ rfl rfl rfl
      running := fun s _ => reads s _ rfl rfl rfl
      accumulate := fun s b h =>
        reads (readEffect (.fifoStat b) s) _ rfl rfl rfl (read (.fifoStat b) s _ h rfl)
      accumulateMisc := accumulate }

/-! ### The registers -/

/-- The registers of a card of `n` ports have 0 in the bits that must be 0. -/
structure RegsGood (n : Nat) (acc : Byte) (h : Hardware) : Prop where
  stSel : h.stSel &&& 0xF8 = 0
  syncSel : h.syncSel &&& 0xF0 = 0
  fifoSel : h.fifoSel &&& 0x60 = 0
  tickCtrl : h.tickCtrl &&& 0xFC = 0
  miscStat : h.miscStat &&& 0xFD = 0
  miscAcc : acc &&& 0xFD = 0
  sci : ∀ p < 8, n ≤ p → h.sci.getLsbD p = false

/-- The registers of the state `s`, and its accumulated tick bits, are good. -/
def CardRegsGood (s : State) : Prop := RegsGood s.nports s.card.miscAcc s.hw

/-- A bit set for a port of the card is not the bit of an absent one. -/
theorem getLsbD_or_bit_of_ne {x : Byte} {p q : Nat} (hq : q < 8) (hpq : q ≠ p) (hx : x.getLsbD q = false) :
    (x ||| (1#8 <<< p)).getLsbD q = false := by
  simp only [BitVec.getLsbD_or, hx, Bool.false_or, BitVec.getLsbD_shiftLeft, BitVec.getLsbD_one]
  simp
  omega

theorem or_and_eq_zero {x y m : Byte} (hx : x &&& m = 0) (hy : y &&& m = 0) : (x ||| y) &&& m = 0 := by
  rw [BitVec.and_comm, BitVec.and_or_distrib_left, BitVec.and_comm, hx, BitVec.and_comm, hy]
  rfl

theorem xor_and_eq_zero {x y m : Byte} (hx : x &&& m = 0) (hy : y &&& m = 0) : (x ^^^ y) &&& m = 0 := by
  have h : (x ^^^ y) &&& m = (x &&& m) ^^^ (y &&& m) := by
    ext i hi
    simp only [BitVec.getElem_and, BitVec.getElem_xor]
    cases m[i] <;> simp
  rw [h, hx, hy]
  rfl

/-- The registers stay good while no register but the FIFO storage and the busy flag changes. -/
theorem CardRegsGood.modFifo {s : State} (h : CardRegsGood s) (f : Nat) (g : Fifo → Fifo) :
    CardRegsGood (s.modFifo f g) := ⟨h.stSel, h.syncSel, h.fifoSel, h.tickCtrl, h.miscStat, h.miscAcc, h.sci⟩

theorem cardRegsGood_lineClosed : LineClosed CardRegsGood where
  busy _ _ h := ⟨h.stSel, h.syncSel, h.fifoSel, h.tickCtrl, h.miscStat, h.miscAcc, h.sci⟩
  lineState s p b hp _ h :=
    ⟨h.stSel, h.syncSel, h.fifoSel, h.tickCtrl, h.miscStat, h.miscAcc,
      fun _ hq hn => getLsbD_or_bit_of_ne hq
        (by rintro rfl; exact absurd hp (Nat.not_lt.2 hn)) (h.sci _ hq hn)⟩
  event _ _ _ _ h := ⟨h.stSel, h.syncSel, h.fifoSel, h.tickCtrl, h.miscStat, h.miscAcc, h.sci⟩
  rxframe _ _ _ _ _ _ _ h := ⟨h.stSel, h.syncSel, h.fifoSel, h.tickCtrl, h.miscStat, h.miscAcc, h.sci⟩
  txtake _ _ _ _ _ _ h := ⟨h.stSel, h.syncSel, h.fifoSel, h.tickCtrl, h.miscStat, h.miscAcc, h.sci⟩
  brx _ _ _ _ _ h := ⟨h.stSel, h.syncSel, h.fifoSel, h.tickCtrl, h.miscStat, h.miscAcc, h.sci⟩
  btxtake _ _ _ _ _ h := ⟨h.stSel, h.syncSel, h.fifoSel, h.tickCtrl, h.miscStat, h.miscAcc, h.sci⟩
  tick _ h :=
    ⟨h.stSel, h.syncSel, h.fifoSel, h.tickCtrl, or_and_eq_zero h.miscStat (by decide), h.miscAcc, h.sci⟩

theorem cardRegsGood_read (r : Reg) (s : State) (h : CardRegsGood s) : CardRegsGood (readEffect r s) := by
  cases r with
  | miscStat => exact ⟨h.stSel, h.syncSel, h.fifoSel, h.tickCtrl, BitVec.zero_and, h.miscAcc, h.sci⟩
  | sci => exact ⟨h.stSel, h.syncSel, h.fifoSel, h.tickCtrl, h.miscStat, h.miscAcc, fun _ _ _ => BitVec.getLsbD_zero⟩
  | fifoStat b => exact ⟨h.stSel, h.syncSel, h.fifoSel, h.tickCtrl, h.miscStat, h.miscAcc, h.sci⟩
  | fifoData => exact h.modFifo _ _
  | _ => exact h

/-- What a write of a register changes, but for the registers it stores, is the storage and the pending bits of
a FIFO and a latch. -/
theorem cardRegsGood_write {r : Reg} {v : Byte} {s t : State} (h : CardRegsGood s) (hv : v &&& r.reserved = 0)
    (e : writeEffect r v s = .ok t) : CardRegsGood t := by
  cases r with
  | stSel => cases e; exact ⟨hv, h.syncSel, h.fifoSel, h.tickCtrl, h.miscStat, h.miscAcc, h.sci⟩
  | syncSel => cases e; exact ⟨h.stSel, hv, h.fifoSel, h.tickCtrl, h.miscStat, h.miscAcc, h.sci⟩
  | fifoSel => cases e; exact ⟨h.stSel, h.syncSel, hv, h.tickCtrl, h.miscStat, h.miscAcc, h.sci⟩
  | tickCtrl => cases e; exact ⟨h.stSel, h.syncSel, h.fifoSel, hv, h.miscStat, h.miscAcc, h.sci⟩
  | stRd => obtain ⟨p, -, rfl⟩ := map_eq_ok.1 e; exact h
  | stWr =>
    obtain ⟨p, -, rfl⟩ := map_eq_ok.1 e
    exact ⟨h.stSel, h.syncSel, h.fifoSel, h.tickCtrl, h.miscStat, h.miscAcc, h.sci⟩
  | fifoData =>
    change writeData v s = .ok t at e
    unfold writeData at e
    split at e
    · cases e
    · split at e <;> cases e
      exact h.modFifo _ _
  | fifoCmd =>
    change writeCmd v s = .ok t at e
    unfold writeCmd at e
    split at e
    · cases e
      exact ⟨h.stSel, h.syncSel, h.fifoSel, h.tickCtrl, h.miscStat, h.miscAcc, h.sci⟩
    · split at e
      · unfold advanceFrame at e
        dsimp only at e
        split at e
        · split at e <;> cases e
          exact h.modFifo _ fun _ => _
        · split at e
          · cases e
          · split at e <;> cases e
            exact h.modFifo _ fun _ => _
      · cases e; exact h
  | fifoCtrl | fcChan | fcSlot => cases e; exact h.modFifo _ _
  | _ => cases e; exact h

theorem cardRegsGood_reset (s : State) : CardRegsGood (resetCard s) :=
  ⟨BitVec.zero_and, BitVec.zero_and, BitVec.zero_and, BitVec.zero_and, BitVec.zero_and, BitVec.zero_and,
    fun _ _ _ => BitVec.getLsbD_zero⟩

theorem cardRegsGood_stepClosed : StepClosed (fun _ => True) True CardRegsGood := by
  refine stepClosed_of_hardware ?_ (fun r s _ h _ => cardRegsGood_read r s h)
    (fun _ _ _ _ h hv e => cardRegsGood_write h hv e) cardRegsGood_lineClosed ?_ ?_ ?_
  · intro s t hc hh hm h
    unfold CardRegsGood State.nports at h ⊢
    rwa [hc, hh, hm]
  · exact fun s h => ⟨h.stSel, h.syncSel, h.fifoSel, h.tickCtrl, BitVec.zero_and, or_and_eq_zero h.miscAcc h.miscStat, h.sci⟩
  · exact fun s h =>
      ⟨h.stSel, h.syncSel, h.fifoSel, h.tickCtrl, h.miscStat, xor_and_eq_zero h.miscAcc (by decide), h.sci⟩
  · exact fun s _ => cardRegsGood_reset s

/-! ### The FIFOs -/

/-- A FIFO number as 10_state.md R35 to R37 and R40 describe it. -/
structure FifoGood (depth fmax : Nat) (x : Fifo) : Prop where
  rxRegs : x.rxRegs.reservedZero
  txRegs : x.txRegs.reservedZero
  rxFrames : ∀ fr ∈ x.rxq, fr ≠ []
  txFrames : ∀ fr ∈ x.txclosed, fr ≠ []
  pos : x.rxpos ≤ (x.rxq.headD []).length
  rxCount : x.rxq.length ≤ fmax
  txCount : x.txclosed.length ≤ fmax
  rxBytes : frameBytes x.rxq + x.brx.length ≤ depth
  txBytes : frameBytes x.txclosed + x.txopen.length + x.btx.length ≤ depth

/-- Every FIFO of the card is good. -/
def FifosGood (s : State) : Prop := ∀ f < 32, FifoGood s.cfg.fifoDepth s.cfg.fmax (s.fifo f)

/-- A FIFO with its storage in a transfer: what a proof about a part of it has to give. -/
theorem FifosGood.modFifo {s : State} (h : FifosGood s) {f : Nat} {g : Fifo → Fifo}
    (hg : FifoGood s.cfg.fifoDepth s.cfg.fmax (s.fifo f) → FifoGood s.cfg.fifoDepth s.cfg.fmax (g (s.fifo f))) :
    FifosGood (s.modFifo f g) :=
  fifos_modFifo (Q := fun _ => FifoGood s.cfg.fifoDepth s.cfg.fmax) h fun hf => hg (h f hf)

theorem FifosGood.setFifo {s : State} (h : FifosGood s) {f : Nat} {x : Fifo}
    (hx : FifoGood s.cfg.fifoDepth s.cfg.fmax (s.fifo f) → FifoGood s.cfg.fifoDepth s.cfg.fmax x) :
    FifosGood (s.setFifo f x) :=
  h.modFifo (g := fun _ => x) hx

@[simp] theorem frameBytes_nil : frameBytes [] = 0 := rfl

@[simp] theorem frameBytes_cons (fr : Frame) (fs : List Frame) : frameBytes (fr :: fs) = fr.length + frameBytes fs := rfl

@[simp] theorem frameBytes_append (fs gs : List Frame) : frameBytes (fs ++ gs) = frameBytes fs + frameBytes gs := by
  simp [frameBytes]

/-- The receive registers of a good FIFO replaced by good ones. -/
theorem FifoGood.modRegs {depth fmax : Nat} {x : Fifo} (h : FifoGood depth fmax x) (d : Dir) {g : FifoRegs → FifoRegs}
    (hg : ∀ c : FifoRegs, c.reservedZero → (g c).reservedZero) : FifoGood depth fmax (x.modRegs d g) := by
  obtain ⟨h1, h2, h3, h4, h5, h6, h7, h8, h9⟩ := h
  cases d with
  | tx => exact ⟨h1, hg _ h2, h3, h4, h5, h6, h7, h8, h9⟩
  | rx => exact ⟨hg _ h1, h2, h3, h4, h5, h6, h7, h8, h9⟩

theorem FifoGood.emptied {depth fmax : Nat} {x : Fifo} (h : FifoGood depth fmax x) (d : Dir) :
    FifoGood depth fmax (x.emptied d) := by
  obtain ⟨h1, h2, h3, h4, h5, h6, h7, h8, h9⟩ := h
  cases d with
  | tx => exact ⟨h1, h2, h3, nofun, h5, h6, Nat.zero_le _, h8, Nat.zero_le _⟩
  | rx => exact ⟨h1, h2, nofun, h4, Nat.zero_le _, Nat.zero_le _, h7, Nat.zero_le _, h9⟩

/-- The read position passes a byte that stands in the head frame, no further. -/
theorem FifoGood.popped {depth fmax : Nat} {x : Fifo} {b : Byte} (h : FifoGood depth fmax x)
    (hb : x.front = some b) : FifoGood depth fmax x.popped := by
  obtain ⟨h1, h2, h3, h4, h5, h6, h7, h8, h9⟩ := h
  unfold Fifo.front at hb
  unfold Fifo.popped
  split
  · next hm =>
    rw [if_pos hm] at hb
    refine ⟨h1, h2, h3, h4, ?_, h6, h7, h8, h9⟩
    cases hq : x.rxq with
    | nil => simp [hq] at hb
    | cons fr rest =>
      simp only [hq, List.head?_cons, Option.bind_some] at hb
      exact (List.getElem?_eq_some_iff.1 hb).1
  · refine ⟨h1, h2, h3, h4, h5, h6, h7, ?_, h9⟩
    change frameBytes x.rxq + x.brx.tail.length ≤ depth
    rw [List.length_tail]
    omega

theorem FifoGood.pushed {depth fmax : Nat} {x : Fifo} (h : FifoGood depth fmax x) (hd : x.txStored < depth)
    (v : Byte) : FifoGood depth fmax (x.pushed v) := by
  obtain ⟨h1, h2, h3, h4, h5, h6, h7, h8, h9⟩ := h
  unfold Fifo.txStored at hd
  unfold Fifo.pushed
  split
  · refine ⟨h1, h2, h3, h4, h5, h6, h7, h8, ?_⟩
    rw [List.length_append, List.length_singleton]
    dsimp only
    omega
  · refine ⟨h1, h2, h3, h4, h5, h6, h7, h8, ?_⟩
    rw [List.length_append, List.length_singleton]
    dsimp only
    omega

/-- The head frame is released. -/
theorem FifoGood.released {depth fmax : Nat} {x : Fifo} {fr : Frame} {rest : List Frame} (h : FifoGood depth fmax x)
    (hq : x.rxq = fr :: rest) : FifoGood depth fmax { x with rxq := rest, rxpos := 0 } := by
  obtain ⟨h1, h2, h3, h4, -, h6, h7, h8, h9⟩ := h
  rw [hq] at h3 h6 h8
  refine ⟨h1, h2, fun x hx => h3 x (List.mem_cons_of_mem _ hx), h4, Nat.zero_le _, Nat.le_of_succ_le h6, h7, ?_, h9⟩
  rw [frameBytes_cons] at h8
  dsimp only
  omega

/-- The open frame is closed. -/
theorem FifoGood.closed {depth fmax : Nat} {x : Fifo} (h : FifoGood depth fmax x) (ho : x.txopen ≠ [])
    (hr : x.txclosed.length < fmax) :
    FifoGood depth fmax { x with txclosed := x.txclosed ++ [x.txopen], txopen := [] } := by
  obtain ⟨h1, h2, h3, h4, h5, h6, -, h8, h9⟩ := h
  refine ⟨h1, h2, h3, fun fr hfr => ?_, h5, h6, ?_, h8, ?_⟩
  · rcases List.mem_append.1 hfr with hold | hnew
    · exact h4 fr hold
    · rwa [List.mem_singleton.1 hnew]
  · rw [List.length_append, List.length_singleton]
    exact hr
  · simp only [frameBytes_append, frameBytes_cons, frameBytes_nil, List.length_nil]
    omega

/-- A received frame is deposited at the tail. -/
theorem FifoGood.received {depth fmax : Nat} {x : Fifo} {bytes : List Byte} (h : FifoGood depth fmax x)
    (hb : bytes ≠ []) (hq : x.rxq.length < fmax) (hd : x.rxStored + bytes.length ≤ depth) :
    FifoGood depth fmax { x with rxq := x.rxq ++ [bytes] } := by
  obtain ⟨h1, h2, h3, h4, h5, -, h7, -, h9⟩ := h
  unfold Fifo.rxStored at hd
  refine ⟨h1, h2, fun fr hfr => ?_, h4, ?_, ?_, h7, ?_, h9⟩
  · rcases List.mem_append.1 hfr with hold | hnew
    · exact h3 fr hold
    · rwa [List.mem_singleton.1 hnew]
  · cases hx : x.rxq with
    | nil =>
      rw [hx] at h5
      exact Nat.le_trans h5 (Nat.zero_le _)
    | cons fr rest => rwa [hx] at h5
  · rw [List.length_append, List.length_singleton]
    exact hq
  · simp only [frameBytes_append, frameBytes_cons, frameBytes_nil]
    omega

/-- The oldest closed frame is taken. -/
theorem FifoGood.taken {depth fmax : Nat} {x : Fifo} {fr : Frame} {rest : List Frame} (h : FifoGood depth fmax x)
    (hq : x.txclosed = fr :: rest) : FifoGood depth fmax { x with txclosed := rest } := by
  obtain ⟨h1, h2, h3, h4, h5, h6, h7, h8, h9⟩ := h
  rw [hq] at h4 h7 h9
  refine ⟨h1, h2, h3, fun x hx => h4 x (List.mem_cons_of_mem _ hx), h5, h6, Nat.le_of_succ_le h7, h8, ?_⟩
  rw [frameBytes_cons] at h9
  dsimp only
  omega

theorem FifoGood.bearerReceived {depth fmax : Nat} {x : Fifo} {bytes : List Byte} (h : FifoGood depth fmax x)
    (hd : x.rxStored + bytes.length ≤ depth) : FifoGood depth fmax { x with brx := x.brx ++ bytes } := by
  obtain ⟨h1, h2, h3, h4, h5, h6, h7, -, h9⟩ := h
  unfold Fifo.rxStored at hd
  refine ⟨h1, h2, h3, h4, h5, h6, h7, ?_, h9⟩
  rw [List.length_append]
  dsimp only
  omega

theorem FifoGood.bearerTaken {depth fmax : Nat} {x : Fifo} (h : FifoGood depth fmax x) (n : Nat) :
    FifoGood depth fmax { x with btx := x.btx.drop n } := by
  obtain ⟨h1, h2, h3, h4, h5, h6, h7, h8, h9⟩ := h
  refine ⟨h1, h2, h3, h4, h5, h6, h7, h8, ?_⟩
  rw [List.length_drop]
  dsimp only
  omega

theorem fifosGood_lineClosed : LineClosed FifosGood where
  busy _ _ h := h
  lineState _ _ _ _ _ h := h
  event _ _ _ _ h := h
  rxframe _ _ _ _ hb hq hd h := h.setFifo fun hf => hf.received hb hq hd
  txtake s f _ rest _ hq h := h.setFifo (f := f) (x := { s.fifo f with txclosed := rest }) fun hf => hf.taken hq
  brx _ _ _ _ hd h := h.setFifo fun hf => hf.bearerReceived hd
  btxtake s f n _ _ h := h.setFifo (f := f) (x := { s.fifo f with btx := (s.fifo f).btx.drop n })
    fun hf => hf.bearerTaken n
  tick _ h := h

theorem fifosGood_read {r : Reg} {s : State} {v : BitVec 16} (h : FifosGood s) (e : readValue r s = .ok v) :
    FifosGood (readEffect r s) := by
  cases r with
  | fifoData =>
    simp only [readValue] at e
    split at e
    · cases e
    · split at e
      · next hb => exact h.modFifo fun hf => hf.popped hb
      · cases e
  | _ => exact h

theorem fifosGood_write {r : Reg} {v : Byte} {s t : State} (h : FifosGood s) (hv : v &&& r.reserved = 0)
    (e : writeEffect r v s = .ok t) : FifosGood t := by
  cases r with
  | stRd => obtain ⟨p, -, rfl⟩ := map_eq_ok.1 e; exact h
  | stWr => obtain ⟨p, -, rfl⟩ := map_eq_ok.1 e; exact h
  | fifoData =>
    change writeData v s = .ok t at e
    unfold writeData at e
    split at e
    · cases e
    · split at e <;> cases e
      next hd => exact h.modFifo fun hf => hf.pushed hd v
  | fifoCmd =>
    change writeCmd v s = .ok t at e
    unfold writeCmd at e
    split at e
    · cases e
      exact h.modFifo (f := s.selNum) (g := fun x => x.emptied s.selDir) fun hf => hf.emptied _
    · split at e
      · unfold advanceFrame at e
        dsimp only at e
        split at e
        · split at e <;> cases e
          next hq => exact h.setFifo fun hf => hf.released hq
        · split at e
          · cases e
          · next ho =>
            split at e <;> cases e
            next hr => exact h.setFifo fun hf => hf.closed ho (Nat.lt_of_not_le hr)
      · cases e; exact h
  | fifoCtrl => cases e; exact h.modFifo fun hf => hf.modRegs _ fun _ hc => ⟨hv, hc.2.1, hc.2.2⟩
  | fcChan => cases e; exact h.modFifo fun hf => hf.modRegs _ fun _ hc => ⟨hc.1, hv, hc.2.2⟩
  | fcSlot => cases e; exact h.modFifo fun hf => hf.modRegs _ fun _ hc => ⟨hc.1, hc.2.1, hv⟩
  | _ => cases e; exact h

theorem fifosGood_reset (s : State) : FifosGood (resetCard s) := by
  intro f hf
  have hfifo : (resetCard s).fifo f = Fifo.reset := by
    change (Vector.replicate 32 Fifo.reset)[f]?.getD default = _
    simp [hf]
  rw [hfifo]
  have hregs : FifoRegs.reset.reservedZero := by decide
  exact ⟨hregs, hregs, nofun, nofun, Nat.zero_le _, Nat.zero_le _, Nat.zero_le _, Nat.zero_le _, Nat.zero_le _⟩

theorem fifosGood_stepClosed : StepClosed (fun _ => True) True FifosGood := by
  refine stepClosed_of_hardware ?_ (fun _ _ _ h e => fifosGood_read h e) (fun _ _ _ _ h hv e => fifosGood_write h hv e)
    fifosGood_lineClosed (fun _ h => h) (fun _ h => h) (fun s _ => fifosGood_reset s)
  intro s t hc hh _ h f hf
  rw [hc, State.fifo, hh]
  exact h f hf

/-! ### The machine's invariant -/

/-- A good state is one whose service part, host part, registers and FIFOs are good. -/
theorem good_iff (s : State) :
    s.good ↔ ServiceGood s ∧ HostGood settled s ∧ CardRegsGood s ∧ FifosGood s := by
  rw [serviceGood_iff, hostGood_settled_iff]
  constructor
  · rintro ⟨hconf, hexcl, hby, ⟨r1, r2, r3, r4, r5, r6, r7, r8⟩, hstored, hback, hbuf⟩
    refine ⟨⟨hconf, hexcl, hby⟩, ⟨hback, hbuf⟩, ⟨r1, r2, r3, r4, r5, r6, r7⟩, fun f hf => ?_⟩
    obtain ⟨f1, f2, f3, f4, f5, f6, f7⟩ := hstored f hf
    exact ⟨(r8 f hf).1, (r8 f hf).2, f1, f2, f3, f4, f5, f6, f7⟩
  · rintro ⟨⟨hconf, hexcl, hby⟩, ⟨hback, hbuf⟩, ⟨r1, r2, r3, r4, r5, r6, r7⟩, hfifos⟩
    refine ⟨hconf, hexcl, hby, ⟨r1, r2, r3, r4, r5, r6, r7, fun f hf => ⟨(hfifos f hf).rxRegs, (hfifos f hf).txRegs⟩⟩,
      fun f hf => ?_, hback, hbuf⟩
    obtain ⟨-, -, f1, f2, f3, f4, f5, f6, f7⟩ := hfifos f hf
    exact ⟨f1, f2, f3, f4, f5, f6, f7⟩

/-- A step keeps what survives every elementary change, if it reads nothing of the script. -/
theorem step_keeps {P : State → Prop} (H : StepClosed (fun _ => True) True P)
    (hs : ∀ (s : State) sc, P s → P { s with script := sc }) {s t : State} (h : P s) (e : step s = .next t) : P t :=
  H.step (fun s _ => hs s _) (fun s _ => hs s _) (fun _ _ _ => trivial) h (fun _ _ _ _ => trivial) e

/-- Settles O59: the four parts of a good state are each kept by every elementary change. -/
theorem goodStatesStayGood : Obligations.GoodStatesStayGood := by
  intro s t hg e
  obtain ⟨hservice, hhost, hregs, hfifos⟩ := (good_iff s).1 hg
  refine (good_iff t).2 ⟨serviceGood_reads.step serviceGood_stepClosed hservice e,
    (hostGood_reads settled).step hostGood_stepClosed hhost e,
    step_keeps cardRegsGood_stepClosed (fun _ _ h => h) hregs e,
    step_keeps fifosGood_stepClosed (fun _ _ h => h) hfifos e⟩

end Sys2Proof.Invariants

namespace Sys2Proof.Invariants

open Sys2Proof Sys2Proof.Machine

/-! ### The state after reset (70_reset_and_hazards.md R201) -/

theorem alarmsReported_reset (s : State) : (resetCard s).alarmsReported := by
  intro p hp
  rw [port_resetCard s p (hp.trans_le (nports_le_eight _))]
  rfl

/-- Settles O60: the state after reset is the reset of itself, and a reset makes every part good. -/
theorem resetIsGood : Obligations.ResetIsGood := by
  have hreset : State.reset = resetCard State.reset := rfl
  refine ⟨?_, ?_, rfl, rfl, rfl⟩
  · rw [hreset]
    exact (good_iff _).2 ⟨serviceGood_reset (by decide), hostGood_reset _, cardRegsGood_reset _, fifosGood_reset _⟩
  · rw [hreset]
    exact alarmsReported_reset _

/-! ### What the script and the accounts of the card read -/

/-- What the script runs under and what the interrupt has counted and accumulated: the configuration in force, the
script, the ticks and the accumulators. -/
def account (s : State) : Config × Script × Nat × Vector Byte 8 × Byte :=
  (s.cfg, s.script, s.card.ticks, s.card.fifoAcc, s.card.miscAcc)

theorem HwOnly_account {s t : State} (h : HwOnly s t) : account t = account s := by
  obtain ⟨hc, -, -, -, -, -, hs, -, -, ht, -, hf, hm, -⟩ := h.fields
  simp only [account, hc, hs, ht, hf, hm]

/-- A property that reads the account alone is kept by every elementary change, once those of the accumulators, of
the deferred phase and of a reset keep it. -/
theorem stepClosed_of_account {A : Instr → Prop} {D : Prop} {P : State → Prop}
    (reads : ∀ s t, account t = account s → P s → P t)
    (accumulate : ∀ s (b : Fin 8), P s →
      P ((readEffect (.fifoStat b) s).setFifoAcc b.val (s.fifoAcc b.val ||| s.fifoStat b.val)))
    (accumulateMisc : ∀ s, P s →
      P ((readEffect .miscStat s).modCard fun c => { c with miscAcc := c.miscAcc ||| s.hw.miscStat }))
    (deferred : D → A .irqDef ∨ A .irq → DeferClosed P)
    (reset : A .cardReset → ∀ s, P s → P (resetCard s)) : StepClosed A D P := by
  have hw : ∀ s t, HwOnly s t → P s → P t := fun s t h => reads s t (HwOnly_account h)
  have L : LineClosed P := .of_hwOnly hw
  have C : AccessClosed P := .of_hwOnly hw fun _ => L.linePoint fun s => reads s _ rfl
  have hside : ∀ s t, PortSide s t → P s → P t := by
    intro s t h
    unfold PortSide at h
    refine reads s t ?_
    rw [h]
    rfl
  have ports : ∀ p, PortClosed P p := fun p =>
    portClosed_of_portSide C hside
      (reportFrame_keeps_of_logs (fun s _ => reads s _ rfl) fun s _ _ => reads s _ rfl)
  exact
    { toAccessClosed := C
      toLineClosed := L
      span := fun p => (ports p).toSpanClosed
      port := ports
      prio := fun s _ _ _ _ => reads s _ rfl
      sync := fun s _ _ => reads s _ rfl
      hooks := fun s _ _ _ => reads s _ rfl
      publish := fun _ s _ _ => reads s _ rfl
      deferred := deferred
      reset := reset
      strap := fun s _ _ => reads s _ rfl
      live := fun s _ => reads s _ rfl
      pop := fun s => reads s _ rfl
      running := fun s _ => reads s _ rfl
      accumulate := accumulate
      accumulateMisc := accumulateMisc }

/-- A property that reads the configuration and the script alone is kept by everything but a reset. -/
theorem stepClosed_of_script {A : Instr → Prop} {P : State → Prop}
    (reads : ∀ s t : State, t.cfg = s.cfg → t.script = s.script → P s → P t)
    (reset : A .cardReset → ∀ s, P s → P (resetCard s)) : StepClosed A True P :=
  have publish : PublishClosed P := fun s _ _ => reads s _ rfl rfl
  stepClosed_of_account
    (fun s t e => reads s t (congrArg Prod.fst e) (congrArg (fun x => x.2.1) e))
    (fun s _ => reads s _ rfl rfl) (fun s => reads s _ rfl rfl)
    (fun _ _ =>
      { publish := publish
        clearAcc := fun s _ _ _ => reads s _ rfl rfl
        count := fun s => reads s _ rfl rfl
        clear := fun s => reads s _ rfl rfl })
    reset

/-- A schedule that never issues `i` admits only other operations. -/
theorem admits_ne {s : State} {i : Instr} (h : s.neverIssues i) : Admits (· ≠ i) s :=
  fun es hes _ hj e => h es hes (e ▸ hj)

theorem admits_true (s : State) : Admits (fun _ => True) s := fun _ _ _ _ => trivial

/-! ### The script and the configuration (10_state.md R17, 00_scope.md R7) -/

theorem scriptKept_stepClosed (sc : Script) : StepClosed (fun _ => True) True fun s => s.script = sc :=
  stepClosed_of_script (fun _ _ _ hs h => hs.trans h) fun _ _ h => h

theorem cfgKept_stepClosed (c : Config) : StepClosed (· ≠ .cardReset) True fun s => s.cfg = c :=
  stepClosed_of_script (fun _ _ hc _ h => hc.trans h) fun h => absurd rfl h

/-- Settles O55: a command is its operation, which writes nothing of the script, and then its one result. -/
theorem commandsAnswerOnce : Obligations.CommandsAnswerOnce := by
  intro i s t e
  refine ⟨?_, fun hi hs => ?_⟩
  · obtain ⟨u, v, ⟨hu, -⟩, rfl⟩ := (scriptKept_stepClosed s.script).exec trivial rfl (admits_true s) e
    exact ⟨v, by rw [← hu]; rfl⟩
  · obtain ⟨u, v, ⟨hu, -⟩, rfl⟩ := (cfgKept_stepClosed s.cfg).exec hi rfl (admits_ne hs) e
    exact hu

/-- No command is refused (30_encoding.md R63). -/
theorem exec_ne_refused (i : Instr) (s : State) (r : Refusal) : exec i s ≠ .refused r := by
  cases i with
  | cardReset => exact nofun
  | _ => exact complete_ne_refused _ r

/-- Settles O5: each branch of `step` by the outcomes of its fetch, its point and its command. -/
theorem stepRunsFetchedCommand : Obligations.StepRunsFetchedCommand := by
  intro s
  refine ⟨fun h => pointAt_calm _ _ s h, fun u hu => ?_, fun h => ?_, fun i n h => ⟨fun e he => ?_, fun u hu => ?_⟩⟩
  · exact ((scriptKept_stepClosed s.script).pointAt _ _ (fun _ => trivial) s u ⟨rfl, admits_true s⟩ hu).1
  · simp only [step, fetch, List.drop_eq_nil_of_le h, decode]
  · simp only [step, fetch, h, he]
  · refine ⟨fun t ht => ?_, fun r hr => ?_, exec_ne_refused i u⟩
    · simp only [step, fetch, h, hu, ht, advance]
    · simp only [step, fetch, h, hu, hr]

/-! ### The accumulators (20_memory.md R56) -/

/-- Every bit of `x` is one of `y`. -/
def BitsIn (x y : Byte) : Prop := x &&& ~~~ y = 0

theorem BitsIn.refl (x : Byte) : BitsIn x x := BitVec.and_not_self x

theorem BitsIn.or {x y : Byte} (h : BitsIn x y) (z : Byte) : BitsIn x (y ||| z) := by
  unfold BitsIn at h ⊢
  rw [BitVec.not_or, ← BitVec.and_assoc, h]
  exact BitVec.zero_and

/-- The accumulators hold every bit they held in `s₀`. -/
def AccumulatorsHold (s₀ s : State) : Prop :=
  (∀ b < 8, BitsIn (s₀.fifoAcc b) (s.fifoAcc b)) ∧ BitsIn s₀.card.miscAcc s.card.miscAcc

theorem accumulatorsHold_stepClosed (s₀ : State) : StepClosed (· ≠ .cardReset) False (AccumulatorsHold s₀) := by
  refine stepClosed_of_account (fun s t e h => ?_) (fun s b h => ⟨fun q hq => ?_, h.2⟩)
    (fun s h => ⟨h.1, h.2.or _⟩) (fun hD => hD.elim) fun h => absurd rfl h
  · simp only [account, Prod.mk.injEq] at e
    obtain ⟨-, -, -, hf, hm⟩ := e
    unfold AccumulatorsHold State.fifoAcc at h ⊢
    rwa [hf, hm]
  · by_cases hqb : q = b.val
    · subst hqb
      rw [fifoAcc_setFifoAcc _ _ _ hq]
      exact (h.1 _ hq).or _
    · rw [fifoAcc_setFifoAcc_ne _ _ _ _ hqb]
      exact h.1 q hq

/-- Settles O46: no deferred phase falls inside an immediate phase (60_exceptions.md R192), and everything else
only sets accumulator bits. -/
theorem immediateKeepsBits : Obligations.ImmediateKeepsBits := by
  intro s t hs e
  have H := accumulatorsHold_stepClosed s
  obtain ⟨v, u, hu, rfl⟩ := complete_eq_next.1 e
  obtain ⟨⟨mine, w⟩, hw, he⟩ := map_eq_ok.1 hu
  cases he
  have hold : AccumulatorsHold s s := ⟨fun b _ => .refl _, .refl _⟩
  exact (H.admits.toServiceClosed.immediatePhase (envKeeps_imm (H.pointAt _) _) ⟨hold, admits_ne hs⟩ hw).1

/-! ### The logs (10_state.md R44) -/

/-- The three logs of `s` are those of `s₀`, extended. -/
structure LogsExtend (s₀ s : State) : Prop where
  host : s₀.card.hostlog <+: s.card.hostlog
  diag : s₀.card.diaglog <+: s.card.diaglog
  line : s₀.hw.linelog <+: s.hw.linelog

theorem LogsExtend.refl (s : State) : LogsExtend s s := ⟨List.prefix_rfl, List.prefix_rfl, List.prefix_rfl⟩

theorem LogsExtend.emit {s₀ s : State} (h : LogsExtend s₀ s) (e : HostEvent) : LogsExtend s₀ (s.emit e) :=
  ⟨h.host.trans (List.prefix_append _ _), h.diag, h.line⟩

theorem LogsExtend.logDiag {s₀ s : State} (h : LogsExtend s₀ s) (e : DiagEvent) : LogsExtend s₀ (s.diag e) :=
  ⟨h.host, h.diag.trans (List.prefix_append _ _), h.line⟩

theorem LogsExtend.lineout {s₀ s : State} (h : LogsExtend s₀ s) (e : LineEvent) : LogsExtend s₀ (s.lineout e) :=
  ⟨h.host, h.diag, h.line.trans (List.prefix_append _ _)⟩

/-- The logs are extended as long as the three are left as they are. -/
theorem LogsExtend.of_eq {s₀ s t : State} (h : LogsExtend s₀ s) (hh : t.card.hostlog = s.card.hostlog)
    (hd : t.card.diaglog = s.card.diaglog) (hl : t.hw.linelog = s.hw.linelog) : LogsExtend s₀ t :=
  ⟨hh ▸ h.host, hd ▸ h.diag, hl ▸ h.line⟩

/-- A read side effect, and a write, leave the busy flag and the three logs (20_memory.md R51, 10_state.md R41). -/
theorem readEffect_leaves (r : Reg) (s : State) :
    (readEffect r s).hw.busy = s.hw.busy ∧ (readEffect r s).card = s.card ∧ (readEffect r s).sched = s.sched ∧
      (readEffect r s).hw.linelog = s.hw.linelog := by
  cases r <;> exact ⟨rfl, rfl, rfl, rfl⟩

theorem writeEffect_leaves {r : Reg} {v : Byte} {s t : State} (e : writeEffect r v s = .ok t) :
    t.hw.busy = s.hw.busy ∧ t.card = s.card ∧ t.sched = s.sched ∧ t.hw.linelog = s.hw.linelog := by
  cases r with
  | stRd => obtain ⟨p, -, rfl⟩ := map_eq_ok.1 e; exact ⟨rfl, rfl, rfl, rfl⟩
  | stWr => obtain ⟨p, -, rfl⟩ := map_eq_ok.1 e; exact ⟨rfl, rfl, rfl, rfl⟩
  | fifoData =>
    change writeData v s = .ok t at e
    unfold writeData at e
    split at e
    · cases e
    · split at e <;> cases e
      exact ⟨rfl, rfl, rfl, rfl⟩
  | fifoCmd =>
    change writeCmd v s = .ok t at e
    unfold writeCmd at e
    split at e
    · cases e; exact ⟨rfl, rfl, rfl, rfl⟩
    · split at e
      · unfold advanceFrame at e
        dsimp only at e
        split at e
        · split at e <;> cases e
          exact ⟨rfl, rfl, rfl, rfl⟩
        · split at e
          · cases e
          · split at e <;> cases e
            exact ⟨rfl, rfl, rfl, rfl⟩
      · cases e; exact ⟨rfl, rfl, rfl, rfl⟩
  | _ => cases e; exact ⟨rfl, rfl, rfl, rfl⟩

theorem logsExtend_lineClosed (s₀ : State) : LineClosed (LogsExtend s₀) where
  busy _ _ h := h.of_eq rfl rfl rfl
  lineState _ _ _ _ _ h := h.of_eq rfl rfl rfl
  event _ _ _ _ h := h.of_eq rfl rfl rfl
  rxframe _ _ _ _ _ _ _ h := h.of_eq rfl rfl rfl
  txtake s f _ rest _ _ h :=
    LogsExtend.lineout (s := s.setFifo f { s.fifo f with txclosed := rest }) (h.of_eq rfl rfl rfl) _
  brx _ _ _ _ _ h := h.of_eq rfl rfl rfl
  btxtake s f n _ _ h :=
    LogsExtend.lineout (s := s.setFifo f { s.fifo f with btx := (s.fifo f).btx.drop n }) (h.of_eq rfl rfl rfl) _
  tick _ h := h.of_eq rfl rfl rfl

theorem logsExtend_accessClosed (s₀ : State) : AccessClosed (LogsExtend s₀) where
  line _ := (logsExtend_lineClosed s₀).linePoint fun _ h => h.of_eq rfl rfl rfl
  read r s _ h _ := by
    obtain ⟨-, hc, -, hl⟩ := readEffect_leaves r s
    exact h.of_eq (by rw [hc]) (by rw [hc]) hl
  write _ _ _ _ h _ e := by
    obtain ⟨-, hc, -, hl⟩ := writeEffect_leaves e
    exact h.of_eq (by rw [hc]) (by rw [hc]) hl
  draw _ h := h.of_eq rfl rfl rfl
  diag _ e h := h.logDiag e

theorem LogsExtend.reportFrame {s₀ s : State} (h : LogsExtend s₀ s) (p len : Nat) (bytes : List Byte) :
    LogsExtend s₀ (reportFrame p len bytes s) := by
  unfold Machine.reportFrame
  dsimp only
  have hpush : LogsExtend s₀ (if rxPayload s.cfg.hdlcCap len bytes = [] then s
      else s.emit (.rxPush p (rxPayload s.cfg.hdlcCap len bytes))) := by
    split
    · exact h
    · exact h.emit _
  have count : ∀ u, LogsExtend s₀ u → LogsExtend s₀ (u.modSession p fun x => { x with framesIn := x.framesIn + 1 }) :=
    fun _ h => h.of_eq rfl rfl rfl
  have hcount := count _ (hpush.emit (verdict p len (decide (s.cfg.hdlcCap < len)) (bytes.getLastD 0)))
  split
  · exact hcount.logDiag _
  · exact hcount

theorem logsExtend_portClosed (s₀ : State) (p : Nat) : PortClosed (LogsExtend s₀) p where
  toAccessClosed := logsExtend_accessClosed s₀
  record _ _ h := h.of_eq rfl rfl rfl
  stopT1 _ h := h.of_eq rfl rfl rfl
  stopT3 _ h := h.of_eq rfl rfl rfl
  armT1 _ _ h := h.of_eq rfl rfl rfl
  armT3 _ _ h := h.of_eq rfl rfl rfl
  run _ h := h.of_eq rfl rfl rfl
  stop _ h := h.of_eq rfl rfl rfl
  submit _ _ _ _ h := h.of_eq rfl rfl rfl
  txbuf _ _ _ _ h := h.of_eq rfl rfl rfl
  map _ _ h := h.of_eq rfl rfl rfl
  attach _ h := h.of_eq rfl rfl rfl
  detach _ h := h.of_eq rfl rfl rfl
  report _ _ _ h := h.reportFrame _ _ _
  chunk _ _ _ _ _ _ hk h e := by
    refine (logsExtend_accessClosed s₀).txPassOn_of hk (fun s cap h => ?_) (fun s h => ?_) h e
    · rw [hostPull_eq]
      exact h.of_eq rfl rfl rfl
    · refine LogsExtend.of_eq (s := decrement p s) ?_ rfl rfl rfl
      unfold decrement
      split
      · exact h.of_eq rfl rfl rfl
      · exact h.logDiag _
  rxbuf _ _ _ _ h := h.of_eq rfl rfl rfl

theorem logsExtend_stepClosed (s₀ : State) : StepClosed (· ≠ .cardReset) True (LogsExtend s₀) := by
  have publish : PublishClosed (LogsExtend s₀) := fun s p _ h =>
    LogsExtend.emit (s := s.modPort p fun q => { q with alarm := (s.port p).newalarm }) (h.of_eq rfl rfl rfl) _
  exact
    { toAccessClosed := logsExtend_accessClosed s₀
      toLineClosed := logsExtend_lineClosed s₀
      span := fun p => (logsExtend_portClosed s₀ p).toSpanClosed
      port := logsExtend_portClosed s₀
      prio := fun _ _ _ _ _ h => h.of_eq rfl rfl rfl
      sync := fun _ _ _ h => h.of_eq rfl rfl rfl
      hooks := fun _ _ _ _ h => h.emit _
      publish := fun _ => publish
      deferred := fun _ _ =>
        { publish := publish
          clearAcc := fun _ _ _ _ h => h.of_eq rfl rfl rfl
          count := fun _ h => h.of_eq rfl rfl rfl
          clear := fun _ h => h.of_eq rfl rfl rfl }
      reset := fun h => absurd rfl h
      strap := fun _ _ _ h => h.of_eq rfl rfl rfl
      live := fun _ _ h => h.of_eq rfl rfl rfl
      pop := fun _ h => h.of_eq rfl rfl rfl
      running := fun _ _ h => h.of_eq rfl rfl rfl
      accumulate := fun _ _ h => h.of_eq rfl rfl rfl
      accumulateMisc := fun _ h => h.of_eq rfl rfl rfl }

/-- Settles O56: every elementary change but a reset leaves the three logs or appends to one of them. -/
theorem logsAppendOnly : Obligations.LogsAppendOnly := by
  intro i s t e hi hs
  obtain ⟨u, v, ⟨hu, -⟩, rfl⟩ := (logsExtend_stepClosed s).exec hi (LogsExtend.refl s) (admits_ne hs) e
  exact ⟨hu.host, hu.diag, hu.line⟩

/-! ### The alarms reported (42_st_state_machine.md R113) -/

/-- The published alarm of every port is the one last reported. -/
def AlarmsReported (s : State) : Prop := s.alarmsReported

theorem lastAlarm_append_alarm (p q : Nat) (v : Alarm) (log : List HostEvent) :
    lastAlarm p (log ++ [.alarm q v]) = if q = p then v else lastAlarm p log := by
  simp [lastAlarm]

/-- An event that reports no alarm leaves the alarm last reported. -/
theorem lastAlarm_append_of_ne (p : Nat) (log : List HostEvent) {e : HostEvent} (he : ∀ q v, e ≠ .alarm q v) :
    lastAlarm p (log ++ [e]) = lastAlarm p log := by
  rw [lastAlarm, List.foldl_append]
  cases e with
  | alarm q v => exact absurd rfl (he q v)
  | _ => rfl

theorem verdict_ne_alarm (p len : Nat) (trunc : Bool) (last : Byte) (q : Nat) (v : Alarm) :
    verdict p len trunc last ≠ .alarm q v := by
  unfold verdict
  repeat' split
  all_goals exact nofun

theorem AlarmsReported.emit {s : State} (h : AlarmsReported s) {e : HostEvent} (he : ∀ q v, e ≠ .alarm q v) :
    AlarmsReported (s.emit e) := fun p hp => (h p hp).trans (lastAlarm_append_of_ne p _ he).symm

theorem alarmsReported_reads : Reads (fun s => (s.cfg, s.ports, s.card.hostlog)) AlarmsReported where
  reads s t e h := by
    simp only [Prod.mk.injEq] at e
    obtain ⟨hc, hp, hl⟩ := e
    unfold AlarmsReported State.alarmsReported State.nports State.port at h ⊢
    rwa [hc, hp, hl]
  hwOnly s t h := by
    obtain ⟨hc, -, -, hp, -, -, -, -, -, -, -, -, -, hl⟩ := h.fields
    simp only [hc, hp, hl]
  sched _ _ := rfl
  live _ _ := rfl
  answered _ _ := rfl
  advance _ _ := rfl
  running _ _ := rfl
  fifoAcc _ _ := rfl
  miscAcc _ _ := rfl

/-- No operation on a port but a publication changes its published alarm. -/
theorem PortChange.alarm {s : State} {p : Nat} {g : Port → Port} (h : PortChange s p g) :
    (g (s.port p)).alarm = (s.port p).alarm := by
  cases h with
  | record sta =>
    dsimp only
    rw [debounce_eq, disarmIfClear_eq]
  | map role =>
    dsimp only
    rw [setFifoNum_eq]
  | _ => rfl

/-- The alarms are as reported as long as no published alarm changes. -/
theorem AlarmsReported.modPort {s : State} (h : AlarmsReported s) {p : Nat} {g : Port → Port}
    (hg : (g (s.port p)).alarm = (s.port p).alarm) : AlarmsReported (s.modPort p g) := by
  intro q hq
  have hq8 : q < 8 := hq.trans_le (nports_le_eight s)
  refine Eq.trans ?_ (h q hq)
  exact ports_modPort (Q := fun q x => x.alarm = (s.port q).alarm) (fun _ _ => rfl) (fun _ => hg) q hq8

theorem AlarmsReported.publish {s : State} (h : AlarmsReported s) (p : Nat) (v : Alarm) :
    AlarmsReported ((s.modPort p fun q => { q with alarm := v }).emit (.alarm p v)) := by
  intro q hq
  have hq8 : q < 8 := hq.trans_le (nports_le_eight s)
  refine Eq.trans ?_ (lastAlarm_append_alarm q p v _).symm
  change ((s.modPort p fun q => { q with alarm := v }).port q).alarm = _
  by_cases hqp : q = p
  · subst hqp
    rw [if_pos rfl, port_modPort _ _ _ hq8]
  · rw [if_neg (Ne.symm hqp), port_modPort_ne _ _ _ _ hqp]
    exact h q hq

theorem AlarmsReported.reportFrame {s : State} (h : AlarmsReported s) (p len : Nat) (bytes : List Byte) :
    AlarmsReported (reportFrame p len bytes s) := by
  unfold Machine.reportFrame
  dsimp only
  have hpush : AlarmsReported (if rxPayload s.cfg.hdlcCap len bytes = [] then s
      else s.emit (.rxPush p (rxPayload s.cfg.hdlcCap len bytes))) := by
    split
    · exact h
    · exact h.emit fun _ _ => nofun
  have hverdict := hpush.emit (verdict_ne_alarm p len (decide (s.cfg.hdlcCap < len)) (bytes.getLastD 0))
  split <;> exact alarmsReported_reads.reads _ _ rfl hverdict

theorem alarmsReported_stepClosed : StepClosed (fun _ => True) True AlarmsReported := by
  have R := alarmsReported_reads
  refine R.stepClosed (fun p => ?_) (fun s _ _ => R.reads s _ rfl) (fun s p k _ _ h => h.modPort rfl)
    (fun s _ _ => R.reads s _ rfl) (fun s p _ _ h => h.emit fun _ _ => nofun) (fun _ s p _ h => h.publish p _)
    (fun _ _ s => R.reads s _ rfl) (fun _ s _ => alarmsReported_reset s)
  exact portClosed_of_portChange R.accessClosed (fun s g hg h => h.modPort hg.alarm)
    (fun s t e => R.reads s t (by rw [e])) fun s len bytes h => h.reportFrame p len bytes

/-- Settles O58: a published alarm changes and is reported in one elementary change, the publication. -/
theorem alarmsAsReported : Obligations.AlarmsAsReported := fun _ _ h e =>
  alarmsReported_reads.step alarmsReported_stepClosed h e

end Sys2Proof.Invariants

namespace Sys2Proof.Invariants

open Sys2Proof Sys2Proof.Machine

/-! ### The busy flag (40_register_access.md R82) -/

/-- In a scripted run the busy flag is `b`. -/
def BusyIs (b : Bool) (s : State) : Prop := s.hw.busy = b ∧ s.sched = []

theorem busyIs_accessClosed (b : Bool) : AccessClosed (BusyIs b) where
  line s h := by rwa [linePoint_of_nil h.2]
  read r s _ h _ := by
    obtain ⟨hb, -, hs, -⟩ := readEffect_leaves r s
    exact ⟨hb.trans h.1, hs.trans h.2⟩
  write _ _ _ _ h _ e := by
    obtain ⟨hb, -, hs, -⟩ := writeEffect_leaves e
    exact ⟨hb.trans h.1, hs.trans h.2⟩
  draw _ h := h
  diag _ _ h := h

theorem busyIs_serviceClosed (b : Bool) : ServiceClosed (BusyIs b) := by
  have A := busyIs_accessClosed b
  have hside : ∀ s t, PortSide s t → BusyIs b s → BusyIs b t := by
    intro s t h
    unfold PortSide at h
    rw [h]
    exact id
  have ports : ∀ p, PortClosed (BusyIs b) p := fun p =>
    portClosed_of_portSide A hside (reportFrame_keeps_of_logs (fun _ _ h => h) fun _ _ _ h => h)
  exact
    { toAccessClosed := A
      span := fun p => (ports p).toSpanClosed
      prio := fun _ _ _ _ _ h => h
      sync := fun _ _ _ h => h
      running := fun _ _ h => h
      accumulate := fun _ _ h => h
      accumulateMisc := fun _ h => h
      port := ports
      hooks := fun _ _ _ _ h => h }

/-- Of the steps of the line agent and the tick agent, `LINE.BUSY` alone writes the busy flag. -/
theorem lineStep_busy {i : Instr} {s t : State} (hi : ∀ b, i ≠ .lineBusy b) (e : lineStep i s = some t) :
    t.hw.busy = s.hw.busy := by
  cases i with
  | lineBusy b => exact absurd rfl (hi b)
  | lineState p b =>
    change lineStateStep p b s = some t at e
    unfold lineStateStep at e
    dsimp only at e
    split at e
    · split at e <;> cases e <;> rfl
    · cases e
  | lineRxframe f bytes =>
    change lineRxframeStep f bytes s = some t at e
    unfold lineRxframeStep State.fifoEvent at e
    dsimp only at e
    split at e
    · split at e <;> cases e <;> rfl
    · cases e
  | lineTxtake f =>
    change lineTxtakeStep f s = some t at e
    unfold lineTxtakeStep State.fifoEvent at e
    dsimp only at e
    split at e
    · split at e <;> split at e <;> cases e <;> rfl
    · cases e
  | lineBrx f bytes =>
    change lineBrxStep f bytes s = some t at e
    unfold lineBrxStep at e
    dsimp only at e
    split at e <;> cases e
    rfl
  | lineBtxtake f n =>
    change lineBtxtakeStep f n s = some t at e
    unfold lineBtxtakeStep at e
    dsimp only at e
    split at e <;> cases e
    rfl
  | lineFifoirq f dir =>
    change lineFifoirqStep f dir s = some t at e
    unfold lineFifoirqStep at e
    split at e
    · cases e
    · dsimp only at e
      split at e <;> cases e
      rfl
  | tick =>
    change tickStep s = some t at e
    unfold tickStep at e
    split at e <;> cases e
    rfl
  | _ => cases e

theorem exec_lineBusy (b : Byte) (s : State) : exec (.lineBusy b) s = completeOk (enabledOnly (lineBusyStep b s)) := rfl

/-- Settles O14. -/
theorem busyFlag : Obligations.BusyFlag := by
  refine ⟨fun s b => ⟨fun h => ?_, fun h => ?_, fun h0 h1 => ?_⟩, fun i s t hs e hi hreset => ?_⟩
  · rw [exec_lineBusy, lineBusyStep, if_pos h]
    rfl
  · rw [exec_lineBusy, lineBusyStep, if_neg (by rw [h]; decide), if_pos h]
    rfl
  · rw [exec_lineBusy, lineBusyStep, if_neg h0, if_neg h1]
    rfl
  · have scripted : ∀ u, BusyIs s.hw.busy u → u.scripted := fun _ hu => hu.2
    have publish : PublishClosed (BusyIs s.hw.busy) := fun _ _ _ hu => hu
    have line : ∀ u, lineStep i s = some u → BusyIs s.hw.busy u := fun u hu =>
      ⟨lineStep_busy hi hu,
        ((LineClosed.of_hwOnly (P := fun u => u.sched = []) fun _ _ h hu => h.fields.2.2.2.2.2.2.2.1.trans hu).lineStep
          hs hu : u.sched = [])⟩
    obtain ⟨u, v, hu, rfl⟩ := (busyIs_serviceClosed s.hw.busy).exec ⟨rfl, hs⟩ line (fun _ => publish)
      (fun _ => ⟨publish, fun _ _ _ _ hu => hu, fun _ hu => hu, fun _ hu => hu⟩) (fun h => absurd h hreset)
      (.of_scripted scripted (hostEnv_calm s)) (serviceKeeps_of_scripted scripted s) (immKeeps_of_scripted scripted s) e
    exact hu.1

/-! ### The entries of other ports (10_state.md R13, R14, R19) -/

/-- In a scripted run the entries of port `q` are those of `s₀`. -/
def EntriesKept (s₀ : State) (q : Nat) (s : State) : Prop :=
  (s.port q = s₀.port q ∧ s.session q = s₀.session q ∧ s.hostPort q = s₀.hostPort q) ∧ s.sched = []

/-- Changes of the entries of another port leave those of `q`. -/
theorem EntriesKept.of_eq {s₀ s t : State} {q : Nat} (h : EntriesKept s₀ q s) (hp : t.port q = s.port q)
    (hs : t.session q = s.session q) (hh : t.hostPort q = s.hostPort q) (hd : t.sched = s.sched) :
    EntriesKept s₀ q t :=
  ⟨⟨hp.trans h.1.1, hs.trans h.1.2.1, hh.trans h.1.2.2⟩, hd.trans h.2⟩

theorem entriesKept_hwOnly {s₀ : State} {q : Nat} (s t : State) (e : HwOnly s t) (h : EntriesKept s₀ q s) :
    EntriesKept s₀ q t := by
  obtain ⟨-, -, -, hp, hs, hh, -, hd, -⟩ := e.fields
  exact h.of_eq (by rw [State.port, hp]; rfl) (by rw [State.session, hs]; rfl) (by rw [State.hostPort, hh]; rfl) hd

theorem entriesKept_accessClosed (s₀ : State) (q : Nat) : AccessClosed (EntriesKept s₀ q) :=
  .of_hwOnly entriesKept_hwOnly fun _ h => by rwa [linePoint_of_nil h.2]

/-- The operations on port `p` leave the entries of every other port. -/
theorem entriesKept_portClosed (s₀ : State) {p q : Nat} (hqp : q ≠ p) : PortClosed (EntriesKept s₀ q) p where
  toAccessClosed := entriesKept_accessClosed s₀ q
  record _ _ h := h.of_eq (port_modPort_ne _ _ _ _ hqp) rfl rfl rfl
  stopT1 _ h := h.of_eq (port_modPort_ne _ _ _ _ hqp) rfl rfl rfl
  stopT3 _ h := h.of_eq (port_modPort_ne _ _ _ _ hqp) rfl rfl rfl
  armT1 _ _ h := h.of_eq (port_modPort_ne _ _ _ _ hqp) rfl rfl rfl
  armT3 _ _ h := h.of_eq (port_modPort_ne _ _ _ _ hqp) rfl rfl rfl
  run _ h := h.of_eq (port_modPort_ne _ _ _ _ hqp) rfl rfl rfl
  stop _ h := h.of_eq (port_modPort_ne _ _ _ _ hqp) rfl rfl rfl
  submit _ _ _ _ h := h.of_eq rfl (session_setSession_ne _ _ _ _ hqp) (hostPort_setHostPort_ne _ _ _ _ hqp) rfl
  txbuf _ _ _ _ h := h.of_eq rfl rfl (hostPort_setHostPort_ne _ _ _ _ hqp) rfl
  map _ _ h := h.of_eq (port_modPort_ne _ _ _ _ hqp) rfl rfl rfl
  attach _ h := h.of_eq rfl (session_setSession_ne _ _ _ _ hqp) (hostPort_setHostPort_ne _ _ _ _ hqp) rfl
  detach _ h := h.of_eq rfl (session_setSession_ne _ _ _ _ hqp) (hostPort_setHostPort_ne _ _ _ _ hqp) rfl
  report s len bytes h := by
    have hcount : EntriesKept s₀ q (s.modSession p fun x => { x with framesIn := x.framesIn + 1 }) :=
      h.of_eq rfl (session_setSession_ne _ _ _ _ hqp) rfl rfl
    refine hcount.of_eq ?_ ?_ ?_ ?_ <;> unfold reportFrame <;> dsimp only <;> split <;> split <;> rfl
  chunk _ _ _ _ _ _ hk h e := by
    refine (entriesKept_accessClosed s₀ q).txPassOn_of hk (fun s cap h => ?_) (fun s h => ?_) h e
    · unfold hostPull
      dsimp only
      split
      · exact h
      · split <;> exact h.of_eq rfl rfl (hostPort_setHostPort_ne _ _ _ _ hqp) rfl
    · refine EntriesKept.of_eq (s := decrement p s) ?_ rfl (session_setSession_ne _ _ _ _ hqp) rfl rfl
      unfold decrement
      split
      · exact h.of_eq rfl (session_setSession_ne _ _ _ _ hqp) rfl rfl
      · exact h.of_eq rfl rfl rfl rfl
  rxbuf _ _ _ _ h := h.of_eq rfl rfl (hostPort_setHostPort_ne _ _ _ _ hqp) rfl

/-- An operation that answers nothing, issued as a command on a port, keeps what the operation keeps. -/
theorem keeps_of_onPort {P : State → Prop} {op : Nat → State → Except Fault State} {a : Byte} {s t : State}
    (hans : ∀ u v, P u → P (u.answered v)) (hop : ∀ u, op a.toNat s = .ok u → P u)
    (e : completeOk (onPort op a s) = .next t) : P t := by
  obtain ⟨u, hu, rfl⟩ := completeOk_eq_next.1 e
  exact hans _ _ (hop u (onPort_eq_ok.1 hu).2)

/-- The same of an operation that answers a value. -/
theorem keeps_of_onPort_value {P : State → Prop} {α : Type} {op : Nat → State → Except Fault (α × State)}
    {val : α → Nat} {a : Byte} {s t : State} (hans : ∀ u v, P u → P (u.answered v))
    (hop : ∀ x u, op a.toNat s = .ok (x, u) → P u)
    (e : complete (withValue ((onPort op a s).map fun x => (val x.1, x.2))) = .next t) : P t := by
  obtain ⟨v, u, hu, rfl⟩ := complete_eq_next.1 e
  obtain ⟨x, hx, hu⟩ := map_eq_ok.1 hu
  obtain ⟨⟨y, w⟩, hy, rfl⟩ := map_eq_ok.1 hx
  cases hu
  exact hans _ _ (hop y w (onPort_eq_ok.1 hy).2)

/-- Settles O57: each operation of a port is made of changes that keep the entries of the others. -/
theorem portsIsolated : Obligations.PortsIsolated := by
  intro i a s t q hs hq hqa hi e
  suffices h : EntriesKept s q t from h.1
  have H := entriesKept_portClosed s hqa
  have h : EntriesKept s q s := ⟨⟨rfl, rfl, rfl⟩, hs⟩
  have hans : ∀ u v, EntriesKept s q u → EntriesKept s q (u.answered v) := fun _ _ hu => hu
  have scripted : ∀ u, EntriesKept s q u → u.scripted := fun _ hu => hu.2
  have KH : EnvKeeps s.hostEnv (EntriesKept s q) := .of_scripted scripted (hostEnv_calm s)
  have KS : ServiceKeeps s.serviceEnv (EntriesKept s q) := serviceKeeps_of_scripted scripted s
  rcases hi with rfl | ⟨code, r, rfl⟩ | rfl | rfl | ⟨c, rfl⟩ | rfl | rfl | rfl | ⟨fr, rfl⟩ | rfl | rfl | rfl | rfl |
    ⟨c, rfl⟩ | ⟨c, bytes, rfl⟩
  · exact keeps_of_onPort hans (fun u hu => H.observe KS.raw h hu) e
  · obtain ⟨u, hu, rfl⟩ := completeOk_eq_next.1 e
    obtain ⟨p, hp, hu⟩ := bind_eq_ok.1 hu
    obtain ⟨resume, -, hu⟩ := bind_eq_ok.1 hu
    obtain ⟨-, rfl⟩ := portArg_eq_ok.1 hp
    exact hans _ _ (H.forceState KS.raw h hu)
  · exact keeps_of_onPort hans (fun u hu => H.startSpan KH h hu) e
  · exact keeps_of_onPort hans (fun u hu => by cases hu; exact H.stop s h) e
  · obtain ⟨u, hu, rfl⟩ := completeOk_eq_next.1 e
    obtain ⟨-, role, -, hu⟩ := onBearer_eq_ok.1 hu
    exact hans _ _ (H.mapBearer KH h hu)
  · exact keeps_of_onPort hans (fun u hu => H.mapSignalling KH h hu) e
  · exact keeps_of_onPort hans (fun u hu => H.attachOp KH h hu) e
  · exact keeps_of_onPort hans (fun u hu => H.detachOp KH h hu) e
  · exact keeps_of_onPort hans (fun u hu => H.submitOp h hu) e
  · exact keeps_of_onPort_value (val := Prod.snd) hans (fun x u hu => H.rxPass KS.toEnvKeeps h hu) e
  · obtain ⟨v, u, hu, rfl⟩ := complete_eq_next.1 e
    obtain ⟨⟨n, w⟩, hw, hu⟩ := map_eq_ok.1 hu
    cases hu
    exact hans _ _ (H.rxDrain KS.toEnvKeeps h (onPort_eq_ok.1 hw).2)
  · exact keeps_of_onPort_value (val := Bool.toNat) hans (fun x u hu => H.txChunk KS h hu) e
  · obtain ⟨v, u, hu, rfl⟩ := complete_eq_next.1 e
    obtain ⟨⟨n, w⟩, hw, hu⟩ := map_eq_ok.1 hu
    cases hu
    exact hans _ _ (H.txDrain KS h (onPort_eq_ok.1 hw).2)
  · obtain ⟨v, u, hu, rfl⟩ := complete_eq_next.1 e
    obtain ⟨x, hx, hu⟩ := map_eq_ok.1 hu
    obtain ⟨⟨did, w⟩, hw, rfl⟩ := map_eq_ok.1 hx
    cases hu
    obtain ⟨-, role, -, hw⟩ := onBearer_eq_ok.1 hw
    exact hans _ _ (H.exchange KS h hw)
  · obtain ⟨u, hu, rfl⟩ := completeOk_eq_next.1 e
    obtain ⟨-, role, -, hu⟩ := onBearer_eq_ok.1 hu
    exact hans _ _ (H.txbufOp h hu)

end Sys2Proof.Invariants

namespace Sys2Proof.Invariants

open Sys2Proof Sys2Proof.Machine

/-! ### The phases of the interrupt, but for the sweep and the poll of a tick

Outside the work of a tick the two phases take pending bits, pump, and drain. None of that touches a port's
entry. -/

/-- `P` survives what the phases do outside the work of a tick. -/
structure PhaseClosed (P : State → Prop) : Prop extends AccessClosed P where
  sessHost : ∀ s t, SessHost s t → P s → P t
  report : ∀ p len bytes s, P s → P (reportFrame p len bytes s)
  hooks : ∀ s p rx1 rx2, P s → P (s.emit (.tickHooks p rx1 rx2))
  accumulators : ∀ (s : State) x y, P s → P (s.modCard fun c => { c with fifoAcc := x, miscAcc := y })

namespace PhaseClosed

variable {P : State → Prop} (H : PhaseClosed P) {s t : State} {E : Env} (K : EnvKeeps E P) {p : Nat}
include H

theorem clearAcc {f : Nat} {d : Dir} (h : P s) : P (clearAcc f d s) := H.accumulators s _ s.card.miscAcc h

include K

theorem rxPass {must : Bool} {r : Bool × Nat} (h : P s) (e : rxPass must E p s = .ok (r, t)) : P t := by
  obtain ⟨u, hu, e⟩ := bind_eq_ok.1 e
  obtain ⟨f, -, e⟩ := bind_eq_ok.1 e
  obtain ⟨a, ha, e⟩ := bind_eq_ok.1 e
  obtain ⟨⟨n, b⟩, hb, e⟩ := bind_eq_ok.1 e
  have hb := H.rds K.fifo (H.fifoSelectMust K.fifo (K.free s u h hu) ha) hb
  dsimp only at e
  split at e
  · cases e; exact hb
  · obtain ⟨⟨len, c⟩, hc, e⟩ := bind_eq_ok.1 e
    obtain ⟨⟨bytes, d⟩, hd, e⟩ := bind_eq_ok.1 e
    obtain ⟨v, hv, e⟩ := bind_eq_ok.1 e
    obtain ⟨⟨rem, w⟩, hw, e⟩ := bind_eq_ok.1 e
    have hw := H.rds K.fifo (H.wrbMust K.fifo (H.readBytes K.fifo (H.rds K.fifo hb hc) hd) hv) hw
    cases e
    split
    · exact H.report _ _ _ _ hw
    · exact hw

theorem rxDrain {c : Nat} (h : P s) (e : rxDrain E p s = .ok (c, t)) : P t := by
  have loop : ∀ (n count : Nat) (u : State), P u → rxDrainLoop E n p count u = .ok (c, t) → P t := by
    intro n
    induction n with
    | zero => intro count u hu e; cases e; exact hu
    | succ n ih =>
      intro count u hu e
      obtain ⟨⟨⟨did, rem⟩, v⟩, hv, e⟩ := bind_eq_ok.1 e
      dsimp only at e
      split at e
      · cases e; exact H.rxPass K hu hv
      · exact ih _ v (H.rxPass K hu hv) e
  exact loop _ _ s h e

theorem txChunk {more : Bool} (h : P s) (e : txChunk E p s = .ok (more, t)) : P t := by
  obtain ⟨u, hu, e⟩ := bind_eq_ok.1 e
  obtain ⟨f, -, e⟩ := bind_eq_ok.1 e
  exact chunk_of_sessHost H.toAccessClosed H.sessHost E.fifo f u more t K.fifo (K.free s u h hu) e

theorem serveTransmit (h : P s) (e : serveTransmit E p s = .ok t) : P t := by
  have loop : ∀ (n : Nat) (u : State), P u → serveTransmitLoop E n p u = .ok t → P t := by
    intro n
    induction n with
    | zero => intro u hu e; cases e; exact hu
    | succ n ih =>
      intro u hu e
      obtain ⟨⟨more, v⟩, hv, e⟩ := bind_eq_ok.1 e
      dsimp only at e
      split at e
      · exact ih v (H.txChunk K hu hv) e
      · cases e; exact H.txChunk K hu hv
  exact loop _ s h e

theorem txDrain {c : Nat} (h : P s) (e : txDrain E p s = .ok (c, t)) : P t := by
  have loop : ∀ (n count : Nat) (u : State), P u → txDrainLoop E n p count u = .ok (c, t) → P t := by
    intro n
    induction n with
    | zero => intro count u hu e; cases e; exact hu
    | succ n ih =>
      intro count u hu e
      unfold txDrainLoop at e
      split at e
      · obtain ⟨⟨more, v⟩, hv, e⟩ := bind_eq_ok.1 e
        dsimp only at e
        split at e
        · cases e; exact H.diag _ _ (H.txChunk K hu hv)
        · exact ih _ v (H.txChunk K hu hv) e
      · cases e; exact hu
  obtain ⟨u, hu, e⟩ := bind_eq_ok.1 e
  obtain ⟨f, -, e⟩ := bind_eq_ok.1 e
  exact loop _ _ u (K.free s u h hu) e

theorem exchange {role : Role} {did : Bool} (h : P s) (e : exchange E p role s = .ok (did, t)) : P t := by
  obtain ⟨u, hu, e⟩ := bind_eq_ok.1 e
  obtain ⟨f, -, e⟩ := bind_eq_ok.1 e
  obtain ⟨a, ha, e⟩ := bind_eq_ok.1 e
  obtain ⟨⟨avail, b⟩, hb, e⟩ := bind_eq_ok.1 e
  have hb := H.rds K.fifo (H.fifoSelect K.fifo (K.free s u h hu) ha) hb
  dsimp only at e
  split at e
  · cases e; exact hb
  · obtain ⟨c, hc, e⟩ := bind_eq_ok.1 e
    cases e
    obtain ⟨⟨rx, v⟩, hv, hc⟩ := bind_eq_ok.1 hc
    obtain ⟨w, hw, hc⟩ := bind_eq_ok.1 hc
    have hv : P (v.modHostPort p fun x => x.setRxbuf role rx) :=
      H.sessHost v _ rfl (H.readBytes K.fifo hb hv)
    exact H.writeBytes K.fifo (byte := fun i s => ((s.hostPort p).txbuf role)[i]?.getD 0)
      (H.fifoSelect K.fifo hv hw) hc

theorem pump {any : Bool} (h : P s) (e : pump E s = .ok (any, t)) : P t := by
  have ports : ∀ (ps : List Nat) (any r : Bool) (u v : State), P u → pumpPorts E ps any u = .ok (r, v) → P v := by
    intro ps
    induction ps with
    | nil => intro any r u v hu e; cases e; exact hu
    | cons p ps ih =>
      intro any r u v hu e
      unfold pumpPorts at e
      split at e
      · obtain ⟨⟨x1, a⟩, ha, e⟩ := bind_eq_ok.1 e
        obtain ⟨⟨x2, b⟩, hb, e⟩ := bind_eq_ok.1 e
        exact ih _ r b v (H.exchange K (H.exchange K hu ha) hb) e
      · exact ih _ r u v hu e
  obtain ⟨⟨r, a⟩, ha, e⟩ := bind_eq_ok.1 e
  obtain ⟨b, hb, e⟩ := bind_eq_ok.1 e
  cases e
  exact H.toAccessClosed.reselect K (ports _ _ _ s a h ha) hb

theorem takeInterrupt {taken : Option Bool} (h : P s) (e : takeInterrupt E.raw s = .ok (taken, t)) : P t := by
  obtain ⟨⟨st, a⟩, ha, e⟩ := bind_eq_ok.1 e
  have ha := H.rd K.raw h ha
  dsimp only at e
  split at e
  · cases e; exact ha
  · obtain ⟨b, hb, e⟩ := bind_eq_ok.1 e
    obtain ⟨⟨m, c⟩, hc, e⟩ := bind_eq_ok.1 e
    cases e
    have hb : P b := forEach_keeps (fun x _ u v hu he => by
      obtain ⟨⟨y, w⟩, hw, he⟩ := bind_eq_ok.1 he
      cases he
      exact H.accumulators w _ w.card.miscAcc (H.rd K.raw hu hw)) ha hb
    obtain ⟨⟨y, w⟩, hw, hc⟩ := bind_eq_ok.1 hc
    cases hc
    exact H.accumulators w w.card.fifoAcc _ (H.rd K.raw hb hw)

/-- The immediate phase (60_exceptions.md R173). -/
theorem immediatePhase {mine : Bool} (h : P s) (e : immediatePhase E s = .ok (mine, t)) : P t := by
  obtain ⟨⟨taken, u⟩, hu, e⟩ := bind_eq_ok.1 e
  have hP := H.takeInterrupt K h hu
  clear hu
  match taken, e with
  | none, e => cases e; exact hP
  | some false, e => cases e; exact hP
  | some true, e =>
    obtain ⟨v, hv, e⟩ := bind_eq_ok.1 e
    cases e
    obtain ⟨⟨any, w⟩, hw, hv⟩ := bind_eq_ok.1 hv
    refine forEach_keeps (fun p _ a b ha hb => ?_) (H.pump K hP hw) hv
    obtain ⟨c, hc, hb⟩ := bind_eq_ok.1 hb
    have hc := K.raw a c ha hc
    cases hb
    split
    · exact H.hooks c p _ _ hc
    · exact hc

/-- The scan of the deferred phase (60_exceptions.md R175). -/
theorem scan {fs : List Nat} (h : P s) (e : forEach (scanFifo E) fs s = .ok t) : P t := by
  refine forEach_keeps (fun f _ a d ha e => ?_) h e
  obtain ⟨b, hb, e⟩ := bind_eq_ok.1 e
  obtain ⟨c, hc, e⟩ := bind_eq_ok.1 e
  obtain ⟨c', hc', e⟩ := bind_eq_ok.1 e
  have hb := K.free a b ha hb
  have hc : P c := by
    unfold scanTransmit at hc
    split at hc
    · have hclear : P (Machine.clearAcc f .tx b) := H.clearAcc hb
      dsimp only at hc
      split at hc
      · exact H.serveTransmit K hclear hc
      · cases hc; exact H.diag _ _ hclear
    · cases hc; exact hb
  have hc' := K.free c c' hc hc'
  unfold scanReceive at e
  split at e
  · have hclear : P (Machine.clearAcc f .rx c') := H.clearAcc hc'
    dsimp only at e
    split at e
    · obtain ⟨⟨n, w⟩, hw, e⟩ := bind_eq_ok.1 e
      cases e
      exact H.rxDrain K hclear hw
    · cases e; exact H.diag _ _ hclear
  · cases e; exact hc'

/-- The final drain of the deferred phase (60_exceptions.md R177). -/
theorem drain (h : P s) (e : deferredDrain E s = .ok t) : P t := by
  refine forEach_keeps (fun p _ a d ha e => ?_) h e
  obtain ⟨b, hb, e⟩ := bind_eq_ok.1 e
  have hb := K.free a b ha hb
  split at e
  · obtain ⟨⟨n, w⟩, hw, e⟩ := bind_eq_ok.1 e
    cases e
    exact H.txDrain K hb hw
  · cases e; exact hb

end PhaseClosed

/-- A service operation's property survives the phases too, if it reads no session, no buffer and no
accumulator. -/
theorem ServiceClosed.phaseClosed {P : State → Prop} (H : ServiceClosed P)
    (sessHost : ∀ s t, SessHost s t → P s → P t)
    (accumulators : ∀ (s : State) x y, P s → P (s.modCard fun c => { c with fifoAcc := x, miscAcc := y })) :
    PhaseClosed P where
  toAccessClosed := H.toAccessClosed
  sessHost := sessHost
  report p len bytes s := (H.port p).report s len bytes
  hooks := H.hooks
  accumulators := accumulators

/-- The deferred phase serves no tick, and keeps what its other parts keep; or it serves one, and then what its
other parts keep up to the count gives what the work of a tick keeps from the count on (60_exceptions.md R176). -/
theorem deferredPhase_cases {P Q : State → Prop} {E : Env} (HP : PhaseClosed P) (KP : EnvKeeps E P)
    (HQ : ServiceClosed Q) (HQ' : PhaseClosed Q) (KQ : EnvKeeps E Q) (publish : PublishClosed Q)
    (count : ∀ s, P s → Q (s.modCard fun c => { c with ticks := c.ticks + 1 })) {s t : State} (h : P s)
    (e : deferredPhase E s = .ok t) : P t ∨ Q t := by
  obtain ⟨u, hu, e⟩ := bind_eq_ok.1 e
  obtain ⟨v, hv, e⟩ := bind_eq_ok.1 e
  have hu := HP.scan KP h hu
  obtain ⟨a, ha, hv⟩ := bind_eq_ok.1 hv
  have ha := KP.free u a hu ha
  split at hv
  · obtain ⟨b, hb, hv⟩ := bind_eq_ok.1 hv
    obtain ⟨c, hc, hv⟩ := bind_eq_ok.1 hv
    obtain ⟨d, hd, hv⟩ := bind_eq_ok.1 hv
    obtain ⟨w, hw, hv⟩ := bind_eq_ok.1 hv
    obtain ⟨x, hx, hv⟩ := bind_eq_ok.1 hv
    cases hv
    have hd : Q d := KQ.free _ _ (HQ.sweep KQ publish (KQ.free _ _ (count a ha) hb) hc) hd
    have hw : Q w := by
      unfold pollIfDue at hw
      split at hw
      · exact HQ.pollPorts KQ hd hw
      · cases hw; exact hd
    have hx := KQ.free _ _ hw hx
    exact .inr (HQ'.drain KQ (HQ'.accumulators x x.card.fifoAcc _ hx) e)
  · cases hv
    exact .inl (HP.drain KP ha e)

/-- An interrupt is its immediate phase and, if it is the card's, its deferred phase. -/
theorem interrupt_cases {imm dfr : Env} {s t : State} {mine : Bool} (e : interrupt imm dfr s = .ok (mine, t)) :
    ∃ u, immediatePhase imm s = .ok (mine, u) ∧ (t = u ∨ deferredPhase dfr u = .ok t) := by
  obtain ⟨⟨m, u⟩, hu, e⟩ := bind_eq_ok.1 e
  cases m with
  | false => cases e; exact ⟨_, hu, .inl rfl⟩
  | true =>
    obtain ⟨v, hv, e⟩ := bind_eq_ok.1 e
    cases e
    exact ⟨u, hu, .inr hv⟩

/-- A command of the deferred phase, `IRQ.DEF` or `IRQ`: at most an immediate phase, and at most a deferred one. -/
theorem exec_deferring {i : Instr} {s t : State} (hi : i = .irqDef ∨ i = .irq) (e : exec i s = .next t) :
    ∃ u w v, t = w.answered v ∧ (u = s ∨ ∃ mine, immediatePhase s.immEnv s = .ok (mine, u)) ∧
      (w = u ∨ deferredPhase s.serviceEnv u = .ok w) := by
  rcases hi with rfl | rfl
  · obtain ⟨w, hw, rfl⟩ := completeOk_eq_next.1 e
    exact ⟨s, w, .ok, rfl, .inl rfl, .inr hw⟩
  · obtain ⟨v, w, hw, rfl⟩ := complete_eq_next.1 e
    obtain ⟨⟨mine, x⟩, hx, hw⟩ := map_eq_ok.1 hw
    cases hw
    obtain ⟨u, hu, hw⟩ := interrupt_cases hx
    exact ⟨u, x, _, rfl, .inr ⟨mine, hu⟩, hw⟩

/-- The same of what a command of the deferred phase keeps. -/
theorem exec_deferring_cases {P Q : State → Prop} {i : Instr} {s t : State} (hi : i = .irqDef ∨ i = .irq)
    (HP : PhaseClosed P) (KI : EnvKeeps s.immEnv P) (KP : EnvKeeps s.serviceEnv P)
    (HQ : ServiceClosed Q) (HQ' : PhaseClosed Q) (KQ : EnvKeeps s.serviceEnv Q) (publish : PublishClosed Q)
    (count : ∀ s, P s → Q (s.modCard fun c => { c with ticks := c.ticks + 1 })) (h : P s)
    (e : exec i s = .next t) : ∃ w v, t = w.answered v ∧ (P w ∨ Q w) := by
  obtain ⟨u, w, v, rfl, himm, hdef⟩ := exec_deferring hi e
  have hu : P u := by
    rcases himm with rfl | ⟨mine, himm⟩
    · exact h
    · exact HP.immediatePhase KI h himm
  rcases hdef with rfl | hdef
  · exact ⟨_, v, rfl, .inl hu⟩
  · exact ⟨w, v, rfl, deferredPhase_cases HP KP HQ HQ' KQ publish count hu hdef⟩

/-! ### The ticks (60_exceptions.md R176, R182) -/

/-- The operations that neither serve a tick nor reset the card. -/
def ServesNoTick (i : Instr) : Prop := i ≠ .cardReset ∧ i ≠ .irqDef ∧ i ≠ .irq

theorem ticksFrom_stepClosed (k : Nat) : StepClosed (· ≠ .cardReset) True fun s => k ≤ s.card.ticks := by
  have reads : ∀ s t, account t = account s → k ≤ s.card.ticks → k ≤ t.card.ticks := by
    intro s t e h
    rwa [show t.card.ticks = s.card.ticks from congrArg (fun x => x.2.2.1) e]
  refine stepClosed_of_account reads (fun _ _ h => h) (fun _ h => h) (fun _ _ => ?_) fun h => absurd rfl h
  exact ⟨fun _ _ _ h => h, fun _ _ _ _ h => h, fun _ h => Nat.le_succ_of_le h, fun _ h => h⟩

theorem ticksKept_stepClosed (k : Nat) : StepClosed ServesNoTick True fun s => s.card.ticks = k := by
  have reads : ∀ s t, account t = account s → s.card.ticks = k → t.card.ticks = k := by
    intro s t e h
    rwa [show t.card.ticks = s.card.ticks from congrArg (fun x => x.2.2.1) e]
  refine stepClosed_of_account reads (fun _ _ h => h) (fun _ h => h) (fun _ h => ?_) fun h => absurd rfl h.1
  rcases h with h | h
  · exact absurd rfl h.2.1
  · exact absurd rfl h.2.2

/-- Where the tick counter is `k` and no agent serves a tick or resets the card. -/
def TicksAre (k : Nat) (s : State) : Prop := s.card.ticks = k ∧ Admits ServesNoTick s

theorem ticksAre_phaseClosed (k : Nat) : PhaseClosed (TicksAre k) := by
  refine ServiceClosed.phaseClosed (ticksKept_stepClosed k).admits.toServiceClosed (fun s t e h => ?_) fun _ _ _ h => h
  unfold SessHost at e
  rw [e]
  exact h

/-- Settles O52: the count of a tick is the one elementary change that moves the counter forward, and a deferred
phase makes it at most once. -/
theorem ticksServedOncePerPhase : Obligations.TicksServedOncePerPhase := by
  intro i s t e hi hreset
  refine ⟨?_, fun hdef hirq => ?_⟩
  · obtain ⟨u, v, ⟨hu, -⟩, rfl⟩ := (ticksFrom_stepClosed s.card.ticks).exec hi (Nat.le_refl _) (admits_ne hreset) e
    exact hu
  · have ha : Admits ServesNoTick s := fun es hes j hj =>
      ⟨fun h => hreset es hes (h ▸ hj), fun h => hdef es hes (h ▸ hj), fun h => hirq es hes (h ▸ hj)⟩
    by_cases hserves : i = .irqDef ∨ i = .irq
    · have H := ticksKept_stepClosed
      obtain ⟨w, v, rfl, hw | hw⟩ := exec_deferring_cases hserves (ticksAre_phaseClosed s.card.ticks)
        (envKeeps_imm ((H _).pointAt _) _).toEnvKeeps (envKeeps_service ((H _).pointAt _) _).toEnvKeeps
        (H (s.card.ticks + 1)).admits.toServiceClosed (ticksAre_phaseClosed _)
        (envKeeps_service ((H _).pointAt _) _).toEnvKeeps (fun _ _ _ h => h)
        (fun u hu => ⟨congrArg (· + 1) hu.1, hu.2⟩) ⟨rfl, ha⟩ e
      · exact .inl hw.1
      · exact .inr ⟨hserves, hw.1⟩
    · push Not at hserves
      obtain ⟨u, v, ⟨hu, -⟩, rfl⟩ := (ticksKept_stepClosed s.card.ticks).exec ⟨hi, hserves⟩ rfl ha e
      exact .inl hu

end Sys2Proof.Invariants

namespace Sys2Proof.Invariants

open Sys2Proof Sys2Proof.Machine

/-! ### Where no agent publishes an alarm

A schedule may hold `ST.SWEEP`, which no agent issues: the step is passed over (log 8). -/

/-- Two properties that survive every elementary change survive it together. -/
theorem StepClosed.and {A : Instr → Prop} {D : Prop} {P Q : State → Prop} (H : StepClosed A D P)
    (K : StepClosed A D Q) : StepClosed A D fun s => P s ∧ Q s where
  toFifoClosed := H.toFifoClosed.and K.toFifoClosed
  port p :=
    { toSpanClosed := (H.port p).toSpanClosed.and (K.port p).toSpanClosed
      map := fun s r h => ⟨(H.port p).map s r h.1, (K.port p).map s r h.2⟩
      attach := fun s h => ⟨(H.port p).attach s h.1, (K.port p).attach s h.2⟩
      detach := fun s h => ⟨(H.port p).detach s h.1, (K.port p).detach s h.2⟩
      report := fun s len bytes h => ⟨(H.port p).report s len bytes h.1, (K.port p).report s len bytes h.2⟩
      chunk := fun pt f s more t hpt _ h e =>
        ⟨(H.port p).chunk pt f s more t hpt (hpt _ H.toFifoClosed) h.1 e,
          (K.port p).chunk pt f s more t hpt (hpt _ K.toFifoClosed) h.2 e⟩
      rxbuf := fun s r bs hl h => ⟨(H.port p).rxbuf s r bs hl h.1, (K.port p).rxbuf s r bs hl h.2⟩ }
  hooks s p r1 r2 h := ⟨H.hooks s p r1 r2 h.1, K.hooks s p r1 r2 h.2⟩
  publish hA s p hp h := ⟨H.publish hA s p hp h.1, K.publish hA s p hp h.2⟩
  deferred hD hA :=
    { publish := fun s p hp h => ⟨(H.deferred hD hA).publish s p hp h.1, (K.deferred hD hA).publish s p hp h.2⟩
      clearAcc := fun s f d hb h =>
        ⟨(H.deferred hD hA).clearAcc s f d hb h.1, (K.deferred hD hA).clearAcc s f d hb h.2⟩
      count := fun s h => ⟨(H.deferred hD hA).count s h.1, (K.deferred hD hA).count s h.2⟩
      clear := fun s h => ⟨(H.deferred hD hA).clear s h.1, (K.deferred hD hA).clear s h.2⟩ }
  reset hA s h := ⟨H.reset hA s h.1, K.reset hA s h.2⟩

/-- A schedule is only ever used up, whatever steps are taken. -/
theorem admits_stepClosed (A B : Instr → Prop) (D : Prop) : StepClosed A D (Admits B) where
  toFifoClosed := admits_fifoClosed B
  port := admits_portClosed B
  hooks _ _ _ _ h := h
  publish _ _ _ _ h := h
  deferred _ _ := ⟨fun _ _ _ h => h, fun _ _ _ _ h => h, fun _ h => h, fun _ h => h⟩
  reset _ _ h := h

/-- What an agent can issue with effect is in `A`; `ST.SWEEP` it passes over. -/
def OrSweep (A : Instr → Prop) (i : Instr) : Prop := A i ∨ i = .stSweep

/-- The points of a schedule that may hold `ST.SWEEP` keep what the steps but a sweep keep. -/
theorem pointAt_orSweep {A : Instr → Prop} {D : Prop} {P : State → Prop} (H : StepClosed A D P) (n : Nat)
    (r : Rights) (hr : r.defer = true → D) : (pointAt n r).Keeps fun s => P s ∧ Admits (OrSweep A) s := by
  have HB : StepClosed A D fun s => P s ∧ Admits (OrSweep A) s := StepClosed.and H (admits_stepClosed A _ D)
  induction n generalizing r with
  | zero =>
    intro s t h e
    cases e
    exact HB.pop s h
  | succ n ih =>
    intro s t h e
    unfold Machine.pointAt at e
    split at e
    · cases e; exact h
    · next es rest hs =>
      have hpop := HB.pop s h
      rw [hs] at hpop
      refine forEach_keeps (P := fun s => P s ∧ Admits (OrSweep A) s) (fun x hx u v hu he => ?_) hpop e
      cases x with
      | setLive l => cases he; exact HB.live u l hu
      | setStrap c =>
        cases he
        split
        · next hc => exact HB.strap u c hc hu
        · exact hu
      | issue i =>
        rcases h.2 es (by rw [hs]; exact List.mem_cons_self) i hx with hi | rfl
        · exact HB.agentStep ih hr hi hu he
        · cases he; exact hu

/-- A command of `A`, in a schedule that may hold `ST.SWEEP`, keeps what the steps but a sweep keep. -/
theorem exec_orSweep {A : Instr → Prop} {P : State → Prop} (H : StepClosed A True P) {i : Instr} (hi : A i)
    {s t : State} (h : P s) (ha : Admits (OrSweep A) s) (e : exec i s = .next t) :
    ∃ u v, P u ∧ t = u.answered v := by
  have HB : StepClosed A True fun s => P s ∧ Admits (OrSweep A) s := StepClosed.and H (admits_stepClosed A _ True)
  have points := fun n r hr => pointAt_orSweep H n r hr
  obtain ⟨u, v, hu, rfl⟩ := HB.toServiceClosed.exec ⟨h, ha⟩ (fun _ => HB.toLineClosed.lineStep ⟨h, ha⟩)
    (fun hp => HB.publish (hp ▸ hi))
    (fun hp => HB.deferred trivial (by rcases hp with rfl | rfl <;> simp [hi]))
    (fun hr => HB.reset (hr ▸ hi) s ⟨h, ha⟩)
    (envKeeps_host (points _) _ fun _ => trivial) (envKeeps_service (points _) _) (envKeeps_imm (points _) _) e
  exact ⟨u, v, hu.1, rfl⟩

/-! ### Published alarms change in the sweep alone (42_st_state_machine.md R113) -/

/-- The published alarms are those of `s₀`. -/
def AlarmsKept (s₀ s : State) : Prop := ∀ p < 8, (s.port p).alarm = (s₀.port p).alarm

/-- The operations that neither sweep nor reset the card. -/
def SweepsNot (i : Instr) : Prop := i ≠ .stSweep ∧ i ≠ .irqDef ∧ i ≠ .irq ∧ i ≠ .cardReset

theorem alarmsKept_reads (s₀ : State) : Reads State.ports (AlarmsKept s₀) where
  reads s t e h := by
    unfold AlarmsKept State.port at h ⊢
    rwa [e]
  hwOnly _ _ h := h.fields.2.2.2.1
  sched _ _ := rfl
  live _ _ := rfl
  answered _ _ := rfl
  advance _ _ := rfl
  running _ _ := rfl
  fifoAcc _ _ := rfl
  miscAcc _ _ := rfl

theorem AlarmsKept.modPort {s₀ s : State} (h : AlarmsKept s₀ s) {p : Nat} {g : Port → Port}
    (hg : (g (s.port p)).alarm = (s.port p).alarm) : AlarmsKept s₀ (s.modPort p g) :=
  ports_modPort (Q := fun q x => x.alarm = (s₀.port q).alarm) h fun hp => hg.trans (h p hp)

theorem alarmsKept_stepClosed (s₀ : State) : StepClosed SweepsNot True (AlarmsKept s₀) := by
  have R := alarmsKept_reads s₀
  refine R.stepClosed (fun p => ?_) (fun s _ _ => R.reads s _ rfl) (fun _ _ _ _ _ h => h.modPort rfl)
    (fun s _ _ => R.reads s _ rfl) (fun s _ _ _ => R.reads s _ rfl) (fun h => ?_) (fun _ _ s => R.reads s _ rfl)
    fun h => absurd rfl h.2.2.2
  · exact portClosed_of_portChange R.accessClosed (fun _ _ hg h => h.modPort hg.alarm)
      (fun s t e => R.reads s t (by rw [e])) (reportFrame_keeps_of_logs (fun s _ => R.reads s _ rfl) fun s _ _ => R.reads s _ rfl)
  · rcases h with h | ⟨-, h | h⟩
    · exact absurd rfl h.1
    · exact absurd rfl h.2.1
    · exact absurd rfl h.2.2.1

/-! ### Pending alarms and their deadlines (42_st_state_machine.md R106, R113, R114) -/

/-- What the debounce makes of a port's entry `q₀` up to the tick `k`: the pending alarm and its deadline are as
they were or the deadline is the full debounce time from `k`; a published alarm that changed is the one that was
pending, and its deadline has passed. -/
structure Debounced (deb k : Nat) (q₀ q : Port) : Prop where
  pending : (q.newalarm = q₀.newalarm ∧ q.alarmtimer = q₀.alarmtimer) ∨ q.alarmtimer = k + deb
  published : q.alarm ≠ q₀.alarm → deb ≠ 0 → q.alarm = q₀.newalarm ∧ q₀.alarmtimer ≤ k

theorem Debounced.refl (deb k : Nat) (q : Port) : Debounced deb k q q := ⟨.inl ⟨rfl, rfl⟩, fun h => absurd rfl h⟩

/-- An operation on a port starts the debounce time anew or leaves the pending alarm and its deadline. -/
theorem PortChange.pending {s : State} {p : Nat} {g : Port → Port} (h : PortChange s p g) :
    ((g (s.port p)).newalarm = (s.port p).newalarm ∧ (g (s.port p)).alarmtimer = (s.port p).alarmtimer) ∨
      (g (s.port p)).alarmtimer = s.card.ticks + s.live.debounceMs := by
  cases h with
  | record sta =>
    dsimp only
    unfold Port.debounce
    split
    · rw [disarmIfClear_eq]
      exact .inl ⟨rfl, rfl⟩
    · exact .inr rfl
  | map role =>
    dsimp only
    rw [setFifoNum_eq]
    exact .inl ⟨rfl, rfl⟩
  | _ => exact .inl ⟨rfl, rfl⟩

theorem Debounced.change {s : State} {p deb k : Nat} {q₀ : Port} {g : Port → Port} (h : Debounced deb k q₀ (s.port p))
    (hg : PortChange s p g) (hk : s.card.ticks = k) (hd : s.live.debounceMs = deb) :
    Debounced deb k q₀ (g (s.port p)) := by
  obtain ⟨hpend, hpub⟩ := h
  refine ⟨?_, by rwa [hg.alarm]⟩
  rcases hg.pending with ⟨hn, ht⟩ | ht
  · rwa [hn, ht]
  · rw [ht, hk, hd]
    exact .inr rfl

/-- A pending alarm that is due was pending from the start, if the debounce time is not 0. -/
theorem Debounced.publish {deb k : Nat} {q₀ q : Port} (h : Debounced deb k q₀ q) (hdue : q.alarmtimer ≤ k) :
    Debounced deb k q₀ { q with alarm := q.newalarm } := by
  refine ⟨h.pending, fun _ hdeb => ?_⟩
  rcases h.pending with ⟨hn, ht⟩ | ht
  · exact ⟨hn, ht ▸ hdue⟩
  · omega

/-- In a scripted run at the tick `k` every port's entry is that of `s₀` debounced. -/
structure DebouncedAt (s₀ : State) (k : Nat) (s : State) : Prop where
  scripted : s.sched = []
  ticks : s.card.ticks = k
  live : s.live = s₀.live
  ports : ∀ p < 8, Debounced s₀.live.debounceMs k (s₀.port p) (s.port p)

theorem DebouncedAt.of_eq {s₀ s t : State} {k : Nat} (h : DebouncedAt s₀ k s) (hs : t.sched = s.sched)
    (hk : t.card.ticks = s.card.ticks) (hl : t.live = s.live) (hp : t.ports = s.ports) : DebouncedAt s₀ k t := by
  refine ⟨hs.trans h.scripted, hk.trans h.ticks, hl.trans h.live, fun p hlt => ?_⟩
  rw [show t.port p = s.port p by rw [State.port, hp, State.port]]
  exact h.ports p hlt

theorem DebouncedAt.modPort {s₀ s : State} {k : Nat} (h : DebouncedAt s₀ k s) {p : Nat} {g : Port → Port}
    (hg : Debounced s₀.live.debounceMs k (s₀.port p) (s.port p) → Debounced s₀.live.debounceMs k (s₀.port p) (g (s.port p))) :
    DebouncedAt s₀ k (s.modPort p g) :=
  ⟨h.scripted, h.ticks, h.live,
    ports_modPort (Q := fun q => Debounced s₀.live.debounceMs k (s₀.port q)) h.ports fun hp => hg (h.ports p hp)⟩

theorem debouncedAt_hwOnly {s₀ : State} {k : Nat} (s t : State) (e : HwOnly s t) (h : DebouncedAt s₀ k s) :
    DebouncedAt s₀ k t := by
  obtain ⟨-, -, hl, hp, -, -, -, hs, -, hk, -⟩ := e.fields
  exact h.of_eq hs hk hl hp

theorem debouncedAt_publish (s₀ : State) (k : Nat) : PublishClosed (DebouncedAt s₀ k) := by
  intro s p hpub h
  have hdue : (s.port p).alarmtimer ≤ k := by
    simp only [publishes, Bool.and_eq_true, decide_eq_true_eq] at hpub
    exact h.ticks ▸ hpub.1.2
  have hpublished : DebouncedAt s₀ k (s.modPort p fun q => { q with alarm := (s.port p).newalarm }) :=
    h.modPort fun hq => hq.publish hdue
  exact hpublished.of_eq rfl rfl rfl rfl

theorem debouncedAt_serviceClosed (s₀ : State) (k : Nat) : ServiceClosed (DebouncedAt s₀ k) := by
  have A : AccessClosed (DebouncedAt s₀ k) :=
    .of_hwOnly debouncedAt_hwOnly fun _ h => by rwa [linePoint_of_nil h.scripted]
  have hside : ∀ s t, SessHost s t → DebouncedAt s₀ k s → DebouncedAt s₀ k t := by
    intro s t e h
    unfold SessHost at e
    rw [e]
    exact h.of_eq rfl rfl rfl rfl
  have ports : ∀ p, PortClosed (DebouncedAt s₀ k) p := fun p =>
    portClosed_of_portChange A (fun s g hg h => h.modPort fun hq => hq.change hg h.ticks (by rw [h.live])) hside
      (reportFrame_keeps_of_logs (fun _ _ h => h.of_eq rfl rfl rfl rfl) fun _ _ _ h => h.of_eq rfl rfl rfl rfl)
  exact
    { toAccessClosed := A
      span := fun p => (ports p).toSpanClosed
      prio := fun _ _ _ _ _ h => h.modPort fun hq => ⟨hq.pending, hq.published⟩
      sync := fun _ _ _ h => h.of_eq rfl rfl rfl rfl
      running := fun _ _ h => h.of_eq rfl rfl rfl rfl
      accumulate := fun _ _ h => h.of_eq rfl rfl rfl rfl
      accumulateMisc := fun _ h => h.of_eq rfl rfl rfl rfl
      port := ports
      hooks := fun _ _ _ _ h => h.of_eq rfl rfl rfl rfl }

theorem debouncedAt_phaseClosed (s₀ : State) (k : Nat) : PhaseClosed (DebouncedAt s₀ k) := by
  refine ServiceClosed.phaseClosed (debouncedAt_serviceClosed s₀ k) (fun s t e h => ?_) fun _ _ _ h => h.of_eq rfl rfl rfl rfl
  unfold SessHost at e
  rw [e]
  exact h.of_eq rfl rfl rfl rfl

/-- In a scripted run no port's entry, and no tick, has changed. -/
structure Untouched (s₀ s : State) : Prop where
  scripted : s.sched = []
  ticks : s.card.ticks = s₀.card.ticks
  live : s.live = s₀.live
  ports : s.ports = s₀.ports

theorem Untouched.of_eq {s₀ s t : State} (h : Untouched s₀ s) (hs : t.sched = s.sched)
    (hk : t.card.ticks = s.card.ticks) (hl : t.live = s.live) (hp : t.ports = s.ports) : Untouched s₀ t :=
  ⟨hs.trans h.scripted, hk.trans h.ticks, hl.trans h.live, hp.trans h.ports⟩

/-- The phases leave the ports' entries outside the work of a tick. -/
theorem untouched_phaseClosed (s₀ : State) : PhaseClosed (Untouched s₀) where
  toAccessClosed := by
    refine .of_hwOnly (fun s t e h => ?_) fun _ h => by rwa [linePoint_of_nil h.scripted]
    obtain ⟨-, -, hl, hp, -, -, -, hs, -, hk, -⟩ := e.fields
    exact h.of_eq hs hk hl hp
  sessHost s t e h := by
    unfold SessHost at e
    rw [e]
    exact h.of_eq rfl rfl rfl rfl
  report _ len bytes s :=
    reportFrame_keeps_of_logs (fun _ _ h => h.of_eq rfl rfl rfl rfl) (fun _ _ _ h => h.of_eq rfl rfl rfl rfl) s len bytes
  hooks _ _ _ _ h := h.of_eq rfl rfl rfl rfl
  accumulators _ _ _ h := h.of_eq rfl rfl rfl rfl

/-- The count of a tick leaves the pending alarms and their deadlines. -/
theorem Untouched.count {s₀ s : State} (h : Untouched s₀ s) :
    DebouncedAt s₀ (s₀.card.ticks + 1) (s.modCard fun c => { c with ticks := c.ticks + 1 }) := by
  refine ⟨h.scripted, congrArg (· + 1) h.ticks, h.live, fun p _ => ?_⟩
  have hport : (s.modCard fun c => { c with ticks := c.ticks + 1 }).port p = s₀.port p := by
    rw [State.port, State.port, ← h.ports]
    rfl
  rw [hport]
  exact .refl _ _ _

theorem Untouched.debouncedAt {s₀ s : State} (h : Untouched s₀ s) : DebouncedAt s₀ s₀.card.ticks s := by
  refine ⟨h.scripted, h.ticks, h.live, fun p _ => ?_⟩
  rw [show s.port p = s₀.port p by rw [State.port, h.ports, State.port]]
  exact .refl _ _ _

/-- A command of a scripted run debounces the alarms of every port up to the tick it ends at. -/
theorem exec_debounced {i : Instr} {s t : State} (hs : s.scripted) (hi : i ≠ .cardReset) (e : exec i s = .next t) :
    DebouncedAt s t.card.ticks t := by
  have hstart : Untouched s s := ⟨hs, rfl, rfl, rfl⟩
  have scripted : ∀ k u, DebouncedAt s k u → u.scripted := fun _ _ h => h.scripted
  have phases : ∀ u, Untouched s u → u.scripted := fun _ h => h.scripted
  have ends : ∀ k w v, DebouncedAt s k w → DebouncedAt s (w.answered v).card.ticks (w.answered v) := by
    intro k w v h
    change DebouncedAt s w.card.ticks _
    rw [h.ticks]
    exact h.of_eq rfl rfl rfl rfl
  by_cases hserves : i = .irqDef ∨ i = .irq
  · obtain ⟨w, v, rfl, hw | hw⟩ := exec_deferring_cases hserves (untouched_phaseClosed s)
      (.of_scripted phases (immEnv_calm s)) (.of_scripted phases (serviceEnv_calm s))
      (debouncedAt_serviceClosed s (s.card.ticks + 1)) (debouncedAt_phaseClosed s _)
      (.of_scripted (scripted _) (serviceEnv_calm s)) (debouncedAt_publish s _) (fun _ hu => hu.count) hstart e
    · exact ends _ w v hw.debouncedAt
    · exact ends _ w v hw
  · have line : ∀ u, lineStep i s = some u → DebouncedAt s s.card.ticks u := fun u hu =>
      (LineClosed.of_hwOnly debouncedAt_hwOnly).lineStep hstart.debouncedAt hu
    obtain ⟨w, v, hw, rfl⟩ := (debouncedAt_serviceClosed s s.card.ticks).exec hstart.debouncedAt line
      (fun _ => debouncedAt_publish s _) (fun h => absurd h hserves) (fun h => absurd h hi)
      (.of_scripted (scripted _) (hostEnv_calm s)) (serviceKeeps_of_scripted (scripted _) s)
      (immKeeps_of_scripted (scripted _) s) e
    exact ends _ w v hw

/-- Settles O30: only a publication writes a published alarm, and it publishes what was pending; an observation that
changes a pending alarm sets its deadline anew, and in an interrupt all observations follow the count. -/
theorem debounce : Obligations.Debounce := by
  intro i s t e hi
  refine ⟨fun hsweep hdef hirq ndef nirq nreset => ?_, fun hs p hp => ?_⟩
  · have ha : Admits (OrSweep SweepsNot) s := fun es hes j hj => by
      by_cases hj' : j = .stSweep
      · exact .inr hj'
      · exact .inl ⟨hj', fun h => ndef es hes (h ▸ hj), fun h => nirq es hes (h ▸ hj), fun h => nreset es hes (h ▸ hj)⟩
    obtain ⟨u, v, hu, rfl⟩ := exec_orSweep (alarmsKept_stepClosed s) ⟨hsweep, hdef, hirq, hi⟩ (fun _ _ => rfl) ha e
    exact hu
  · obtain ⟨hpend, hpub⟩ := (exec_debounced hs hi e).ports p (hp.trans_le (nports_le_eight s))
    exact ⟨hpend, hpub⟩

end Sys2Proof.Invariants

/-! PROOFS of the register window and its access layer (10_state.md R22 to R39, 20_memory.md, 40_register_access.md). -/

namespace Sys2Proof.Registers

open Sys2Proof Sys2Proof.Machine

variable {s t : State} {off v w : Byte} {r : Reg}

/-! ### Answers -/

theorem answered_injective {u u' : State} {x x' : Result} (h : u.answered x = u'.answered x') : u = u' ∧ x = x' := by
  obtain ⟨⟩ := u
  obtain ⟨⟩ := u'
  simp only [State.answered, State.mk.injEq, Script.mk.injEq] at h
  obtain ⟨h1, h2, h3, h4, h5, h6, h7, h8, ⟨h9, h10, h11⟩, h12, h13⟩ := h
  obtain ⟨hres, hx⟩ := List.append_inj' h11 rfl
  simp only [List.cons.injEq, and_true] at hx
  subst hx h1 h2 h3 h4 h5 h6 h7 h8 h12 h13
  refine ⟨?_, rfl⟩
  congr 1
  exact Script.mk.injEq .. ▸ ⟨h9, h10, hres⟩

/-! ### The legal accesses (20_memory.md R49) -/

/-- The offsets that take an access of one byte. -/
def ByteWide (off : Byte) : Prop := off ≤ 0x08 ∨ (0x0A ≤ off ∧ off ≤ 0x17)

theorem legalAccess_one_isSome (off : Byte) : (legalAccess off 1).isSome = true ↔ ByteWide off := by
  have key : ∀ off : Byte, (legalAccess off 1).isSome = decide (off ≤ 0x08 ∨ (0x0A ≤ off ∧ off ≤ 0x17)) := by
    decide +kernel
  rw [key, decide_eq_true_iff]
  rfl

theorem legalAccess_two_isSome (off : Byte) : (legalAccess off 2).isSome = true ↔ off = 0x18 := by
  have key : ∀ off : Byte, (legalAccess off 2).isSome = decide (off = 0x18) := by decide +kernel
  rw [key, decide_eq_true_iff]

/-- A register takes accesses of one byte or of two. -/
theorem legalAccess_width {n : Nat} (h : (legalAccess off n).isSome = true) : n = 1 ∨ n = 2 := by
  obtain ⟨r, hr⟩ := Option.isSome_iff_exists.1 h
  have hw := (Option.filter_eq_some_iff.1 hr).2
  rw [beq_iff_eq] at hw
  subst hw
  cases r <;> simp [Reg.width]

/-- The accesses that a read may be. -/
def Readable (off w : Byte) : Prop := (ByteWide off ∧ w = 1) ∨ (off = 0x18 ∧ w = 2)

theorem legalAccess_isSome_iff (off w : Byte) : (legalAccess off w.toNat).isSome = true ↔ Readable off w := by
  constructor
  · intro h
    rcases legalAccess_width h with h1 | h2
    · rw [h1] at h
      exact .inl ⟨(legalAccess_one_isSome off).1 h, BitVec.eq_of_toNat_eq h1⟩
    · rw [h2] at h
      exact .inr ⟨(legalAccess_two_isSome off).1 h, BitVec.eq_of_toNat_eq h2⟩
  · rintro (⟨hb, rfl⟩ | ⟨rfl, rfl⟩)
    · exact (legalAccess_one_isSome off).2 hb
    · rfl

theorem memRead_of_legal {n : Nat} (h : legalAccess off n = some r) : memRead off n s = readReg r s := by
  rw [memRead, h]

theorem memWrite_of_legal (h : legalAccess off 1 = some r) : memWrite off v s = writeReg r v s := by
  rw [memWrite, h]

theorem memRead_isSome {n : Nat} {x : BitVec 16 × State} (e : memRead off n s = .ok x) :
    (legalAccess off n).isSome = true := by
  unfold memRead at e
  split at e
  · cases e
  · next hr => rw [hr]; rfl

theorem memWrite_isSome (e : memWrite off v s = .ok t) : (legalAccess off 1).isSome = true := by
  unfold memWrite at e
  split at e
  · cases e
  · next hr => rw [hr]; rfl

theorem readReg_ne_badAccess (r : Reg) (s : State) : readReg r s ≠ .error .badAccess := by
  have hport : s.selPort ≠ .error .badAccess := by
    unfold State.selPort
    split <;> exact nofun
  have hvalue : readValue r s ≠ .error .badAccess := by
    cases r with
    | stRd | stWr =>
      unfold readValue
      dsimp only
      cases h : s.selPort with
      | ok p => exact nofun
      | error e =>
        intro he
        cases he
        exact hport h
    | fifoData =>
      unfold readValue
      dsimp only
      split
      · exact nofun
      · split <;> exact nofun
    | _ => exact nofun
  unfold readReg
  cases h : readValue r s with
  | ok x => exact nofun
  | error e =>
    intro he
    cases he
    exact hvalue h

theorem writeEffect_ne_badAccess (r : Reg) (v : Byte) (s : State) : writeEffect r v s ≠ .error .badAccess := by
  cases r with
  | stRd | stWr =>
    unfold writeEffect State.selPort
    dsimp only
    split <;> exact nofun
  | fifoData =>
    change writeData v s ≠ _
    unfold writeData
    split
    · exact nofun
    · split <;> exact nofun
  | fifoCmd =>
    change writeCmd v s ≠ _
    unfold writeCmd advanceFrame
    dsimp only
    split
    · exact nofun
    · split
      · split
        · split <;> exact nofun
        · split
          · exact nofun
          · split <;> exact nofun
      · exact nofun
  | _ => exact nofun

theorem writeReg_ne_badAccess (r : Reg) (v : Byte) (s : State) : writeReg r v s ≠ .error .badAccess := by
  unfold writeReg writeRegMust
  split
  · split
    · split
      · exact writeEffect_ne_badAccess _ _ _
      · exact nofun
    · exact writeEffect_ne_badAccess _ _ _
  · exact nofun

/-! ### The raw commands of a scripted run -/

theorem exec_regRd (h : s.sched = []) :
    exec (.regRd off w) s = complete ((memRead off w.toNat s).map fun x => (.value x.1.toNat, x.2)) := by
  have hraw : s.serviceEnv.raw s = .ok s := (serviceEnv_calm s).raw s h
  change complete _ = _
  rw [hraw, ok_bind]
  cases memRead off w.toNat s <;> rfl

theorem exec_regWr (h : s.sched = []) : exec (.regWr off v) s = completeOk (memWrite off v s) := by
  have hraw : s.serviceEnv.raw s = .ok s := (serviceEnv_calm s).raw s h
  change completeOk _ = _
  rw [hraw, ok_bind]

/-- A read of a register answers its value and leaves its side effect. -/
theorem exec_regRd_of_value {x : BitVec 16} (h : s.sched = []) (hr : legalAccess off w.toNat = some r)
    (hx : readValue r s = .ok x) :
    exec (.regRd off w) s = .next ((readEffect r s).answered (.value x.toNat)) := by
  rw [exec_regRd h, memRead_of_legal hr, readReg, hx]
  rfl

theorem exec_regRd_of_fault {e : Fault} (h : s.sched = []) (hr : legalAccess off w.toNat = some r)
    (hx : readValue r s = .error e) : exec (.regRd off w) s = .fault e := by
  rw [exec_regRd h, memRead_of_legal hr, readReg, hx]
  rfl

theorem exec_regWr_of_legal (h : s.sched = []) (hr : legalAccess off 1 = some r) :
    exec (.regWr off v) s = completeOk (writeReg r v s) := by
  rw [exec_regWr h, memWrite_of_legal hr]

theorem writeReg_reserved (hv : v &&& r.reserved ≠ 0) : writeReg r v s = .error .reservedBits := if_neg hv

/-- A write of a register that the busy flag does not gate stores, or is `RESERVED_BITS` (20_memory.md R48). -/
theorem exec_regWr_plain (h : s.sched = []) (hr : legalAccess off 1 = some r) (hg : r.busyGated = false)
    (ht : writeEffect r v s = .ok t) :
    exec (.regWr off v) s = if v &&& r.reserved = 0 then .next (t.answered .ok) else .fault .reservedBits := by
  rw [exec_regWr_of_legal h hr]
  split
  · next hv => rw [writeReg_plain hv hg, ht, completeOk_ok]
  · next hv => rw [writeReg_reserved hv, completeOk_error]

theorem exec_regWr_reserved (h : s.sched = []) (hr : legalAccess off 1 = some r) (hv : v &&& r.reserved ≠ 0) :
    exec (.regWr off v) s = .fault .reservedBits := by
  rw [exec_regWr_of_legal h hr, writeReg_reserved hv, completeOk_error]

/-- Settles O6. -/
theorem legalAccesses : Obligations.LegalAccesses := by
  intro s off v w
  dsimp only
  refine ⟨fun t e => ?_, fun t e => ?_, fun h => ⟨?_, ?_, ?_, ?_, ?_, fun hp => ⟨?_, ?_⟩⟩⟩
  · obtain ⟨x, u, hx, -⟩ := complete_eq_next.1 e
    obtain ⟨y, -, hx⟩ := bind_eq_ok.1 hx
    obtain ⟨z, hz, -⟩ := bind_eq_ok.1 hx
    exact (legalAccess_isSome_iff off w).1 (memRead_isSome hz)
  · obtain ⟨u, hu, -⟩ := completeOk_eq_next.1 e
    obtain ⟨y, -, hu⟩ := bind_eq_ok.1 hu
    exact (legalAccess_one_isSome off).1 (memWrite_isSome hu)
  · change _ ↔ ¬ Readable off w
    rw [exec_regRd h, complete_eq_fault, ← legalAccess_isSome_iff]
    unfold memRead
    cases hr : legalAccess off w.toNat with
    | none => simp [Except.map]
    | some r =>
      have hne := readReg_ne_badAccess r s
      cases hx : readReg r s with
      | ok x => simp [hx]
      | error e =>
        rw [hx] at hne
        simpa [hx, Except.map] using fun he => hne (congrArg _ he)
  · change _ ↔ ¬ ByteWide off
    rw [exec_regWr h, completeOk_eq_fault, ← legalAccess_one_isSome]
    unfold memWrite
    cases hr : legalAccess off 1 with
    | none => simp
    | some r => simpa using writeReg_ne_badAccess r v s
  · exact (exec_regWr_plain (r := .status) h rfl rfl rfl).trans (if_pos BitVec.and_zero)
  · exact (exec_regWr_plain (r := .fCnt) h rfl rfl rfl).trans (if_pos BitVec.and_zero)
  · exact exec_regRd_of_value (r := .fifoCmd) h rfl rfl
  · refine (exec_regWr_plain (r := .stRd) (t := s) h rfl rfl ?_).trans (if_pos BitVec.and_zero)
    rw [writeEffect, State.selPort, if_pos hp]
    rfl
  · refine exec_regRd_of_value (r := .stWr) (x := 0) h rfl ?_
    rw [readValue, State.selPort, if_pos hp]
    rfl

/-! ### What reads answer (10_state.md R23 to R39) -/

/-- A byte read in 16 bits. -/
theorem toNat_setWidth_byte (b : Byte) : (b.setWidth 16).toNat = b.toNat := by
  rw [BitVec.toNat_setWidth]
  omega

/-- A number below 65536 read in 16 bits. -/
theorem toNat_ofNat_16 {n : Nat} (h : n < 65536) : (BitVec.ofNat 16 n).toNat = n := by
  rw [BitVec.toNat_ofNat]
  omega

/-- A read without side effect of a register that holds the byte `b`. -/
theorem exec_regRd_byte {b : Byte} (h : s.sched = []) (hr : legalAccess off w.toNat = some r)
    (hx : readValue r s = .ok (b.setWidth 16)) (he : readEffect r s = s) :
    exec (.regRd off w) s = .next (s.answered (.value b.toNat)) := by
  rw [exec_regRd_of_value h hr hx, he, toNat_setWidth_byte]

theorem fifoAny_eq_false_iff_replicate : s.fifoAny = false ↔ s.hw.fifoStat = Vector.replicate 8 0 := by
  rw [TickInterrupt.fifoAny_eq_false_iff]
  constructor
  · intro h
    ext b hb
    rw [← TickInterrupt.fifoStat_eq_getElem hb, h b hb]
    simp
  · intro h b hb
    rw [TickInterrupt.fifoStat_eq_getElem hb]
    simp [h]

/-- `STATUS` as a number (10_state.md R23). -/
theorem statusByte_toNat (s : State) :
    s.statusByte.toNat = (if s.hw.fifoStat = Vector.replicate 8 0 then 0 else 1) +
      (if s.hw.miscStat ≠ 0 then 2 else 0) + (if s.hw.busy then 4 else 0) := by
  have key : ∀ a b c : Bool, ((0#5) ++ BitVec.ofBool a ++ BitVec.ofBool b ++ BitVec.ofBool c).toNat =
      (if c then 1 else 0) + (if b then 2 else 0) + (if a then 4 else 0) := by decide
  have hfifo : (if s.fifoAny = true then 1 else 0) = if s.hw.fifoStat = Vector.replicate 8 0 then 0 else 1 := by
    by_cases hz : s.hw.fifoStat = Vector.replicate 8 0
    · rw [fifoAny_eq_false_iff_replicate.2 hz, if_pos hz]
      rfl
    · rw [if_neg hz, if_pos (Bool.eq_true_of_not_eq_false (mt fifoAny_eq_false_iff_replicate.1 hz))]
  have hmisc : (if s.miscAny then 2 else 0) = if s.hw.miscStat ≠ 0 then 2 else 0 := by
    simp [State.miscAny]
  rw [State.statusByte, key, hfifo, hmisc]

/-- The line state byte as a number (10_state.md R27). -/
theorem latchByte_toNat (l : LineLatch) :
    l.byte.toNat = l.code.toNat + 32 * l.t2exp.toNat + 64 * l.signal.toNat := by
  have key : ∀ (c : BitVec 4) (a b : Bool),
      ((0#1) ++ BitVec.ofBool b ++ BitVec.ofBool a ++ (0#1) ++ c).toNat = c.toNat + 32 * a.toNat + 64 * b.toNat := by
    decide
  exact key _ _ _

theorem legalAccess_fifoStat : ∀ b : Fin 8, legalAccess (BitVec.ofNat 8 (0x10 + b.val)) 1 = some (.fifoStat b) := by
  decide

/-- The interrupt line, as reads of `TICK_CTRL` and `STATUS` tell it (10_state.md R23, R38). -/
theorem irqLine_iff_reads (h : s.sched = []) :
    s.irqLine = true ↔
      (∃ n, exec (.regRd 0x0F 1) s = .next (s.answered (.value n)) ∧ n.testBit 1 = true) ∧
      ∃ n, exec (.regRd 0x00 1) s = .next (s.answered (.value n)) ∧ n % 4 ≠ 0 := by
  have hctrl := exec_regRd_byte (s := s) (off := 0x0F) (w := 1) (r := .tickCtrl) h rfl rfl rfl
  have hstatus := exec_regRd_byte (s := s) (off := 0x00) (w := 1) (r := .status) h rfl rfl rfl
  have unique : ∀ {o : Host.Outcome State Fault Refusal} {m n : Nat}, o = .next (s.answered (.value m)) →
      o = .next (s.answered (.value n)) → n = m := by
    intro o m n hm hn
    rw [hm] at hn
    injection hn with hn
    injection (answered_injective hn).2 with hn
    exact hn.symm
  have hmod : s.statusByte.toNat % 4 ≠ 0 ↔ (s.miscAny || s.fifoAny) = true := by
    have key : ∀ a b c : Bool, ((0#5) ++ BitVec.ofBool a ++ BitVec.ofBool b ++ BitVec.ofBool c).toNat % 4 ≠ 0 ↔
        (b || c) = true := by decide
    exact key _ _ _
  rw [State.irqLine, Bool.and_eq_true, ← hmod]
  constructor
  · rintro ⟨hen, hany⟩
    exact ⟨⟨_, hctrl, hen⟩, _, hstatus, hany⟩
  · rintro ⟨⟨m, hm, hen⟩, n, hn, hany⟩
    rw [unique hctrl hm] at hen
    rw [unique hstatus hn] at hany
    exact ⟨hen, hany⟩

/-- The counters fit their registers. -/
theorem byteCount_le (x : Fifo) (d : Dir) : x.byteCount d ≤ 65535 := by
  unfold Fifo.byteCount
  cases d with
  | rx =>
    dsimp only
    split
    · split
      · omega
      · exact Nat.min_le_right _ _
    · exact Nat.min_le_right _ _
  | tx =>
    dsimp only
    split <;> exact Nat.min_le_right _ _

theorem exec_regRd_zCnt (h : s.sched = []) :
    exec (.regRd 0x18 2) s = .next (s.answered (.value ((s.fifo s.selNum).byteCount s.selDir))) := by
  have hle := byteCount_le (s.fifo s.selNum) s.selDir
  rw [exec_regRd_of_value (r := .zCnt) h rfl rfl, toNat_ofNat_16 (by omega)]
  rfl

theorem exec_regRd_fCnt (h : s.sched = []) :
    exec (.regRd 0x08 1) s = .next (s.answered (.value ((s.fifo s.selNum).frameCount s.selDir))) := by
  have hle : (s.fifo s.selNum).frameCount s.selDir ≤ 255 := by
    cases s.selDir <;> exact Nat.min_le_right _ _
  rw [exec_regRd_of_value (r := .fCnt) h rfl rfl, toNat_ofNat_16 (by omega)]
  rfl

/-- Settles O7. -/
theorem registerReads : Obligations.RegisterReads := by
  intro s h
  dsimp only
  refine ⟨?_, irqLine_iff_reads h, ?_, ?_, fun b hb => ?_, ?_, ?_, ?_, ?_, ?_, ?_, ?_, ?_, ?_, ?_⟩
  · rw [← statusByte_toNat]
    exact exec_regRd_byte (r := .status) h rfl rfl rfl
  · rw [exec_regRd_of_value (r := .miscStat) h rfl rfl, toNat_setWidth_byte]
    rfl
  · rw [exec_regRd_of_value (r := .sci) h rfl rfl, toNat_setWidth_byte]
    rfl
  · rw [exec_regRd_of_value h (legalAccess_fifoStat ⟨b, hb⟩) rfl, toNat_setWidth_byte]
    rfl
  · exact exec_regRd_byte (r := .stSel) h rfl rfl rfl
  · exact exec_regRd_byte (r := .syncSel) h rfl rfl rfl
  · exact exec_regRd_byte (r := .fifoSel) h rfl rfl rfl
  · exact exec_regRd_byte (r := .tickCtrl) h rfl rfl rfl
  · refine exec_regRd_byte (r := .fifoCtrl) h rfl ?_ rfl
    cases hd : s.selDir <;> simp [readValue, hd, State.fifoRegs, Fifo.regs]
  · refine exec_regRd_byte (r := .fcChan) h rfl ?_ rfl
    cases hd : s.selDir <;> simp [readValue, hd, State.fifoRegs, Fifo.regs]
  · refine exec_regRd_byte (r := .fcSlot) h rfl ?_ rfl
    cases hd : s.selDir <;> simp [readValue, hd, State.fifoRegs, Fifo.regs]
  · rw [exec_regRd_fCnt h]
    cases s.selDir <;> rfl
  · rw [exec_regRd_zCnt h]
    congr 3
    cases hd : s.selDir with
    | tx =>
      unfold Fifo.byteCount hdlcMode
      dsimp only
      cases (s.fifo s.selNum).txRegs.ctrl.getLsbD 1 <;> rfl
    | rx =>
      unfold Fifo.byteCount hdlcMode
      dsimp only
      cases (s.fifo s.selNum).rxRegs.ctrl.getLsbD 1 with
      | false => rfl
      | true => cases (s.fifo s.selNum).rxq <;> rfl
  · split
    · next hp =>
      rw [← latchByte_toNat]
      refine exec_regRd_byte (r := .stRd) h rfl ?_ rfl
      rw [readValue, State.selPort, if_pos hp]
      rfl
    · next hp =>
      have hport : s.selPort = .error .badPort := if_neg hp
      refine ⟨exec_regRd_of_fault (r := .stRd) h rfl ?_, exec_regRd_of_fault (r := .stWr) h rfl ?_⟩ <;>
        rw [readValue, hport] <;> rfl

end Sys2Proof.Registers

namespace Sys2Proof.Registers

open Sys2Proof Sys2Proof.Machine

variable {s t : State} {off v w : Byte} {r : Reg}

/-! ### Writes (10_state.md R24 to R39) -/

/-- Settles O8. -/
theorem plainWrites : Obligations.PlainWrites := by
  intro s v h
  dsimp only
  refine ⟨exec_regWr_plain (r := .stSel) h rfl rfl rfl, exec_regWr_plain (r := .syncSel) h rfl rfl rfl,
    fun hb => ?_, fun hb => ?_, exec_regWr_plain (r := .tickCtrl) h rfl rfl rfl, ?_, ?_, ?_,
    exec_regWr_plain (r := .miscStat) h rfl rfl rfl, exec_regWr_plain (r := .sci) h rfl rfl rfl,
    fun b hb => exec_regWr_plain (r := .fifoStat ⟨b, hb⟩) h (legalAccess_fifoStat ⟨b, hb⟩) rfl rfl⟩
  · split
    · next hv =>
      rw [exec_regWr_of_legal (r := .fifoSel) h rfl, writeReg_idle hv hb]
      rfl
    · next hv => exact exec_regWr_reserved (r := .fifoSel) h rfl hv
  · split
    · next hv =>
      rw [exec_regWr_of_legal (r := .fifoSel) h rfl, writeReg_busy hv rfl hb]
      cases Config.takenDraw s.draws <;> rfl
    · next hv => exact exec_regWr_reserved (r := .fifoSel) h rfl hv
  · refine exec_regWr_plain (r := .fifoCtrl) h rfl rfl ?_
    cases hd : s.selDir <;> simp only [writeEffect, hd] <;> rfl
  · refine exec_regWr_plain (r := .fcChan) h rfl rfl ?_
    cases hd : s.selDir <;> simp only [writeEffect, hd] <;> rfl
  · refine exec_regWr_plain (r := .fcSlot) h rfl rfl ?_
    cases hd : s.selDir <;> simp only [writeEffect, hd] <;> rfl

/-! ### The data port (10_state.md R33) -/

/-- A read of the data port in receive direction pops the front byte, or is `FIFO_UNDERRUN`. -/
theorem exec_regRd_fifoData_of_front {b : Byte} (h : s.sched = []) (hd : s.selDir = .rx)
    (hb : (s.fifo s.selNum).front = some b) :
    exec (.regRd 0x0A 1) s = .next ((s.modFifo s.selNum Fifo.popped).answered (.value b.toNat)) := by
  rw [exec_regRd_of_value (r := .fifoData) (x := b.setWidth 16) h rfl (by simp only [readValue, hd, hb]),
    toNat_setWidth_byte]
  rfl

theorem exec_regRd_fifoData_of_empty (h : s.sched = []) (hd : s.selDir = .rx)
    (hb : (s.fifo s.selNum).front = none) : exec (.regRd 0x0A 1) s = .fault .fifoUnderrun :=
  exec_regRd_of_fault (r := .fifoData) h rfl (by simp only [readValue, hd, hb])

/-- A write of the data port. -/
theorem exec_regWr_fifoData (h : s.sched = []) : exec (.regWr 0x0A v) s = completeOk (writeData v s) := by
  rw [exec_regWr_of_legal (r := .fifoData) h rfl, writeReg_plain BitVec.and_zero rfl]
  rfl

/-- Settles O9. -/
theorem dataPort : Obligations.DataPort := by
  intro s v h
  dsimp only
  cases hd : s.selDir with
  | rx =>
    dsimp only
    refine ⟨by rw [exec_regWr_fifoData h, writeData, hd]; rfl, ?_⟩
    split
    · next hm =>
      have hmode : hdlcMode (s.fifo s.selNum).rxRegs.ctrl = true := hm
      have hfront : ∀ fr rest, (s.fifo s.selNum).rxq = fr :: rest →
          (s.fifo s.selNum).front = fr[(s.fifo s.selNum).rxpos]? := by
        intro fr rest hq
        rw [Fifo.front, if_pos hmode, hq]
        rfl
      refine ⟨fun fr rest hq => ⟨fun b hb => ?_, fun hle => ?_⟩, fun hq => ?_⟩
      · rw [exec_regRd_fifoData_of_front h hd ((hfront fr rest hq).trans hb), State.modFifo, Fifo.popped, if_pos hmode]
      · exact exec_regRd_fifoData_of_empty h hd ((hfront fr rest hq).trans (List.getElem?_eq_none hle))
      · refine exec_regRd_fifoData_of_empty h hd ?_
        rw [Fifo.front, if_pos hmode, hq]
        rfl
    · next hm =>
      have hmode : ¬ hdlcMode (s.fifo s.selNum).rxRegs.ctrl = true := hm
      refine ⟨fun b bs hb => ?_, fun hb => ?_⟩
      · have hfront : (s.fifo s.selNum).front = some b := by
          rw [Fifo.front, if_neg hmode, hb]
          rfl
        rw [exec_regRd_fifoData_of_front h hd hfront, State.modFifo, Fifo.popped, if_neg hmode, hb]
        rfl
      · refine exec_regRd_fifoData_of_empty h hd ?_
        rw [Fifo.front, if_neg hmode, hb]
        rfl
  | tx =>
    dsimp only
    refine ⟨exec_regRd_of_fault (r := .fifoData) h rfl (by simp only [readValue, hd]), ?_⟩
    have hwrite : ∀ x : Fifo, (s.fifo s.selNum).pushed v = x →
        exec (.regWr 0x0A v) s = if (s.fifo s.selNum).txStored < s.cfg.fifoDepth then
          .next ((s.setFifo s.selNum x).answered .ok) else .fault .fifoOverrun := by
      rintro x rfl
      rw [exec_regWr_fifoData h, writeData, hd]
      dsimp only
      split <;> rfl
    split
    · next hm => exact hwrite _ (if_pos hm)
    · next hm => exact hwrite _ (if_neg hm)

/-! ### `FIFO_CMD` (10_state.md R34) -/

theorem pendingMask_rx (f : Nat) : pendingMask f .rx = 2#8 <<< (2 * (f % 4)) := by
  have key : ∀ k < 4, (1#8 <<< (2 * k + 1)) = 2#8 <<< (2 * k) := by decide
  exact key _ (Nat.mod_lt f (by decide))

/-- What a write of `FIFO_CMD` that takes effect comes to. -/
def cmdOutcome (v : Byte) (u : State) : Host.Outcome State Fault Refusal :=
  let f := u.selNum
  let x := u.fifo f
  match v.getLsbD 1, v.getLsbD 0, u.selDir with
  | true, _, .rx => .next (((u.setFifo f { x with rxq := [], rxpos := 0, brx := [] }).setFifoStat
      (f / 4) (u.fifoStat (f / 4) &&& ~~~ (2#8 <<< (2 * (f % 4))))).answered .ok)
  | true, _, .tx => .next (((u.setFifo f { x with txopen := [], txclosed := [], btx := [] }).setFifoStat
      (f / 4) (u.fifoStat (f / 4) &&& ~~~ (1#8 <<< (2 * (f % 4))))).answered .ok)
  | false, true, .rx => (match x.rxq with
      | [] => .fault .frameUnderrun
      | _ :: rest => .next ((u.setFifo f { x with rxq := rest, rxpos := 0 }).answered .ok))
  | false, true, .tx =>
      if x.txopen = [] then .fault .emptyFrame
      else if u.cfg.fmax ≤ x.txclosed.length then .fault .fifoOverrun
      else .next ((u.setFifo f { x with txclosed := x.txclosed ++ [x.txopen], txopen := [] }).answered .ok)
  | false, false, _ => .next (u.answered .ok)

theorem completeOk_advanceFrame_rx {u : State} (hd : u.selDir = .rx) :
    completeOk (advanceFrame u) = match (u.fifo u.selNum).rxq with
      | [] => .fault .frameUnderrun
      | _ :: rest => .next ((u.setFifo u.selNum { u.fifo u.selNum with rxq := rest, rxpos := 0 }).answered .ok) := by
  simp only [advanceFrame, hd]
  cases (u.fifo u.selNum).rxq <;> rfl

theorem completeOk_advanceFrame_tx {u : State} (hd : u.selDir = .tx) :
    completeOk (advanceFrame u) =
      if (u.fifo u.selNum).txopen = [] then .fault .emptyFrame
      else if u.cfg.fmax ≤ (u.fifo u.selNum).txclosed.length then .fault .fifoOverrun
      else .next ((u.setFifo u.selNum { u.fifo u.selNum with
        txclosed := (u.fifo u.selNum).txclosed ++ [(u.fifo u.selNum).txopen], txopen := [] }).answered .ok) := by
  simp only [advanceFrame, hd]
  by_cases ho : (u.fifo u.selNum).txopen = []
  · rw [if_pos ho, if_pos ho, completeOk_error]
  · rw [if_neg ho, if_neg ho]
    by_cases hf : u.cfg.fmax ≤ (u.fifo u.selNum).txclosed.length
    · rw [if_pos hf, if_pos hf, completeOk_error]
    · rw [if_neg hf, if_neg hf, completeOk_ok]

theorem completeOk_writeCmd (v : Byte) (u : State) : completeOk (writeCmd v u) = cmdOutcome v u := by
  unfold writeCmd cmdOutcome
  cases v.getLsbD 1 with
  | true =>
    rw [if_pos rfl, completeOk_ok, resetFifo]
    cases u.selDir with
    | rx => rw [State.clearPending, pendingMask_rx]; rfl
    | tx => rfl
  | false =>
    rw [if_neg (by decide)]
    cases v.getLsbD 0 with
    | false => rfl
    | true =>
      rw [if_pos rfl]
      cases hd : u.selDir with
      | rx => exact completeOk_advanceFrame_rx hd
      | tx => exact completeOk_advanceFrame_tx hd

/-- Settles O10. -/
theorem fifoCommands : Obligations.FifoCommands := by
  intro s v h
  dsimp only
  refine ⟨fun hv => exec_regWr_reserved (r := .fifoCmd) h rfl hv, fun hv hb => ?_, fun hv hb => ?_⟩
  · rw [exec_regWr_of_legal (r := .fifoCmd) h rfl, writeReg_idle hv hb]
    exact completeOk_writeCmd v s
  · rw [exec_regWr_of_legal (r := .fifoCmd) h rfl, writeReg_busy hv rfl hb]
    cases Config.takenDraw s.draws with
    | false => rfl
    | true => exact completeOk_writeCmd v s.countDraw

end Sys2Proof.Registers

namespace Sys2Proof.Registers

open Sys2Proof Sys2Proof.Machine

variable {s t : State} {off v w sel sv : Byte} {r : Reg}

/-! ### Indexed accesses (40_register_access.md R76, R77, 20_memory.md R53) -/

theorem memWrite_hwOnly (e : memWrite off v s = .ok t) : HwOnly s t := by
  unfold memWrite at e
  split at e
  · cases e
  · unfold writeReg writeRegMust at e
    split at e
    · split at e
      · split at e
        · exact (writeEffect_hwOnly e : HwOnly s.countDraw t)
        · cases e; rfl
      · exact writeEffect_hwOnly e
    · cases e

theorem memWrite_script (e : memWrite off v s = .ok t) : t.script = s.script :=
  (memWrite_hwOnly e).fields.2.2.2.2.2.2.1

theorem memWrite_sched (e : memWrite off v s = .ok t) : t.sched = s.sched :=
  (memWrite_hwOnly e).fields.2.2.2.2.2.2.2.1

theorem writeData_withSched (v : Byte) (s : State) (x : List (List EnvStep)) :
    writeData v { s with sched := x } = (writeData v s).map fun t => { t with sched := x } := by
  generalize hu : ({ s with sched := x } : State) = u
  have hdir : u.selDir = s.selDir := by rw [← hu]; rfl
  unfold writeData
  rw [hdir]
  cases s.selDir with
  | rx => rfl
  | tx =>
    have hroom : (u.fifo u.selNum).txStored < u.cfg.fifoDepth ↔ (s.fifo s.selNum).txStored < s.cfg.fifoDepth := by
      rw [← hu]
      rfl
    dsimp only
    by_cases hd : (s.fifo s.selNum).txStored < s.cfg.fifoDepth
    · rw [if_pos hd, if_pos (hroom.2 hd), ← hu]
      rfl
    · rw [if_neg hd, if_neg (mt hroom.1 hd)]
      rfl

theorem advanceFrame_withSched (s : State) (x : List (List EnvStep)) :
    advanceFrame { s with sched := x } = (advanceFrame s).map fun t => { t with sched := x } := by
  generalize hu : ({ s with sched := x } : State) = u
  have hdir : u.selDir = s.selDir := by rw [← hu]; rfl
  have hfifo : u.fifo u.selNum = s.fifo s.selNum := by rw [← hu]; rfl
  have hfmax : u.cfg.fmax = s.cfg.fmax := by rw [← hu]
  unfold advanceFrame
  dsimp only
  rw [hdir, hfifo, hfmax]
  cases s.selDir with
  | rx =>
    dsimp only
    cases (s.fifo s.selNum).rxq with
    | nil => rfl
    | cons fr rest => rw [← hu]; rfl
  | tx =>
    dsimp only
    by_cases ho : (s.fifo s.selNum).txopen = []
    · rw [if_pos ho, if_pos ho]
      rfl
    · rw [if_neg ho, if_neg ho]
      by_cases hf : s.cfg.fmax ≤ (s.fifo s.selNum).txclosed.length
      · rw [if_pos hf, if_pos hf]
        rfl
      · rw [if_neg hf, if_neg hf, ← hu]
        rfl

/-- A raw write reads nothing of the schedule. -/
theorem writeEffect_withSched (r : Reg) (v : Byte) (s : State) (x : List (List EnvStep)) :
    writeEffect r v { s with sched := x } = (writeEffect r v s).map fun t => { t with sched := x } := by
  cases r with
  | stRd | stWr =>
    change Except.map _ s.selPort = Except.map _ (Except.map _ s.selPort)
    cases s.selPort <;> rfl
  | fifoData => exact writeData_withSched v s x
  | fifoCmd =>
    change writeCmd v _ = (writeCmd v s).map _
    unfold writeCmd
    cases v.getLsbD 1 with
    | true => rfl
    | false =>
      cases v.getLsbD 0 with
      | false => rfl
      | true => exact advanceFrame_withSched s x
  | _ => rfl

theorem memWrite_withSched (off v : Byte) (s : State) (x : List (List EnvStep)) :
    memWrite off v { s with sched := x } = (memWrite off v s).map fun t => { t with sched := x } := by
  unfold memWrite
  cases legalAccess off 1 with
  | none => rfl
  | some r =>
    dsimp only
    unfold writeReg writeRegMust
    by_cases hv : v &&& r.reserved = 0
    · rw [if_pos hv, if_pos hv]
      by_cases hg : (r.busyGated && s.hw.busy) = true
      · rw [if_pos hg, if_pos hg]
        by_cases hd : (false || Config.takenDraw s.draws) = true
        · rw [if_pos hd, if_pos hd]
          exact writeEffect_withSched r v s.countDraw x
        · rw [if_neg hd, if_neg hd]
          rfl
      · rw [if_neg hg, if_neg hg]
        exact writeEffect_withSched r v s x
    · rw [if_neg hv, if_neg hv]
      rfl

theorem foldl_eq_foldl_takeLine {f : State → EnvStep → State} (hf : ∀ w e, f w e = takeLine w e)
    (es : List EnvStep) (s : State) : es.foldl f s = es.foldl takeLine s := by
  rw [show f = takeLine from funext fun w => funext (hf w)]

/-- The steps taken between the two accesses of an indexed sequence leave the schedule. -/
theorem sched_foldl_takeLine (es : List EnvStep) (s : State) : (es.foldl takeLine s).sched = s.sched := by
  have line : LineClosed fun u : State => u.sched = s.sched :=
    .of_hwOnly fun _ _ h hu => h.fields.2.2.2.2.2.2.2.1.trans hu
  have fold : ∀ (es : List EnvStep) (u : State), u.sched = s.sched → (es.foldl takeLine u).sched = s.sched := by
    intro es
    induction es with
    | nil => exact fun _ hu => hu
    | cons e es ih =>
      refine fun u hu => ih _ ?_
      cases e with
      | issue i =>
        change ((lineStep i u).getD u).sched = s.sched
        cases he : lineStep i u with
        | none => exact hu
        | some y => exact line.lineStep hu he
      | setLive l => exact hu
      | setStrap c => exact hu
  exact fold es s rfl

/-- The two accesses of an indexed read, at a point where nothing happens before them. -/
theorem exec_regRdx_of_raw {u : State} (hraw : s.serviceEnv.raw s = .ok u) :
    exec (.regRdx sel sv off) s =
      complete (do
        let t ← memWrite sel sv u
        let (v, t) ← memRead off (widthOf off) (linePoint t)
        .ok (.value v.toNat, t)) := by
  change complete _ = _
  rw [hraw, ok_bind]

theorem exec_regWrx_of_raw {u : State} (hraw : s.serviceEnv.raw s = .ok u) :
    exec (.regWrx sel sv off v) s =
      completeOk (do
        let t ← memWrite sel sv u
        memWrite off v (linePoint t)) := by
  change completeOk _ = _
  rw [hraw, ok_bind]

theorem widthOf_eq (off : Byte) : (if off = 0x18 then 2 else 1 : Byte).toNat = widthOf off := by
  unfold widthOf
  split <;> rfl

/-- What stands between the two accesses of an indexed sequence ends in `u`; then the second access is the plain
read of `u`. -/
theorem exec_regRdx_second {u x : State} (hraw : s.serviceEnv.raw s = .ok x) (hw : memWrite sel sv x = .ok t)
    (hl : linePoint t = u) (hu : u.sched = []) :
    exec (.regRdx sel sv off) s = exec (.regRd off (if off = 0x18 then 2 else 1)) u := by
  rw [exec_regRdx_of_raw hraw, hw, ok_bind, hl, exec_regRd hu, widthOf_eq]
  cases memRead off (widthOf off) u <;> rfl

theorem exec_regWrx_second {u x : State} (hraw : s.serviceEnv.raw s = .ok x) (hw : memWrite sel sv x = .ok t)
    (hl : linePoint t = u) (hu : u.sched = []) : exec (.regWrx sel sv off v) s = exec (.regWr off v) u := by
  rw [exec_regWrx_of_raw hraw, hw, ok_bind, hl, exec_regWr hu]

/-- A schedule whose first entry is empty goes past it at the first point. -/
theorem raw_of_empty_entry (s : State) (es : List EnvStep) :
    ({ s with sched := [[], es] } : State).serviceEnv.raw { s with sched := [[], es] } =
      .ok { s with sched := [es] } := rfl

/-- The accesses of an indexed sequence that follow a selector write that went through. -/
theorem indexed_of_write {u : State} (h : s.sched = []) (e : exec (.regWr sel sv) s = .next u) :
    memWrite sel sv s = .ok { u with script := s.script } ∧ ({ u with script := s.script } : State).sched = [] := by
  rw [exec_regWr h] at e
  obtain ⟨t, ht, rfl⟩ := completeOk_eq_next.1 e
  have hscript := memWrite_script ht
  have hself : ({ t.answered .ok with script := s.script } : State) = t := by
    rw [← hscript]
    rfl
  rw [hself]
  exact ⟨ht, (memWrite_sched ht).trans h⟩

/-- Settles O11. -/
theorem indexedAccesses : Obligations.IndexedAccesses := by
  refine ⟨fun s sel sv off v h => ⟨fun u e => ?_, fun e he => ?_⟩, fun s p v h hp => ?_⟩
  · obtain ⟨hw, hu⟩ := indexed_of_write h e
    have hraw : s.serviceEnv.raw s = .ok s := (serviceEnv_calm s).raw s h
    refine ⟨exec_regRdx_second hraw hw (linePoint_of_nil hu) hu, exec_regWrx_second hraw hw (linePoint_of_nil hu) hu,
      fun es => ?_⟩
    have hentered : (es.foldl takeLine { u with script := s.script }).sched = [] :=
      (sched_foldl_takeLine es _).trans hu
    have hw' : memWrite sel sv { s with sched := [es] } = .ok { u with script := s.script, sched := [es] } := by
      rw [memWrite_withSched, hw]
      rfl
    have hl : linePoint { u with script := s.script, sched := [es] } =
        es.foldl takeLine { u with script := s.script } := by
      have hpop : ({ u with script := s.script, sched := [] } : State) = { u with script := s.script } := by
        rw [← hu]
      rw [linePoint, ← hpop]
    dsimp only
    rw [foldl_eq_foldl_takeLine fun w e => by cases e <;> rfl]
    exact ⟨exec_regRdx_second (raw_of_empty_entry s es) hw' hl hentered,
      exec_regWrx_second (raw_of_empty_entry s es) hw' hl hentered⟩
  · have hraw : s.serviceEnv.raw s = .ok s := (serviceEnv_calm s).raw s h
    rw [exec_regWr h, completeOk_eq_fault] at he
    constructor
    · rw [exec_regRdx_of_raw hraw, he]
      rfl
    · rw [exec_regWrx_of_raw hraw, he]
      rfl
  · dsimp only
    have hp8 : p.toNat < 8 := hp.trans_le (nports_le_eight s)
    have hbyte : BitVec.ofNat 8 p.toNat = p := BitVec.ofNat_toNat .. |>.trans (BitVec.setWidth_eq p)
    have hraw : s.serviceEnv.raw s = .ok s := (serviceEnv_calm s).raw s h
    have hw : memWrite 0x03 p s = .ok (s.modHw fun x => { x with stSel := p }) := by
      rw [memWrite_of_legal (r := .stSel) rfl, writeReg_plain (by rw [← hbyte]; exact portByte_reserved hp8) rfl]
      rfl
    have hsel : (s.modHw fun x => { x with stSel := p }).selPort = .ok p.toNat := by
      have := selPort_stSel hp
      rwa [hbyte] at this
    have hu : (s.modHw fun x => { x with stSel := p }).sched = [] := h
    constructor
    · rw [exec_regRdx_second hraw hw (linePoint_of_nil hu) hu, ← latchByte_toNat]
      refine exec_regRd_byte (r := .stRd) hu rfl ?_ rfl
      rw [readValue, hsel]
      rfl
    · rw [exec_regWrx_second hraw hw (linePoint_of_nil hu) hu,
        exec_regWr_plain (r := .stWr) hu rfl rfl
          (t := (s.modHw fun x => { x with stSel := p }).setLatch p.toNat
            (writeLatch v ((s.modHw fun x => { x with stSel := p }).latch p.toNat)))
          (by rw [writeEffect, hsel]; rfl)]
      exact (ite_not ..).symm

/-! ### Busy-wait writes (40_register_access.md R78) -/

/-- A busy-wait write between waits that answer at once is the write and the two waits. -/
theorem exec_regWrb_eq (h : s.sched = []) {u : State}
    (hwait : waitNotBusy 0 s.serviceEnv.raw .before off s = .ok u) (hu : u.sched = []) :
    exec (.regWrb off v) s =
      completeOk (do
        let t ← memWrite off v u
        waitNotBusy t.sched.length s.serviceEnv.raw .after off t) := by
  have hraw : s.serviceEnv.raw u = .ok u := (serviceEnv_calm s).raw u hu
  change completeOk (betweenWaits s.serviceEnv.raw off (fun t => do memWrite off v (← s.serviceEnv.raw t)) s) = _
  have hlen : s.sched.length = 0 := by rw [h]; rfl
  rw [betweenWaits, hlen, hwait, ok_bind, hraw, ok_bind]

/-- A busy-wait write while the hardware is not busy is the plain write. -/
theorem exec_regWrb_idle (h : s.quiet) : exec (.regWrb off v) s = exec (.regWr off v) s := by
  have c := (serviceEnv_calm s).raw
  rw [exec_regWrb_eq h.1 (waitNotBusy_idle c _ _ _ h) h.1, exec_regWr h.1]
  cases hw : memWrite off v s with
  | error e => rfl
  | ok t =>
    have ht : Invariants.BusyIs false t := (Invariants.busyIs_accessClosed false).memWrite ⟨h.2, h.1⟩ hw
    rw [ok_bind, waitNotBusy_idle c _ _ _ ⟨ht.2, ht.1⟩]

/-- While the hardware stays busy both waits end in their timeout, and the write is made between them. -/
theorem exec_regWrb_busy (h : s.sched = []) (hb : s.hw.busy = true) :
    exec (.regWrb off v) s =
      completeOk ((memWrite off v (s.diag (.timeoutBusy .before off))).map fun t => t.diag (.timeoutBusy .after off)) := by
  have c := (serviceEnv_calm s).raw
  rw [exec_regWrb_eq h (waitNotBusy_stuck c _ _ h hb) h]
  cases hw : memWrite off v (s.diag (.timeoutBusy .before off)) with
  | error e => rfl
  | ok t =>
    have ht : Invariants.BusyIs true t := 
      (Invariants.busyIs_accessClosed true).memWrite (s := s.diag (.timeoutBusy .before off)) ⟨hb, h⟩ hw
    have hlen : t.sched.length = 0 := by rw [ht.2]; rfl
    rw [ok_bind, hlen, waitNotBusy_stuck c _ _ ht.2 ht.1]
    rfl

/-- Settles O12. -/
theorem busyWaitWrites : Obligations.BusyWaitWrites := by
  intro s off v h
  have hdiag : ∀ e, (s.diag e).sched = [] := fun _ => h
  refine ⟨fun hb => exec_regWrb_idle ⟨h, hb⟩, fun hb hv => ?_, fun hb => ⟨fun u hu => ?_, fun e he => ?_⟩,
    fun hb hv => ?_, fun hb hv => ?_⟩
  · rw [exec_regWrb_idle ⟨h, hb⟩, exec_regWr_of_legal (r := .fifoSel) h rfl, writeReg_idle hv hb]
    rfl
  · rw [exec_regWr (hdiag _)] at hu
    obtain ⟨t, ht, he⟩ := completeOk_eq_next.1 hu
    rw [exec_regWrb_busy h hb, ht, (answered_injective he).1]
    rfl
  · rw [exec_regWr (hdiag _), completeOk_eq_fault] at he
    rw [exec_regWrb_busy h hb, he]
    rfl
  · rw [exec_regWrb_busy h hb, memWrite_of_legal (r := .fifoSel) rfl,
      writeReg_busy (s := s.diag (.timeoutBusy .before 0x07)) hv rfl hb]
    have hdraws : (s.diag (.timeoutBusy .before 0x07)).draws = s.draws := rfl
    rw [hdraws]
    cases Config.takenDraw s.draws with
    | false =>
      rw [if_neg (by decide), map_ok, completeOk_ok]
      simp [State.diag, State.modCard, State.countDraw, State.answered]
    | true =>
      rw [if_pos rfl, writeEffect, map_ok, completeOk_ok]
      simp [State.diag, State.modCard, State.modHw, State.countDraw, State.answered]
  · rw [exec_regWrb_busy h hb, memWrite_of_legal (r := .fifoSel) rfl, writeReg_reserved (r := .fifoSel) hv]
    rfl

/-! ### Stable reads (40_register_access.md R79) -/

theorem exec_regRds_of_ne (h8 : off ≠ 0x08) (h18 : off ≠ 0x18) : exec (.regRds off) s = .fault .badOperand := by
  change complete (if off = 0x08 then _ else if off = 0x18 then _ else _) = _
  rw [if_neg h8, if_neg h18]
  rfl

/-- Settles O13. -/
theorem stableReads : Obligations.StableReads := by
  intro s off h hc
  have c := (serviceEnv_calm s).raw
  have hr := HdlcFramer.one_le_stableRetries_of_valid hc
  split
  · next h8 =>
    subst h8
    have hle : (s.fifo s.selNum).frameCount s.selDir ≤ 255 := by
      cases s.selDir <;> exact Nat.min_le_right _ _
    change complete (do
      let (v, t) ← rds s.serviceEnv.raw .fCnt s
      .ok (.value v.toNat, t)) = _
    rw [rds_fCnt c h hr, ok_bind]
    dsimp only
    rw [complete_ok, toNat_ofNat_16 (by omega)]
    cases s.selDir <;> rfl
  · next h8 =>
    split
    · next h18 =>
      subst h18
      have hle := byteCount_le (s.fifo s.selNum) s.selDir
      have hread : exec (.regRds 0x18) s = .next (s.answered (.value ((s.fifo s.selNum).byteCount s.selDir))) := by
        change complete (do
          let (v, t) ← rds s.serviceEnv.raw .zCnt s
          .ok (.value v.toNat, t)) = _
        rw [rds_zCnt c h hr, ok_bind]
        dsimp only
        rw [complete_ok, toNat_ofNat_16 (by omega)]
      exact ⟨hread.trans (exec_regRd_zCnt h).symm, _, hread⟩
    · next h18 => exact exec_regRds_of_ne h8 h18

end Sys2Proof.Registers

/-! PROOFS of the FIFO-structural primitives and the mapper (41_flow_mapper.md). -/

namespace Sys2Proof.MapperFamily

open Sys2Proof Sys2Proof.Machine
open Sys2Proof.HdlcFramer (nfifo_of_valid)
open Sys2Proof.Mapping (fifoOf_lt_nfifo fifoOf_injective two_mul_nports_le_dBase dBase_add_nports_le)

variable {s t : State} {E : Env} {pt : Point} {f p : Nat} {d : Dir} {role : Role}

/-! ### FIFO-structural primitives (R92 to R94) -/

theorem fifoArg_of_lt {a : Byte} (h : a.toNat < s.cfg.nfifo) : fifoArg a s = .ok a.toNat := if_pos h

theorem fifoArg_of_le {a : Byte} (h : s.cfg.nfifo ≤ a.toNat) : fifoArg a s = .error .badOperand :=
  if_neg (Nat.not_lt.2 h)

theorem dirArg_code (d : Dir) : dirArg d.code = .ok d := by cases d <;> rfl

theorem dirArg_of_ne {a : Byte} (h0 : a ≠ 0) (h1 : a ≠ 1) : dirArg a = .error .badOperand := by
  rw [dirArg, if_neg h0, if_neg h1]

theorem boolArg_of_ne {a : Byte} (h0 : a ≠ 0) (h1 : a ≠ 1) : boolArg a = .error .badOperand := by
  rw [boolArg, if_neg h0, if_neg h1]

theorem boolArg_of_eq {a : Byte} (h : a = 0 ∨ a = 1) : boolArg a = .ok (decide (a = 1)) := by
  rcases h with rfl | rfl <;> rfl

theorem exec_fifoSel (a dir : Byte) (s : State) :
    exec (.fifoSel a dir) s = completeOk (do
      let n ← fifoArg a s
      let d ← dirArg dir
      fifoSelOp s.serviceEnv n d s) := rfl

theorem exec_fifoReset (a dir : Byte) (s : State) :
    exec (.fifoReset a dir) s = completeOk (do
      let n ← fifoArg a s
      let d ← dirArg dir
      fifoResetOp s.serviceEnv n d s) := rfl

theorem exec_fifoIrq (a dir en : Byte) (s : State) :
    exec (.fifoIrq a dir en) s = completeOk (do
      let n ← fifoArg a s
      let d ← dirArg dir
      let e ← boolArg en
      fifoIrqOp s.serviceEnv n d e s) := rfl

theorem operands_error {a dir : Byte} (h : s.cfg.nfifo ≤ a.toNat ∨ (dir ≠ 0 ∧ dir ≠ 1))
    (op : Nat → Dir → Except Fault State) :
    (do let n ← fifoArg a s; let d ← dirArg dir; op n d) = .error .badOperand := by
  by_cases hf : a.toNat < s.cfg.nfifo
  · have hdir := h.resolve_left (Nat.not_le.2 hf)
    rw [fifoArg_of_lt hf, dirArg_of_ne hdir.1 hdir.2]
    rfl
  · rw [fifoArg_of_le (Nat.le_of_not_lt hf)]
    rfl

/-- Settles O15. -/
theorem fifoPrimitives : Obligations.FifoPrimitives := by
  intro s a d h hc
  have c := serviceEnv_calm s
  have hnfifo : s.cfg.nfifo = 32 := nfifo_of_valid hc
  dsimp only
  refine ⟨fun hn => ?_, fun dir en hbad => ?_, fun dir en h0 h1 => ?_⟩
  · have hf : a.toNat < s.cfg.nfifo := by omega
    refine ⟨?_, ?_, fun en hen hrx htx => ?_⟩
    · rw [exec_fifoSel, fifoArg_of_lt hf, dirArg_code, ok_bind, ok_bind, fifoSelOp, c.free s h.1, ok_bind,
        fifoSelect_idle c.fifo d h hf hn]
      rfl
    · rw [exec_fifoReset, fifoArg_of_lt hf, dirArg_code, ok_bind, ok_bind, fifoResetOp_idle c d h hf hn]
      cases d <;> rfl
    · have hctrl : (s.fifoRegs a.toNat d).ctrl &&& 0xF8 = 0 := by
        cases d with
        | tx => exact htx.1
        | rx => exact hrx.1
      rw [exec_fifoIrq, fifoArg_of_lt hf, dirArg_code, boolArg_of_eq hen, ok_bind, ok_bind, ok_bind,
        fifoIrqOp_idle c d _ h hf hn hctrl, withIrqEn]
      simp only [decide_eq_true_eq]
      cases d <;> rfl
  · have hfault : ∀ op : Nat → Dir → Except Fault State,
        (do let n ← fifoArg a s; let d ← dirArg dir; op n d) = .error .badOperand :=
      fun op => operands_error (by rcases hbad with hn | hdir; exacts [.inl (hnfifo ▸ hn), .inr hdir]) op
    rw [exec_fifoSel, exec_fifoReset, exec_fifoIrq, hfault, hfault, hfault]
    exact ⟨rfl, rfl, rfl⟩
  · rw [exec_fifoIrq, boolArg_of_ne h0 h1]
    by_cases hf : a.toNat < s.cfg.nfifo
    · rw [fifoArg_of_lt hf, ok_bind]
      unfold dirArg
      split
      · rfl
      · split <;> rfl
    · rw [fifoArg_of_le (Nat.le_of_not_lt hf)]
      rfl

/-! ### One channel (R95, R96) -/

/-- The value `FIFO_CTRL` of a channel's FIFO has in each direction, once mapped. -/
def ctrlOf : Role → Dir → Byte
  | .d, _ => 0x07
  | _, .rx => 0x05
  | _, .tx => 0x04

/-- The control registers of a mapped channel's FIFO. -/
def regsOf (c : Config) (p : Nat) (role : Role) (d : Dir) : FifoRegs where
  ctrl := ctrlOf role d
  chan := match d with
    | .rx => 0x80 ||| BitVec.ofNat 8 (chanOf p role)
    | .tx => BitVec.ofNat 8 (chanOf p role)
  slot := slotByte c p role

/-- The state after a channel of port `p` is mapped. -/
def channelMapped (p : Nat) (role : Role) (s : State) : State :=
  let f := fifoOf s.cfg p role
  ((s.modPort p fun q => q.setFifoNum role f).setFifo f
    { s.fifo f with rxRegs := regsOf s.cfg p role .rx, txRegs := regsOf s.cfg p role .tx }).select f .tx

/-- The registers of a channel of the card fit their fields (10_state.md R35 to R37). -/
theorem regsOf_reserved (c : Config) (hp : p < 8) (role : Role) (d : Dir) : (regsOf c p role d).reservedZero := by
  have hctrl : ∀ d, ctrlOf role d &&& 0xF8 = 0 := by
    intro d
    cases role <;> cases d <;> decide
  have hchan : ∀ k < 32, (0x80 ||| BitVec.ofNat 8 k) &&& 0x60 = 0 ∧ BitVec.ofNat 8 k &&& 0x60 = 0 := by decide
  have hslot : ∀ k < 64, (0x80 ||| BitVec.ofNat 8 k) &&& 0x40 = 0 := by decide
  have hk : chanOf p role < 32 := by cases role <;> simp only [chanOf] <;> omega
  refine ⟨hctrl d, ?_, ?_⟩
  · cases d with
    | rx => exact (hchan _ hk).1
    | tx => exact (hchan _ hk).2
  · simp only [regsOf, slotByte]
    cases role with
    | d => exact BitVec.zero_and
    | b1 | b2 =>
      simp only [slotOf]
      split
      · exact hslot _ (by omega)
      · exact BitVec.zero_and

/-- The three control registers of a FIFO programmed, one after the other. -/
theorem programFifo_idle (c : E.Calm) (d : Dir) {r : FifoRegs} (h : s.quiet) (hf : f < s.cfg.nfifo) (hn : f < 32)
    (hr : r.reservedZero) :
    programFifo E f d r.ctrl r.chan r.slot s = .ok ((s.select f d).modFifo f fun x => x.modRegs d fun _ => r) := by
  obtain ⟨hctrl, hchan, hslot⟩ := hr
  have hsel : ∀ u : State, u.hw.fifoSel = selByte f d → u.selNum = f ∧ u.selDir = d := fun u hu =>
    ⟨(congrArg (fun x : Byte => (x.extractLsb' 0 5).toNat) hu).trans (selNum_select s f d hn),
      (congrArg (fun x : Byte => if x.getLsbD 7 then Dir.rx else Dir.tx) hu).trans (selDir_select s f d hn)⟩
  have hwrite : ∀ (u : State) (reg : Reg) (v : Byte) (g : FifoRegs → FifoRegs), u.sched = [] →
      u.hw.fifoSel = selByte f d → v &&& reg.reserved = 0 → reg.busyGated = false →
      writeEffect reg v u = .ok (u.modFifo u.selNum fun x => x.modRegs u.selDir g) →
      wr E.own reg v u = .ok (u.modFifo f fun x => x.modRegs d g) := by
    intro u reg v g hu hs hv hg he
    obtain ⟨hnum, hdir⟩ := hsel u hs
    rw [wr_of_nil c.own _ _ hu, writeReg_plain hv hg, he, hnum, hdir]
  have hmod : ∀ (x : Fifo) (g k : FifoRegs → FifoRegs), (x.modRegs d g).modRegs d k = x.modRegs d fun y => k (g y) := by
    intro x g k
    cases d <;> rfl
  rw [programFifo, fifoSelect_idle c.fifo d h hf hn, ok_bind,
    hwrite (s.select f d) .fifoCtrl _ (fun y => { y with ctrl := r.ctrl }) h.1 rfl hctrl rfl rfl, ok_bind,
    hwrite ((s.select f d).modFifo f _) .fcChan _ (fun y => { y with chan := r.chan }) h.1 rfl hchan rfl rfl, ok_bind,
    hwrite (State.modFifo ((s.select f d).modFifo f _) f _) .fcSlot _ (fun y => { y with slot := r.slot }) h.1 rfl hslot rfl rfl]
  simp only [modFifo_modFifo _ _ _ _ hn, hmod]

/-- Both directions of a FIFO programmed, receive before transmit, which stays selected. -/
theorem programBoth_idle (c : E.Calm) {rx tx : FifoRegs} (h : s.quiet) (hf : f < s.cfg.nfifo) (hn : f < 32)
    (hrx : rx.reservedZero) (htx : tx.reservedZero) :
    (do
      let s ← programFifo E f .rx rx.ctrl rx.chan rx.slot s
      let s ← E.own s
      programFifo E f .tx tx.ctrl tx.chan tx.slot s) =
      .ok ((s.setFifo f { s.fifo f with rxRegs := rx, txRegs := tx }).select f .tx) := by
  generalize hu : ((s.select f .rx).modFifo f fun x => x.modRegs .rx fun _ => rx) = u
  have hquiet : u.quiet := by rw [← hu]; exact h
  have hfu : f < u.cfg.nfifo := by rw [← hu]; exact hf
  rw [programFifo_idle c .rx h hf hn hrx, hu, ok_bind, c.own u hquiet.1, ok_bind,
    programFifo_idle c .tx hquiet hfu hn htx, ← hu]
  change Except.ok (((s.select f .tx).modFifo f fun x => x.modRegs .rx fun _ => rx).modFifo f fun x =>
    x.modRegs .tx fun _ => tx) = _
  rw [modFifo_modFifo _ _ _ _ hn]
  rfl

/-- A bearer channel mapped (R95). -/
theorem mapBearer_idle (c : E.Calm) (hrole : role ≠ .d) (h : s.quiet) (hc : s.cfg.valid = true) (hp : p < s.nports) :
    mapBearer E p role s = .ok (channelMapped p role s) := by
  have hp8 : p < 8 := hp.trans_le (nports_le_eight s)
  have hn : fifoOf s.cfg p role < 32 := fifoOf_lt_nfifo hc hp
  have hf : fifoOf s.cfg p role < s.cfg.nfifo := by rwa [nfifo_of_valid hc]
  rw [mapBearer, c.free s h.1, ok_bind]
  have hboth := programBoth_idle c (s := s.modPort p fun q => q.setFifoNum role (fifoOf s.cfg p role)) h hf hn
    (regsOf_reserved s.cfg hp8 role .rx) (regsOf_reserved s.cfg hp8 role .tx)
  cases role with
  | d => exact absurd rfl hrole
  | b1 => exact hboth
  | b2 => exact hboth

/-- The signalling channel mapped (R96). -/
theorem mapSignalling_idle (c : E.Calm) (h : s.quiet) (hc : s.cfg.valid = true) (hp : p < s.nports) :
    mapSignalling E p s = .ok (channelMapped p .d s) := by
  have hp8 : p < 8 := hp.trans_le (nports_le_eight s)
  have hn : fifoOf s.cfg p .d < 32 := fifoOf_lt_nfifo hc hp
  have hf : fifoOf s.cfg p .d < s.cfg.nfifo := by rwa [nfifo_of_valid hc]
  rw [mapSignalling, c.free s h.1, ok_bind]
  have hboth := programBoth_idle c (s := s.modPort p fun q => q.setFifoNum .d (fifoOf s.cfg p .d)) h hf hn
    (regsOf_reserved s.cfg hp8 .d .rx) (regsOf_reserved s.cfg hp8 .d .tx)
  exact hboth

theorem exec_fmMapb (a bchan : Byte) (s : State) :
    exec (.fmMapb a bchan) s = completeOk (onBearer (mapBearer s.hostEnv) a bchan s) := rfl

theorem exec_fmMapd (a : Byte) (s : State) : exec (.fmMapd a) s = completeOk (onPort (mapSignalling s.hostEnv) a s) := rfl

/-- The numbers a channel's registers hold, added up. -/
theorem chanByte_eq (hp : p < 8) (role : Role) :
    0x80 ||| BitVec.ofNat 8 (chanOf p role) = BitVec.ofNat 8 (0x80 + chanOf p role) := by
  have key : ∀ k < 32, 0x80 ||| BitVec.ofNat 8 k = BitVec.ofNat 8 (0x80 + k) := by decide
  refine key _ ?_
  cases role <;> simp only [chanOf] <;> omega

theorem slotByte_eq (c : Config) (hp : p < 8) (k : Nat) (hk : k ≤ 1) :
    slotByte c p (if k = 0 then .b1 else .b2) =
      if c.ecRouted then BitVec.ofNat 8 (0x80 + (8 * p + 4 * k)) else 0x00 := by
  have key : ∀ k < 64, 0x80 ||| BitVec.ofNat 8 k = BitVec.ofNat 8 (0x80 + k) := by decide
  obtain rfl | rfl : k = 0 ∨ k = 1 := by omega
  · change (if c.ecRouted then 0x80 ||| BitVec.ofNat 8 (8 * p) else 0x00) = _
    rw [key _ (by omega)]
    rfl
  · change (if c.ecRouted then 0x80 ||| BitVec.ofNat 8 (8 * p + 4) else 0x00) = _
    rw [key _ (by omega)]

theorem bchanArg_of_eq {b : Byte} (h : b = 0 ∨ b = 1) :
    bchanArg b = .ok (if b.toNat = 0 then .b1 else .b2) := by
  rcases h with rfl | rfl <;> rfl

theorem bchanArg_of_ne {b : Byte} (h0 : b ≠ 0) (h1 : b ≠ 1) : bchanArg b = .error .badOperand := by
  rw [bchanArg, if_neg h0, if_neg h1]

theorem onBearer_of_lt {α : Type} (op : Nat → Role → State → Except Fault α) {a b : Byte} (h : a.toNat < s.nports) :
    onBearer op a b s = (bchanArg b >>= fun role => op a.toNat role s) := by
  rw [onBearer, portArg, if_pos h, ok_bind]

theorem onBearer_of_le {α : Type} (op : Nat → Role → State → Except Fault α) {a b : Byte} (h : s.nports ≤ a.toNat) :
    onBearer op a b s = .error .badOperand := by
  rw [onBearer, portArg, if_neg (Nat.not_lt.2 h), error_bind]

/-- A channel operand that is neither 0 nor 1 is `BAD_OPERAND`, whatever the port. -/
theorem onBearer_of_ne {α : Type} (op : Nat → Role → State → Except Fault α) {a b : Byte} (h0 : b ≠ 0) (h1 : b ≠ 1) :
    onBearer op a b s = .error .badOperand := by
  rcases Nat.lt_or_ge a.toNat s.nports with h | h
  · rw [onBearer_of_lt op h, bchanArg_of_ne h0 h1, error_bind]
  · exact onBearer_of_le op h

/-- A mapped channel, its registers as numbers. -/
theorem channelMapped_eq (hp : p < 8) (role : Role) {ctrl ctrl' slot : Byte} {k : Nat} (hk : chanOf p role = k)
    (hrx : ctrlOf role .rx = ctrl) (htx : ctrlOf role .tx = ctrl') (hslot : slotByte s.cfg p role = slot) :
    channelMapped p role s = ((s.modPort p fun q => q.setFifoNum role (fifoOf s.cfg p role)).setFifo
      (fifoOf s.cfg p role) { s.fifo (fifoOf s.cfg p role) with
        rxRegs := { ctrl := ctrl, chan := BitVec.ofNat 8 (0x80 + k), slot := slot }
        txRegs := { ctrl := ctrl', chan := BitVec.ofNat 8 k, slot := slot } }).select (fifoOf s.cfg p role) .tx := by
  subst hk hrx htx hslot
  rw [← chanByte_eq hp]
  rfl

/-- Settles O16. -/
theorem channelMapping : Obligations.ChannelMapping := by
  intro s a bchan h hc
  have c := hostEnv_calm s
  dsimp only
  refine ⟨fun hp hb => ?_, fun hp => ?_, fun hp => ⟨?_, ?_⟩, fun h0 h1 => ?_⟩
  · have hp8 : a.toNat < 8 := hp.trans_le (nports_le_eight s)
    have hk : bchan.toNat ≤ 1 := by rcases hb with rfl | rfl <;> decide
    have hslot := slotByte_eq s.cfg hp8 bchan.toNat hk
    rw [exec_fmMapb, onBearer_of_lt _ hp, bchanArg_of_eq hb, ok_bind, ← hslot]
    rcases hb with rfl | rfl
    · change completeOk (mapBearer s.hostEnv a.toNat .b1 s) = _
      rw [mapBearer_idle c (by decide) h hc hp, completeOk_ok, channelMapped_eq hp8 .b1 rfl rfl rfl rfl]
      rfl
    · change completeOk (mapBearer s.hostEnv a.toNat .b2 s) = _
      rw [mapBearer_idle c (by decide) h hc hp, completeOk_ok, channelMapped_eq hp8 .b2 rfl rfl rfl rfl]
      rfl
  · have hp8 : a.toNat < 8 := hp.trans_le (nports_le_eight s)
    rw [exec_fmMapd, LineStateFamily.onPort_of_lt _ hp, mapSignalling_idle c h hc hp, completeOk_ok,
      channelMapped_eq hp8 .d rfl rfl rfl rfl]
    rfl
  · rw [exec_fmMapb, onBearer_of_le _ hp]
    rfl
  · rw [exec_fmMapd, LineStateFamily.onPort_of_le _ hp]
    rfl
  · rw [exec_fmMapb, onBearer_of_ne _ h0 h1]
    rfl

end Sys2Proof.MapperFamily

/-! PROOFS of the mapper of the whole card (41_flow_mapper.md). -/

namespace Sys2Proof.Machine

/-- A loop over the numbers below `n` keeps an invariant of the numbers done. -/
theorem forEach_range {f : Nat → State → Except Fault State} {P : Nat → State → Prop} {s : State} (n : Nat)
    (h : P 0 s) (hstep : ∀ k < n, ∀ t, P k t → ∃ u, f k t = .ok u ∧ P (k + 1) u) :
    ∃ t, forEach f (List.range n) s = .ok t ∧ P n t := by
  induction n with
  | zero => exact ⟨s, rfl, h⟩
  | succ n ih =>
    obtain ⟨t, ht, hP⟩ := ih fun k hk => hstep k (Nat.lt_succ_of_lt hk)
    obtain ⟨u, hu, hQ⟩ := hstep n (Nat.lt_succ_self n) t hP
    refine ⟨u, ?_, hQ⟩
    rw [List.range_succ, forEach_append, ht, ok_bind, forEach_cons, hu]
    rfl

end Sys2Proof.Machine

namespace Sys2Proof.MapperFamily

open Sys2Proof Sys2Proof.Machine
open Sys2Proof.HdlcFramer (nfifo_of_valid)
open Sys2Proof.Mapping (fifoOf_lt_nfifo fifoOf_injective)

variable {s t : State} {E : Env} {f p q n : Nat} {role role' : Role}

/-! ### The whole mapping (R97) -/

/-- A FIFO with the registers of a channel. -/
def mappedAs (c : Config) (p : Nat) (role : Role) (x : Fifo) : Fifo :=
  { x with rxRegs := regsOf c p role .rx, txRegs := regsOf c p role .tx }

/-- Mapping a channel touches the ports, the FIFOs and the selection only. -/
theorem channelMapped_rest (p : Nat) (role : Role) (s : State) :
    channelMapped p role s = { s with
      ports := (channelMapped p role s).ports
      hw := { s.hw with fifos := (channelMapped p role s).hw.fifos, fifoSel := (channelMapped p role s).hw.fifoSel } } :=
  rfl

@[simp] theorem channelMapped_cfg (p : Nat) (role : Role) (s : State) : (channelMapped p role s).cfg = s.cfg := rfl

@[simp] theorem channelMapped_nports (p : Nat) (role : Role) (s : State) : (channelMapped p role s).nports = s.nports := rfl

theorem channelMapped_ports (p : Nat) (role : Role) (s : State) :
    (channelMapped p role s).ports = (s.modPort p fun q => q.setFifoNum role (fifoOf s.cfg p role)).ports := rfl

theorem channelMapped_fifoSel (p : Nat) (role : Role) (s : State) :
    (channelMapped p role s).hw.fifoSel = selByte (fifoOf s.cfg p role) .tx := rfl

theorem channelMapped_quiet (h : s.quiet) : (channelMapped p role s).quiet := h

theorem fifo_channelMapped (p : Nat) (role : Role) (s : State) (hf : f < 32) :
    (channelMapped p role s).fifo f =
      if f = fifoOf s.cfg p role then mappedAs s.cfg p role (s.fifo f) else s.fifo f := by
  have hset := fun x => fifo_setFifo (s := s.modPort p fun q => q.setFifoNum role (fifoOf s.cfg p role))
    f x hf
  by_cases h : f = fifoOf s.cfg p role
  · rw [if_pos h]
    subst h
    exact hset _
  · rw [if_neg h]
    exact fifo_setFifo_ne (s := s.modPort p fun q => q.setFifoNum role (fifoOf s.cfg p role)) _ _ _ h

/-- The state after the three channels of port `p` are mapped. -/
def portMapped (p : Nat) (s : State) : State := channelMapped p .d (channelMapped p .b2 (channelMapped p .b1 s))

theorem mapPort_idle (c : E.Calm) (h : s.quiet) (hc : s.cfg.valid = true) (hp : p < s.nports) :
    mapPort E p s = .ok (portMapped p s) := by
  have h1 := channelMapped_quiet (p := p) (role := .b1) h
  have h2 := channelMapped_quiet (p := p) (role := .b2) h1
  rw [mapPort, mapBearer_idle c (by decide) h hc hp, ok_bind,
    mapBearer_idle c (by decide) h1 (by rwa [channelMapped_cfg]) (by rwa [channelMapped_nports]), ok_bind,
    mapSignalling_idle c h2 (by rwa [channelMapped_cfg, channelMapped_cfg])
      (by rwa [channelMapped_nports, channelMapped_nports])]
  rfl

/-- Mapping a port touches the ports, the FIFOs and the selection only. -/
theorem portMapped_rest (p : Nat) (s : State) :
    portMapped p s = { s with
      ports := (portMapped p s).ports
      hw := { s.hw with fifos := (portMapped p s).hw.fifos, fifoSel := (portMapped p s).hw.fifoSel } } := by
  have h1 := channelMapped_rest p .b1 s
  have h2 := channelMapped_rest p .b2 (channelMapped p .b1 s)
  have h3 := channelMapped_rest p .d (channelMapped p .b2 (channelMapped p .b1 s))
  unfold portMapped
  generalize channelMapped p .d (channelMapped p .b2 (channelMapped p .b1 s)) = x at h3 ⊢
  generalize channelMapped p .b2 (channelMapped p .b1 s) = y at h2 h3
  generalize channelMapped p .b1 s = z at h1 h2
  rw [h3, h2, h1]

/-- The FIFO of each channel of a mapped port has the channel's registers, and keeps its storage. -/
theorem fifo_portMapped (hc : s.cfg.valid = true) (hp : p < s.nports) (role : Role) :
    (portMapped p s).fifo (fifoOf s.cfg p role) = mappedAs s.cfg p role (s.fifo (fifoOf s.cfg p role)) := by
  have hn : fifoOf s.cfg p role < 32 := fifoOf_lt_nfifo hc hp
  have hsame : ∀ r, fifoOf s.cfg p role = fifoOf s.cfg p r ↔ role = r :=
    fun r => ⟨fun h => (fifoOf_injective hc hp hp h).2, fun h => h ▸ rfl⟩
  simp only [portMapped, fifo_channelMapped _ _ _ hn, channelMapped_cfg, hsame]
  cases role <;> rfl

theorem fifo_portMapped_ne (hf : f < 32) (h : ∀ role, f ≠ fifoOf s.cfg p role) : (portMapped p s).fifo f = s.fifo f := by
  simp only [portMapped, fifo_channelMapped _ _ _ hf, channelMapped_cfg, if_neg (h _)]

theorem portMapped_fifoSel (p : Nat) (s : State) :
    (portMapped p s).hw.fifoSel = selByte (s.cfg.dBase + p) .tx := by
  rw [portMapped, channelMapped_fifoSel, channelMapped_cfg, channelMapped_cfg]
  rfl

/-- A port with its three FIFO numbers cached. -/
def withFifos (c : Config) (p : Nat) (q : Port) : Port :=
  { q with fifoB1 := 2 * p, fifoB2 := 2 * p + 1, fifoD := c.dBase + p }

theorem port_channelMapped (hp : p < 8) (role : Role) (q : Nat) :
    (channelMapped p role s).port q =
      if q = p then (s.port p).setFifoNum role (fifoOf s.cfg p role) else s.port q := by
  rw [State.port, channelMapped_ports]
  exact port_modPort_eq _ _ _ _ hp

theorem port_portMapped (hp : p < 8) (q : Nat) :
    (portMapped p s).port q = if q = p then withFifos s.cfg p (s.port p) else s.port q := by
  simp only [portMapped, port_channelMapped hp, channelMapped_cfg]
  by_cases h : q = p
  · simp only [if_pos h, if_true]
    rfl
  · simp only [if_neg h]

/-- The first `n` ports of the card `s` are mapped in `t`, and nothing else is changed. -/
structure MappedUpTo (s : State) (n : Nat) (t : State) : Prop where
  rest : t = { s with
    ports := t.ports, hw := { s.hw with fifos := t.hw.fifos, fifoSel := t.hw.fifoSel } }
  ports : ∀ p < 8, t.port p = if p < n then withFifos s.cfg p (s.port p) else s.port p
  channels : ∀ p < n, ∀ role,
    t.fifo (fifoOf s.cfg p role) = mappedAs s.cfg p role (s.fifo (fifoOf s.cfg p role))
  others : ∀ f < 32, (∀ p < n, ∀ role, f ≠ fifoOf s.cfg p role) → t.fifo f = s.fifo f
  selected : 0 < n → t.hw.fifoSel = selByte (s.cfg.dBase + (n - 1)) .tx

theorem MappedUpTo.zero (s : State) : MappedUpTo s 0 s :=
  ⟨rfl, fun _ _ => rfl, fun _ h => absurd h (Nat.not_lt_zero _), fun _ _ _ => rfl, fun h => absurd h (Nat.lt_irrefl _)⟩

theorem MappedUpTo.cfg (h : MappedUpTo s n t) : t.cfg = s.cfg := by rw [h.rest]

theorem MappedUpTo.quiet (h : MappedUpTo s n t) (hs : s.quiet) : t.quiet := by
  have hrest := h.rest
  rw [hrest]
  exact hs

theorem MappedUpTo.succ (h : MappedUpTo s n t) (hc : s.cfg.valid = true) (hn : n < s.nports) :
    MappedUpTo s (n + 1) (portMapped n t) := by
  have hn8 : n < 8 := hn.trans_le (nports_le_eight s)
  have hcfg := h.cfg
  have hct : t.cfg.valid = true := by rw [hcfg]; exact hc
  have hnt : n < t.nports := by rw [State.nports, hcfg]; exact hn
  refine ⟨?_, fun p hp => ?_, fun p hp role => ?_, fun f hf hnot => ?_, fun _ => ?_⟩
  · have hmapped := portMapped_rest n t
    have hrest := h.rest
    generalize portMapped n t = x at hmapped ⊢
    rw [hmapped, hrest]
  · rw [port_portMapped hn8, hcfg]
    by_cases hpn : p = n
    · subst hpn
      rw [if_pos rfl, if_pos (Nat.lt_succ_self p), h.ports p hp, if_neg (Nat.lt_irrefl p)]
    · rw [if_neg hpn, h.ports p hp]
      have hiff : p < n ↔ p < n + 1 := by omega
      simp only [hiff]
  · by_cases hpn : p = n
    · subst hpn
      have hfresh : t.fifo (fifoOf s.cfg p role) = s.fifo (fifoOf s.cfg p role) :=
        h.others _ (fifoOf_lt_nfifo hc hn) fun q hq role' he =>
          absurd (fifoOf_injective hc hn (hq.trans hn) he).1.symm (Nat.ne_of_lt hq)
      have hport := fifo_portMapped hct hnt role
      rwa [hcfg, hfresh] at hport
    · have hlt : p < n := by omega
      have hne : ∀ role', fifoOf s.cfg p role ≠ fifoOf t.cfg n role' := by
        intro role' he
        rw [hcfg] at he
        exact hpn (fifoOf_injective hc (hlt.trans hn) hn he).1
      rw [fifo_portMapped_ne (fifoOf_lt_nfifo hc (hlt.trans hn)) hne]
      exact h.channels p hlt role
  · rw [fifo_portMapped_ne hf fun role => by rw [hcfg]; exact hnot n (Nat.lt_succ_self n) role]
    exact h.others f hf fun p hp role => hnot p (Nat.lt_succ_of_lt hp) role
  · rw [portMapped_fifoSel, hcfg]
    rfl

/-- The mapper of a card that is not busy maps its ports one after the other. -/
theorem mapAll_idle (c : E.Calm) (h : s.quiet) (hc : s.cfg.valid = true) :
    ∃ t, mapAll E s = .ok t ∧ MappedUpTo s s.nports t := by
  refine forEach_range (P := MappedUpTo s) s.nports (MappedUpTo.zero s) fun n hn t hm => ⟨portMapped n t, ?_, hm.succ hc hn⟩
  have hcfg := hm.cfg
  exact mapPort_idle c (hm.quiet h) (by rw [hcfg]; exact hc) (by rw [State.nports, hcfg]; exact hn)

theorem exec_fmMapall (s : State) : exec .fmMapall s = completeOk (mapAll s.hostEnv s) := rfl

/-- A port count is at least 2. -/
theorem nports_pos (s : State) : 0 < s.nports := by
  unfold State.nports
  cases s.cfg.nports <;> decide

/-- A mapped channel's registers are enabled in both directions. -/
theorem fifoEnable_regsOf (c : Config) (p : Nat) (role : Role) (d : Dir) : fifoEnable (regsOf c p role d).ctrl = true := by
  have hctrl : ∀ role d, fifoEnable (ctrlOf role d) = true := by
    intro role d
    cases role <;> cases d <;> decide
  exact hctrl role d

theorem fifoNum_withFifos (c : Config) (p : Nat) (q : Port) (role : Role) :
    (withFifos c p q).fifoNum role = fifoOf c p role := by
  cases role <;> rfl

theorem MappedUpTo.port_of_lt (h : MappedUpTo s s.nports t) (hp : p < s.nports) :
    t.port p = withFifos s.cfg p (s.port p) := by
  rw [h.ports p (hp.trans_le (nports_le_eight s)), if_pos hp]

theorem MappedUpTo.fifoRegs (h : MappedUpTo s s.nports t) (hp : p < s.nports) (role : Role) (d : Dir) :
    t.fifoRegs (fifoOf s.cfg p role) d = regsOf s.cfg p role d := by
  rw [State.fifoRegs, h.channels p hp role]
  cases d <;> rfl

theorem MappedUpTo.mapped (h : MappedUpTo s s.nports t) (hp : p < s.nports) (role : Role) :
    mapped t p role = true := by
  rw [Machine.mapped, h.cfg, h.port_of_lt hp, fifoNum_withFifos, h.fifoRegs hp, h.fifoRegs hp,
    fifoEnable_regsOf, fifoEnable_regsOf]
  simp

/-- The mapping touches the control registers of no FIFO's storage. -/
theorem MappedUpTo.storage (h : MappedUpTo s n t) {f : Nat} (hf : f < 32) :
    t.fifo f = { s.fifo f with rxRegs := (t.fifo f).rxRegs, txRegs := (t.fifo f).txRegs } := by
  by_cases hex : ∃ p < n, ∃ role, f = fifoOf s.cfg p role
  · obtain ⟨p, hp, role, rfl⟩ := hex
    rw [h.channels p hp role]
    rfl
  · rw [h.others f hf fun p hp role he => hex ⟨p, hp, role, he⟩]

/-- Settles O17. -/
theorem wholeMapping : Obligations.WholeMapping := by
  intro s h hc
  obtain ⟨t, ht, hm⟩ := mapAll_idle (hostEnv_calm s) h hc
  refine ⟨t.answered .ok, by rw [exec_fmMapall, ht, completeOk_ok], fun p hp role => ?_, fun p hp => hm.ports p hp,
    fun f hf => hm.storage hf, fun f hf hnot => hm.others f hf hnot, ?_⟩
  · have hp8 : p < 8 := hp.trans_le (nports_le_eight s)
    refine ⟨hm.mapped hp role, ?_, ?_, ?_⟩
    · exact (congrArg (fun q => q.fifoNum role) (hm.port_of_lt hp)).trans (fifoNum_withFifos _ _ _ _)
    · refine (hm.fifoRegs hp role .rx).trans ?_
      have hslot1 := slotByte_eq s.cfg hp8 0 (by decide)
      have hslot2 := slotByte_eq s.cfg hp8 1 (by decide)
      unfold regsOf
      rw [chanByte_eq hp8]
      cases role with
      | b1 => exact congrArg (FifoRegs.mk _ _) hslot1
      | b2 => exact congrArg (FifoRegs.mk _ _) hslot2
      | d => rfl
    · refine (hm.fifoRegs hp role .tx).trans ?_
      have hslot1 := slotByte_eq s.cfg hp8 0 (by decide)
      have hslot2 := slotByte_eq s.cfg hp8 1 (by decide)
      unfold regsOf
      cases role with
      | b1 => exact congrArg (FifoRegs.mk _ _) hslot1
      | b2 => exact congrArg (FifoRegs.mk _ _) hslot2
      | d => rfl
  · have hsel := hm.selected (nports_pos s)
    have hrest : t = { s with ports := t.ports, hw := { s.hw with
        fifos := t.hw.fifos, fifoSel := selByte (s.cfg.dBase + (s.nports - 1)) .tx } } := by
      rw [← hsel]
      exact hm.rest
    rw [hrest]
    rfl

/-! ### A second mapping (R98) -/

/-- A port is mapped as its card's configuration says. -/
structure PortMapped (p : Nat) (s : State) : Prop where
  port : s.port p = withFifos s.cfg p (s.port p)
  channels : ∀ role, s.fifo (fifoOf s.cfg p role) = mappedAs s.cfg p role (s.fifo (fifoOf s.cfg p role))

/-- Mapping a channel of a mapped port selects its FIFO, and changes nothing else. -/
theorem channelMapped_of_mapped (h : PortMapped p s) (role : Role) :
    channelMapped p role s = s.select (fifoOf s.cfg p role) .tx := by
  have hport : s.modPort p (fun q => q.setFifoNum role (fifoOf s.cfg p role)) = s := by
    refine modPort_self _ _ ?_
    rw [h.port]
    cases role <;> rfl
  have hfifo : s.setFifo (fifoOf s.cfg p role) (mappedAs s.cfg p role (s.fifo (fifoOf s.cfg p role))) = s := by
    rw [← h.channels role, setFifo_fifo]
  change ((s.modPort p fun q => q.setFifoNum role (fifoOf s.cfg p role)).setFifo (fifoOf s.cfg p role)
    (mappedAs s.cfg p role (s.fifo (fifoOf s.cfg p role)))).select _ .tx = _
  rw [hport, hfifo]

theorem PortMapped.select (h : PortMapped p s) (f : Nat) (d : Dir) : PortMapped p (s.select f d) := ⟨h.port, h.channels⟩

theorem portMapped_of_mapped (h : PortMapped p s) : portMapped p s = s.select (s.cfg.dBase + p) .tx := by
  rw [portMapped, channelMapped_of_mapped h, channelMapped_of_mapped (h.select _ _),
    channelMapped_of_mapped ((h.select _ _).select _ _)]
  rfl

/-- Mapping the ports of a mapped card selects the FIFO of the last one, and changes nothing else. -/
theorem mapAll_of_mapped (c : E.Calm) (h : s.quiet) (hc : s.cfg.valid = true) (hm : ∀ p < s.nports, PortMapped p s) :
    mapAll E s = .ok (s.select (s.cfg.dBase + (s.nports - 1)) .tx) := by
  have loop : ∀ n < s.nports, forEach (mapPort E) (List.range (n + 1)) s = .ok (s.select (s.cfg.dBase + n) .tx) := by
    intro n
    induction n with
    | zero =>
      intro hn
      rw [List.range_succ, List.range_zero, List.nil_append, forEach_cons, mapPort_idle c h hc hn,
        portMapped_of_mapped (hm 0 hn)]
      rfl
    | succ n ih =>
      intro hn
      have hnext := (hm (n + 1) hn).select (s.cfg.dBase + n) .tx
      rw [List.range_succ, forEach_append, ih (Nat.lt_of_succ_lt hn), ok_bind, forEach_cons,
        mapPort_idle c (s := s.select (s.cfg.dBase + n) .tx) h hc hn, portMapped_of_mapped hnext]
      rfl
  have hlast := loop (s.nports - 1) (Nat.sub_lt (nports_pos s) Nat.one_pos)
  rwa [Nat.sub_add_cancel (nports_pos s)] at hlast

/-- Settles O19. -/
theorem mappingIdempotent : Obligations.MappingIdempotent := by
  intro s t u h hc hst htu
  obtain ⟨w, hw, hm⟩ := mapAll_idle (hostEnv_calm s) h hc
  rw [exec_fmMapall, hw, completeOk_ok] at hst
  cases hst
  have hcfg : (w.answered .ok).cfg = s.cfg := hm.cfg
  have hports : (w.answered .ok).nports = s.nports := congrArg (fun c : Config => c.nports.toNat) hcfg
  have hmapped : ∀ p < (w.answered .ok).nports, PortMapped p (w.answered .ok) := by
    intro p hp
    rw [hports] at hp
    refine ⟨?_, fun role => ?_⟩
    · rw [hcfg]
      change w.port p = withFifos s.cfg p (w.port p)
      rw [hm.port_of_lt hp]
      rfl
    · rw [hcfg]
      change w.fifo _ = mappedAs s.cfg p role (w.fifo _)
      rw [hm.channels p hp role]
      rfl
  have hsel : (w.answered .ok).select ((w.answered .ok).cfg.dBase + ((w.answered .ok).nports - 1)) .tx =
      w.answered .ok := by
    rw [hcfg, hports, State.select, ← hm.selected (nports_pos s)]
    rfl
  have hquiet : (w.answered .ok).quiet := hm.quiet h
  have hvalid : (w.answered .ok).cfg.valid = true := by
    rw [hcfg]
    exact hc
  rw [exec_fmMapall, mapAll_of_mapped (hostEnv_calm _) hquiet hvalid hmapped, hsel,
    completeOk_ok] at htu
  cases htu
  rfl

end Sys2Proof.MapperFamily

/-! PROOFS of the observations, the forced transition and the synchronization source
(42_st_state_machine.md). -/

namespace Sys2Proof.LineStateFamily

open Sys2Proof Sys2Proof.Machine
open Sys2Proof.Registers (latchByte_toNat)

variable {s t : State} {E : Env} {pt : Point} {p : Nat}

/-! ### Observation without reaction (R106) -/

/-- A port with the state byte `sta` of class `cls` recorded, the debounce time ending at `deadline`. -/
def recorded (sta : Byte) (cls : Alarm) (deadline : Nat) (q : Port) : Port :=
  { q with
    state := sta
    t1On := if cls = .clear ∧ q.mode = .nt then false else q.t1On
    t3On := if cls = .clear ∧ q.mode = .te then false else q.t3On
    newalarm := cls
    alarmtimer := if cls = q.newalarm then q.alarmtimer else deadline }

theorem disarmIfClear_eq (q : Port) (cls : Alarm) :
    q.disarmIfClear cls = { q with
      t1On := if cls = .clear ∧ q.mode = .nt then false else q.t1On
      t3On := if cls = .clear ∧ q.mode = .te then false else q.t3On } := by
  unfold Port.disarmIfClear
  by_cases hc : cls = .clear
  · rw [if_pos hc]
    cases hm : q.mode <;> simp [hc]
  · simp [hc]

theorem debounce_eq (q : Port) (cls : Alarm) (deadline : Nat) :
    q.debounce cls deadline = { q with
      newalarm := cls, alarmtimer := if cls = q.newalarm then q.alarmtimer else deadline } := by
  unfold Port.debounce
  by_cases h : cls = q.newalarm
  · rw [if_pos h, if_pos h, h]
  · rw [if_neg h, if_neg h]

theorem recorded_eq (sta : Byte) (cls : Alarm) (deadline : Nat) (q : Port) :
    (({ q with state := sta } : Port).disarmIfClear cls).debounce cls deadline = recorded sta cls deadline q := by
  rw [disarmIfClear_eq, debounce_eq]
  rfl

/-- `s` with port `p` selected. -/
def stSelected (p : Nat) (s : State) : State := s.modHw fun x => { x with stSel := BitVec.ofNat 8 p }

theorem observed_eq (p : Nat) (s : State) : observed p s = (stSelected p s).setPort p
    (recorded (s.latch p).byte (alarmClass s.cfg (s.port p).mode (s.latch p).code.toNat)
      (s.card.ticks + s.live.debounceMs) (s.port p)) := by
  rw [← recorded_eq]
  change (stSelected p s).setPort p _ = _
  rw [stateCode_byte]
  rfl

theorem byte_eq (l : LineLatch) :
    l.byte = BitVec.ofNat 8 (l.code.toNat + 32 * l.t2exp.toNat + 64 * l.signal.toNat) := by
  rw [← latchByte_toNat, BitVec.ofNat_toNat, BitVec.setWidth_eq]

theorem stSelected_byte (a : Byte) (s : State) :
    stSelected a.toNat s = { s with hw := { s.hw with stSel := a } } := by
  rw [stSelected, BitVec.ofNat_toNat, BitVec.setWidth_eq]
  rfl

/-- A code's number, read off its four bits. -/
theorem code_eq_iff (c : BitVec 4) {n : Nat} (hn : n < 16) : c = BitVec.ofNat 4 n ↔ c.toNat = n := by
  constructor
  · rintro rfl
    simp only [BitVec.toNat_ofNat]
    omega
  · intro h
    rw [← h, BitVec.ofNat_toNat, BitVec.setWidth_eq]

theorem inVocab_nt_iff (code : Nat) : inVocab .nt code = true ↔ code ∈ [0, 1, 2, 3, 4] := by
  match code with
  | 0 | 1 | 2 | 3 | 4 => decide
  | n + 5 => exact ⟨fun h => (by cases h), fun h => (by simp at h)⟩

theorem inVocab_te_iff (code : Nat) : inVocab .te code = true ↔ code ∈ [0, 2, 3, 4, 5, 6, 7, 8] := by
  match code with
  | 0 | 1 | 2 | 3 | 4 | 5 | 6 | 7 | 8 => decide
  | n + 9 => exact ⟨fun h => (by cases h), fun h => (by simp at h)⟩

/-- Settles O20: the tables by evaluation, the observation by its one level. -/
theorem observationRecords : Obligations.ObservationRecords := by
  refine ⟨fun code => ⟨inVocab_nt_iff code, inVocab_te_iff code⟩, fun c hnt hte => ?_, fun s a h => ?_⟩
  · simp only [alarmClass, hnt, hte]
    decide
  · dsimp only
    have c := (serviceEnv_calm s).raw
    refine ⟨fun hp hv ht hs => ?_, fun hp hv => ?_, fun hp => ?_⟩
    · have hexp : ¬ T2Expired a.toNat s := fun ⟨hm, hcode, he⟩ => ht ⟨hm, congrArg BitVec.toNat hcode, he⟩
      have hsig : ¬ SignalSeen a.toNat s := fun ⟨hm, hcode, he⟩ => hs ⟨hm, congrArg BitVec.toNat hcode, he⟩
      rw [exec_stObserve hp, observe, observeWithin_of_no_reaction c h hp hv hexp hsig, completeOk_ok,
        observed_eq, byte_eq, stSelected_byte]
      rfl
    · have hn : ¬ CodeNamed a.toNat s := by
        rw [CodeNamed, hv]
        decide
      rw [exec_stObserve hp, observe, observeWithin_of_not_named c h hp hn]
      rfl
    · exact congrArg completeOk (onPort_of_le _ hp)

/-! ### The two reactions (R107, R108) -/

theorem observe_of_t2Expired (c : pt.Calm) (h : s.sched = []) (hp : p < s.nports) (ht : T2Expired p s) :
    observe pt p s = .ok (observed p (t2Reacted p s)) := by
  have hp8 : p < 8 := hp.trans_le (nports_le_eight s)
  have hn : CodeNamed p s := by
    rw [CodeNamed, ht.1, ht.2.1]
    rfl
  have hmode : ((t2Reacted p s).port p).mode = .nt := by
    rw [t2Reacted, released_port, port_modPort _ _ _ hp8, observed_mode hp8, ht.1]
  have hcode : ((t2Reacted p s).latch p).code = BitVec.ofNat 4 1 := released_code _ hp8
  have hexp : ¬ T2Expired p (t2Reacted p s) := fun he => absurd (hcode.symm.trans he.2.1) (by decide)
  have hsig : ¬ SignalSeen p (t2Reacted p s) := fun he => absurd (hmode.symm.trans he.1) (by decide)
  rw [observe, observeWithin_of_t2Expired c h hp hn ht]
  exact observeWithin_of_no_reaction c (s := t2Reacted p s) h hp (codeNamed_t2Reacted hp8 ht) hexp hsig

theorem observe_of_signalSeen (c : pt.Calm) (h : s.sched = []) (hp : p < s.nports) (hs : SignalSeen p s) :
    observe pt p s = .ok (observed p (signalReacted p s)) := by
  have hp8 : p < 8 := hp.trans_le (nports_le_eight s)
  have hn : CodeNamed p s := by
    rw [CodeNamed, hs.1, hs.2.1]
    rfl
  have hmode : ((signalReacted p s).port p).mode = .te := by
    rw [signalReacted, released_port, armT3_mode hp8, observed_mode hp8, hs.1]
  have hcode : ((signalReacted p s).latch p).code = BitVec.ofNat 4 4 := released_code _ hp8
  have hexp : ¬ T2Expired p (signalReacted p s) := fun he => absurd (hmode.symm.trans he.1) (by decide)
  have hsig : ¬ SignalSeen p (signalReacted p s) := fun he => absurd (hcode.symm.trans he.2.1) (by decide)
  rw [observe, observeWithin_of_signalSeen c h hp hn hs]
  exact observeWithin_of_no_reaction c (s := signalReacted p s) h hp (codeNamed_signalReacted hp8 hs) hexp hsig

/-- The latch of a port after a reaction has forced `code`. -/
def releasedLatch (code : Nat) (l : LineLatch) : LineLatch :=
  { l with code := BitVec.ofNat 4 code, t2exp := false, auto := true }

/-- The port after an observation, a change of it, and the observation of the code forced. -/
def reactedPort (p code : Nat) (k : Port → Port) (s : State) : Port :=
  let l := s.latch p
  let cls := fun c => alarmClass s.cfg (s.port p).mode c
  let deadline := s.card.ticks + s.live.debounceMs
  recorded (releasedLatch code l).byte (cls (BitVec.ofNat 4 code).toNat) deadline
    (k (recorded l.byte (cls l.code.toNat) deadline (s.port p)))

theorem observed_released {k : Port → Port} (hp : p < 8) (code : Nat) (hk : ∀ q, (k q).mode = q.mode) :
    observed p (released p code ((observed p s).modPort p k)) =
      ((stSelected p s).setLatch p (releasedLatch code (s.latch p))).setPort p (reactedPort p code k s) := by
  have hport : ((observed p s).modPort p k).port p = k ((observed p s).port p) := port_modPort _ _ _ hp
  have hmode : (((observed p s).modPort p k).port p).mode = (s.port p).mode := by
    rw [hport, hk, observed_mode hp]
  have hlatch : (released p code ((observed p s).modPort p k)).latch p = releasedLatch code (s.latch p) :=
    latch_setLatch _ _ _ hp
  rw [observed_eq p (released p code _), hlatch, released_port, hmode, hport, observed_eq p s,
    port_setPort _ _ _ hp]
  change (((((stSelected p s).setPort p _).setPort p _).setLatch p _).setPort p _) = _
  rw [setPort_setPort]
  change (((stSelected p s).setLatch p _).setPort p _).setPort p _ = _
  rw [setPort_setPort]
  rfl

/-- A port with T3 armed from the tick of `s` (R110). -/
def t3Armed (s : State) (q : Port) : Port :=
  { q with
    t3First := false
    t3Dl := s.card.ticks + (if q.t3First then s.cfg.t3FirstMs else s.live.t3Ms)
    t3On := true
    t1On := false }

/-- Settles O21: each reaction is one more level, which the inner observation ends. -/
theorem observationReacts : Obligations.ObservationReacts := by
  intro s a h hp
  have hp8 : a.toNat < 8 := hp.trans_le (nports_le_eight s)
  have c := (serviceEnv_calm s).raw
  dsimp only
  refine ⟨fun hm hcode hexp => ?_, fun hm hcode hsig => ?_⟩
  · have hstate := observed_released (s := s) (p := a.toNat) (k := fun q => { q with t1On := false }) hp8 1 fun _ => rfl
    rw [exec_stObserve hp, observe_of_t2Expired c h hp ⟨hm, hcode, hexp⟩, completeOk_ok, t2Reacted, hstate,
      stSelected_byte]
    have hport : reactedPort a.toNat 1 (fun q => { q with t1On := false }) s = { s.port a.toNat with
        state := BitVec.ofNat 8 (1 + 64 * (s.latch a.toNat).signal.toNat)
        t1On := false
        newalarm := alarmClass s.cfg .nt 1
        alarmtimer := if alarmClass s.cfg .nt 4 = (s.port a.toNat).newalarm ∧ alarmClass s.cfg .nt 1 = alarmClass s.cfg .nt 4
          then (s.port a.toNat).alarmtimer else s.card.ticks + s.live.debounceMs } := by
      simp only [reactedPort, recorded, releasedLatch, byte_eq, hm, hcode]
      by_cases h1 : alarmClass s.cfg .nt 1 = alarmClass s.cfg .nt 4 <;>
        by_cases h4 : alarmClass s.cfg .nt 4 = (s.port a.toNat).newalarm <;> simp [h1, h4]
    rw [hport]
    rfl
  · have hstate := observed_released (s := s) (p := a.toNat) (k := t3Armed s) hp8 4 fun _ => rfl
    have harm : armT3 a.toNat (observed a.toNat s) = (observed a.toNat s).modPort a.toNat (t3Armed s) := rfl
    rw [exec_stObserve hp, observe_of_signalSeen c h hp ⟨hm, hcode, hsig⟩, completeOk_ok, signalReacted, harm,
      hstate, stSelected_byte]
    have hport : reactedPort a.toNat 4 (t3Armed s) s = { s.port a.toNat with
        state := BitVec.ofNat 8 (4 + 64)
        t1On := false
        t3First := false
        t3Dl := s.card.ticks + (if (s.port a.toNat).t3First then s.cfg.t3FirstMs else s.live.t3Ms)
        t3On := decide (alarmClass s.cfg .te 4 ≠ .clear)
        newalarm := alarmClass s.cfg .te 4
        alarmtimer := if alarmClass s.cfg .te 3 = (s.port a.toNat).newalarm ∧ alarmClass s.cfg .te 4 = alarmClass s.cfg .te 3
          then (s.port a.toNat).alarmtimer else s.card.ticks + s.live.debounceMs } := by
      simp only [reactedPort, recorded, releasedLatch, t3Armed, byte_eq, hm, hcode, hsig]
      by_cases h1 : alarmClass s.cfg .te 4 = alarmClass s.cfg .te 3 <;>
        by_cases h4 : alarmClass s.cfg .te 3 = (s.port a.toNat).newalarm <;> simp [h1, h4]
    rw [hport]
    rfl

/-! ### Forced transition (R109) -/

theorem exec_stForce (a code resume : Byte) (s : State) :
    exec (.stForce a code resume) s = completeOk (do
      let p ← portArg a s
      let r ← boolArg resume
      forceState s.serviceEnv.raw p code.toNat r s) := rfl

theorem observe_stSelected (c : pt.Calm) (h : s.sched = []) (hp : p < s.nports) :
    observe pt p (stSelected p s) = observe pt p s := by
  have hleft := observeWithin_succ (s := stSelected p s) (s.sched.length + 1) c h hp
  have hright := observeWithin_succ (s.sched.length + 1) c h hp
  exact hleft.trans hright.symm

/-- A forced transition is the observation of the port with the code loaded (R109). -/
theorem forceState_of_named (c : pt.Calm) {code : Nat} {resume : Bool} (h : s.sched = []) (hp : p < s.nports)
    (hv : inVocab (s.port p).mode code = true) :
    forceState pt p code resume s = observe pt p (s.setLatch p
      { s.latch p with code := BitVec.ofNat 4 code, t2exp := false, auto := resume }) := by
  rw [forceState, loadState_of_nil c h hp hv, ok_bind]
  exact observe_stSelected (s := s.setLatch p _) c h hp

/-- Settles O22. -/
theorem forcedTransition : Obligations.ForcedTransition := by
  intro s a code resume h
  have c := (serviceEnv_calm s).raw
  dsimp only
  refine ⟨fun hp hv hr => ?_, fun hp hv hr => ?_, fun hbad => ?_⟩
  · have hp8 : a.toNat < 8 := hp.trans_le (nports_le_eight s)
    have hcode : code.extractLsb' 0 4 = BitVec.ofNat 4 code.toNat := by
      apply BitVec.eq_of_toNat_eq
      simp
    rw [hcode, exec_stForce, portArg, if_pos hp, MapperFamily.boolArg_of_eq hr, ok_bind, ok_bind,
      forceState_of_named c h hp hv]
    generalize hf : s.setLatch a.toNat { s.latch a.toNat with
      code := BitVec.ofNat 4 code.toNat, t2exp := false, auto := decide (resume = 1) } = forced
    have hsched : forced.sched = [] := by rw [← hf]; exact h
    have hports : a.toNat < forced.nports := by rw [← hf]; exact hp
    have hnamed : CodeNamed a.toNat forced := by
      rw [CodeNamed, ← hf, latch_setLatch _ _ _ hp8]
      have h16 := inVocab_lt hv
      rw [show (BitVec.ofNat 4 code.toNat).toNat = code.toNat by simp; omega]
      exact hv
    obtain ⟨t, hrun, -⟩ := observeWithin_completes (forced.sched.length + 2) hsched hports hnamed
    refine ⟨t.answered .ok, ?_, ?_⟩
    · rw [observe, hrun _ c, completeOk_ok]
    · rw [exec_stObserve hports, observe, hrun _ (serviceEnv_calm forced).raw, completeOk_ok]
  · rw [exec_stForce, portArg, if_pos hp, MapperFamily.boolArg_of_eq hr, ok_bind, ok_bind, forceState,
      Machine.loadState, hv]
    rfl
  · rw [exec_stForce]
    by_cases hp : a.toNat < s.nports
    · obtain ⟨h0, h1⟩ := hbad.resolve_left (Nat.not_le.2 hp)
      rw [portArg, if_pos hp, ok_bind, MapperFamily.boolArg_of_ne h0 h1]
      rfl
    · rw [portArg, if_neg hp]
      rfl

/-! ### The source selected (R117) -/

/-- The first element found in an ordered list is the least one that satisfies the predicate. -/
theorem find?_eq_of_least {α : Type} {R : α → α → Prop} {f : α → Bool} {l : List α} {a : α} (hl : l.Pairwise R)
    (ha : a ∈ l) (hfa : f a = true) (hleast : ∀ b ∈ l, f b = true → ¬ R b a) : l.find? f = some a := by
  cases hb : l.find? f with
  | none => exact absurd hfa (List.find?_eq_none.1 hb a ha)
  | some b =>
    obtain ⟨hfb, before, after, rfl, hbefore⟩ := List.find?_eq_some_iff_append.1 hb
    rcases List.mem_append.1 ha with hin | hin
    · have := hbefore a hin
      simp [hfa] at this
    · rcases List.mem_cons.1 hin with rfl | hlater
      · rfl
      · have hlt : R b a := (List.pairwise_cons.1 (List.pairwise_append.1 hl).2.1).1 a hlater
        exact absurd hlt (hleast b (by simp) hfb)

/-- The lexicographic order of (priority, port). -/
def SyncBefore (x y : Nat × Nat) : Prop := x.1 < y.1 ∨ (x.1 = y.1 ∧ x.2 < y.2)

theorem syncOrder_pairwise (n : Nat) : (syncOrder n).Pairwise SyncBefore := by
  refine List.pairwise_flatMap.2 ⟨fun k _ => ?_, List.pairwise_lt_range.imp fun hk x hx y hy => ?_⟩
  · exact List.pairwise_map.2 (List.pairwise_lt_range.imp fun h => .inr ⟨rfl, h⟩)
  · obtain ⟨_, _, rfl⟩ := List.mem_map.1 hx
    obtain ⟨_, _, rfl⟩ := List.mem_map.1 hy
    exact .inl (Nat.succ_lt_succ hk)

theorem mem_syncOrder {n k p : Nat} : (k, p) ∈ syncOrder n ↔ 1 ≤ k ∧ k ≤ n ∧ p < n := by
  simp only [syncOrder, List.mem_flatMap, List.mem_map, List.mem_range, Prod.mk.injEq]
  constructor
  · rintro ⟨j, hj, q, hq, rfl, rfl⟩
    omega
  · rintro ⟨h1, hn, hp⟩
    exact ⟨k - 1, by omega, p, hp, by omega, rfl⟩

/-- Port `p` can be the source: its priority is in range and its published alarm is CLEAR. -/
def SyncCandidate (s : State) (p : Nat) : Prop :=
  p < s.nports ∧ 1 ≤ (s.port p).syncPrio ∧ (s.port p).syncPrio ≤ s.nports ∧ (s.port p).alarm = .clear

theorem syncPick_of_least (hp : SyncCandidate s p)
    (hleast : ∀ q, SyncCandidate s q → (s.port p).syncPrio < (s.port q).syncPrio ∨
      ((s.port p).syncPrio = (s.port q).syncPrio ∧ p ≤ q)) : syncPick s = some p := by
  obtain ⟨hlt, hone, hmax, hclear⟩ := hp
  have hfind := find?_eq_of_least (f := fun x : Nat × Nat =>
      (s.port x.2).syncPrio == x.1 && (s.port x.2).alarm == .clear) (syncOrder_pairwise s.nports)
    (a := ((s.port p).syncPrio, p)) (mem_syncOrder.2 ⟨hone, hmax, hlt⟩) (by simp [hclear]) ?_
  · exact congrArg (Option.map Prod.snd) hfind
  · rintro ⟨k, q⟩ hq hf
    simp only [Bool.and_eq_true, beq_iff_eq] at hf
    obtain ⟨rfl, hqclear⟩ := hf
    obtain ⟨hq1, hqn, hqlt⟩ := mem_syncOrder.1 hq
    rcases hleast q ⟨hqlt, hq1, hqn, hqclear⟩ with h | ⟨h, hle⟩ <;> simp only [SyncBefore] <;> omega

theorem syncPick_of_none (h : ∀ p, ¬ SyncCandidate s p) : syncPick s = none := by
  have hfind : (syncOrder s.nports).find? (fun x : Nat × Nat =>
      (s.port x.2).syncPrio == x.1 && (s.port x.2).alarm == .clear) = none := by
    refine List.find?_eq_none.2 ?_
    rintro ⟨k, q⟩ hq hf
    simp only [Bool.and_eq_true, beq_iff_eq] at hf
    obtain ⟨rfl, hqclear⟩ := hf
    obtain ⟨hq1, hqn, hqlt⟩ := mem_syncOrder.1 hq
    exact h q ⟨hqlt, hq1, hqn, hqclear⟩
  exact congrArg (Option.map Prod.snd) hfind

/-- The source `src` written to the card, with its value `v` of `SYNC_SEL`. -/
def sourced (src : SyncSrc) (v : Byte) (s : State) : State :=
  { s with card := { s.card with syncsrc := src }, hw := { s.hw with syncSel := v } }

theorem syncSelect_of_some (c : pt.Calm) (h : s.sched = []) (hpick : syncPick s = some p) :
    syncSelect pt s = .ok (sourced (.port p) (BitVec.ofNat 8 (8 + p)) s) := by
  have hp8 : p < 8 := (syncPick_lt hpick).trans_le (nports_le_eight s)
  have hv : ∀ p < 8, 0x08 ||| BitVec.ofNat 8 p = BitVec.ofNat 8 (8 + p) := by decide
  rw [syncSelect, hpick, ← hv p hp8]
  exact wr_syncSel c h (syncByte_reserved hp8)

theorem syncSelect_of_none (c : pt.Calm) (h : s.sched = []) (hpick : syncPick s = none) :
    syncSelect pt s = .ok (sourced .auto 0x00 s) := by
  rw [syncSelect, hpick]
  exact wr_syncSel c h (by decide)

/-- Settles O24: the order of (priority, port) is lexicographic, so the first match is the least candidate. -/
theorem syncSelection : Obligations.SyncSelection := by
  intro s h
  have c := (serviceEnv_calm s).raw
  refine ⟨fun p hp hleast => ?_, fun hnone => ?_, ?_⟩
  · rw [exec_stSyncsel, syncSelect_of_some c h (syncPick_of_least hp hleast), completeOk_ok]
    rfl
  · rw [exec_stSyncsel, syncSelect_of_none c h (syncPick_of_none hnone), completeOk_ok]
    rfl
  · obtain ⟨t, ht⟩ := syncSelect_completes h
    exact ⟨t.answered .ok, by rw [exec_stSyncsel, ht _ c, completeOk_ok]⟩

end Sys2Proof.LineStateFamily

/-! PROOFS of the poll and the sweep (42_st_state_machine.md). -/

namespace Sys2Proof.LineStateFamily

open Sys2Proof Sys2Proof.Machine

variable {s t u w : State} {E : Env} {pt : Point} {p n : Nat}

/-! ### The poll (R116) -/

/-- The port that an observation without reaction leaves. -/
def observedPort (p : Nat) (s : State) : Port :=
  recorded (s.latch p).byte (alarmClass s.cfg (s.port p).mode (s.latch p).code.toNat)
    (s.card.ticks + s.live.debounceMs) (s.port p)

/-- An observation of port `p` finds a code of its vocabulary, and does not react to it. -/
def Observable (p : Nat) (s : State) : Prop := CodeNamed p s ∧ ¬ T2Expired p s ∧ ¬ SignalSeen p s

theorem observe_of_observable (c : pt.Calm) (h : s.sched = []) (hp : p < s.nports) (ho : Observable p s) :
    observe pt p s = .ok (observed p s) :=
  observeWithin_of_no_reaction c h hp ho.1 ho.2.1 ho.2.2

theorem port_observed_eq (hp : p < 8) (q : Nat) :
    (observed p s).port q = if q = p then observedPort p s else s.port q := by
  rw [observed_eq]
  exact port_setPort_eq (s := stSelected p s) _ _ _ hp

theorem rd_sci (c : pt.Calm) (h : s.sched = []) :
    rd pt .sci s = .ok (s.hw.sci, s.modHw fun x => { x with sci := 0 }) := by
  have hvalue : readValue .sci s = .ok (s.hw.sci.setWidth 16) := rfl
  rw [rd_of_nil c .sci h, hvalue, map_ok, BitVec.setWidth_setWidth_of_le _ (by decide), BitVec.setWidth_eq]
  rfl

/-- The flagged ones of the first `n` ports of the card `s` are observed in `t`, and nothing else is changed but
`SCI` and `ST_SEL`. -/
structure PolledUpTo (s : State) (n : Nat) (t : State) : Prop where
  rest : t = { s with ports := t.ports, hw := { s.hw with sci := 0, stSel := t.hw.stSel } }
  ports : ∀ p < 8, t.port p = if p < n ∧ s.hw.sci.getLsbD p = true then observedPort p s else s.port p

theorem PolledUpTo.port_self (h : PolledUpTo s n t) (hn : n < 8) : t.port n = s.port n := by
  rw [h.ports n hn, if_neg fun hlt => Nat.lt_irrefl n hlt.1]

/-- A port not yet polled is observed as in the state before the poll. -/
theorem PolledUpTo.observable (h : PolledUpTo s n t) (hn : n < 8) (ho : Observable n s) : Observable n t := by
  have hport := h.port_self hn
  have hlatch : t.latch n = s.latch n := by rw [h.rest]; rfl
  simpa only [Observable, CodeNamed, T2Expired, SignalSeen, hport, hlatch] using ho

theorem PolledUpTo.observedPort_self (h : PolledUpTo s n t) (hn : n < 8) : observedPort n t = observedPort n s := by
  have hport := h.port_self hn
  have hrest := h.rest
  have hlatch : t.latch n = s.latch n := by rw [hrest]; rfl
  have hcfg : t.cfg = s.cfg := by rw [hrest]
  have hcard : t.card = s.card := by rw [hrest]
  have hlive : t.live = s.live := by rw [hrest]
  simp only [observedPort, hport, hlatch, hcfg, hcard, hlive]

theorem PolledUpTo.skip (h : PolledUpTo s n t) (hflag : s.hw.sci.getLsbD n = false) : PolledUpTo s (n + 1) t := by
  refine ⟨h.rest, fun p hp => ?_⟩
  rw [h.ports p hp]
  by_cases hpn : p = n
  · subst hpn
    simp [hflag]
  · have hiff : p < n ↔ p < n + 1 := by omega
    simp only [hiff]

theorem PolledUpTo.observed (h : PolledUpTo s n t) (hn : n < 8) (hflag : s.hw.sci.getLsbD n = true) :
    PolledUpTo s (n + 1) (observed n t) := by
  refine ⟨?_, fun p hp => ?_⟩
  · have hrest := h.rest
    rw [observed_eq]
    generalize recorded _ _ _ _ = q
    rw [hrest]
    rfl
  · rw [port_observed_eq hn, h.observedPort_self hn]
    by_cases hpn : p = n
    · subst hpn
      rw [if_pos rfl, if_pos ⟨Nat.lt_succ_self p, hflag⟩]
    · rw [if_neg hpn, h.ports p hp]
      have hiff : p < n ↔ p < n + 1 := by omega
      simp only [hiff]

theorem pollPort_of_clear {sci : Byte} (h : sci.getLsbD p = false) : pollPort E sci p s = .ok s := by
  rw [pollPort, h]
  rfl

theorem pollPort_of_flagged {sci : Byte} (c : E.Calm) (hs : s.sched = []) (h : sci.getLsbD p = true) :
    pollPort E sci p s = observe E.raw p s := by
  rw [pollPort, if_pos h, c.free s hs, ok_bind]

theorem pollPorts_completes (c : E.Calm) (h : s.sched = [])
    (ho : ∀ p < s.nports, s.hw.sci.getLsbD p = true → Observable p s) :
    ∃ t, pollPorts E s = .ok t ∧ PolledUpTo s s.nports t := by
  rw [pollPorts, rd_sci c.free h, ok_bind]
  refine forEach_range (P := PolledUpTo s) s.nports ⟨rfl, fun p _ => ?_⟩ fun n hn t hm => ?_
  · rw [if_neg fun hlt => Nat.not_lt_zero p hlt.1]
    rfl
  · have hn8 : n < 8 := hn.trans_le (nports_le_eight s)
    have hsched : t.sched = [] := by rw [hm.rest]; exact h
    have hports : n < t.nports := by rw [hm.rest]; exact hn
    cases hflag : s.hw.sci.getLsbD n with
    | false => exact ⟨t, pollPort_of_clear hflag, hm.skip hflag⟩
    | true =>
      refine ⟨LineStateFamily.observed n t, ?_, hm.observed hn8 hflag⟩
      rw [pollPort_of_flagged c hsched hflag]
      exact observe_of_observable c.raw hsched hports (hm.observable hn8 (ho n hn hflag))

theorem exec_stPoll (s : State) : exec .stPoll s = completeOk (pollPorts s.serviceEnv s) := rfl

/-- Settles O27: the poll is a loop over the ports that observes the flagged ones. -/
theorem pollObservesFlagged : Obligations.PollObservesFlagged := by
  intro s h ho
  obtain ⟨t, ht, hm⟩ := pollPorts_completes (serviceEnv_calm s) h ho
  have hrest := hm.rest
  have hport : ∀ p < s.nports, t.port p = if p < s.nports ∧ s.hw.sci.getLsbD p = true then observedPort p s else s.port p :=
    fun p hp => hm.ports p (hp.trans_le (nports_le_eight s))
  refine ⟨t.answered .ok, by rw [exec_stPoll, ht, completeOk_ok], ?_, fun p hp hflag => ?_, fun p hp hflag => ?_, ?_⟩
  · rw [hrest]
    rfl
  · refine (hport p hp).trans (if_neg fun hf => ?_)
    rw [hflag] at hf
    exact absurd hf.2 (by decide)
  · have hp8 : p < 8 := hp.trans_le (nports_le_eight s)
    have hbyte : (BitVec.ofNat 8 p).toNat = p := by
      rw [BitVec.toNat_ofNat]
      omega
    refine ⟨(LineStateFamily.observed p s).answered .ok, ?_, ?_⟩
    · rw [exec_stObserve (by rwa [hbyte]), hbyte,
        observe_of_observable (serviceEnv_calm s).raw h hp (ho p hp hflag), completeOk_ok]
    · refine ((hport p hp).trans (if_pos ⟨hp, hflag⟩)).trans ?_
      exact ((port_observed_eq hp8 p).trans (if_pos rfl)).symm
  · conv_lhs => rw [hrest]
    rfl

/-! ### The sweep of a card with no timer due (R113, R115) -/

/-- No timer of port `p` is due at the present tick. -/
def NoTimerDue (p : Nat) (s : State) : Prop :=
  ((s.port p).t1On = true → s.card.ticks < (s.port p).t1Dl) ∧ ((s.port p).t3On = true → s.card.ticks < (s.port p).t3Dl)

/-- The pending alarm of port `p` is due to be published. -/
abbrev AlarmDue (s : State) (p : Nat) : Prop :=
  (s.port p).newalarm ≠ (s.port p).alarm ∧ (s.port p).alarmtimer ≤ s.card.ticks ∧
  ¬ (s.live.ignoreRedTe = true ∧ (s.port p).mode = .te ∧ (s.port p).newalarm = .red)

theorem publishes_iff : publishes p s = true ↔ AlarmDue s p := by
  simp only [publishes, AlarmDue, Bool.and_eq_true, bne_iff_ne, decide_eq_true_eq, Bool.not_eq_true',
    Bool.and_eq_false_iff, beq_eq_false_iff_ne, not_and_or, and_assoc, ne_eq, or_assoc, Bool.not_eq_true]

theorem expireT1_of_not_due (h : (s.port p).t1On = true → s.card.ticks < (s.port p).t1Dl) : expireT1 pt p s = .ok s :=
  if_neg fun hd => absurd (h hd.1) (Nat.not_lt.2 hd.2)

theorem expireT3_of_not_due (h : (s.port p).t3On = true → s.card.ticks < (s.port p).t3Dl) : expireT3 pt p s = .ok s :=
  if_neg fun hd => absurd (h hd.1) (Nat.not_lt.2 hd.2)

theorem publishAlarm_of_not_due (h : ¬ AlarmDue s p) : publishAlarm pt p s = .ok s :=
  if_neg fun hp => h (publishes_iff.1 hp)

theorem sweepPort_of_no_timer_due (c : E.Calm) (h : s.sched = []) (hq : NoTimerDue p s) :
    sweepPort E p s = publishAlarm E.raw p s := by
  simp only [sweepPort, c.free s h, ok_bind, expireT1_of_not_due hq.1, expireT3_of_not_due hq.2]

/-- The source that a selection picks, with its value of `SYNC_SEL`. -/
def syncTarget (s : State) : SyncSrc × Byte :=
  (syncPick s).elim (.auto, 0x00) fun p => (.port p, BitVec.ofNat 8 (8 + p))

theorem syncSelect_eq (c : pt.Calm) (h : s.sched = []) :
    syncSelect pt s = .ok (sourced (syncTarget s).1 (syncTarget s).2 s) := by
  unfold syncTarget
  cases hpick : syncPick s with
  | none => exact syncSelect_of_none c h hpick
  | some p => exact syncSelect_of_some c h hpick

theorem syncTarget_congr (hcfg : s.cfg = t.cfg) (hports : s.ports = t.ports) : syncTarget s = syncTarget t := by
  simp only [syncTarget, syncPick, State.nports, State.port, hcfg, hports]

/-- The state with port `p`'s pending alarm published and reported. -/
def alarmPublished (p : Nat) (s : State) : State :=
  (s.modPort p fun q => { q with alarm := (s.port p).newalarm }).emit (.alarm p (s.port p).newalarm)

theorem alarmPublished_mode (hp : p < 8) : ((alarmPublished p s).port p).mode = (s.port p).mode := by
  have hport : (alarmPublished p s).port p = { s.port p with alarm := (s.port p).newalarm } :=
    port_modPort (s := s) p (fun q => { q with alarm := (s.port p).newalarm }) hp
  rw [hport]

theorem publishAlarm_of_due_te (hp : p < 8) (hd : AlarmDue s p) (hm : (s.port p).mode = .te) :
    publishAlarm pt p s = .ok (alarmPublished p s) := by
  rw [publishAlarm, if_pos (publishes_iff.2 hd)]
  dsimp only
  split
  · next he => exact absurd ((alarmPublished_mode hp).symm.trans he) (by rw [hm]; decide)
  · rfl

theorem publishAlarm_of_due_nt (c : pt.Calm) (h : s.sched = []) (hp : p < 8) (hd : AlarmDue s p)
    (hm : (s.port p).mode = .nt) :
    publishAlarm pt p s = .ok (sourced (syncTarget (alarmPublished p s)).1 (syncTarget (alarmPublished p s)).2
      (alarmPublished p s)) := by
  rw [publishAlarm, if_pos (publishes_iff.2 hd)]
  dsimp only
  split
  · exact syncSelect_eq (s := alarmPublished p s) c h
  · next he => exact absurd ((alarmPublished_mode hp).symm.trans he) (by rw [hm]; decide)

/-- The ports with the due alarms of the first `n` published. -/
def publishedPorts (s : State) (n : Nat) : Vector Port 8 :=
  s.ports.mapIdx fun p q => if p < n ∧ AlarmDue s p then { q with alarm := q.newalarm } else q

theorem port_eq_getElem (hp : p < 8) : s.port p = s.ports[p] := by
  rw [State.port, Vector.getElem?_eq_getElem hp]
  rfl

theorem publishedPorts_zero (s : State) : publishedPorts s 0 = s.ports := by
  apply Vector.ext
  intro i hi
  simp [publishedPorts]

theorem publishedPorts_skip (hd : ¬ AlarmDue s n) : publishedPorts s (n + 1) = publishedPorts s n := by
  apply Vector.ext
  intro i hi
  have hiff : (i < n + 1 ∧ AlarmDue s i) ↔ (i < n ∧ AlarmDue s i) := by
    by_cases hin : i = n
    · subst hin
      simp [hd]
    · have : i < n + 1 ↔ i < n := by omega
      rw [this]
  simp only [publishedPorts, Vector.getElem_mapIdx, hiff]

theorem publishedPorts_succ (hn : n < 8) (hd : AlarmDue s n) (ht : t.ports = publishedPorts s n) :
    (alarmPublished n t).ports = publishedPorts s (n + 1) := by
  have hport : t.port n = s.port n := by
    rw [port_eq_getElem hn, port_eq_getElem hn]
    simp [ht, publishedPorts]
  change t.ports.setIfInBounds n { t.port n with alarm := (t.port n).newalarm } = _
  rw [ht, hport, port_eq_getElem hn]
  apply Vector.ext
  intro i hi
  rw [Vector.getElem_setIfInBounds]
  by_cases hin : n = i
  · subst hin
    simp only [publishedPorts, Vector.getElem_mapIdx, if_true]
    rw [if_pos ⟨Nat.lt_succ_self n, hd⟩]
  · have hiff : i < n + 1 ↔ i < n := by omega
    simp only [publishedPorts, Vector.getElem_mapIdx, if_neg hin, hiff]

/-- The reports of the due alarms of the first `n` ports. -/
def alarmReports (s : State) (n : Nat) : List HostEvent :=
  ((List.range n).filter fun p => decide (AlarmDue s p)).map fun p => .alarm p (s.port p).newalarm

theorem alarmReports_succ (s : State) (n : Nat) : alarmReports s (n + 1) =
    alarmReports s n ++ (if AlarmDue s n then [.alarm n (s.port n).newalarm] else []) := by
  rw [alarmReports, List.range_succ, List.filter_append, List.map_append]
  congr 1
  by_cases hd : AlarmDue s n
  · rw [if_pos hd, List.filter_singleton, decide_eq_true hd]
    rfl
  · rw [if_neg hd, List.filter_singleton, decide_eq_false hd]
    rfl

/-- The due alarms of the first `n` ports of the card `s` are published in `t`, the source selected as with the
last NT port of them, and nothing else is changed. -/
structure SweptUpTo (s : State) (n : Nat) (t : State) : Prop where
  rest : t = { s with
    ports := publishedPorts s n
    card := { s.card with hostlog := s.card.hostlog ++ alarmReports s n, syncsrc := t.card.syncsrc }
    hw := { s.hw with syncSel := t.hw.syncSel } }
  te : (∀ p < n, AlarmDue s p → (s.port p).mode = .te) → t.card.syncsrc = s.card.syncsrc ∧ t.hw.syncSel = s.hw.syncSel
  nt : ∀ p < n, AlarmDue s p → (s.port p).mode = .nt → (∀ q < n, p < q → AlarmDue s q → (s.port q).mode = .te) →
    (t.card.syncsrc, t.hw.syncSel) = syncTarget { s with ports := publishedPorts s (p + 1) }

theorem SweptUpTo.zero (s : State) : SweptUpTo s 0 s := by
  refine ⟨?_, fun _ => ⟨rfl, rfl⟩, fun p hp => absurd hp (Nat.not_lt_zero p)⟩
  rw [publishedPorts_zero]
  change s = { s with card := { s.card with hostlog := s.card.hostlog ++ [] } }
  rw [List.append_nil]

theorem SweptUpTo.port_self (h : SweptUpTo s n t) (hn : n < 8) : t.port n = s.port n := by
  rw [h.rest, port_eq_getElem hn, port_eq_getElem hn]
  simp [publishedPorts]

theorem SweptUpTo.ticks (h : SweptUpTo s n t) : t.card.ticks = s.card.ticks := by rw [h.rest]

theorem SweptUpTo.live (h : SweptUpTo s n t) : t.live = s.live := by rw [h.rest]

theorem SweptUpTo.alarmDue_iff (h : SweptUpTo s n t) (hn : n < 8) : AlarmDue t n ↔ AlarmDue s n := by
  simp only [AlarmDue, h.port_self hn, h.ticks, h.live]

theorem SweptUpTo.noTimerDue (h : SweptUpTo s n t) (hn : n < 8) (hq : NoTimerDue n s) : NoTimerDue n t := by
  simpa only [NoTimerDue, h.port_self hn, h.ticks] using hq

theorem SweptUpTo.skip (h : SweptUpTo s n t) (hd : ¬ AlarmDue s n) : SweptUpTo s (n + 1) t := by
  refine ⟨?_, fun hte => h.te fun p hp => hte p (Nat.lt_succ_of_lt hp), fun p hp hdue hnt hlater => ?_⟩
  · rw [publishedPorts_skip hd, alarmReports_succ, if_neg hd, List.append_nil]
    exact h.rest
  · have hpn : p ≠ n := fun he => hd (he ▸ hdue)
    exact h.nt p (by omega) hdue hnt fun q hq => hlater q (Nat.lt_succ_of_lt hq)

theorem SweptUpTo.published_rest (h : SweptUpTo s n t) (hn : n < 8) (hd : AlarmDue s n) :
    alarmPublished n t = { s with
      ports := publishedPorts s (n + 1)
      card := { s.card with hostlog := s.card.hostlog ++ alarmReports s (n + 1), syncsrc := t.card.syncsrc }
      hw := { s.hw with syncSel := t.hw.syncSel } } := by
  have hports : t.ports = publishedPorts s n := by rw [h.rest]
  have hport := h.port_self hn
  have hlog : t.card.hostlog = s.card.hostlog ++ alarmReports s n := by rw [h.rest]
  have hemit : alarmPublished n t = { t with
      ports := (alarmPublished n t).ports
      card := { t.card with hostlog := t.card.hostlog ++ [.alarm n (t.port n).newalarm] } } := rfl
  rw [hemit, publishedPorts_succ hn hd hports, hlog, hport, alarmReports_succ, if_pos hd, List.append_assoc]
  conv_lhs => rw [h.rest]

theorem SweptUpTo.publish_te (h : SweptUpTo s n t) (hn : n < 8) (hd : AlarmDue s n) (hm : (s.port n).mode = .te) :
    SweptUpTo s (n + 1) (alarmPublished n t) := by
  refine ⟨h.published_rest hn hd, fun hte => h.te fun p hp => hte p (Nat.lt_succ_of_lt hp), fun p hp hdue hnt hlater => ?_⟩
  have hpn : p ≠ n := by
    rintro rfl
    rw [hm] at hnt
    cases hnt
  exact h.nt p (by omega) hdue hnt fun q hq => hlater q (Nat.lt_succ_of_lt hq)

theorem SweptUpTo.publish_nt (h : SweptUpTo s n t) (hn : n < 8) (hd : AlarmDue s n) (hm : (s.port n).mode = .nt) :
    SweptUpTo s (n + 1) (sourced (syncTarget (alarmPublished n t)).1 (syncTarget (alarmPublished n t)).2
      (alarmPublished n t)) := by
  have hrest := h.published_rest hn hd
  refine ⟨?_, fun hte => ?_, fun p hp hdue hnt hlater => ?_⟩
  · generalize syncTarget (alarmPublished n t) = target
    rw [hrest]
    rfl
  · have hbad := hte n (Nat.lt_succ_self n) hd
    rw [hm] at hbad
    cases hbad
  · have hpn : p = n := by
      by_contra hne
      have hbad := hlater n (Nat.lt_succ_self n) (by omega) hd
      rw [hm] at hbad
      cases hbad
    subst hpn
    have hcfg : (alarmPublished p t).cfg = s.cfg := by rw [hrest]
    have hports : (alarmPublished p t).ports = publishedPorts s (p + 1) := by rw [hrest]
    have htarget := syncTarget_congr (t := { s with ports := publishedPorts s (p + 1) }) hcfg hports
    rw [← htarget]
    rfl

theorem sweep_of_no_timer_due (c : E.Calm) (h : s.sched = []) (hq : ∀ p < s.nports, NoTimerDue p s) :
    ∃ t, sweep E s = .ok t ∧ SweptUpTo s s.nports t := by
  refine forEach_range (P := SweptUpTo s) s.nports (.zero s) fun n hn t hm => ?_
  have hn8 : n < 8 := hn.trans_le (nports_le_eight s)
  have hsched : t.sched = [] := by rw [hm.rest]; exact h
  have hport := hm.port_self hn8
  rw [sweepPort_of_no_timer_due c hsched (hm.noTimerDue hn8 (hq n hn))]
  by_cases hd : AlarmDue s n
  · have hdt := (hm.alarmDue_iff hn8).2 hd
    cases hmode : (s.port n).mode with
    | nt => exact ⟨_, publishAlarm_of_due_nt c.raw hsched hn8 hdt (by rw [hport, hmode]), hm.publish_nt hn8 hd hmode⟩
    | te => exact ⟨_, publishAlarm_of_due_te hn8 hdt (by rw [hport, hmode]), hm.publish_te hn8 hd hmode⟩
  · exact ⟨t, publishAlarm_of_not_due fun hdt => hd ((hm.alarmDue_iff hn8).1 hdt), hm.skip hd⟩

theorem exec_stSweep (s : State) : exec .stSweep s = completeOk (sweep s.serviceEnv s) := rfl

/-- Settles O28: the sweep is a loop over the ports that publishes each due alarm. -/
theorem sweepPublishes : Obligations.SweepPublishes := by
  intro s h hq
  obtain ⟨t, ht, hm⟩ := sweep_of_no_timer_due (serviceEnv_calm s) h hq
  refine ⟨t.answered .ok, by rw [exec_stSweep, ht, completeOk_ok], ?_, hm.te, fun p hp hd hnt hlater => ?_⟩
  · exact congrArg (fun u => State.answered u .ok) hm.rest
  · have hnt' := hm.nt p hp hd hnt hlater
    refine ⟨(sourced (syncTarget { s with ports := publishedPorts s (p + 1) }).1
      (syncTarget { s with ports := publishedPorts s (p + 1) }).2 { s with ports := publishedPorts s (p + 1) }).answered .ok,
      ?_, congrArg Prod.fst hnt', congrArg Prod.snd hnt'⟩
    have hsel := syncSelect_eq (s := { s with ports := publishedPorts s (p + 1) })
      (serviceEnv_calm { s with ports := publishedPorts s (p + 1) }).raw h
    exact congrArg completeOk hsel

end Sys2Proof.LineStateFamily

/-! PROOFS of the expiry of a timer in the sweep (42_st_state_machine.md R113). -/

namespace Sys2Proof.LineStateFamily

open Sys2Proof Sys2Proof.Machine

variable {s t u w : State} {E : Env} {pt : Point} {p n : Nat}

/-- The pending alarm of a port and its deadline are as in `q`, or its debounce time ends at `deadline`. -/
def PendingFrom (deadline : Nat) (q q' : Port) : Prop :=
  (q'.newalarm = q.newalarm ∧ q'.alarmtimer = q.alarmtimer) ∨ q'.alarmtimer = deadline

theorem recorded_pending (sta : Byte) (cls : Alarm) (deadline : Nat) (q : Port) :
    PendingFrom deadline q (recorded sta cls deadline q) := by
  by_cases h : cls = q.newalarm
  · exact .inl ⟨h, if_pos h⟩
  · exact .inr (if_neg h)

theorem PendingFrom.trans {deadline : Nat} {q q' q'' : Port} (h : PendingFrom deadline q q')
    (h' : PendingFrom deadline q' q'') : PendingFrom deadline q q'' := by
  rcases h' with ⟨halarm, htimer⟩ | htimer
  · rcases h with ⟨halarm', htimer'⟩ | htimer'
    · exact .inl ⟨halarm.trans halarm', htimer.trans htimer'⟩
    · exact .inr (htimer.trans htimer')
  · exact .inr htimer

/-- `w` is `s` after port `p` was forced in a sweep: the rest of the sweep finds nothing due. -/
structure ForcedFrom (p : Nat) (s w : State) : Prop where
  cfg : w.cfg = s.cfg
  sched : w.sched = s.sched
  live : w.live = s.live
  ticks : w.card.ticks = s.card.ticks
  others : ∀ r, r ≠ p → w.port r = s.port r
  alarm : (w.port p).alarm = (s.port p).alarm
  pending : PendingFrom (s.card.ticks + s.live.debounceMs) (s.port p) (w.port p)

/-- Nothing of port `p` is due to be published. -/
def AlarmSettled (p : Nat) (s : State) : Prop :=
  (s.port p).newalarm = (s.port p).alarm ∨ s.card.ticks < (s.port p).alarmtimer

theorem AlarmSettled.not_due (h : AlarmSettled p s) : ¬ AlarmDue s p := fun hd =>
  h.elim (fun he => hd.1 he) fun hlt => absurd hd.2.1 (Nat.not_le.2 hlt)

theorem ForcedFrom.settled (h : ForcedFrom p s w) (hdeb : 0 < s.live.debounceMs) {r : Nat} (hs : AlarmSettled r s) :
    AlarmSettled r w := by
  unfold AlarmSettled at hs ⊢
  rw [h.ticks]
  by_cases hr : r = p
  · subst hr
    rw [h.alarm]
    rcases h.pending with ⟨halarm, htimer⟩ | htimer
    · rwa [halarm, htimer]
    · rw [htimer]
      exact .inr (Nat.lt_add_of_pos_right hdeb)
  · rwa [h.others r hr]

theorem ForcedFrom.noTimerDue (h : ForcedFrom p s w) {r : Nat} (hr : r ≠ p) (hs : NoTimerDue r s) : NoTimerDue r w := by
  simpa only [NoTimerDue, h.others r hr, h.ticks] using hs

/-- The sweep of a port of which nothing is due. -/
theorem sweepPort_of_idle (c : E.Calm) (h : s.sched = []) (hq : NoTimerDue p s) (ha : AlarmSettled p s) :
    sweepPort E p s = .ok s := by
  rw [sweepPort_of_no_timer_due c h hq, publishAlarm_of_not_due ha.not_due]

/-- The sweep of a card of which one port alone is due: the sweep of that port. -/
theorem sweep_of_one_due (c : E.Calm) (h : s.sched = []) (hdeb : 0 < s.live.debounceMs) (hp : p < s.nports)
    (ha : ∀ r < s.nports, AlarmSettled r s) (hq : ∀ r < s.nports, r ≠ p → NoTimerDue r s)
    (hw : ForcedFrom p s w) (hport : sweepPort E p s = .ok w) : sweep E s = .ok w := by
  obtain ⟨t, ht, hP⟩ := forEach_range (f := sweepPort E) (s := s)
    (P := fun n t => t = if n ≤ p then s else w) s.nports (if_pos (Nat.zero_le p)).symm fun n hn t hm => by
      rcases Nat.lt_trichotomy n p with hlt | rfl | hgt
      · rw [if_pos (Nat.le_of_lt hlt)] at hm
        subst hm
        exact ⟨t, sweepPort_of_idle c h (hq n hn (Nat.ne_of_lt hlt)) (ha n hn), (if_pos hlt).symm⟩
      · rw [if_pos (Nat.le_refl n)] at hm
        subst hm
        exact ⟨w, hport, (if_neg (Nat.not_succ_le_self n)).symm⟩
      · rw [if_neg (Nat.not_le.2 hgt)] at hm
        subst hm
        have hne : n ≠ p := Nat.ne_of_gt hgt
        refine ⟨t, sweepPort_of_idle c (hw.sched.trans h) (hw.noTimerDue hne (hq n hn hne)) (hw.settled hdeb (ha n hn)), ?_⟩
        rw [if_neg (by omega)]
  rw [if_neg (Nat.not_le.2 hp)] at hP
  rw [sweep, ht, hP]

/-- The port's timers set by `k`, its latch loaded with `code` and tracking, and its state observed. -/
def forcedState (p code : Nat) (k : Port → Port) (s : State) : State :=
  observed p ((s.modPort p k).setLatch p (releasedLatch code (s.latch p)))

theorem latch_loaded {k : Port → Port} (hp : p < 8) (code : Nat) :
    ((s.modPort p k).setLatch p (releasedLatch code (s.latch p))).latch p = releasedLatch code (s.latch p) :=
  latch_setLatch _ _ _ hp

theorem port_loaded {k : Port → Port} (hp : p < 8) (code : Nat) :
    ((s.modPort p k).setLatch p (releasedLatch code (s.latch p))).port p = k (s.port p) :=
  port_modPort (s := s) _ _ hp

/-- What forcing leaves as it is, whatever the port becomes. -/
theorem forcedFrom_setPort {x : State} {q : Port} (hp : p < 8) (hcfg : x.cfg = s.cfg) (hsched : x.sched = s.sched)
    (hlive : x.live = s.live) (hticks : x.card.ticks = s.card.ticks) (hports : ∀ r, r ≠ p → x.port r = s.port r)
    (halarm : q.alarm = (s.port p).alarm)
    (hpending : PendingFrom (s.card.ticks + s.live.debounceMs) (s.port p) q) : ForcedFrom p s (x.setPort p q) where
  cfg := hcfg
  sched := hsched
  live := hlive
  ticks := hticks
  others r hr := (port_setPort_ne (s := x) _ _ _ hr).trans (hports r hr)
  alarm := by rw [port_setPort _ _ _ hp, halarm]
  pending := by rwa [port_setPort _ _ _ hp]

/-- The changes of a port's timers that a sweep makes leave the rest of it. -/
structure TimersOnly (k : Port → Port) : Prop where
  mode : ∀ q, (k q).mode = q.mode
  newalarm : ∀ q, (k q).newalarm = q.newalarm
  alarmtimer : ∀ q, (k q).alarmtimer = q.alarmtimer
  alarm : ∀ q, (k q).alarm = q.alarm

theorem TimersOnly.pending {k : Port → Port} (hk : TimersOnly k) (deadline : Nat) (q : Port) :
    PendingFrom deadline q (k q) := .inl ⟨hk.newalarm q, hk.alarmtimer q⟩

theorem t3Armed_timersOnly (s : State) : TimersOnly (t3Armed s) :=
  ⟨fun _ => rfl, fun _ => rfl, fun _ => rfl, fun _ => rfl⟩

theorem reactedPort_pending {k : Port → Port} (code : Nat) (hk : TimersOnly k) :
    PendingFrom (s.card.ticks + s.live.debounceMs) (s.port p) (reactedPort p code k s) :=
  ((recorded_pending _ _ _ _).trans (hk.pending _ _)).trans (recorded_pending _ _ _ _)

theorem forcedState_forcedFrom {k : Port → Port} (hp : p < 8) (code : Nat) (hk : TimersOnly k) :
    ForcedFrom p s (forcedState p code k s) := by
  rw [forcedState, observed_eq, port_loaded hp]
  refine forcedFrom_setPort hp rfl rfl rfl rfl (fun r hr => ?_) ?_ ?_
  · exact port_setPort_ne (s := s) _ _ _ hr
  · exact hk.alarm _
  · exact (hk.pending _ _).trans (recorded_pending _ _ _ _)

theorem forceState_of_no_reaction (c : pt.Calm) {code : Nat} {k : Port → Port} (h : s.sched = []) (hp : p < s.nports)
    (hv : inVocab (s.port p).mode code = true) (hk : TimersOnly k)
    (hs : ¬ SignalSeen p ((s.modPort p k).setLatch p (releasedLatch code (s.latch p)))) :
    forceState pt p code true (s.modPort p k) = .ok (forcedState p code k s) := by
  have hp8 : p < 8 := hp.trans_le (nports_le_eight s)
  have h16 := inVocab_lt hv
  have hmode : ((s.modPort p k).port p).mode = (s.port p).mode := by rw [port_modPort _ _ _ hp8, hk.mode]
  have hforce := forceState_of_named (s := s.modPort p k) (resume := true) c h hp (by rw [hmode]; exact hv)
  refine hforce.trans (observe_of_observable (s := (s.modPort p k).setLatch p _) c h hp ⟨?_, ?_, hs⟩)
  · have hlatch := latch_loaded (s := s) (k := k) hp8 code
    have hport := port_loaded (s := s) (k := k) hp8 code
    have hcode : (BitVec.ofNat 4 code).toNat = code := by
      rw [BitVec.toNat_ofNat]
      omega
    rw [CodeNamed]
    exact (congrArg₂ (fun q (l : LineLatch) => inVocab (Port.mode q) l.code.toNat) hport hlatch).trans
      (by rw [hk.mode]; simp only [releasedLatch]; rw [hcode]; exact hv)
  · intro ht
    have hlatch := latch_loaded (s := s) (k := k) hp8 code
    exact absurd ((congrArg LineLatch.t2exp hlatch).symm.trans ht.2.2) Bool.false_ne_true

/-- The expiry of T1 forces its port without a reaction, and leaves T3 as it was armed. -/
theorem forceState_of_t1 {k : Port → Port} (h : s.sched = []) (hp : p < s.nports) (hm : (s.port p).mode = .nt)
    (hk : TimersOnly k) (hk3 : (k (s.port p)).t3On = (s.port p).t3On) :
    ∃ w, (∀ pt : Point, pt.Calm → forceState pt p 4 true (s.modPort p k) = .ok w) ∧ ForcedFrom p s w ∧
      (w.port p).t3On = (s.port p).t3On := by
  have hp8 : p < 8 := hp.trans_le (nports_le_eight s)
  refine ⟨forcedState p 4 k s, fun pt c => ?_, forcedState_forcedFrom hp8 4 hk, ?_⟩
  · refine forceState_of_no_reaction c h hp (by rw [hm]; rfl) hk fun hs => ?_
    have hmode := hs.1
    rw [port_loaded hp8, hk.mode] at hmode
    exact absurd (hm.symm.trans hmode) (by decide)
  · have hnt : ¬ ((k (s.port p)).mode = .te) := by
      rw [hk.mode, hm]
      decide
    rw [forcedState, observed_eq, port_setPort _ _ _ hp8, port_loaded hp8]
    exact (if_neg fun hc => hnt hc.2).trans hk3

/-- A signal found by the observation of a forced code is reacted to. -/
theorem forceState_of_signal {k : Port → Port} (h : s.sched = []) (hp : p < s.nports)
    (hm : (s.port p).mode = .te) (hk : TimersOnly k) (hsig : (s.latch p).signal = true) :
    ∃ w, (∀ pt : Point, pt.Calm → forceState pt p 3 true (s.modPort p k) = .ok w) ∧ ForcedFrom p s w := by
  have hp8 : p < 8 := hp.trans_le (nports_le_eight s)
  have hmode : ((s.modPort p k).port p).mode = .te := by rw [port_modPort _ _ _ hp8, hk.mode, hm]
  generalize hx : (s.modPort p k).setLatch p (releasedLatch 3 (s.latch p)) = x
  have hlatch : x.latch p = releasedLatch 3 (s.latch p) := by rw [← hx]; exact latch_loaded hp8 3
  have hport : x.port p = k (s.port p) := by rw [← hx]; exact port_loaded hp8 3
  have hseen : SignalSeen p x := by
    refine ⟨?_, ?_, ?_⟩
    · rw [hport, hk.mode, hm]
    · rw [hlatch]
      rfl
    · rw [hlatch]
      exact hsig
  have hsched : x.sched = [] := by rw [← hx]; exact h
  have hports : p < x.nports := by rw [← hx]; exact hp
  refine ⟨observed p (signalReacted p x), fun pt c => ?_, ?_⟩
  · have hforce := forceState_of_named (s := s.modPort p k) (code := 3) (resume := true) c h hp (by rw [hmode]; rfl)
    exact hforce.trans ((congrArg (observe pt p) hx).trans (observe_of_signalSeen c hsched hports hseen))
  · have harm : armT3 p (observed p x) = (observed p x).modPort p (t3Armed x) := rfl
    have hstate := observed_released (s := x) (p := p) (k := t3Armed x) hp8 4 fun _ => rfl
    rw [signalReacted, harm, hstate]
    have hcard : x.card = s.card := by rw [← hx]; rfl
    have hlive : x.live = s.live := by rw [← hx]; rfl
    refine forcedFrom_setPort hp8 ?_ ?_ ?_ ?_ (fun r hr => ?_) ?_ ?_
    · rw [← hx]
      rfl
    · rw [← hx]
      rfl
    · exact hlive
    · exact congrArg Card.ticks hcard
    · rw [← hx]
      exact port_setPort_ne (s := s) _ _ _ hr
    · exact (congrArg Port.alarm hport).trans (hk.alarm _)
    · have hpending := reactedPort_pending (s := x) (p := p) 4 (t3Armed_timersOnly x)
      rw [hcard, hlive, hport] at hpending
      exact (hk.pending _ _).trans hpending

theorem exec_stForce_one {a code : Byte} {n : Nat} (hn : code.toNat = n) (h : a.toNat < s.nports)
    (hw : ∀ pt : Point, pt.Calm → forceState pt a.toNat n true s = .ok w) :
    exec (.stForce a code 1) s = .next (w.answered .ok) := by
  rw [exec_stForce, portArg, if_pos h, ok_bind, MapperFamily.boolArg_of_eq (.inr rfl), ok_bind, hn]
  exact congrArg completeOk (hw _ (serviceEnv_calm s).raw)

/-- Settles O29: the sweep of the one port that is due forces it, and leaves nothing due behind it. -/
theorem sweepExpiresTimers : Obligations.SweepExpiresTimers := by
  intro s a h hdeb hp
  have hp8 : a.toNat < 8 := hp.trans_le (nports_le_eight s)
  have c := serviceEnv_calm s
  dsimp only
  intro ha hq
  refine ⟨fun hm hon hdue hoff => ?_, fun hm hon hdue hoff => ?_⟩
  · have hk : TimersOnly fun q => { q with t1On := false } := ⟨fun _ => rfl, fun _ => rfl, fun _ => rfl, fun _ => rfl⟩
    obtain ⟨w, hforce, hfrom, hon3⟩ := forceState_of_t1 h hp hm hk rfl
    refine ⟨w.answered .ok, ?_, exec_stForce_one (n := 4) rfl hp hforce⟩
    rw [exec_stSweep]
    refine congrArg completeOk (sweep_of_one_due c h hdeb hp ha hq hfrom ?_)
    have hexpire : expireT1 s.serviceEnv.raw a.toNat s = .ok w := (if_pos ⟨hon, hdue⟩).trans (hforce _ c.raw)
    have hoff3 : (w.port a.toNat).t3On = false := hon3.trans hoff
    have hw : w.sched = [] := hfrom.sched.trans h
    rw [sweepPort, c.free s h, ok_bind, hexpire, ok_bind, c.free w hw, ok_bind,
      expireT3_of_not_due fun hon3 => absurd (hoff3.symm.trans hon3) (by decide), ok_bind, c.free w hw, ok_bind,
      publishAlarm_of_not_due (hfrom.settled hdeb (ha _ hp)).not_due]
  · have hk : TimersOnly fun q => { q with t3On := false } := ⟨fun _ => rfl, fun _ => rfl, fun _ => rfl, fun _ => rfl⟩
    obtain ⟨w, hforce, hfrom⟩ : ∃ w, (∀ pt : Point, pt.Calm →
        forceState pt a.toNat 3 true (s.modPort a.toNat fun q => { q with t3On := false }) = .ok w) ∧
        ForcedFrom a.toNat s w := by
      cases hsig : (s.latch a.toNat).signal with
      | true => exact forceState_of_signal h hp hm hk hsig
      | false =>
        refine ⟨forcedState a.toNat 3 (fun q => { q with t3On := false }) s, fun pt c => ?_, forcedState_forcedFrom hp8 3 hk⟩
        refine forceState_of_no_reaction c h hp (by rw [hm]; rfl) hk fun hs => ?_
        have hseen := hs.2.2
        rw [latch_loaded hp8] at hseen
        exact absurd (hsig.symm.trans hseen) (by decide)
    refine ⟨w.answered .ok, ?_, exec_stForce_one (n := 3) rfl hp hforce⟩
    rw [exec_stSweep]
    refine congrArg completeOk (sweep_of_one_due c h hdeb hp ha hq hfrom ?_)
    have hexpire : expireT3 s.serviceEnv.raw a.toNat s = .ok w := (if_pos ⟨hon, hdue⟩).trans (hforce _ c.raw)
    rw [sweepPort, c.free s h, ok_bind, expireT1_of_not_due fun hon1 => absurd (hoff.symm.trans hon1) (by decide), ok_bind,
      c.free s h, ok_bind, hexpire, ok_bind, c.free w (hfrom.sched.trans h), ok_bind,
      publishAlarm_of_not_due (hfrom.settled hdeb (ha _ hp)).not_due]

end Sys2Proof.LineStateFamily

/-! PROOFS of the submission, the receive pass, the steps of the line agent on a FIFO and the host's bearer calls
(43_hdlc_framer.md, 44_bearer_pump.md). -/

namespace Sys2Proof.HdlcFramer

open Sys2Proof Sys2Proof.Machine
open Sys2Proof.LineStateFamily (onPort_of_lt onPort_of_le)

variable {s : State} {E : Env} {p f : Nat} {a : Byte}

/-! ### Submission (R137) -/

theorem exec_hdlcSubmit (a : Byte) (frame : List Byte) (s : State) :
    exec (.hdlcSubmit a frame) s = completeOk (onPort (submitOp frame) a s) := rfl

theorem submitOp_of_active {frame : List Byte} (hf : frame ≠ []) (h : (s.session p).active = true) :
    submitOp frame p s = .ok (submitFrame p frame s) := by
  rw [submitOp, if_neg hf, if_pos h]

theorem submitOp_of_inactive {frame : List Byte} (hf : frame ≠ []) (h : (s.session p).active = false) :
    submitOp frame p s = .error .noSession := by
  rw [submitOp, if_neg hf, h]
  rfl

/-- Settles O32. -/
theorem submitQueuesFrame : Obligations.SubmitQueuesFrame := by
  intro s a frame
  refine ⟨fun hp hf h => ?_, fun hp hf h => ?_, fun hbad => ?_⟩
  · rw [exec_hdlcSubmit, onPort_of_lt _ hp, submitOp_of_active hf h]
    rfl
  · rw [exec_hdlcSubmit, onPort_of_lt _ hp, submitOp_of_inactive hf h]
    rfl
  · rw [exec_hdlcSubmit]
    rcases Nat.lt_or_ge a.toNat s.nports with hp | hp
    · have hf := hbad.resolve_left (Nat.not_le.2 hp)
      rw [onPort_of_lt _ hp, submitOp, if_pos hf]
      rfl
    · rw [onPort_of_le _ hp]
      rfl

/-! ### The receive pass as a command (R135) -/

theorem exec_hdlcRxframe (a : Byte) (s : State) :
    exec (.hdlcRxframe a) s =
      complete (withValue ((onPort (rxPass false s.serviceEnv) a s).map fun x => (x.1.2, x.2))) := rfl

/-- A mapped port's pass is one FIFO section on its D FIFO. -/
theorem rxPass_of_ready (c : E.Calm) (must : Bool) (h : Ready p s) :
    rxPass must E p s = rxPassOn must E.fifo p (fifoOf s.cfg p .d) s := by
  rw [rxPass, c.free s h.quiet.1, ok_bind, mappedFifo_of_mapped h.mapped, ok_bind]

section Head

variable {pt : Point} (c : pt.Calm) (must : Bool) (h : Ready p s) (hf : fifoOf s.cfg p .d = f)
include c h hf

theorem rds_fCnt_selected {t : State} (ht : t.quiet) (hcfg : t.cfg = s.cfg) (hsel : t.hw.fifoSel = selByte f .rx) :
    rds pt .fCnt t = .ok (BitVec.ofNat 16 (min (t.fifo f).rxq.length 255), t) := by
  have hn : f < 32 := hf ▸ h.fifo_lt
  have hnum : t.selNum = f := by
    rw [← selNum_select s f .rx hn, State.selNum, hsel]
    rfl
  have hdir : t.selDir = .rx := by
    rw [← selDir_select s f .rx hn, State.selDir, hsel]
    rfl
  exact rds_fCnt_rx c ht (by rw [hcfg]; exact one_le_stableRetries_of_valid h.valid) hnum hdir

theorem rxPassOn_of_nil (hq : (s.fifo f).rxq = []) : rxPassOn must pt p f s = .ok ((false, 0), s.select f .rx) := by
  have hn : f < 32 := hf ▸ h.fifo_lt
  have hcount := rds_fCnt_selected c h hf (t := s.select f .rx) h.quiet rfl rfl
  rw [rxPassOn, fifoSelectMust_idle c must .rx h.quiet (hf ▸ h.fifo_lt_nfifo) hn, ok_bind, hcount, select_fifo, hq]
  rfl

/-- A pass drains a whole head frame, whatever the lengths of those behind it. -/
theorem rxPassOn_of_cons (hhdlc : hdlcMode (s.fifo f).rxRegs.ctrl = true) (hpos : (s.fifo f).rxpos = 0) {fr : Frame}
    {rest : List Frame} (hq : (s.fifo f).rxq = fr :: rest) (hlen : fr.length < 65536) :
    rxPassOn must pt p f s = .ok ((true, min rest.length 255),
      reported p [fr] ((s.select f .rx).setFifo f { s.fifo f with rxq := rest, rxpos := 0 })) := by
  have hn : f < 32 := hf ▸ h.fifo_lt
  have hnum := selNum_select s f .rx hn
  have hdir := selDir_select s f .rx hn
  have hcount := rds_fCnt_selected c h hf (t := s.select f .rx) h.quiet rfl rfl
  have hsome : BitVec.ofNat 16 (min (fr :: rest).length 255) ≠ 0 := by
    rw [ne_eq, ← BitVec.toNat_inj, toNat_ofNat_min_255]
    simp
  have hbytes : (BitVec.ofNat 16 fr.length).toNat = fr.length := by
    rw [BitVec.toNat_ofNat, Nat.mod_eq_of_lt hlen]
  have hlength : rds pt .zCnt (s.select f .rx) = .ok (BitVec.ofNat 16 fr.length, s.select f .rx) := by
    rw [Machine.rds_zCnt c (by exact h.quiet.1) (by exact one_le_stableRetries_of_valid h.valid), hnum, hdir, select_fifo]
    simp only [Fifo.byteCount, hhdlc, hq, hpos, if_true, Nat.sub_zero, Nat.min_eq_left (Nat.le_of_lt_succ hlen)]
  have hread := readBytes_hdlc c fr.length (s := s.select f .rx) h.quiet.1 hdir
    (by rw [hnum]; exact hn) (by rw [hnum]; exact hhdlc) (by rw [hnum]; exact hq)
    (by rw [hnum, select_fifo, hpos, Nat.zero_add])
  rw [hnum, select_fifo, hpos, List.drop_zero, List.take_length] at hread
  have hinc := wrbMust_incF c must (s := (s.select f .rx).modFifo f fun x => { x with rxpos := x.rxpos + fr.length })
    (by exact h.quiet) (by exact hnum) (by exact hdir) (by rw [fifo_modFifo _ _ _ hn]; exact hq)
  rw [fifo_modFifo _ _ _ hn, State.modFifo, setFifo_setFifo] at hinc
  have hrem := rds_fCnt_selected c h hf (t := (s.select f .rx).setFifo f { s.fifo f with rxq := rest, rxpos := 0 })
    h.quiet rfl rfl
  rw [fifo_setFifo _ _ _ hn] at hrem
  rw [rxPassOn, fifoSelectMust_idle c must .rx h.quiet (hf ▸ h.fifo_lt_nfifo) hn, ok_bind, hcount, select_fifo, hq, ok_bind]
  generalize hw : (s.select f .rx).setFifo f { s.fifo f with rxq := rest, rxpos := 0 } = w at hinc hrem ⊢
  have hinc' : wrbMust must pt .fifoCmd 0x01 ((s.select f .rx).modFifo f fun x => { x with rxpos := x.rxpos + fr.length }) =
      .ok w :=
    hinc.trans (congrArg Except.ok hw)
  simp only [if_neg hsome, hlength, ok_bind, hbytes, hread, hinc', hrem, toNat_ofNat_min_255]
  cases hactive : (w.session p).active with
  | false => rw [reported_of_inactive hactive]; rfl
  | true => rw [if_pos rfl, reportFrame_eq_reported fr hactive]

end Head

/-- Settles O33: the pass on an empty queue and on a queued frame. -/
theorem receivePass : Obligations.ReceivePass := by
  intro s a hquiet hvalid
  dsimp only
  intro hp hm hhdlc
  have c := serviceEnv_calm s
  have h : Ready a.toNat s := ⟨hquiet, hvalid, hp, hm⟩
  refine ⟨fun hq => ?_, fun fr rest hq hpos hlen => ?_⟩
  · rw [exec_hdlcRxframe, onPort_of_lt _ hp, rxPass_of_ready c false h, rxPassOn_of_nil c.fifo false h rfl hq]
    rfl
  · rw [exec_hdlcRxframe, onPort_of_lt _ hp, rxPass_of_ready c false h, rxPassOn_of_cons c.fifo false h rfl hhdlc hpos hq hlen]
    by_cases hactive : (s.session a.toNat).active = true
    · rw [reported_of_active (s := (s.select (fifoOf s.cfg a.toNat .d) .rx).setFifo _ _) hactive, if_pos hactive]
      simp only [List.flatMap_singleton, List.length_singleton]
      rfl
    · rw [reported_of_inactive (s := (s.select (fifoOf s.cfg a.toNat .d) .rx).setFifo _ _) (Bool.not_eq_true _ ▸ hactive),
        if_neg hactive]
      rfl

/-! ### The line agent's steps on a FIFO (R131, R132, 44_bearer_pump.md R165, R166, R168) -/

theorem one_le_length_iff {bytes : List Byte} : 1 ≤ bytes.length ↔ bytes ≠ [] := List.length_pos_iff

theorem one_le_toNat_iff {n : Byte} : 1 ≤ n.toNat ↔ n ≠ 0 := by
  revert n
  decide

theorem enabledOnly_some (t : State) : completeOk (enabledOnly (some t)) = .next (t.answered .ok) := rfl

theorem enabledOnly_none : completeOk (enabledOnly none) = .fault .badOperand := rfl

/-- The pending bit of `(f, d)` raised while its interrupt is enabled, in a state that keeps the status blocks and
the control registers of `s`. -/
theorem fifoEvent_eq {t : State} {d : Dir} (hstat : t.fifoStat (f / 4) = s.fifoStat (f / 4))
    (hctrl : (t.fifoRegs f d).ctrl = (s.fifoRegs f d).ctrl) :
    t.fifoEvent f d = if (s.fifoRegs f d).ctrl.getLsbD 0 then
      t.setFifoStat (f / 4) (s.fifoStat (f / 4) ||| pendingMask f d) else t := by
  rw [State.fifoEvent, hctrl, State.raisePending, hstat]
  rfl

theorem ctrl_setFifo (hf : f < 32) {x : Fifo} (d : Dir) (hx : x.regs d = (s.fifo f).regs d) :
    ((s.setFifo f x).fifoRegs f d).ctrl = (s.fifoRegs f d).ctrl := by
  rw [State.fifoRegs, fifo_setFifo s f x hf, hx]
  rfl

theorem exec_lineRxframe (a : Byte) (bytes : List Byte) (s : State) :
    exec (.lineRxframe a bytes) s = completeOk (enabledOnly (lineRxframeStep a bytes s)) := rfl

theorem exec_lineTxtake (a : Byte) (s : State) :
    exec (.lineTxtake a) s = completeOk (enabledOnly (lineTxtakeStep a s)) := rfl

/-- When the line agent may take a frame of FIFO `f`. -/
def TakeEnabled (f : Nat) (s : State) : Prop :=
  f < 32 ∧ (s.fifo f).txRegs.ctrl.getLsbD 2 = true ∧ (s.fifo f).txRegs.ctrl.getLsbD 1 = true ∧
    ((s.fifo f).txclosed ≠ [] ∨ (s.fifo f).txopen ≠ [])

theorem lineTxtakeStep_of_not_enabled (hc : s.cfg.valid = true) (h : ¬ TakeEnabled a.toNat s) :
    lineTxtakeStep a s = none := by
  rw [lineTxtakeStep, nfifo_of_valid hc]
  exact if_neg h

theorem lineTxtakeStep_of_nil (hc : s.cfg.valid = true) (h : TakeEnabled a.toNat s)
    (hq : (s.fifo a.toNat).txclosed = []) : lineTxtakeStep a s = some (s.fifoEvent a.toNat .tx) := by
  rw [lineTxtakeStep, nfifo_of_valid hc]
  refine (if_pos h).trans ?_
  rw [hq]

theorem lineTxtakeStep_of_cons (hc : s.cfg.valid = true) (h : TakeEnabled a.toNat s) {fr : Frame} {rest : List Frame}
    (hq : (s.fifo a.toNat).txclosed = fr :: rest) :
    lineTxtakeStep a s = some (((s.setFifo a.toNat { s.fifo a.toNat with txclosed := rest }).lineout
      (.lineTx a.toNat fr)).fifoEvent a.toNat .tx) := by
  rw [lineTxtakeStep, nfifo_of_valid hc]
  refine (if_pos h).trans ?_
  rw [hq]

/-- Settles O37: each step by its guard, with the event of the FIFO it changed. -/
theorem lineFrames : Obligations.LineFrames := by
  intro s a bytes hc
  dsimp only
  refine ⟨fun h => ?_, fun h => ?_, fun h => ?_, fun h => ?_⟩
  · have hstep : lineRxframeStep a bytes s = some ((s.setFifo a.toNat { s.fifo a.toNat with
        rxq := (s.fifo a.toNat).rxq ++ [bytes] }).fifoEvent a.toNat .rx) := by
      obtain ⟨hf, hen, hhdlc, hne, hroom⟩ := h
      rw [lineRxframeStep, nfifo_of_valid hc]
      exact if_pos ⟨hf, hen, hhdlc, one_le_length_iff.2 hne, hroom⟩
    rw [exec_lineRxframe, hstep, fifoEvent_eq (s := s)]
    · rfl
    · rfl
    · exact ctrl_setFifo h.1 .rx rfl
  · have hstep : lineRxframeStep a bytes s = none := by
      rw [lineRxframeStep, nfifo_of_valid hc]
      refine if_neg fun hg => h ?_
      obtain ⟨hf, hen, hhdlc, hlen, hroom⟩ := hg
      exact ⟨hf, hen, hhdlc, one_le_length_iff.1 hlen, hroom⟩
    rw [exec_lineRxframe, hstep]
    rfl
  · cases hq : (s.fifo a.toNat).txclosed with
    | nil =>
      rw [exec_lineTxtake, lineTxtakeStep_of_nil hc h hq, fifoEvent_eq (s := s) rfl rfl]
      rfl
    | cons fr rest =>
      rw [exec_lineTxtake, lineTxtakeStep_of_cons hc h hq, fifoEvent_eq (s := s)]
      · rfl
      · rfl
      · exact ctrl_setFifo (s := s) h.1 .tx rfl
  · rw [exec_lineTxtake, lineTxtakeStep_of_not_enabled hc h]
    rfl

theorem exec_lineBrx (a : Byte) (bytes : List Byte) (s : State) :
    exec (.lineBrx a bytes) s = completeOk (enabledOnly (lineBrxStep a bytes s)) := rfl

theorem exec_lineBtxtake (a n : Byte) (s : State) :
    exec (.lineBtxtake a n) s = completeOk (enabledOnly (lineBtxtakeStep a n s)) := rfl

theorem exec_lineFifoirq (a dir : Byte) (s : State) :
    exec (.lineFifoirq a dir) s = completeOk (enabledOnly (lineFifoirqStep a dir s)) := rfl

theorem lineFifoirqStep_code (a : Byte) (d : Dir) (s : State) :
    lineFifoirqStep a d.code s =
      if a.toNat < s.cfg.nfifo ∧ fifoEnable (s.fifoRegs a.toNat d).ctrl = true ∧ irqEn (s.fifoRegs a.toNat d).ctrl = true
      then some (s.raisePending a.toNat d) else none := by
  rw [lineFifoirqStep, MapperFamily.dirArg_code]

theorem lineFifoirqStep_of_ne {dir : Byte} (h0 : dir ≠ 0) (h1 : dir ≠ 1) : lineFifoirqStep a dir s = none := by
  rw [lineFifoirqStep, MapperFamily.dirArg_of_ne h0 h1]

theorem pendingMask_code (f : Nat) (d : Dir) : pendingMask f d = 1#8 <<< (2 * (f % 4) + d.code.toNat) := by
  cases d <;> rfl

/-- Settles O42: each step by its guard. -/
theorem lineBearerSteps : Obligations.LineBearerSteps := by
  intro s a n bytes d hc
  dsimp only
  refine ⟨fun h => ?_, fun h => ?_, fun h => ?_, fun h => ?_, fun h => ?_, fun h => ?_, fun dir h0 h1 => ?_⟩
  · have hstep : lineBrxStep a bytes s = some (s.setFifo a.toNat { s.fifo a.toNat with
        brx := (s.fifo a.toNat).brx ++ bytes }) := by
      obtain ⟨hf, hen, hhdlc, hne, hroom⟩ := h
      rw [lineBrxStep, nfifo_of_valid hc]
      exact if_pos ⟨hf, hen, hhdlc, one_le_length_iff.2 hne, hroom⟩
    rw [exec_lineBrx, hstep]
    rfl
  · have hstep : lineBrxStep a bytes s = none := by
      rw [lineBrxStep, nfifo_of_valid hc]
      refine if_neg fun hg => h ?_
      obtain ⟨hf, hen, hhdlc, hlen, hroom⟩ := hg
      exact ⟨hf, hen, hhdlc, one_le_length_iff.1 hlen, hroom⟩
    rw [exec_lineBrx, hstep]
    rfl
  · have hstep : lineBtxtakeStep a n s = some ((s.setFifo a.toNat { s.fifo a.toNat with
        btx := (s.fifo a.toNat).btx.drop n.toNat }).lineout (.lineBTx a.toNat ((s.fifo a.toNat).btx.take n.toNat))) := by
      obtain ⟨hf, hen, hhdlc, hne, hroom⟩ := h
      rw [lineBtxtakeStep, nfifo_of_valid hc]
      exact if_pos ⟨hf, hen, hhdlc, one_le_toNat_iff.2 hne, hroom⟩
    rw [exec_lineBtxtake, hstep]
    rfl
  · have hstep : lineBtxtakeStep a n s = none := by
      rw [lineBtxtakeStep, nfifo_of_valid hc]
      refine if_neg fun hg => h ?_
      obtain ⟨hf, hen, hhdlc, hlen, hroom⟩ := hg
      exact ⟨hf, hen, hhdlc, one_le_toNat_iff.1 hlen, hroom⟩
    rw [exec_lineBtxtake, hstep]
    rfl
  · rw [exec_lineFifoirq, lineFifoirqStep_code, nfifo_of_valid hc, ← pendingMask_code, if_pos (by cases d <;> exact h)]
    rfl
  · rw [exec_lineFifoirq, lineFifoirqStep_code, nfifo_of_valid hc, if_neg (by cases d <;> exact h)]
    rfl
  · rw [exec_lineFifoirq, lineFifoirqStep_of_ne h0 h1]
    rfl

/-! ### The host's bearer calls (44_bearer_pump.md R164, R167) -/

theorem exec_hostTxbuf (a bchan : Byte) (bytes : List Byte) (s : State) :
    exec (.hostTxbuf a bchan bytes) s = completeOk (onBearer (txbufOp bytes) a bchan s) := rfl

theorem exec_ecReq (a ch nparams : Byte) (s : State) :
    exec (.ecReq a ch nparams) s = complete (onPort (ecRequest ch nparams) a s) := rfl

theorem two_le_toNat_iff {ch : Byte} : 2 ≤ ch.toNat ↔ ch ≠ 0 ∧ ch ≠ 1 := by
  revert ch
  decide

/-- Settles O41: by the port, then the channel, then what is given. -/
theorem hostBearerCalls : Obligations.HostBearerCalls := by
  intro s a bchan ch nparams bytes
  dsimp only
  refine ⟨fun hp hlen => ⟨?_, ?_⟩, fun hbad => ?_, fun hp hch hn => ?_, fun hp hbad => ?_, fun hp => ?_⟩
  · rw [exec_hostTxbuf, MapperFamily.onBearer_of_lt _ hp, MapperFamily.bchanArg_of_eq (.inl rfl), ok_bind, txbufOp,
      if_pos hlen]
    rfl
  · rw [exec_hostTxbuf, MapperFamily.onBearer_of_lt _ hp, MapperFamily.bchanArg_of_eq (.inr rfl), ok_bind, txbufOp,
      if_pos hlen]
    rfl
  · rw [exec_hostTxbuf]
    rcases Nat.lt_or_ge a.toNat s.nports with hp | hp
    · by_cases hch : bchan = 0 ∨ bchan = 1
      · have hlen : bytes.length ≠ s.cfg.chunk :=
          (hbad.resolve_left (Nat.not_le.2 hp)).resolve_left fun hne => hch.elim hne.1 hne.2
        rw [MapperFamily.onBearer_of_lt _ hp, MapperFamily.bchanArg_of_eq hch, ok_bind, txbufOp, if_neg hlen]
        rfl
      · rw [MapperFamily.onBearer_of_ne _ (fun h => hch (.inl h)) fun h => hch (.inr h)]
        rfl
    · rw [MapperFamily.onBearer_of_le _ hp]
      rfl
  · have hok : ¬ (2 ≤ ch.toNat ∨ nparams ≠ 0) := fun h =>
      h.elim (fun h2 => hch.elim (two_le_toNat_iff.1 h2).1 (two_le_toNat_iff.1 h2).2) fun h2 => h2 hn
    rw [exec_ecReq, onPort_of_lt _ hp, ecRequest, if_neg hok]
    rfl
  · rw [exec_ecReq, onPort_of_lt _ hp, ecRequest, if_pos (hbad.imp_left two_le_toNat_iff.2)]
    rfl
  · rw [exec_ecReq, onPort_of_le _ hp]
    rfl

end Sys2Proof.HdlcFramer

/-! PROOFS of the transmit pass and the transmit drain (43_hdlc_framer.md R138 to R141, R148). -/

namespace Sys2Proof.HdlcFramer

open Sys2Proof Sys2Proof.Machine
open Sys2Proof.LineStateFamily (onPort_of_lt onPort_of_le)

variable {s t : State} {E : Env} {pt : Point} {p f : Nat} {a : Byte}

/-! ### The transmit direction of a port's D FIFO -/

/-- `s` with the host's queue of port `p`, its session and its D FIFO `f` written, and the transmit direction of the
FIFO selected. -/
def sending (p f : Nat) (h : HostPort) (n : Session) (x : Fifo) (s : State) : State :=
  (((s.setHostPort p h).setSession p n).setFifo f x).select f .tx

section Sending

variable {h : HostPort} {n : Session} {x : Fifo}

theorem sending_hostPort (hp : p < 8) : (sending p f h n x s).hostPort p = h := hostPort_setHostPort s p h hp

theorem sending_session (hp : p < 8) : (sending p f h n x s).session p = n :=
  session_setSession (s.setHostPort p h) p n hp

theorem sending_fifo (hf : f < 32) : (sending p f h n x s).fifo f = x :=
  fifo_setFifo ((s.setHostPort p h).setSession p n) f x hf

theorem sending_sending (h' : HostPort) (n' : Session) (x' : Fifo) :
    sending p f h' n' x' (sending p f h n x s) = sending p f h' n' x' s := by
  have hcomm : sending p f h' n' x' (sending p f h n x s) =
      (((((s.setHostPort p h).setHostPort p h').setSession p n).setSession p n').setFifo f x |>.setFifo f x').select f .tx :=
    rfl
  rw [hcomm, setHostPort_setHostPort, setSession_setSession, setFifo_setFifo]
  rfl

theorem sending_self : sending p f (s.hostPort p) (s.session p) x s = (s.setFifo f x).select f .tx := by
  rw [sending, setHostPort_hostPort, setSession_session]

theorem sending_setHostPort : sending p f h (s.session p) x s = ((s.setHostPort p h).setFifo f x).select f .tx := by
  have hsession : (s.setHostPort p h).setSession p (s.session p) = s.setHostPort p h :=
    setSession_session (s.setHostPort p h) p
  rw [sending, hsession]

end Sending

/-- Port `p` is ready, its D FIFO `f` sends in HDLC mode, and `FIFO_CTRL` has no reserved bit. -/
structure Transmitting (p f : Nat) (s : State) : Prop extends Ready p s where
  fifo : fifoOf s.cfg p .d = f
  hdlc : hdlcMode (s.fifo f).txRegs.ctrl = true
  reserved : (s.fifo f).txRegs.ctrl &&& 0xF8 = 0

namespace Transmitting

variable (T : Transmitting p f s)
include T

theorem lt : f < 32 := T.fifo ▸ T.toReady.fifo_lt

theorem lt_nfifo : f < s.cfg.nfifo := T.fifo ▸ T.toReady.fifo_lt_nfifo

theorem cap_pos : 0 < s.cfg.hdlcCap := by
  have hvalid := T.valid
  simp only [Config.valid, Bool.and_eq_true, decide_eq_true_eq] at hvalid
  omega

/-- A write of the port's parts that keeps the mode of its FIFO keeps it ready to send. -/
theorem sending (h : HostPort) (n : Session) {x : Fifo} (hrx : x.rxRegs = (s.fifo f).rxRegs)
    (hctrl : x.txRegs.ctrl = (s.fifo f).txRegs.ctrl ∨ x.txRegs.ctrl = (s.fifo f).txRegs.ctrl ||| 0x01) :
    Transmitting p f (HdlcFramer.sending p f h n x s) := by
  have hfifo := sending_fifo (s := s) (p := p) (h := h) (n := n) (x := x) T.lt
  have hkeep : ∀ c : Byte, hdlcMode (c ||| 0x01) = hdlcMode c ∧ fifoEnable (c ||| 0x01) = fifoEnable c ∧
      (c &&& 0xF8 = 0 → (c ||| 0x01) &&& 0xF8 = 0) := by decide
  have hmode : hdlcMode x.txRegs.ctrl = hdlcMode (s.fifo f).txRegs.ctrl := by
    rcases hctrl with he | he <;> rw [he]
    exact (hkeep _).1
  have henable : fifoEnable x.txRegs.ctrl = fifoEnable (s.fifo f).txRegs.ctrl := by
    rcases hctrl with he | he <;> rw [he]
    exact (hkeep _).2.1
  have hmapped : mapped (HdlcFramer.sending p f h n x s) p .d = mapped s p .d := by
    have hcfg : (HdlcFramer.sending p f h n x s).cfg = s.cfg := rfl
    have hport : (HdlcFramer.sending p f h n x s).port p = s.port p := rfl
    simp only [Machine.mapped, hcfg, hport, T.fifo, State.fifoRegs, hfifo, Fifo.regs, hrx, henable]
  refine ⟨⟨T.quiet, T.valid, T.port, hmapped.trans T.mapped⟩, T.fifo, ?_, ?_⟩
  · rw [hfifo, hmode]
    exact T.hdlc
  · rw [hfifo]
    rcases hctrl with he | he
    · rw [he]
      exact T.reserved
    · rw [he]
      exact (hkeep _).2.2 T.reserved

end Transmitting

/-! ### The pull (R138) -/

theorem hostPull_of_nil {cap : Nat} (hq : (s.hostPort p).txq = []) : hostPull p cap s = (([], .noFrames), s) := by
  rw [hostPull, hq]

section Pull

variable {cap : Nat} {fr : Frame} {rest : List Frame} (hq : (s.hostPort p).txq = fr :: rest)
include hq

theorem hostPull_of_fits (hoff : (s.hostPort p).txoff < fr.length) (hfits : fr.length ≤ (s.hostPort p).txoff + cap) :
    hostPull p cap s = ((fr.drop (s.hostPort p).txoff, .done),
      s.setHostPort p { s.hostPort p with txq := rest, txoff := 0 }) := by
  have hmin : min cap (fr.length - (s.hostPort p).txoff) = fr.length - (s.hostPort p).txoff := by omega
  have hall : (fr.drop (s.hostPort p).txoff).take (fr.length - (s.hostPort p).txoff) = fr.drop (s.hostPort p).txoff :=
    List.take_of_length_le (by rw [List.length_drop])
  rw [hostPull, hq]
  simp only [hmin, hall]
  rw [if_pos (by omega)]

theorem hostPull_of_long (hlong : (s.hostPort p).txoff + cap < fr.length) :
    hostPull p cap s = (((fr.drop (s.hostPort p).txoff).take cap, .more),
      s.setHostPort p { s.hostPort p with txoff := (s.hostPort p).txoff + cap }) := by
  have hmin : min cap (fr.length - (s.hostPort p).txoff) = cap := by omega
  rw [hostPull, hq]
  simp only [hmin]
  rw [if_neg (by omega), hq]

end Pull

/-! ### One transmit pass (R139, R140) -/

/-- `s` with the host's queue of port `p` written and `bytes` appended to the open frame of FIFO `f`. -/
def chunkWritten (p f : Nat) (h : HostPort) (bytes : List Byte) (s : State) : State :=
  ((s.setHostPort p h).setFifo f { s.fifo f with txopen := (s.fifo f).txopen ++ bytes }).select f .tx

section Written

variable {h : HostPort} {bytes : List Byte}

theorem chunkWritten_fifo (hf : f < 32) :
    (chunkWritten p f h bytes s).fifo f = { s.fifo f with txopen := (s.fifo f).txopen ++ bytes } :=
  fifo_setFifo (s.setHostPort p h) f _ hf

theorem chunkWritten_selNum (hf : f < 32) : (chunkWritten p f h bytes s).selNum = f := selNum_select _ f .tx hf

theorem chunkWritten_selDir (hf : f < 32) : (chunkWritten p f h bytes s).selDir = .tx := selDir_select _ f .tx hf

theorem chunkWritten_setFifo (x : Fifo) :
    (chunkWritten p f h bytes s).setFifo f x = ((s.setHostPort p h).setFifo f x).select f .tx :=
  congrArg (fun t => State.select t f .tx) (setFifo_setFifo (s.setHostPort p h) f _ x)

end Written

section Pass

variable (c : pt.Calm) (T : Transmitting p f s)
include c T

/-- A pass with a session pulls, selects, writes what it pulled, and then does what the pull asks for. -/
theorem txPassOn_of_pull {h : HostPort} {bytes : List Byte} {r : Pull} (hactive : (s.session p).active = true)
    (hpull : hostPull p s.cfg.hdlcCap s = ((bytes, r), s.setHostPort p h))
    (hroom : bytes ≠ [] → (s.fifo f).txStored + bytes.length ≤ s.cfg.fifoDepth) :
    txPassOn pt p f s = finishChunk pt p r (chunkWritten p f h bytes s) := by
  have hnum := selNum_select (s.setHostPort p h) f .tx T.lt
  have hwrite : forEach (fun b s => wr pt .fifoData b s) bytes ((s.setHostPort p h).select f .tx) =
      .ok (chunkWritten p f h bytes s) := by
    by_cases hb : bytes = []
    · have hsame : chunkWritten p f h [] s = (s.setHostPort p h).select f .tx := by
        rw [chunkWritten, List.append_nil]
        exact congrArg (fun t => State.select t f .tx) (setFifo_fifo (s.setHostPort p h) f)
      rw [hb, hsame, forEach_nil]
    · have hbytes := writeBytes_hdlc c bytes (s := (s.setHostPort p h).select f .tx) T.quiet.1
        (selDir_select _ f .tx T.lt) (by rw [hnum]; exact T.lt) (by rw [hnum]; exact T.hdlc)
        (by rw [hnum]; exact hroom hb)
      rw [hnum] at hbytes
      exact hbytes
  rw [txPassOn, if_pos hactive, hpull]
  dsimp only
  rw [fifoSelect_idle c (s := s.setHostPort p h) .tx T.quiet T.lt_nfifo T.lt, ok_bind, hwrite, ok_bind]

/-- The interrupt enable of the FIFO is written after a chunk. -/
theorem setIrqEn_chunkWritten {h : HostPort} {bytes : List Byte} (en : Bool) :
    setIrqEn pt en (chunkWritten p f h bytes s) = .ok (sending p f h (s.session p) { s.fifo f with
      txopen := (s.fifo f).txopen ++ bytes
      txRegs := { (s.fifo f).txRegs with ctrl := withIrqEn en (s.fifo f).txRegs.ctrl } } s) := by
  have hfifo := chunkWritten_fifo (s := s) (p := p) (h := h) (bytes := bytes) T.lt
  have hnum := chunkWritten_selNum (s := s) (p := p) (h := h) (bytes := bytes) T.lt
  have hdir := chunkWritten_selDir (s := s) (p := p) (h := h) (bytes := bytes) T.lt
  have hregs : (chunkWritten p f h bytes s).fifoRegs f .tx = (s.fifo f).txRegs := by
    rw [State.fifoRegs, hfifo]
    rfl
  have hset := setIrqEn_idle c (s := chunkWritten p f h bytes s) en T.quiet.1 (by rw [hnum, hdir, hregs]; exact T.reserved)
  rw [hnum, hdir, hregs] at hset
  rw [hset, State.modFifo, hfifo, chunkWritten_setFifo, sending_setHostPort]
  rfl

/-- A pass that takes the rest of the head frame closes the frame and counts it down. -/
theorem txPassOn_of_fits {fr : Frame} {rest : List Frame} (hactive : (s.session p).active = true)
    (hpending : 0 < (s.session p).pending) (hq : (s.hostPort p).txq = fr :: rest)
    (hoff : (s.hostPort p).txoff < fr.length) (hfits : fr.length ≤ (s.hostPort p).txoff + s.cfg.hdlcCap)
    (hroom : (s.fifo f).txStored + (fr.length - (s.hostPort p).txoff) ≤ s.cfg.fifoDepth)
    (hfmax : (s.fifo f).txclosed.length < s.cfg.fmax) :
    txPassOn pt p f s = .ok (false, sending p f { s.hostPort p with txq := rest, txoff := 0 }
      { s.session p with pending := (s.session p).pending - 1, framesOut := (s.session p).framesOut + 1 }
      { s.fifo f with
        txclosed := (s.fifo f).txclosed ++ [(s.fifo f).txopen ++ fr.drop (s.hostPort p).txoff], txopen := [] } s) := by
  have hp8 := T.toReady.port_lt
  rw [txPassOn_of_pull c T hactive (hostPull_of_fits hq hoff hfits) (fun _ => by rwa [List.length_drop])]
  generalize hh : ({ s.hostPort p with txq := rest, txoff := 0 } : HostPort) = h
  generalize hb : fr.drop (s.hostPort p).txoff = bytes
  have hne : (s.fifo f).txopen ++ bytes ≠ [] := by
    rw [← hb]
    simp only [ne_eq, List.append_eq_nil_iff, List.drop_eq_nil_iff]
    omega
  have hfifo := chunkWritten_fifo (s := s) (p := p) (h := h) (bytes := bytes) T.lt
  have hcmd : writeEffect .fifoCmd 0x01 (chunkWritten p f h bytes s) =
      .ok (((s.setHostPort p h).setFifo f { s.fifo f with
        txclosed := (s.fifo f).txclosed ++ [(s.fifo f).txopen ++ bytes], txopen := [] }).select f .tx) := by
    have hadvance : writeEffect .fifoCmd 0x01 (chunkWritten p f h bytes s) = advanceFrame (chunkWritten p f h bytes s) := rfl
    have hcfg : (chunkWritten p f h bytes s).cfg = s.cfg := rfl
    rw [hadvance, advanceFrame, chunkWritten_selNum T.lt, chunkWritten_selDir T.lt, hfifo]
    dsimp only
    rw [hcfg, if_neg hne, if_neg (Nat.not_le.2 hfmax), chunkWritten_setFifo]
  rw [finishChunk, wrb_idle c (s := chunkWritten p f h bytes s) T.quiet (by decide) hcmd (by exact T.quiet), ok_bind]
  have hdec : decrement p (((s.setHostPort p h).setFifo f { s.fifo f with
      txclosed := (s.fifo f).txclosed ++ [(s.fifo f).txopen ++ bytes], txopen := [] }).select f .tx) =
      (((s.setHostPort p h).setFifo f { s.fifo f with
      txclosed := (s.fifo f).txclosed ++ [(s.fifo f).txopen ++ bytes], txopen := [] }).select f .tx).modSession p
        fun x => { x with pending := x.pending - 1 } := if_pos hpending
  rw [hdec, modSession_modSession _ _ _ _ hp8]
  rfl

/-- A pass that takes one chunk of the head frame enables the interrupt. -/
theorem txPassOn_of_long {fr : Frame} {rest : List Frame} (hactive : (s.session p).active = true)
    (hq : (s.hostPort p).txq = fr :: rest) (hlong : (s.hostPort p).txoff + s.cfg.hdlcCap < fr.length)
    (hroom : (s.fifo f).txStored + s.cfg.hdlcCap ≤ s.cfg.fifoDepth) :
    txPassOn pt p f s = .ok (true, sending p f
      { s.hostPort p with txoff := (s.hostPort p).txoff + s.cfg.hdlcCap } (s.session p)
      { s.fifo f with
        txopen := (s.fifo f).txopen ++ (fr.drop (s.hostPort p).txoff).take s.cfg.hdlcCap
        txRegs := { (s.fifo f).txRegs with ctrl := (s.fifo f).txRegs.ctrl ||| 0x01 } } s) := by
  have hlen : ((fr.drop (s.hostPort p).txoff).take s.cfg.hdlcCap).length = s.cfg.hdlcCap := by
    rw [List.length_take, List.length_drop]
    omega
  rw [txPassOn_of_pull c T hactive (hostPull_of_long hq hlong) (fun _ => by rwa [hlen]), finishChunk,
    setIrqEn_chunkWritten c T true]
  rfl

/-- A pass with nothing to send, or without a session, disables the interrupt. -/
theorem txPassOn_of_idle (hidle : (s.session p).active = false ∨ (s.hostPort p).txq = []) :
    txPassOn pt p f s = .ok (false, (s.setFifo f { s.fifo f with
      txRegs := { (s.fifo f).txRegs with ctrl := (s.fifo f).txRegs.ctrl &&& 0xFE } }).select f .tx) := by
  cases hactive : (s.session p).active with
  | false =>
    rw [txPassOn, hactive, if_neg (by decide), fifoIrqSection_idle c .tx false T.quiet T.lt_nfifo T.lt T.reserved]
    rfl
  | true =>
    have hq := hidle.resolve_left (by rw [hactive]; decide)
    have hpull : hostPull p s.cfg.hdlcCap s = (([], .noFrames), s.setHostPort p (s.hostPort p)) := by
      rw [setHostPort_hostPort, hostPull_of_nil hq]
    rw [txPassOn_of_pull c T hactive hpull (fun h => absurd rfl h), finishChunk, setIrqEn_chunkWritten c T false, sending_self,
      List.append_nil]
    rfl

end Pass

theorem txChunk_eq (c : E.Calm) (T : Transmitting p f s) : txChunk E p s = txPassOn E.fifo p f s := by
  rw [txChunk, c.free s T.quiet.1, ok_bind, mappedFifo_of_mapped T.mapped, T.fifo, ok_bind]

theorem exec_hdlcTxchunk (a : Byte) (s : State) :
    exec (.hdlcTxchunk a) s =
      complete (withValue ((onPort (txChunk s.serviceEnv) a s).map fun x => (x.1.toNat, x.2))) := rfl

/-- Settles O35: the three outcomes of a pull, and the pass without a session. -/
theorem transmitPass : Obligations.TransmitPass := by
  intro s a hquiet hvalid
  dsimp only
  intro hp hm hhdlc hres
  have c := serviceEnv_calm s
  have T : Transmitting a.toNat (s.cfg.dBase + a.toNat) s := ⟨⟨hquiet, hvalid, hp, hm⟩, rfl, hhdlc, hres.1⟩
  refine ⟨fun fr rest hactive hpending hq hoff hfits hroom hfmax => ?_, fun fr rest hactive hq hlong hroom => ?_,
    fun hidle => ?_⟩
  · rw [exec_hdlcTxchunk, onPort_of_lt _ hp, txChunk_eq c T,
      txPassOn_of_fits c.fifo T hactive hpending hq hoff hfits hroom hfmax]
    rfl
  · rw [exec_hdlcTxchunk, onPort_of_lt _ hp, txChunk_eq c T, txPassOn_of_long c.fifo T hactive hq hlong hroom,
      sending_setHostPort]
    rfl
  · rw [exec_hdlcTxchunk, onPort_of_lt _ hp, txChunk_eq c T, txPassOn_of_idle c.fifo T hidle]
    rfl

end Sys2Proof.HdlcFramer

/-! PROOFS of the transmit drain (43_hdlc_framer.md R141, R148) and of a frame's way to the line. -/

namespace Sys2Proof.HdlcFramer

open Sys2Proof Sys2Proof.Machine
open Sys2Proof.LineStateFamily (onPort_of_lt onPort_of_le)
open Sys2Proof.Invariants (frameBytes_nil frameBytes_cons frameBytes_append)

variable {s t : State} {E : Env} {p f n m : Nat} {a : Byte} {fr : Frame} {rest : List Frame}

/-! ### The number of passes (R141) -/

/-- The passes that `k` bytes of one frame take. -/
def framePasses (cap k : Nat) : Nat := (k + cap - 1) / cap

/-- The passes that whole frames take. -/
def queuePasses (cap : Nat) (frames : List Frame) : Nat := (frames.map fun fr => framePasses cap fr.length).sum

theorem framePasses_of_le {cap k : Nat} (h : k ≤ cap) (hk : 0 < k) : framePasses cap k = 1 :=
  Nat.div_eq_of_lt_le (by omega) (by omega)

theorem framePasses_add_cap {cap : Nat} (hcap : 0 < cap) (k : Nat) : framePasses cap (k + cap) = framePasses cap k + 1 := by
  have hadd : k + cap + cap - 1 = k + cap - 1 + cap := by omega
  rw [framePasses, hadd, Nat.add_div_right _ hcap]
  rfl

theorem framePasses_of_lt {cap k : Nat} (hcap : 0 < cap) (h : cap < k) :
    framePasses cap k = framePasses cap (k - cap) + 1 := by
  rw [← framePasses_add_cap hcap, Nat.sub_add_cancel (Nat.le_of_lt h)]

theorem framePasses_pos {cap k : Nat} (hcap : 0 < cap) (hk : 0 < k) : 0 < framePasses cap k :=
  Nat.div_pos (by omega) hcap

theorem one_lt_framePasses_iff {cap k : Nat} (hcap : 0 < cap) (hk : 0 < k) : 1 < framePasses cap k ↔ cap < k := by
  rcases Nat.lt_or_ge cap k with h | h
  · rw [framePasses_of_lt hcap h]
    have hpos := framePasses_pos hcap (Nat.sub_pos_of_lt h)
    omega
  · rw [framePasses_of_le h hk]
    omega

theorem framePasses_le {cap : Nat} (hcap : 0 < cap) (k : Nat) : framePasses cap k ≤ k := by
  obtain ⟨c, rfl⟩ : ∃ c, cap = c + 1 := ⟨cap - 1, by omega⟩
  rcases Nat.eq_zero_or_pos k with rfl | hk
  · exact Nat.le_of_eq (Nat.div_eq_of_lt (by omega))
  · refine Nat.div_le_of_le_mul ?_
    have hmul : c * 1 ≤ c * k := Nat.mul_le_mul_left c hk
    rw [Nat.add_mul, Nat.one_mul]
    omega

theorem queuePasses_le {cap : Nat} (hcap : 0 < cap) (frames : List Frame) :
    queuePasses cap frames ≤ frameBytes frames := by
  refine List.sum_le_sum fun fr _ => ?_
  exact framePasses_le hcap fr.length

theorem length_le_queuePasses {cap : Nat} (hcap : 0 < cap) {frames : List Frame} (h : ∀ fr ∈ frames, fr ≠ []) :
    frames.length ≤ queuePasses cap frames := by
  induction frames with
  | nil => exact Nat.le_refl 0
  | cons fr rest ih =>
    have hhead := framePasses_pos hcap (List.length_pos_iff.2 (h fr List.mem_cons_self))
    have htail := ih fun g hg => h g (List.mem_cons_of_mem fr hg)
    simp only [queuePasses, List.map_cons, List.sum_cons, List.length_cons] at htail ⊢
    omega

/-! ### The loop of the drain (R141) -/

theorem txDrainLoop_of_zero (n count : Nat) (h : (s.session p).pending = 0) :
    txDrainLoop E n p count s = .ok (count, s) := by
  cases n with
  | zero => rfl
  | succ n => rw [txDrainLoop, h, if_neg (Nat.lt_irrefl 0)]

theorem txDrainLoop_succ (count : Nat) {more : Bool} (hpending : 0 < (s.session p).pending)
    (hpass : txChunk E p s = .ok (more, t)) (hgo : more = true ∨ (t.session p).pending < (s.session p).pending) :
    txDrainLoop E (n + 1) p count s = txDrainLoop E n p (count + 1) t := by
  rw [txDrainLoop, if_pos hpending, hpass]
  refine if_neg fun hstop => ?_
  rcases hgo with hmore | hless
  · rw [hstop.1] at hmore
    cases hmore
  · exact absurd hstop.2 (Nat.not_le.2 hless)

/-- `FIFO_CTRL` with its interrupt enabled if a frame has taken more than one pass. -/
def enabledIf (more : Prop) [Decidable more] (r : FifoRegs) : FifoRegs :=
  { r with ctrl := if more then r.ctrl ||| 0x01 else r.ctrl }

theorem enabledIf_ctrl (more : Prop) [Decidable more] (r : FifoRegs) :
    (enabledIf more r).ctrl = r.ctrl ∨ (enabledIf more r).ctrl = r.ctrl ||| 0x01 := by
  by_cases h : more
  · exact .inr (if_pos h)
  · exact .inl (if_neg h)

theorem enabledIf_enabledIf (a b : Prop) [Decidable a] [Decidable b] (r : FifoRegs) :
    enabledIf b (enabledIf a r) = enabledIf (a ∨ b) r := by
  by_cases ha : a <;> by_cases hb : b <;> simp [enabledIf, ha, hb, BitVec.or_assoc]

/-- `s` after the head frame of port `p` is closed in the FIFO `f`. -/
def frameSent (p f : Nat) (fr : Frame) (rest : List Frame) (s : State) : State :=
  sending p f { s.hostPort p with txq := rest, txoff := 0 }
    { s.session p with pending := (s.session p).pending - 1, framesOut := (s.session p).framesOut + 1 }
    { s.fifo f with
      txclosed := (s.fifo f).txclosed ++ [(s.fifo f).txopen ++ fr.drop (s.hostPort p).txoff]
      txopen := []
      txRegs := enabledIf ((s.hostPort p).txoff + s.cfg.hdlcCap < fr.length) (s.fifo f).txRegs } s

/-- `s` after one chunk of the head frame of port `p` is written. -/
def chunkSent (p f : Nat) (fr : Frame) (s : State) : State :=
  sending p f { s.hostPort p with txoff := (s.hostPort p).txoff + s.cfg.hdlcCap } (s.session p)
    { s.fifo f with
      txopen := (s.fifo f).txopen ++ (fr.drop (s.hostPort p).txoff).take s.cfg.hdlcCap
      txRegs := enabledIf True (s.fifo f).txRegs } s

theorem frameSent_chunkSent (hp : p < 8) (hf : f < 32) (hlong : (s.hostPort p).txoff + s.cfg.hdlcCap < fr.length) :
    frameSent p f fr rest (chunkSent p f fr s) = frameSent p f fr rest s := by
  have hcfg : (chunkSent p f fr s).cfg = s.cfg := rfl
  rw [frameSent, hcfg, chunkSent, sending_hostPort hp, sending_session hp, sending_fifo hf, sending_sending]
  dsimp only
  rw [enabledIf_enabledIf, List.append_assoc, ← List.drop_drop, List.take_append_drop, frameSent]
  simp only [true_or, hlong]

/-- What the drain of a port needs before the head frame `fr` goes out. -/
structure HeadReady (p f : Nat) (fr : Frame) (rest : List Frame) (s : State) : Prop extends Transmitting p f s where
  active : (s.session p).active = true
  queue : (s.hostPort p).txq = fr :: rest
  begun : (s.hostPort p).txoff < fr.length
  pending : (s.session p).pending = rest.length + 1
  room : (s.fifo f).txStored + (fr.length - (s.hostPort p).txoff) + frameBytes rest ≤ s.cfg.fifoDepth
  fmax : (s.fifo f).txclosed.length + rest.length < s.cfg.fmax

namespace HeadReady

theorem chunkSent (h : HeadReady p f fr rest s) (hlong : (s.hostPort p).txoff + s.cfg.hdlcCap < fr.length) :
    HeadReady p f fr rest (chunkSent p f fr s) := by
  have hp8 := h.toReady.port_lt
  have hcfg : (HdlcFramer.chunkSent p f fr s).cfg = s.cfg := rfl
  have hhost : (HdlcFramer.chunkSent p f fr s).hostPort p =
      { s.hostPort p with txoff := (s.hostPort p).txoff + s.cfg.hdlcCap } := sending_hostPort hp8
  have hsession : (HdlcFramer.chunkSent p f fr s).session p = s.session p := sending_session hp8
  have hfifo : (HdlcFramer.chunkSent p f fr s).fifo f = { s.fifo f with
      txopen := (s.fifo f).txopen ++ (fr.drop (s.hostPort p).txoff).take s.cfg.hdlcCap
      txRegs := enabledIf True (s.fifo f).txRegs } := sending_fifo h.lt
  have hlen : ((fr.drop (s.hostPort p).txoff).take s.cfg.hdlcCap).length = s.cfg.hdlcCap := by
    rw [List.length_take, List.length_drop]
    omega
  refine ⟨h.toTransmitting.sending _ _ rfl (enabledIf_ctrl _ _), ?_, ?_, ?_, ?_, ?_, ?_⟩
  · rw [hsession]
    exact h.active
  · rw [hhost]
    exact h.queue
  · rw [hhost]
    exact hlong
  · rw [hsession]
    exact h.pending
  · have hroom := h.room
    rw [hcfg, hhost, hfifo]
    simp only [Fifo.txStored, List.length_append, hlen] at hroom ⊢
    omega
  · rw [hcfg, hfifo]
    exact h.fmax

theorem frameSent {g : Frame} (h : HeadReady p f fr (g :: rest) s) (hg : g ≠ []) :
    HeadReady p f g rest (frameSent p f fr (g :: rest) s) := by
  have hp8 := h.toReady.port_lt
  have hcfg : (HdlcFramer.frameSent p f fr (g :: rest) s).cfg = s.cfg := rfl
  have hhost : (HdlcFramer.frameSent p f fr (g :: rest) s).hostPort p =
      { s.hostPort p with txq := g :: rest, txoff := 0 } := sending_hostPort hp8
  have hsession : (HdlcFramer.frameSent p f fr (g :: rest) s).session p =
      { s.session p with pending := (s.session p).pending - 1, framesOut := (s.session p).framesOut + 1 } :=
    sending_session hp8
  have hfifo : (HdlcFramer.frameSent p f fr (g :: rest) s).fifo f = { s.fifo f with
      txclosed := (s.fifo f).txclosed ++ [(s.fifo f).txopen ++ fr.drop (s.hostPort p).txoff]
      txopen := []
      txRegs := enabledIf ((s.hostPort p).txoff + s.cfg.hdlcCap < fr.length) (s.fifo f).txRegs } := sending_fifo h.lt
  have hpending := h.pending
  have hroom := h.room
  have hfmax := h.fmax
  refine ⟨h.toTransmitting.sending _ _ rfl (enabledIf_ctrl _ _), ?_, ?_, ?_, ?_, ?_, ?_⟩
  · rw [hsession]
    exact h.active
  · rw [hhost]
  · rw [hhost]
    exact List.length_pos_iff.2 hg
  · rw [hsession]
    simp only [hpending, List.length_cons]
    omega
  · rw [hcfg, hhost, hfifo]
    simp only [Fifo.txStored, frameBytes_append, frameBytes_cons, frameBytes_nil, List.length_append, List.length_drop,
      List.length_nil] at hroom ⊢
    omega
  · rw [hcfg, hfifo]
    simp only [List.length_append, List.length_cons, List.length_nil] at hfmax ⊢
    omega

end HeadReady

/-- The passes of the drain that send the head frame. -/
theorem txDrainLoop_frame (c : E.Calm) (h : HeadReady p f fr rest s) (count : Nat) :
    txDrainLoop E (m + framePasses s.cfg.hdlcCap (fr.length - (s.hostPort p).txoff)) p count s =
      txDrainLoop E m p (count + framePasses s.cfg.hdlcCap (fr.length - (s.hostPort p).txoff)) (frameSent p f fr rest s) := by
  have hcap := h.toTransmitting.cap_pos
  have hp8 := h.toReady.port_lt
  induction hk : fr.length - (s.hostPort p).txoff using Nat.strong_induction_on generalizing s count with
  | _ k ih =>
    subst hk
    have hpending : 0 < (s.session p).pending := h.pending ▸ Nat.succ_pos _
    have hbegun := h.begun
    have hroom := h.room
    have hfmax := h.fmax
    by_cases hfits : fr.length ≤ (s.hostPort p).txoff + s.cfg.hdlcCap
    · have hpass := txPassOn_of_fits c.fifo h.toTransmitting h.active hpending h.queue hbegun hfits (by omega) (by omega)
      have hregs : enabledIf ((s.hostPort p).txoff + s.cfg.hdlcCap < fr.length) (s.fifo f).txRegs = (s.fifo f).txRegs := by
        rw [enabledIf, if_neg (Nat.not_lt.2 hfits)]
      have hsent : txChunk E p s = .ok (false, frameSent p f fr rest s) := by
        rw [txChunk_eq c h.toTransmitting, hpass, frameSent, hregs]
      rw [framePasses_of_le (by omega) (by omega)]
      refine txDrainLoop_succ count hpending hsent (.inr ?_)
      rw [frameSent, sending_session hp8]
      exact Nat.sub_lt hpending Nat.one_pos
    · have hlong : (s.hostPort p).txoff + s.cfg.hdlcCap < fr.length := Nat.lt_of_not_le hfits
      have hpass := txPassOn_of_long c.fifo h.toTransmitting h.active h.queue hlong (by omega)
      have hsent : txChunk E p s = .ok (true, chunkSent p f fr s) := by
        rw [txChunk_eq c h.toTransmitting, hpass]
        rfl
      have hoff : ((chunkSent p f fr s).hostPort p).txoff = (s.hostPort p).txoff + s.cfg.hdlcCap :=
        congrArg HostPort.txoff (sending_hostPort hp8)
      have hleft : fr.length - ((chunkSent p f fr s).hostPort p).txoff =
          fr.length - (s.hostPort p).txoff - s.cfg.hdlcCap := by omega
      have hless : fr.length - ((chunkSent p f fr s).hostPort p).txoff < fr.length - (s.hostPort p).txoff := by omega
      have hrest := ih _ hless (h.chunkSent hlong) (count + 1) hcap rfl
      have hcfg : (chunkSent p f fr s).cfg = s.cfg := rfl
      rw [hcfg, hleft, frameSent_chunkSent hp8 h.lt hlong] at hrest
      rw [framePasses_of_lt hcap (k := fr.length - (s.hostPort p).txoff) (by omega), ← Nat.add_assoc,
        txDrainLoop_succ count hpending hsent (.inl rfl), hrest, Nat.add_assoc, Nat.add_comm 1]

/-- The passes that the queue `fr :: rest` takes, `off` bytes of its head sent. -/
def drainPasses (cap off : Nat) (fr : Frame) (rest : List Frame) : Nat :=
  framePasses cap (fr.length - off) + queuePasses cap rest

/-- `s` after the queue `fr :: rest` of port `p` is closed in the FIFO `f`. -/
def queueSent (p f : Nat) (fr : Frame) (rest : List Frame) (s : State) : State :=
  sending p f { s.hostPort p with txq := [], txoff := 0 }
    { s.session p with pending := 0, framesOut := (s.session p).framesOut + (rest.length + 1) }
    { s.fifo f with
      txclosed := (s.fifo f).txclosed ++ ((s.fifo f).txopen ++ fr.drop (s.hostPort p).txoff) :: rest
      txopen := []
      txRegs := enabledIf (rest.length + 1 < drainPasses s.cfg.hdlcCap (s.hostPort p).txoff fr rest) (s.fifo f).txRegs } s

/-- More passes than frames: the head takes more than one, or the rest does. -/
theorem length_lt_drainPasses_iff {cap off : Nat} {g : Frame} (hcap : 0 < cap) (hoff : off < fr.length)
    (hne : ∀ x ∈ g :: rest, x ≠ []) :
    (g :: rest).length + 1 < drainPasses cap off fr (g :: rest) ↔
      (off + cap < fr.length ∨ rest.length + 1 < drainPasses cap 0 g rest) := by
  have hhead := one_lt_framePasses_iff hcap (Nat.sub_pos_of_lt hoff)
  have hpos := framePasses_pos hcap (Nat.sub_pos_of_lt hoff)
  have htail := length_le_queuePasses hcap hne
  have hsplit : drainPasses cap 0 g rest = queuePasses cap (g :: rest) := rfl
  rw [hsplit, drainPasses]
  simp only [List.length_cons] at htail ⊢
  omega

theorem queueSent_frameSent {g : Frame} (hp : p < 8) (hf : f < 32) (hcap : 0 < s.cfg.hdlcCap)
    (hoff : (s.hostPort p).txoff < fr.length) (hne : ∀ x ∈ g :: rest, x ≠ []) :
    queueSent p f g rest (frameSent p f fr (g :: rest) s) = queueSent p f fr (g :: rest) s := by
  have hcfg : (frameSent p f fr (g :: rest) s).cfg = s.cfg := rfl
  rw [queueSent, hcfg, frameSent, sending_hostPort hp, sending_session hp, sending_fifo hf, sending_sending]
  dsimp only
  have hout : (s.session p).framesOut + 1 + (rest.length + 1) = (s.session p).framesOut + ((g :: rest).length + 1) := by
    simp only [List.length_cons]
    omega
  rw [enabledIf_enabledIf, hout, List.append_assoc, queueSent]
  simp only [length_lt_drainPasses_iff hcap hoff hne]
  rfl

theorem queueSent_nil (hcap : 0 < s.cfg.hdlcCap) (hoff : (s.hostPort p).txoff < fr.length)
    (hpending : (s.session p).pending = 1) : queueSent p f fr [] s = frameSent p f fr [] s := by
  have hiff : ([] : List Frame).length + 1 < drainPasses s.cfg.hdlcCap (s.hostPort p).txoff fr [] ↔
      (s.hostPort p).txoff + s.cfg.hdlcCap < fr.length := by
    have hhead := one_lt_framePasses_iff hcap (Nat.sub_pos_of_lt hoff)
    simp only [drainPasses, queuePasses, List.map_nil, List.sum_nil, List.length_nil]
    omega
  rw [queueSent, frameSent, hpending]
  simp only [hiff]
  rfl

/-- The passes of the drain that send the whole queue, after which nothing is outstanding. -/
theorem txDrainLoop_queue (c : E.Calm) (h : HeadReady p f fr rest s) (hne : ∀ g ∈ rest, g ≠ []) (count : Nat) :
    txDrainLoop E (m + drainPasses s.cfg.hdlcCap (s.hostPort p).txoff fr rest) p count s =
      .ok (count + drainPasses s.cfg.hdlcCap (s.hostPort p).txoff fr rest, queueSent p f fr rest s) := by
  induction rest generalizing s fr count with
  | nil =>
    have hpending := h.pending
    have hframe := txDrainLoop_frame (m := m) c h count
    have hzero : ((frameSent p f fr [] s).session p).pending = 0 := by
      rw [frameSent, sending_session h.toReady.port_lt]
      simp [hpending]
    rw [queueSent_nil h.cap_pos h.begun hpending]
    exact hframe.trans (txDrainLoop_of_zero m _ hzero)
  | cons g rest ih =>
    have hg := hne g List.mem_cons_self
    have hcap := h.cap_pos
    have hcfg : (frameSent p f fr (g :: rest) s).cfg = s.cfg := rfl
    have hoff : ((frameSent p f fr (g :: rest) s).hostPort p).txoff = 0 :=
      congrArg HostPort.txoff (sending_hostPort h.toReady.port_lt)
    have htail := ih (h.frameSent hg) (fun x hx => hne x (List.mem_cons_of_mem g hx))
      (count + framePasses s.cfg.hdlcCap (fr.length - (s.hostPort p).txoff))
    rw [hcfg, hoff, queueSent_frameSent h.toReady.port_lt h.lt hcap h.begun hne] at htail
    have hsplit : drainPasses s.cfg.hdlcCap (s.hostPort p).txoff fr (g :: rest) =
        drainPasses s.cfg.hdlcCap 0 g rest + framePasses s.cfg.hdlcCap (fr.length - (s.hostPort p).txoff) :=
      Nat.add_comm _ _
    rw [hsplit, ← Nat.add_assoc, txDrainLoop_frame c h count, htail]
    congr 2
    omega

/-! ### The drain as a command (R141) -/

theorem exec_hdlcTxdrain (a : Byte) (s : State) :
    exec (.hdlcTxdrain a) s = complete (withValue (onPort (txDrain s.serviceEnv) a s)) := rfl

theorem txDrain_of_mapped (c : E.Calm) (h : s.sched = []) (hm : mapped s p .d = true) :
    txDrain E p s = txDrainLoop E (txWork p s + 2) p 0 s := by
  rw [txDrain, c.free s h, ok_bind, mappedFifo_of_mapped hm, ok_bind]

theorem txDrain_of_headReady (c : E.Calm) (h : HeadReady p f fr rest s) (hne : ∀ g ∈ rest, g ≠ []) :
    txDrain E p s =
      .ok (drainPasses s.cfg.hdlcCap (s.hostPort p).txoff fr rest, queueSent p f fr rest s) := by
  have hcap := h.cap_pos
  have hhead := framePasses_le hcap (fr.length - (s.hostPort p).txoff)
  have htail := queuePasses_le hcap rest
  obtain ⟨m, hm⟩ : ∃ m, txWork p s + 2 = m + drainPasses s.cfg.hdlcCap (s.hostPort p).txoff fr rest := by
    refine ⟨txWork p s + 2 - drainPasses s.cfg.hdlcCap (s.hostPort p).txoff fr rest, ?_⟩
    have hwork : queuedWork p s ≤ txWork p s := Nat.le_add_right _ _
    rw [queuedWork, h.queue, frameBytes_cons] at hwork
    simp only [drainPasses]
    omega
  rw [txDrain_of_mapped c h.quiet.1 h.mapped, hm, txDrainLoop_queue c h hne 0, Nat.zero_add]

/-- Settles O36: the drain frame by frame, each frame pass by pass. -/
theorem transmitDrain : Obligations.TransmitDrain := by
  intro s a hquiet hvalid
  dsimp only
  intro hp hm hhdlc hres hactive hback hroom hfmax
  have c := serviceEnv_calm s
  have T : Transmitting a.toNat (s.cfg.dBase + a.toNat) s := ⟨⟨hquiet, hvalid, hp, hm⟩, rfl, hhdlc, hres.1⟩
  obtain ⟨hpending, hne, -, hbegun⟩ := hback a.toNat T.toReady.port_lt
  refine ⟨fun hq => ?_, fun fr rest hq => ?_⟩
  · have hzero : (s.session a.toNat).pending = 0 := by
      rw [hpending, hq]
      rfl
    rw [exec_hdlcTxdrain, onPort_of_lt _ hp, txDrain_of_mapped c hquiet.1 hm, txDrainLoop_of_zero _ _ hzero]
    rfl
  · have hhead : (s.hostPort a.toNat).txoff < fr.length := by
      have hlt := hbegun (by rw [hq]; exact List.cons_ne_nil fr rest)
      rwa [hq] at hlt
    have h : HeadReady a.toNat (s.cfg.dBase + a.toNat) fr rest s := by
      refine ⟨T, hactive, hq, hhead, by rw [hpending, hq]; rfl, ?_, ?_⟩
      · rw [hq] at hroom
        simp only [List.map_cons, List.sum_cons] at hroom
        simp only [Fifo.txStored, frameBytes]
        omega
      · rw [hq, List.length_cons] at hfmax
        omega
    have hrest : ∀ g ∈ rest, g ≠ [] := fun g hg => hne g (by rw [hq]; exact List.mem_cons_of_mem fr hg)
    have hpasses : (((fr.length - (s.hostPort a.toNat).txoff) :: rest.map List.length).map fun k =>
        (k + s.cfg.hdlcCap - 1) / s.cfg.hdlcCap).sum = drainPasses s.cfg.hdlcCap (s.hostPort a.toNat).txoff fr rest := by
      rw [List.map_cons, List.sum_cons, List.map_map]
      rfl
    rw [exec_hdlcTxdrain, onPort_of_lt _ hp, txDrain_of_headReady c h hrest, hpasses, hq]
    rfl

/-! ### A frame's way to the line (R137, R141, R132) -/

/-- A frame submitted on an idle attached port is its queue. -/
theorem headReady_submitted (T : Transmitting p f s) (hactive : (s.session p).active = true)
    (hpending : (s.session p).pending = 0) (hq : (s.hostPort p).txq = []) (hoff : (s.hostPort p).txoff = 0)
    (hclosed : (s.fifo f).txclosed = []) (hopen : (s.fifo f).txopen = []) {frame : Frame} (hne : frame ≠ [])
    (hroom : (s.fifo f).btx.length + frame.length ≤ s.cfg.fifoDepth) (hfmax : 1 ≤ s.cfg.fmax) :
    HeadReady p f frame [] (submitFrame p frame s) := by
  have hp8 := T.toReady.port_lt
  have hhost : (submitFrame p frame s).hostPort p = { s.hostPort p with txq := (s.hostPort p).txq ++ [frame] } :=
    hostPort_setHostPort s p _ hp8
  have hsession : (submitFrame p frame s).session p = { s.session p with pending := (s.session p).pending + 1 } :=
    session_modSession (s.modHostPort p _) p _ hp8
  have hfifo : (submitFrame p frame s).fifo f = s.fifo f := rfl
  refine ⟨⟨⟨T.quiet, T.valid, T.port, T.mapped⟩, T.fifo, T.hdlc, T.reserved⟩, ?_, ?_, ?_, ?_, ?_, ?_⟩
  · rw [hsession]
    exact hactive
  · rw [hhost, hq]
    rfl
  · rw [hhost]
    dsimp only
    rw [hoff]
    exact List.length_pos_iff.2 hne
  · rw [hsession]
    dsimp only
    rw [hpending]
    rfl
  · have hcfg : (submitFrame p frame s).cfg = s.cfg := rfl
    rw [hhost, hfifo, hcfg]
    simp only [Fifo.txStored, hclosed, hopen, hoff, frameBytes_nil, List.length_nil]
    omega
  · rw [hfifo, hclosed]
    exact hfmax

theorem HeadReady.answered (h : HeadReady p f fr rest s) (v : Result) : HeadReady p f fr rest (s.answered v) :=
  ⟨⟨⟨h.quiet, h.valid, h.port, h.mapped⟩, h.fifo, h.hdlc, h.reserved⟩, h.active, h.queue, h.begun, h.pending, h.room,
    h.fmax⟩

theorem HeadReady.queueSent (h : HeadReady p f fr rest s) : Transmitting p f (queueSent p f fr rest s) :=
  h.toTransmitting.sending _ _ rfl (enabledIf_ctrl _ _)

theorem queueSent_txclosed (hf : f < 32) : ((queueSent p f fr rest s).fifo f).txclosed =
    (s.fifo f).txclosed ++ ((s.fifo f).txopen ++ fr.drop (s.hostPort p).txoff) :: rest := by
  rw [queueSent, sending_fifo hf]

theorem queueSent_pending (hp : p < 8) : ((queueSent p f fr rest s).session p).pending = 0 := by
  rw [queueSent, sending_session hp]

theorem queueSent_txq (hp : p < 8) : ((queueSent p f fr rest s).hostPort p).txq = [] := by
  rw [queueSent, sending_hostPort hp]

/-- A FIFO that sends, with a closed frame, may be taken from. -/
theorem Transmitting.takeEnabled (T : Transmitting p f s) (hq : (s.fifo f).txclosed ≠ []) : TakeEnabled f s := by
  have hmapped := T.mapped
  simp only [Machine.mapped, Bool.and_eq_true, T.fifo] at hmapped
  exact ⟨T.lt, hmapped.2, T.hdlc, .inl hq⟩

/-- An event of a FIFO writes its status block only. -/
theorem fifoEvent_keeps (s : State) (f : Nat) (d : Dir) :
    (s.fifoEvent f d).hw.linelog = s.hw.linelog ∧ (s.fifoEvent f d).fifo f = s.fifo f ∧
      (s.fifoEvent f d).session p = s.session p ∧ (s.fifoEvent f d).hostPort p = s.hostPort p := by
  unfold State.fifoEvent
  split <;> exact ⟨rfl, rfl, rfl, rfl⟩

theorem exec_hdlcTxdrain_of_headReady (h : HeadReady a.toNat f fr rest s) (hne : ∀ g ∈ rest, g ≠ []) :
    exec (.hdlcTxdrain a) s = .next ((queueSent a.toNat f fr rest s).answered
      (.value (drainPasses s.cfg.hdlcCap (s.hostPort a.toNat).txoff fr rest))) := by
  rw [exec_hdlcTxdrain, onPort_of_lt _ h.port, txDrain_of_headReady (serviceEnv_calm s) h hne]
  rfl

/-- The line takes the one frame that a drain has closed. -/
theorem exec_lineTxtake_of_one {frame : Frame} (T : Transmitting p f s) (hq : (s.fifo f).txclosed = [frame]) :
    ∃ v, exec (.lineTxtake (BitVec.ofNat 8 f)) s = .next v ∧ v.hw.linelog = s.hw.linelog ++ [.lineTx f frame] ∧
      (v.fifo f).txclosed = [] ∧ v.session p = s.session p ∧ v.hostPort p = s.hostPort p := by
  have hbyte : (BitVec.ofNat 8 f).toNat = f := by
    have hf := T.lt
    rw [BitVec.toNat_ofNat]
    omega
  have henabled := T.takeEnabled (by rw [hq]; exact List.cons_ne_nil _ _)
  have hstep := lineTxtakeStep_of_cons (a := BitVec.ofNat 8 f) T.valid (by rwa [hbyte]) (by rw [hbyte]; exact hq)
  rw [hbyte] at hstep
  obtain ⟨hlog, hfifo, hsession, hhost⟩ := fifoEvent_keeps (p := p)
    ((s.setFifo f { s.fifo f with txclosed := [] }).lineout (.lineTx f frame)) f .tx
  refine ⟨State.answered (State.fifoEvent _ f .tx) .ok, by rw [exec_lineTxtake, hstep]; rfl, hlog, ?_, hsession, hhost⟩
  refine (congrArg Fifo.txclosed hfifo).trans ?_
  exact congrArg Fifo.txclosed (fifo_setFifo s f { s.fifo f with txclosed := [] } T.lt)

/-- Settles O38: the drain of the one frame submitted, and then the take of the one frame closed. -/
theorem submittedFrameReachesLine : Obligations.SubmittedFrameReachesLine := by
  intro s a frame hquiet hvalid
  dsimp only
  intro hp hm hhdlc hres hactive hpending hq hoff hclosed hopen hne hroom hfmax
  have T : Transmitting a.toNat (s.cfg.dBase + a.toNat) s := ⟨⟨hquiet, hvalid, hp, hm⟩, rfl, hhdlc, hres.1⟩
  have hp8 := T.toReady.port_lt
  have h := (headReady_submitted T hactive hpending hq hoff hclosed hopen hne hroom hfmax).answered .ok
  have hoff' : ((submitFrame a.toNat frame s).hostPort a.toNat).txoff = 0 := by
    have hhost : (submitFrame a.toNat frame s).hostPort a.toNat =
        { s.hostPort a.toNat with txq := (s.hostPort a.toNat).txq ++ [frame] } := hostPort_setHostPort s a.toNat _ hp8
    rw [hhost]
    exact hoff
  have htake : ((queueSent a.toNat (s.cfg.dBase + a.toNat) frame []
      ((submitFrame a.toNat frame s).answered .ok)).fifo (s.cfg.dBase + a.toNat)).txclosed = [frame] := by
    rw [queueSent_txclosed T.lt]
    change (s.fifo (s.cfg.dBase + a.toNat)).txclosed ++ ((s.fifo (s.cfg.dBase + a.toNat)).txopen ++
      frame.drop ((submitFrame a.toNat frame s).hostPort a.toNat).txoff) :: [] = [frame]
    rw [hclosed, hopen, hoff']
    rfl
  have hanswered : Transmitting a.toNat (s.cfg.dBase + a.toNat) ((queueSent a.toNat (s.cfg.dBase + a.toNat) frame []
      ((submitFrame a.toNat frame s).answered .ok)).answered (.value (drainPasses s.cfg.hdlcCap
        ((submitFrame a.toNat frame s).hostPort a.toNat).txoff frame []))) := by
    have Q := h.queueSent
    exact ⟨⟨Q.quiet, Q.valid, Q.port, Q.mapped⟩, Q.fifo, Q.hdlc, Q.reserved⟩
  obtain ⟨v, hv, hlog, hempty, hsession, hhost⟩ := exec_lineTxtake_of_one hanswered htake
  refine ⟨_, _, v, ?_, exec_hdlcTxdrain_of_headReady h (fun g hg => absurd hg (List.not_mem_nil)), hv, hlog, hempty,
    ?_, ?_⟩
  · rw [exec_hdlcSubmit, onPort_of_lt _ hp, submitOp_of_active hne hactive]
    rfl
  · rw [hsession, answered_session, queueSent_pending hp8]
  · rw [hhost, answered_hostPort, queueSent_txq hp8]

end Sys2Proof.HdlcFramer

/-! PROOFS of the bearer pump (44_bearer_pump.md). -/

namespace Sys2Proof.BearerPump

open Sys2Proof Sys2Proof.Machine
open Sys2Proof.Mapping (fifoOf_lt_nfifo fifoOf_injective)
open Sys2Proof.HdlcFramer (nfifo_of_valid one_le_stableRetries_of_valid mappedFifo_of_mapped mappedFifo_of_not_mapped)

variable {s t : State} {E : Env} {pt : Point} {p f : Nat} {role : Role}

/-! ### The exchange of one channel (R161) -/

/-- A bearer channel of port `p` is mapped on FIFO `f`, transparent in both directions, and the host's chunk for it
is whole. -/
structure Exchanging (p : Nat) (role : Role) (f : Nat) (s : State) : Prop where
  quiet : s.quiet
  valid : s.cfg.valid = true
  port : p < s.nports
  bearer : role ≠ .d
  mapped : mapped s p role = true
  fifo : fifoOf s.cfg p role = f
  rxTransparent : hdlcMode (s.fifo f).rxRegs.ctrl = false
  txTransparent : hdlcMode (s.fifo f).txRegs.ctrl = false
  chunk : ((s.hostPort p).txbuf role).length = s.cfg.chunk

namespace Exchanging

theorem lt (X : Exchanging p role f s) : f < 32 := X.fifo ▸ fifoOf_lt_nfifo X.valid X.port

theorem lt_nfifo (X : Exchanging p role f s) : f < s.cfg.nfifo := by
  rw [nfifo_of_valid X.valid]
  exact X.lt

theorem port_lt (X : Exchanging p role f s) : p < 8 := X.port.trans_le (nports_le_eight s)

end Exchanging

/-- A full chunk has been received on FIFO `f`, as far as `Z_CNT` counts. -/
abbrev ChunkReady (f : Nat) (s : State) : Prop := s.cfg.chunk ≤ min (s.fifo f).brx.length 65535

/-- FIFO `f` with the chunk received taken and the host's chunk `tx` appended. -/
def exchangedFifo (c : Config) (tx : List Byte) (x : Fifo) : Fifo :=
  { x with brx := x.brx.drop c.chunk, btx := x.btx ++ tx }

/-- `s` with a chunk exchanged on the channel `role` of port `p` and its FIFO `f`. -/
def exchanged (p : Nat) (role : Role) (f : Nat) (s : State) : State :=
  ((s.setHostPort p ((s.hostPort p).setRxbuf role ((s.fifo f).brx.take s.cfg.chunk))).setFifo f
    (exchangedFifo s.cfg ((s.hostPort p).txbuf role) (s.fifo f))).select f .tx

theorem txbuf_setRxbuf (h : HostPort) (role role' : Role) (bytes : List Byte) :
    (h.setRxbuf role bytes).txbuf role' = h.txbuf role' := by
  cases role <;> cases role' <;> rfl

/-- `s` with a chunk received on FIFO `f` moved to the host's receive buffer. -/
def chunkReceived (p : Nat) (role : Role) (f : Nat) (s : State) : State :=
  ((s.setHostPort p ((s.hostPort p).setRxbuf role ((s.fifo f).brx.take s.cfg.chunk))).setFifo f
    { s.fifo f with brx := (s.fifo f).brx.drop s.cfg.chunk }).select f .rx

theorem chunkReceived_fifo (hf : f < 32) :
    (chunkReceived p role f s).fifo f = { s.fifo f with brx := (s.fifo f).brx.drop s.cfg.chunk } :=
  fifo_setFifo (s.setHostPort p _) f _ hf

theorem chunkReceived_txbuf (hp : p < 8) :
    ((chunkReceived p role f s).hostPort p).txbuf role = (s.hostPort p).txbuf role := by
  have hhost : (chunkReceived p role f s).hostPort p =
      (s.hostPort p).setRxbuf role ((s.fifo f).brx.take s.cfg.chunk) := hostPort_setHostPort s p _ hp
  rw [hhost, txbuf_setRxbuf]

section Exchange

variable (c : pt.Calm) (X : Exchanging p role f s)
include c X

/-- `Z_CNT` of the receive direction counts the bearer bytes received (10_state.md R32). -/
theorem rds_zCnt_selected : rds pt .zCnt (s.select f .rx) =
    .ok (BitVec.ofNat 16 (min (s.fifo f).brx.length 65535), s.select f .rx) := by
  have hnum := selNum_select s f .rx X.lt
  have hdir := selDir_select s f .rx X.lt
  rw [rds_zCnt c (by exact X.quiet.1) (by exact one_le_stableRetries_of_valid X.valid), hnum, hdir, select_fifo]
  simp only [Fifo.byteCount, X.rxTransparent, Bool.false_eq_true, if_false]

theorem exchangeOn_eq : exchangeOn pt p role f s =
    if s.cfg.chunk ≤ min (s.fifo f).brx.length 65535 then
      (transferChunk pt p role f (s.select f .rx)).map fun t => (true, t)
    else .ok (false, s.select f .rx) := by
  have hcount : (BitVec.ofNat 16 (min (s.fifo f).brx.length 65535)).toNat = min (s.fifo f).brx.length 65535 := by
    rw [BitVec.toNat_ofNat]
    omega
  rw [exchangeOn, fifoSelect_idle c .rx X.quiet X.lt_nfifo X.lt, ok_bind, rds_zCnt_selected c X, ok_bind]
  dsimp only
  rw [hcount, select_cfg]
  by_cases h : s.cfg.chunk ≤ min (s.fifo f).brx.length 65535
  · rw [if_pos h, if_neg (Nat.not_lt.2 h)]
    cases transferChunk pt p role f (s.select f .rx) <;> rfl
  · rw [if_neg h, if_pos (Nat.lt_of_not_le h)]

theorem transferChunk_of_ready (hready : ChunkReady f s)
    (hroom : (s.fifo f).txStored + s.cfg.chunk ≤ s.cfg.fifoDepth) :
    transferChunk pt p role f (s.select f .rx) = .ok (exchanged p role f s) := by
  have hlen : s.cfg.chunk ≤ (s.fifo f).brx.length := hready.trans (Nat.min_le_left _ _)
  have hnum := selNum_select s f .rx X.lt
  have hread := readBytes_transparent c s.cfg.chunk (s := s.select f .rx) X.quiet.1 (selDir_select s f .rx X.lt)
    (by rw [hnum]; exact X.lt) (by rw [hnum]; exact X.rxTransparent) (by rw [hnum]; exact hlen)
  rw [hnum, select_fifo] at hread
  have hfifo := chunkReceived_fifo (s := s) (p := p) (role := role) X.lt
  have hhost := chunkReceived_txbuf (s := s) (p := p) (role := role) (f := f) X.port_lt
  have hcfg : ((chunkReceived p role f s).select f .tx).cfg = s.cfg := rfl
  have hnum' := selNum_select (chunkReceived p role f s) f .tx X.lt
  have hwrite := writeChunk_of_nil c p role (s := (chunkReceived p role f s).select f .tx) X.quiet.1
    (selDir_select _ f .tx X.lt) (by rw [hnum']; exact X.lt) (by rw [hnum', select_fifo, hfifo]; exact X.txTransparent)
    (by rw [select_hostPort, hhost]; exact X.chunk) (by rw [hnum', select_fifo, hfifo]; exact hroom)
  rw [hnum', hcfg, select_hostPort, hhost] at hwrite
  have hreceived : ((s.select f .rx).modFifo f fun x => { x with brx := x.brx.drop s.cfg.chunk }).modHostPort p
      (fun h => h.setRxbuf role ((s.fifo f).brx.take s.cfg.chunk)) = chunkReceived p role f s := rfl
  rw [transferChunk, select_cfg, hread, ok_bind]
  dsimp only
  rw [hreceived, fifoSelect_idle c (s := chunkReceived p role f s) .tx X.quiet X.lt_nfifo X.lt, ok_bind]
  refine hwrite.trans (congrArg Except.ok ?_)
  rw [State.modFifo, select_fifo, hfifo]
  exact congrArg (fun t => State.select t f .tx) (setFifo_setFifo (s.setHostPort p _) f _ _)

/-- An exchange moves exactly one chunk in both directions, or none. -/
theorem exchangeOn_of_ready (hready : ChunkReady f s) (hroom : (s.fifo f).txStored + s.cfg.chunk ≤ s.cfg.fifoDepth) :
    exchangeOn pt p role f s = .ok (true, exchanged p role f s) := by
  rw [exchangeOn_eq c X, transferChunk_of_ready c X hready hroom]
  exact if_pos hready

theorem exchangeOn_of_not_ready (hready : ¬ ChunkReady f s) :
    exchangeOn pt p role f s = .ok (false, s.select f .rx) := by
  rw [exchangeOn_eq c X]
  exact if_neg hready

end Exchange

theorem exchange_eq (c : E.Calm) (X : Exchanging p role f s) : exchange E p role s = exchangeOn E.fifo p role f s := by
  rw [exchange, c.free s X.quiet.1, ok_bind, mappedFifo_of_mapped X.mapped, X.fifo, ok_bind]

theorem exchange_of_not_mapped (c : E.Calm) (h : s.sched = []) (hm : mapped s p role = false) :
    exchange E p role s = .error .notMapped := by
  rw [exchange, c.free s h, ok_bind, mappedFifo_of_not_mapped hm]
  rfl

theorem exec_bpXchg (a bchan : Byte) (s : State) :
    exec (.bpXchg a bchan) s =
      complete (withValue ((onBearer (exchange s.serviceEnv) a bchan s).map fun x => (x.1.toNat, x.2))) := rfl

/-- The channel that a channel operand names. -/
theorem bchanArg_eq {b : Byte} (h : b = 0 ∨ b = 1) : bchanArg b = .ok (if b = 0 then .b1 else .b2) := by
  rcases h with rfl | rfl <;> rfl

/-- A bearer channel that a channel operand names. -/
theorem exchanging_of_operand {a b : Byte} (hb : b = 0 ∨ b = 1) (h : s.quiet) (hc : s.cfg.valid = true)
    (hp : a.toNat < s.nports) (hm : mapped s a.toNat (if b = 0 then .b1 else .b2) = true)
    (hrx : (s.fifo (2 * a.toNat + b.toNat)).rxRegs.ctrl.getLsbD 1 = false)
    (htx : (s.fifo (2 * a.toNat + b.toNat)).txRegs.ctrl.getLsbD 1 = false)
    (hchunk : ((s.hostPort a.toNat).txbuf (if b = 0 then .b1 else .b2)).length = s.cfg.chunk) :
    Exchanging a.toNat (if b = 0 then .b1 else .b2) (2 * a.toNat + b.toNat) s := by
  refine ⟨h, hc, hp, ?_, hm, ?_, hrx, htx, hchunk⟩ <;> rcases hb with rfl | rfl
  · decide
  · decide
  · rfl
  · rfl

/-- Settles O39: the exchange by whether a chunk is received. -/
theorem chunkExchange : Obligations.ChunkExchange := by
  intro s a bchan hquiet hvalid hb
  have c := serviceEnv_calm s
  dsimp only
  refine ⟨fun hp hm hrx htx hchunk => ?_, fun hp hm => ?_, fun hp => ?_⟩
  · have X := exchanging_of_operand hb hquiet hvalid hp hm hrx htx (by rcases hb with rfl | rfl <;> exact hchunk)
    refine ⟨fun hless => ?_, fun hready hroom => ?_⟩
    · rw [exec_bpXchg, MapperFamily.onBearer_of_lt _ hp, bchanArg_eq hb, ok_bind, exchange_eq c X,
        exchangeOn_of_not_ready c.fifo X (Nat.not_le.2 hless)]
      rfl
    · rw [exec_bpXchg, MapperFamily.onBearer_of_lt _ hp, bchanArg_eq hb, ok_bind, exchange_eq c X,
        exchangeOn_of_ready c.fifo X hready hroom]
      rcases hb with rfl | rfl <;> rfl
  · rw [exec_bpXchg, MapperFamily.onBearer_of_lt _ hp, bchanArg_eq hb, ok_bind,
      exchange_of_not_mapped c hquiet.1 hm]
    rfl
  · rw [exec_bpXchg, MapperFamily.onBearer_of_le _ hp]
    rfl

end Sys2Proof.BearerPump

/-! PROOFS of the pump over all channels (44_bearer_pump.md R162, R163). -/

namespace Sys2Proof.BearerPump

open Sys2Proof Sys2Proof.Machine
open Sys2Proof.Mapping (fifoOf_lt_nfifo fifoOf_injective)

variable {s t : State} {E : Env} {pt : Point} {p f k : Nat} {role : Role} {any : Bool}

/-! ### One channel of the scan -/

/-- `s` after the pump has looked at the channel `role` of port `p` with its FIFO `f`. -/
def channelPumped (p : Nat) (role : Role) (f : Nat) (s : State) : State :=
  if ChunkReady f s then exchanged p role f s else s.select f .rx

theorem exchange_pumped (c : E.Calm) (X : Exchanging p role f s)
    (hroom : (s.fifo f).txStored + s.cfg.chunk ≤ s.cfg.fifoDepth) :
    exchange E p role s = .ok (decide (ChunkReady f s), channelPumped p role f s) := by
  rw [exchange_eq c X, channelPumped]
  by_cases h : ChunkReady f s
  · rw [if_pos h, decide_eq_true h, exchangeOn_of_ready c.fifo X h hroom]
  · rw [if_neg h, decide_eq_false h, exchangeOn_of_not_ready c.fifo X h]

/-- The pump touches the host's buffers, the FIFOs and the selection only. -/
theorem channelPumped_rest (p : Nat) (role : Role) (f : Nat) (s : State) :
    channelPumped p role f s = { s with
      host := (channelPumped p role f s).host
      hw := { s.hw with
        fifos := (channelPumped p role f s).hw.fifos, fifoSel := (channelPumped p role f s).hw.fifoSel } } := by
  unfold channelPumped
  split <;> rfl

theorem channelPumped_fifo (hf : f < 32) (g : Nat) : (channelPumped p role f s).fifo g =
    if g = f ∧ ChunkReady f s then exchangedFifo s.cfg ((s.hostPort p).txbuf role) (s.fifo f) else s.fifo g := by
  unfold channelPumped
  by_cases h : ChunkReady f s
  · rw [if_pos h]
    have hset := fifo_setFifo_eq (s.setHostPort p ((s.hostPort p).setRxbuf role ((s.fifo f).brx.take s.cfg.chunk)))
      f g (exchangedFifo s.cfg ((s.hostPort p).txbuf role) (s.fifo f)) hf
    simp only [h, and_true]
    exact hset
  · rw [if_neg h, if_neg fun hg => h hg.2]
    rfl

theorem channelPumped_hostPort (hp : p < 8) (q : Nat) : (channelPumped p role f s).hostPort q =
    if q = p ∧ ChunkReady f s then (s.hostPort p).setRxbuf role ((s.fifo f).brx.take s.cfg.chunk) else s.hostPort q := by
  unfold channelPumped
  by_cases h : ChunkReady f s
  · rw [if_pos h]
    have hset := hostPort_setHostPort_eq s p q ((s.hostPort p).setRxbuf role ((s.fifo f).brx.take s.cfg.chunk)) hp
    simp only [h, and_true]
    exact hset
  · rw [if_neg h, if_neg fun hg => h hg.2]
    rfl

theorem channelPumped_fifoSel (p : Nat) (role : Role) (f : Nat) (s : State) :
    (channelPumped p role f s).hw.fifoSel = selByte f (if ChunkReady f s then .tx else .rx) := by
  unfold channelPumped
  split <;> rfl

/-! ### The scan, bearer FIFO by bearer FIFO (R162) -/

/-- The channel of bearer FIFO `k` (41_flow_mapper.md R87). -/
def bearerRole (k : Nat) : Role := if k % 2 = 0 then .b1 else .b2

theorem bearerRole_ne (k : Nat) : bearerRole k ≠ .d := by
  unfold bearerRole
  split <;> decide

theorem fifoOf_bearerRole (c : Config) (k : Nat) : fifoOf c (k / 2) (bearerRole k) = k := by
  unfold bearerRole
  by_cases h : k % 2 = 0
  · rw [if_pos h]
    simp only [fifoOf]
    omega
  · rw [if_neg h]
    simp only [fifoOf]
    omega

/-- Bearer FIFO `k` belongs to a running span and has a chunk received. -/
abbrev Moves (s : State) (k : Nat) : Prop := (s.port (k / 2)).spanRunning = true ∧ ChunkReady k s

/-- The received chunk of FIFO `k` if it moves, else `old`. -/
def receivedOr (s : State) (n k : Nat) (old : List Byte) : List Byte :=
  if k < n ∧ Moves s k then (s.fifo k).brx.take s.cfg.chunk else old

/-- The pump has looked at the first `k` bearer FIFOs of the card `s` in `t`; `any` says whether a chunk was moved. -/
structure PumpedUpTo (s : State) (k : Nat) (any : Bool) (t : State) : Prop where
  rest : t = { s with host := t.host, hw := { s.hw with fifos := t.hw.fifos, fifoSel := t.hw.fifoSel } }
  fifos : ∀ g, t.fifo g = if g < k ∧ Moves s g then
    exchangedFifo s.cfg ((s.hostPort (g / 2)).txbuf (bearerRole g)) (s.fifo g) else s.fifo g
  hosts : ∀ p < 8, t.hostPort p = { s.hostPort p with
    rxbufB1 := receivedOr s k (2 * p) (s.hostPort p).rxbufB1
    rxbufB2 := receivedOr s k (2 * p + 1) (s.hostPort p).rxbufB2 }
  any_iff : any = true ↔ ∃ g < k, Moves s g
  unselected : (∀ g < k, (s.port (g / 2)).spanRunning = false) → t.hw.fifoSel = s.hw.fifoSel
  selected : ∀ g < k, (s.port (g / 2)).spanRunning = true →
    (∀ g' < k, g < g' → (s.port (g' / 2)).spanRunning = false) →
    t.hw.fifoSel = selByte g (if ChunkReady g s then .tx else .rx)

theorem receivedOr_of_not_moves {n : Nat} {old : List Byte} (hk : ¬ Moves s n) (g : Nat) :
    receivedOr s (n + 1) g old = receivedOr s n g old := by
  unfold receivedOr
  have hiff : (g < n + 1 ∧ Moves s g) ↔ (g < n ∧ Moves s g) := by
    refine and_congr_left fun hm => ?_
    have hne : g ≠ n := fun he => hk (he ▸ hm)
    omega
  simp only [hiff]

theorem receivedOr_of_ne {n g : Nat} {old : List Byte} (h : g ≠ n) : receivedOr s (n + 1) g old = receivedOr s n g old := by
  unfold receivedOr
  have hiff : g < n + 1 ↔ g < n := by omega
  simp only [hiff]

theorem receivedOr_self {n : Nat} {old : List Byte} (h : Moves s n) :
    receivedOr s (n + 1) n old = (s.fifo n).brx.take s.cfg.chunk := if_pos ⟨Nat.lt_succ_self n, h⟩

theorem receivedOr_of_le {n g : Nat} {old : List Byte} (h : n ≤ g) : receivedOr s n g old = old :=
  if_neg fun hg => Nat.not_lt.2 h hg.1

theorem exists_moves_succ (s : State) (k : Nat) : (∃ g < k + 1, Moves s g) ↔ (∃ g < k, Moves s g) ∨ Moves s k := by
  constructor
  · rintro ⟨g, hg, hm⟩
    by_cases hgk : g = k
    · exact .inr (hgk ▸ hm)
    · exact .inl ⟨g, by omega, hm⟩
  · rintro (⟨g, hg, hm⟩ | hm)
    · exact ⟨g, Nat.lt_succ_of_lt hg, hm⟩
    · exact ⟨k, Nat.lt_succ_self k, hm⟩

namespace PumpedUpTo

theorem zero (s : State) : PumpedUpTo s 0 false s := by
  refine ⟨rfl, fun g => ?_, fun p _ => ?_, ?_, fun _ => rfl, fun g hg => absurd hg (Nat.not_lt_zero g)⟩
  · exact (if_neg fun hg => Nat.not_lt_zero g hg.1).symm
  · rw [receivedOr_of_le (Nat.zero_le _), receivedOr_of_le (Nat.zero_le _)]
  · exact ⟨fun h => absurd h (by decide), fun ⟨g, hg, _⟩ => absurd hg (Nat.not_lt_zero g)⟩

variable (h : PumpedUpTo s k any t)
include h

theorem cfg : t.cfg = s.cfg := by rw [h.rest]

theorem port (q : Nat) : t.port q = s.port q := by rw [h.rest]; rfl

theorem fifo_self : t.fifo k = s.fifo k := by
  rw [h.fifos k, if_neg fun hg => Nat.lt_irrefl k hg.1]

theorem ready_iff : ChunkReady k t ↔ ChunkReady k s := by
  simp only [ChunkReady, h.cfg, h.fifo_self]

theorem txbuf (hp : p < 8) (role : Role) : (t.hostPort p).txbuf role = (s.hostPort p).txbuf role := by
  rw [h.hosts p hp]
  cases role <;> rfl

/-- A FIFO of a span that does not run is passed over. -/
theorem skip (hrun : (s.port (k / 2)).spanRunning = false) : PumpedUpTo s (k + 1) any t := by
  have hk : ¬ Moves s k := fun hm => absurd (hrun.symm.trans hm.1) (by decide)
  refine ⟨h.rest, fun g => ?_, fun p hp => ?_, ?_, fun hall => ?_, fun g hg hrung hlater => ?_⟩
  · rw [h.fifos g]
    have hiff : (g < k + 1 ∧ Moves s g) ↔ (g < k ∧ Moves s g) := by
      refine and_congr_left fun hm => ?_
      have hne : g ≠ k := fun he => hk (he ▸ hm)
      omega
    simp only [hiff]
  · rw [h.hosts p hp, receivedOr_of_not_moves hk, receivedOr_of_not_moves hk]
  · rw [exists_moves_succ, h.any_iff]
    exact ⟨.inl, fun hor => hor.resolve_right hk⟩
  · exact h.unselected fun g hg => hall g (Nat.lt_succ_of_lt hg)
  · have hne : g ≠ k := by
      rintro rfl
      exact absurd (hrun.symm.trans hrung) (by decide)
    exact h.selected g (by omega) hrung fun g' hg' => hlater g' (Nat.lt_succ_of_lt hg')

/-- The host's buffers after FIFO `k` of a running span is pumped. -/
theorem hosts_step (hk8 : k / 2 < 8) (hrun : (s.port (k / 2)).spanRunning = true) (hp : p < 8) :
    (channelPumped (k / 2) (bearerRole k) k t).hostPort p = { s.hostPort p with
      rxbufB1 := receivedOr s (k + 1) (2 * p) (s.hostPort p).rxbufB1
      rxbufB2 := receivedOr s (k + 1) (2 * p + 1) (s.hostPort p).rxbufB2 } := by
  rw [channelPumped_hostPort hk8, h.hosts p hp]
  by_cases hm : p = k / 2 ∧ ChunkReady k t
  · obtain ⟨hpk, hready⟩ := hm
    have hmoves : Moves s k := ⟨hrun, h.ready_iff.1 hready⟩
    rw [if_pos ⟨hpk, hready⟩, ← hpk, h.hosts p hp, h.fifo_self, h.cfg, bearerRole]
    by_cases heven : k % 2 = 0
    · have hk : k = 2 * p := by omega
      have h1 := receivedOr_self (old := (s.hostPort p).rxbufB1) hmoves
      have h2 := receivedOr_of_ne (s := s) (n := k) (g := 2 * p + 1) (old := (s.hostPort p).rxbufB2) (by omega)
      rw [if_pos heven, h2, ← hk, h1]
      rfl
    · have hk : k = 2 * p + 1 := by omega
      have h1 := receivedOr_self (old := (s.hostPort p).rxbufB2) hmoves
      have h2 := receivedOr_of_ne (s := s) (n := k) (g := 2 * p) (old := (s.hostPort p).rxbufB1) (by omega)
      rw [if_neg heven, h2, ← hk, h1]
      rfl
  · rw [if_neg hm]
    have hstep : ∀ g old, g / 2 = p → receivedOr s (k + 1) g old = receivedOr s k g old := by
      intro g old hg
      by_cases hgk : g = k
      · subst hgk
        exact receivedOr_of_not_moves (fun hmoves => hm ⟨hg.symm, h.ready_iff.2 hmoves.2⟩) g
      · exact receivedOr_of_ne hgk
    rw [hstep (2 * p) _ (by omega), hstep (2 * p + 1) _ (by omega)]

/-- A FIFO of a running span is pumped. -/
theorem pump (hk : k < 16) (hrun : (s.port (k / 2)).spanRunning = true) :
    PumpedUpTo s (k + 1) (any || decide (ChunkReady k t)) (channelPumped (k / 2) (bearerRole k) k t) := by
  have hmoves : Moves s k ↔ ChunkReady k t := by
    rw [h.ready_iff]
    exact ⟨fun hm => hm.2, fun hr => ⟨hrun, hr⟩⟩
  refine ⟨?_, fun g => ?_, fun p hp => h.hosts_step (by omega) hrun hp, ?_, fun hall => ?_, fun g hg hrung hlater => ?_⟩
  · have hpumped := channelPumped_rest (k / 2) (bearerRole k) k t
    have hrest := h.rest
    generalize channelPumped (k / 2) (bearerRole k) k t = x at hpumped ⊢
    rw [hpumped, hrest]
  · rw [channelPumped_fifo (by omega)]
    by_cases hgk : g = k
    · subst hgk
      by_cases hm : ChunkReady g t
      · rw [if_pos ⟨rfl, hm⟩, if_pos ⟨Nat.lt_succ_self g, hmoves.2 hm⟩, h.cfg, h.fifo_self, h.txbuf (by omega)]
      · rw [if_neg fun hg => hm hg.2, if_neg fun hg => hm (hmoves.1 hg.2), h.fifo_self]
    · have hiff : g < k + 1 ↔ g < k := by omega
      rw [if_neg fun hg => hgk hg.1, h.fifos g]
      simp only [hiff]
  · rw [Bool.or_eq_true, h.any_iff, decide_eq_true_eq, exists_moves_succ, hmoves]
  · exact absurd (hrun.symm.trans (hall k (Nat.lt_succ_self k))) (by decide)
  · have hgk : g = k := by
      by_contra hne
      exact absurd (hrun.symm.trans (hlater k (Nat.lt_succ_self k) (by omega))) (by decide)
    subst hgk
    rw [channelPumped_fifoSel]
    simp only [h.ready_iff]

end PumpedUpTo

/-- What the pump of the whole card needs of its running spans. -/
structure Pumpable (s : State) : Prop where
  quiet : s.quiet
  valid : s.cfg.valid = true
  chunks : ∀ p < 8, ∀ role, role ≠ .d → ((s.hostPort p).txbuf role).length = s.cfg.chunk
  channels : ∀ p < s.nports, (s.port p).spanRunning = true → ∀ role, role ≠ .d →
    mapped s p role = true ∧ hdlcMode (s.fifo (fifoOf s.cfg p role)).rxRegs.ctrl = false ∧
    hdlcMode (s.fifo (fifoOf s.cfg p role)).txRegs.ctrl = false ∧
    (s.fifo (fifoOf s.cfg p role)).txStored + s.cfg.chunk ≤ s.cfg.fifoDepth

theorem mapped_congr (hcfg : t.cfg = s.cfg) (hport : t.port p = s.port p)
    (hfifo : t.fifo (fifoOf s.cfg p role) = s.fifo (fifoOf s.cfg p role)) : mapped t p role = mapped s p role := by
  simp only [mapped, State.fifoRegs, hcfg, hport, hfifo]

/-- The pump of one FIFO of a running span. -/
theorem PumpedUpTo.exchange (c : E.Calm) (hs : Pumpable s) (h : PumpedUpTo s k any t) (hk : k < 2 * s.nports)
    (hrun : (s.port (k / 2)).spanRunning = true) :
    exchange E (k / 2) (bearerRole k) t =
      .ok (decide (ChunkReady k t), channelPumped (k / 2) (bearerRole k) k t) := by
  have hp : k / 2 < s.nports := by omega
  have hfifo := fifoOf_bearerRole s.cfg k
  obtain ⟨hmapped, hrx, htx, hroom⟩ := hs.channels (k / 2) hp hrun (bearerRole k) (bearerRole_ne k)
  rw [hfifo] at hrx htx hroom
  have hself := h.fifo_self
  refine exchange_pumped c ⟨?_, ?_, ?_, bearerRole_ne k, ?_, ?_, ?_, ?_, ?_⟩ ?_
  · rw [h.rest]
    exact hs.quiet
  · rw [h.cfg]
    exact hs.valid
  · rw [State.nports, h.cfg]
    exact hp
  · rw [mapped_congr h.cfg (h.port _) (by rw [hfifo, hself])]
    exact hmapped
  · rw [h.cfg, hfifo]
  · rw [hself, hrx]
  · rw [hself, htx]
  · have hp8 : k / 2 < 8 := hp.trans_le (nports_le_eight s)
    rw [h.txbuf hp8, h.cfg]
    exact hs.chunks _ hp8 _ (bearerRole_ne k)
  · rw [hself, h.cfg]
    exact hroom

theorem pumpPorts_append (xs ys : List Nat) (any : Bool) (s : State) :
    pumpPorts E (xs ++ ys) any s = (pumpPorts E xs any s >>= fun r => pumpPorts E ys r.1 r.2) := by
  induction xs generalizing any s with
  | nil => rfl
  | cons x xs ih =>
    rw [List.cons_append, pumpPorts, pumpPorts]
    by_cases hrun : (s.port x).spanRunning
    · rw [if_pos hrun, if_pos hrun]
      cases h1 : exchange E x .b1 s with
      | error e => rfl
      | ok r1 =>
        cases h2 : exchange E x .b2 r1.2 with
        | error e => simp only [ok_bind, h2, error_bind]
        | ok r2 => simp only [ok_bind, h2, ih]
    · rw [if_neg hrun, if_neg hrun, ih]

theorem pumpPorts_singleton_of_stopped (h : (s.port p).spanRunning = false) : pumpPorts E [p] any s = .ok (any, s) := by
  rw [pumpPorts, h]
  rfl

theorem pumpPorts_singleton_of_running {u v : State} {x y : Bool} (h : (s.port p).spanRunning = true)
    (h1 : exchange E p .b1 s = .ok (x, u)) (h2 : exchange E p .b2 u = .ok (y, v)) :
    pumpPorts E [p] any s = .ok (any || x || y, v) := by
  rw [pumpPorts, if_pos h, h1, ok_bind]
  dsimp only
  rw [h2]
  rfl

theorem bearerRole_even (p : Nat) : bearerRole (2 * p) = .b1 := if_pos (by omega)

theorem bearerRole_odd (p : Nat) : bearerRole (2 * p + 1) = .b2 := if_neg (by omega)

theorem pumpPorts_completes (c : E.Calm) (hs : Pumpable s) {n : Nat} (hn : n ≤ s.nports) :
    ∃ any t, pumpPorts E (List.range n) false s = .ok (any, t) ∧ PumpedUpTo s (2 * n) any t := by
  induction n with
  | zero => exact ⟨false, s, rfl, .zero s⟩
  | succ n ih =>
    obtain ⟨any, t, ht, h⟩ := ih (Nat.le_of_succ_le hn)
    have h8 := nports_le_eight s
    have heven : 2 * n / 2 = n := by omega
    have hodd : (2 * n + 1) / 2 = n := by omega
    cases hrun : (s.port n).spanRunning with
    | false =>
      refine ⟨any, t, ?_, (h.skip (by rw [heven, hrun])).skip (by rw [hodd, hrun])⟩
      rw [List.range_succ, pumpPorts_append, ht, ok_bind]
      exact pumpPorts_singleton_of_stopped (by rw [h.port, hrun])
    | true =>
      have hrun1 : (s.port (2 * n / 2)).spanRunning = true := by rw [heven, hrun]
      have hrun2 : (s.port ((2 * n + 1) / 2)).spanRunning = true := by rw [hodd, hrun]
      have h1 := h.exchange c hs (by omega) hrun1
      have hfirst := h.pump (by omega) hrun1
      have h2 := hfirst.exchange c hs (by omega) hrun2
      have hsecond := hfirst.pump (by omega) hrun2
      rw [heven, bearerRole_even] at h1 hfirst h2 hsecond
      rw [hodd, bearerRole_odd] at h2 hsecond
      refine ⟨_, _, ?_, hsecond⟩
      rw [List.range_succ, pumpPorts_append, ht, ok_bind]
      exact pumpPorts_singleton_of_running (by rw [h.port, hrun]) h1 h2

/-! ### The reselect (R163) -/

theorem rd_fifoSel (c : pt.Calm) (h : s.sched = []) : rd pt .fifoSel s = .ok (s.hw.fifoSel, s) := by
  have hvalue : readValue .fifoSel s = .ok (s.hw.fifoSel.setWidth 16) := rfl
  rw [rd_of_nil c .fifoSel h, hvalue, map_ok, BitVec.setWidth_setWidth_of_le _ (by decide), BitVec.setWidth_eq]
  rfl

theorem reselect_idle (c : E.Calm) (h : s.quiet) (hv : s.hw.fifoSel &&& 0x60 = 0) : reselect E s = .ok s := by
  rw [reselect, c.free s h.1, ok_bind, rd_fifoSel c.fifo h.1, ok_bind]
  exact wrb_idle c.fifo (r := .fifoSel) (v := s.hw.fifoSel) h hv rfl h

/-- What the pump leaves selected has no reserved bit. -/
theorem PumpedUpTo.fifoSel_reserved (h : PumpedUpTo s k any t) (hk : k ≤ 32) (hv : s.hw.fifoSel &&& 0x60 = 0) :
    t.hw.fifoSel &&& 0x60 = 0 := by
  have hlast : ∀ n ≤ k, (∀ g < k, n ≤ g → (s.port (g / 2)).spanRunning = false) → t.hw.fifoSel &&& 0x60 = 0 := by
    intro n
    induction n with
    | zero =>
      intro _ hall
      rw [h.unselected fun g hg => hall g hg (Nat.zero_le g)]
      exact hv
    | succ n ih =>
      intro hn hall
      cases hrun : (s.port (n / 2)).spanRunning with
      | true =>
        rw [h.selected n (by omega) hrun fun g' hg' hlt => hall g' hg' hlt]
        exact selByte_reserved n _ (by omega)
      | false =>
        refine ih (Nat.le_of_succ_le hn) fun g hg hle => ?_
        rcases Nat.eq_or_lt_of_le hle with rfl | hlt
        · exact hrun
        · exact hall g hg hlt
  exact hlast k (Nat.le_refl k) fun g hg hle => absurd hg (Nat.not_lt.2 hle)

/-- The pump of a card that is not busy. -/
theorem pump_completes (c : E.Calm) (hs : Pumpable s) (hv : s.hw.fifoSel &&& 0x60 = 0) :
    ∃ any t, Machine.pump E s = .ok (any, t) ∧ PumpedUpTo s (2 * s.nports) any t := by
  obtain ⟨any, t, ht, h⟩ := pumpPorts_completes c hs (Nat.le_refl _)
  have h8 := nports_le_eight s
  refine ⟨any, t, ?_, h⟩
  have hquiet : t.quiet := by
    rw [h.rest]
    exact hs.quiet
  rw [Machine.pump, ht, ok_bind]
  dsimp only
  rw [reselect_idle c hquiet (h.fifoSel_reserved (by omega) hv)]
  rfl

theorem exec_bpPump (s : State) :
    exec .bpPump s = complete (withValue ((Machine.pump s.serviceEnv s).map fun x => (x.1.toNat, x.2))) := rfl

theorem pumpable_of {s : State} (h : s.quiet) (hc : s.cfg.valid = true) (hchunks : s.chunkBuffers)
    (hchannels : ∀ p < s.nports, (s.port p).spanRunning = true → ∀ role, role ≠ .d →
      mapped s p role = true ∧ (s.fifo (fifoOf s.cfg p role)).rxRegs.ctrl.getLsbD 1 = false ∧
      (s.fifo (fifoOf s.cfg p role)).txRegs.ctrl.getLsbD 1 = false ∧
      (s.fifo (fifoOf s.cfg p role)).txStored + s.cfg.chunk ≤ s.cfg.fifoDepth) : Pumpable s := by
  refine ⟨h, hc, fun p hp role hrole => ?_, hchannels⟩
  obtain ⟨h1, h2, -, -⟩ := hchunks p hp
  cases role with
  | b1 => exact h1
  | b2 => exact h2
  | d => exact absurd rfl hrole

/-- A bearer FIFO of the card is the one of a port and a channel. -/
theorem exists_fifoOf {c : Config} {n : Nat} (hf : f < 2 * n) : ∃ p < n, ∃ role, role ≠ .d ∧ f = fifoOf c p role :=
  ⟨f / 2, by omega, bearerRole f, bearerRole_ne f, (fifoOf_bearerRole c f).symm⟩

/-- The FIFO of a bearer channel, as the scan numbers it. -/
theorem fifoOf_bearer (c : Config) (p : Nat) {role : Role} (hrole : role ≠ .d) :
    fifoOf c p role / 2 = p ∧ bearerRole (fifoOf c p role) = role := by
  cases role with
  | b1 => exact ⟨by simp only [fifoOf]; omega, bearerRole_even p⟩
  | b2 => exact ⟨by simp only [fifoOf]; omega, bearerRole_odd p⟩
  | d => exact absurd rfl hrole

theorem fifoOf_lt_of_bearer (c : Config) {n : Nat} (hp : p < n) (hrole : role ≠ .d) : fifoOf c p role < 2 * n := by
  cases role with
  | b1 => simp only [fifoOf]; omega
  | b2 => simp only [fifoOf]; omega
  | d => exact absurd rfl hrole

theorem moves_fifoOf_iff (hrole : role ≠ .d) : Moves s (fifoOf s.cfg p role) ↔
    ((s.port p).spanRunning = true ∧ s.cfg.chunk ≤ min (s.fifo (fifoOf s.cfg p role)).brx.length 65535) := by
  rw [Moves, (fifoOf_bearer s.cfg p hrole).1]

/-- Settles O40: the scan goes over the bearer FIFOs in order, and the reselect writes back what is selected. -/
theorem pumpCouplesDirections : Obligations.PumpCouplesDirections := by
  intro s h hc hres hchunks hchannels
  dsimp only
  obtain ⟨any, t, ht, hm⟩ := pump_completes (serviceEnv_calm s) (pumpable_of h hc hchunks hchannels) hres.2.2.1
  have h8 := nports_le_eight s
  refine ⟨t.answered (.value any.toNat), any.toNat, ?_, ?_, ?_, fun p hp role hrole => ?_, fun f hf hnot => ?_,
    fun p hp => ?_, fun hall => ?_, fun p hp hrun hlater => ?_, ?_⟩
  · rw [exec_bpPump, ht]
    rfl
  · have hany : any.toNat = 1 ↔ any = true := by cases any <;> decide
    rw [hany, hm.any_iff]
    constructor
    · rintro ⟨g, hg, hmoves⟩
      have hfifo := fifoOf_bearerRole s.cfg g
      refine ⟨g / 2, by omega, ?_⟩
      rcases Nat.mod_two_eq_zero_or_one g with heven | hodd
      · have hg2 : 2 * (g / 2) = g := by omega
        refine .inl ⟨hmoves.1, ?_⟩
        change s.cfg.chunk ≤ min (s.fifo (2 * (g / 2))).brx.length 65535
        rw [hg2]
        exact hmoves.2
      · have hg2 : 2 * (g / 2) + 1 = g := by omega
        refine .inr ⟨hmoves.1, ?_⟩
        change s.cfg.chunk ≤ min (s.fifo (2 * (g / 2) + 1)).brx.length 65535
        rw [hg2]
        exact hmoves.2
    · rintro ⟨p, hp, hmoves | hmoves⟩
      · exact ⟨fifoOf s.cfg p .b1, fifoOf_lt_of_bearer _ hp (by decide), (moves_fifoOf_iff (by decide)).2 hmoves⟩
      · exact ⟨fifoOf s.cfg p .b2, fifoOf_lt_of_bearer _ hp (by decide), (moves_fifoOf_iff (by decide)).2 hmoves⟩
  · cases any <;> decide
  · have hlt := fifoOf_lt_of_bearer s.cfg hp hrole
    obtain ⟨hport, hchan⟩ := fifoOf_bearer s.cfg p hrole
    have hfifo := hm.fifos (fifoOf s.cfg p role)
    refine ⟨fun hmoves => ?_, fun hmoves => ?_⟩
    · have hmoved := hfifo.trans (if_pos ⟨hlt, (moves_fifoOf_iff hrole).2 hmoves⟩)
      rw [hport, hchan] at hmoved
      exact hmoved
    · exact hfifo.trans (if_neg fun hg => hmoves ((moves_fifoOf_iff hrole).1 hg.2))
  · refine (hm.fifos f).trans (if_neg fun hg => ?_)
    obtain ⟨p, hp, role, hrole, he⟩ := exists_fifoOf (c := s.cfg) hg.1
    exact hnot p hp role hrole he
  · have hor : ∀ k p old, k < 2 * s.nports → k / 2 = p → receivedOr s (2 * s.nports) k old =
        if (s.port p).spanRunning = true ∧ s.cfg.chunk ≤ min (s.fifo k).brx.length 65535
        then (s.fifo k).brx.take s.cfg.chunk else old := by
      rintro k p old hk rfl
      simp only [receivedOr, hk, true_and, Moves, ChunkReady]
    refine (hm.hosts p (hp.trans_le h8)).trans ?_
    rw [hor (2 * p) p _ (by omega) (by omega), hor (2 * p + 1) p _ (by omega) (by omega)]
    rfl
  · exact hm.unselected fun g hg => hall (g / 2) (by omega)
  · have hodd : (2 * p + 1) / 2 = p := by omega
    have hsel := hm.selected (2 * p + 1) (by omega) (by rw [hodd, hrun]) fun g hg hlt => hlater (g / 2) (by omega) (by omega)
    refine ⟨fun hmoves => ?_, fun hmoves => ?_⟩
    · exact hsel.trans (congrArg _ (if_pos hmoves.2))
    · exact hsel.trans (congrArg _ (if_neg fun hready => hmoves ⟨hrun, hready⟩))
  · exact congrArg (fun u => State.answered u (.value any.toNat)) hm.rest

end Sys2Proof.BearerPump

/-! PROOFS of the statements about the phases of an interrupt as commands (60_exceptions.md R173 to R178) and about
the values after a reset (70_reset_and_hazards.md R201). -/

namespace Sys2Proof.Phases

open Sys2Proof Sys2Proof.Machine Sys2Proof.TickInterrupt

variable {s t u : State} {r : Result} {mine : Bool}

/-! ### The points of a service in two states -/

/-- How deep the points of a service reach depends on the schedule alone. -/
theorem serviceEnv_congr (h : t.sched = s.sched) : t.serviceEnv = s.serviceEnv := by
  rw [State.serviceEnv, State.serviceEnv, State.depth, State.depth, h]

/-- An immediate phase uses up nothing of an empty schedule. -/
theorem immediatePhase_scripted (hs : s.scripted) (e : immediatePhase s.immEnv s = .ok (mine, t)) : t.scripted :=
  ((Invariants.busyIs_serviceClosed s.hw.busy).immediatePhase
    (immKeeps_of_scripted (fun _ hu => hu.2) s) ⟨rfl, hs⟩ e).2

/-! ### The phases as commands -/

theorem exec_irqDef (s : State) : exec .irqDef s = completeOk (deferredPhase s.serviceEnv s) := rfl

theorem exec_irqImm_next (h : exec .irqImm s = .next (t.answered r)) :
    ∃ mine, immediatePhase s.immEnv s = .ok (mine, t) ∧ irqResult mine = r := by
  rw [exec_irqImm] at h
  obtain ⟨v, u, hu, hans⟩ := complete_eq_next.1 h
  obtain ⟨⟨mine, u'⟩, himm, hpair⟩ := map_eq_ok.1 hu
  cases hpair
  obtain ⟨rfl, hr⟩ := Registers.answered_injective hans
  exact ⟨mine, himm, hr.symm⟩

theorem exec_irqImm_handled (h : exec .irqImm s = .next (t.answered .handled)) :
    immediatePhase s.immEnv s = .ok (true, t) := by
  obtain ⟨mine, himm, hr⟩ := exec_irqImm_next h
  cases mine with
  | true => exact himm
  | false => cases hr

theorem exec_irqImm_notMine (h : exec .irqImm s = .next (t.answered .notMine)) :
    immediatePhase s.immEnv s = .ok (false, t) := by
  obtain ⟨mine, himm, hr⟩ := exec_irqImm_next h
  cases mine with
  | true => cases hr
  | false => exact himm

theorem exec_irqImm_fault {e : Fault} (h : exec .irqImm s = .fault e) : immediatePhase s.immEnv s = .error e := by
  rw [exec_irqImm] at h
  cases himm : immediatePhase s.immEnv s with
  | error e' =>
    rw [himm] at h
    cases h
    rfl
  | ok x =>
    rw [himm] at h
    cases h

/-- A completed command without a value leaves the state of its operation, answered. -/
theorem completeOk_eq_answered {x : Except Fault State} (h : completeOk x = .next (t.answered .ok)) : x = .ok t := by
  obtain ⟨u, hu, hans⟩ := completeOk_eq_next.1 h
  rw [hu, (Registers.answered_injective hans).1]

theorem completeOk_eq_fault {x : Except Fault State} {e : Fault} (h : completeOk x = .fault e) : x = .error e := by
  cases x with
  | error e' =>
    cases h
    rfl
  | ok v => cases h

/-! ### Both phases (R178) -/

theorem exec_irq_of_fault {e : Fault} (h : immediatePhase s.immEnv s = .error e) : exec .irq s = .fault e := by
  rw [exec_irq, interrupt, h]
  rfl

theorem exec_irq_of_not_mine (h : immediatePhase s.immEnv s = .ok (false, t)) :
    exec .irq s = .next (t.answered .notMine) := by
  rw [exec_irq, interrupt_of_not_mine h]
  rfl

theorem exec_irq_of_mine (h : immediatePhase s.immEnv s = .ok (true, t)) (hd : deferredPhase s.serviceEnv t = .ok u) :
    exec .irq s = .next (u.answered .handled) := by
  rw [exec_irq, interrupt, h, ok_bind]
  dsimp only
  rw [if_pos rfl, hd]
  rfl

theorem exec_irq_of_deferred_fault {e : Fault} (h : immediatePhase s.immEnv s = .ok (true, t))
    (hd : deferredPhase s.serviceEnv t = .error e) : exec .irq s = .fault e := by
  rw [exec_irq, interrupt, h, ok_bind]
  dsimp only
  rw [if_pos rfl, hd]
  rfl

/-- Settles O50: `IRQ` is the sequence of the two phases, and in a scripted run the second has the points it has
as a command of its own. -/
theorem interruptRunsBothPhases : Obligations.InterruptRunsBothPhases := by
  intro s t u
  refine ⟨fun h => exec_irq_of_not_mine (exec_irqImm_notMine h), fun e h => exec_irq_of_fault (exec_irqImm_fault h),
    fun h => ?_⟩
  have himm := exec_irqImm_handled h
  refine ⟨exec_irq_of_mine himm, fun e => exec_irq_of_deferred_fault himm, fun hs hdef => ?_⟩
  rw [exec_irqDef] at hdef
  have hd := completeOk_eq_answered hdef
  have henv : t.serviceEnv = s.serviceEnv :=
    serviceEnv_congr ((immediatePhase_scripted hs himm : t.sched = []).trans (Eq.symm hs))
  rw [henv] at hd
  exact exec_irq_of_mine himm hd

/-! ### The reset values (70_reset_and_hazards.md R201) -/

theorem session_resetCard {p : Nat} (hp : p < 8) : (resetCard s).session p = Session.mk false 0 0 0 := by
  change (Vector.replicate 8 _)[p]?.getD default = _
  rw [Vector.getElem?_replicate, if_pos hp]
  rfl

theorem hostPort_resetCard {p : Nat} (hp : p < 8) : (resetCard s).hostPort p = HostPort.reset s.strap.chunk := by
  change (Vector.replicate 8 _)[p]?.getD default = _
  rw [Vector.getElem?_replicate, if_pos hp]
  rfl

theorem latch_resetCard {p : Nat} (hp : p < 8) : (resetCard s).latch p = LineLatch.mk 0 false false true := by
  change (Vector.replicate 8 _)[p]?.getD default = _
  rw [Vector.getElem?_replicate, if_pos hp]
  rfl

theorem fifoStat_resetCard {b : Nat} (hb : b < 8) : (resetCard s).fifoStat b = 0 := by
  change (Vector.replicate 8 _)[b]?.getD 0 = _
  rw [Vector.getElem?_replicate, if_pos hb]
  rfl

theorem fifo_resetCard {f : Nat} (hf : f < 32) :
    (resetCard s).fifo f = Fifo.mk [] 0 [] [] [] [] (FifoRegs.mk 0 0 0) (FifoRegs.mk 0 0 0) := by
  change (Vector.replicate 32 _)[f]?.getD default = _
  rw [Vector.getElem?_replicate, if_pos hf]
  rfl

theorem exec_cardReset (s : State) : exec .cardReset s = completeOk (.ok (resetCard s)) := rfl

/-- Settles O53: the elements one by one, the vectors by their entries. -/
theorem resetValues : Obligations.ResetValues := by
  intro s
  refine ⟨(resetCard s).answered .ok, exec_cardReset s, rfl, rfl, rfl, fun p hp => ?_, fun f hf => fifo_resetCard (s := s) hf,
    rfl, rfl, rfl, rfl, rfl, rfl, rfl, rfl, rfl, rfl, rfl, rfl⟩
  exact ⟨port_resetCard s p hp, session_resetCard (s := s) hp, hostPort_resetCard (s := s) hp, latch_resetCard (s := s) hp,
    fifoStat_resetCard (s := s) hp⟩

end Sys2Proof.Phases

/-! PROOFS of the statements about the immediate phase of an interrupt that is the card's (60_exceptions.md R173). -/

namespace Sys2Proof.ImmediatePhase

open Sys2Proof Sys2Proof.Machine Sys2Proof.TickInterrupt Sys2Proof.Phases

variable {s t u : State} {pt : Point} {E : Env}

/-! ### The accumulators (R173) -/

theorem fifoAcc_eq_getElem {b : Nat} (h : b < 8) : s.fifoAcc b = s.card.fifoAcc[b] := by
  rw [State.fifoAcc, Vector.getElem?_eq_getElem h, Option.getD_some]

theorem rd_fifoStat (c : pt.Calm) (b : Fin 8) (h : s.sched = []) :
    rd pt (.fifoStat b) s = .ok (s.fifoStat b.val, s.setFifoStat b.val 0) := by
  have hvalue : readValue (.fifoStat b) s = .ok ((s.fifoStat b.val).setWidth 16) := rfl
  rw [rd_of_nil c (.fifoStat b) h, hvalue, map_ok, BitVec.setWidth_setWidth_of_le _ (by decide), BitVec.setWidth_eq]
  rfl

theorem rd_miscStat (c : pt.Calm) (h : s.sched = []) :
    rd pt .miscStat s = .ok (s.hw.miscStat, s.modHw fun x => { x with miscStat := 0 }) := by
  have hvalue : readValue .miscStat s = .ok (s.hw.miscStat.setWidth 16) := rfl
  rw [rd_of_nil c .miscStat h, hvalue, map_ok, BitVec.setWidth_setWidth_of_le _ (by decide), BitVec.setWidth_eq]
  rfl

/-- `s` with status block `b` read into its accumulator. -/
def blockTaken (b : Nat) (s : State) : State := (s.setFifoStat b 0).setFifoAcc b (s.fifoAcc b ||| s.fifoStat b)

theorem accumulateBlock_of_nil (c : pt.Calm) (b : Fin 8) (h : s.sched = []) :
    accumulateBlock pt b s = .ok (blockTaken b.val s) := by
  rw [accumulateBlock, rd_fifoStat c b h, ok_bind]
  rfl

theorem blockTaken_fifoAcc {b q : Nat} (hb : b < 8) :
    (blockTaken b s).fifoAcc q = if q = b then s.fifoAcc b ||| s.fifoStat b else s.fifoAcc q := by
  rw [blockTaken, fifoAcc_setFifoAcc_eq _ _ _ _ hb]
  rfl

theorem blockTaken_fifoStat {b q : Nat} (hb : b < 8) :
    (blockTaken b s).fifoStat q = if q = b then 0 else s.fifoStat q := by
  rw [blockTaken, setFifoAcc_fifoStat, fifoStat_setFifoStat_eq _ _ _ _ hb]

/-- Some blocks have been read into their accumulators: nothing else has changed, and what they had is there. -/
structure BlocksTaken (bs : List (Fin 8)) (s t : State) : Prop where
  rest : t = { s with card := { s.card with fifoAcc := t.card.fifoAcc }, hw := { s.hw with fifoStat := t.hw.fifoStat } }
  acc : ∀ b : Fin 8, t.fifoAcc b.val = if b ∈ bs then s.fifoAcc b.val ||| s.fifoStat b.val else s.fifoAcc b.val
  stat : ∀ b : Fin 8, t.fifoStat b.val = if b ∈ bs then 0 else s.fifoStat b.val

theorem BlocksTaken.cons {b : Fin 8} {bs : List (Fin 8)} (h : BlocksTaken bs (blockTaken b.val s) t) :
    BlocksTaken (b :: bs) s t where
  rest := h.rest
  acc q := by
    rw [h.acc q, blockTaken_fifoAcc b.isLt, blockTaken_fifoStat b.isLt]
    by_cases hq : q = b
    · subst hq
      by_cases hmem : q ∈ bs <;> simp [hmem]
    · have hne : q.val ≠ b.val := fun e => hq (Fin.ext e)
      simp only [if_neg hne, List.mem_cons, hq, false_or]
  stat q := by
    rw [h.stat q, blockTaken_fifoStat b.isLt]
    by_cases hq : q = b
    · simp [hq]
    · have hne : q.val ≠ b.val := fun e => hq (Fin.ext e)
      simp only [if_neg hne, List.mem_cons, hq, false_or]

theorem accumulateBlocks_of_nil (c : pt.Calm) (bs : List (Fin 8)) (h : s.sched = []) :
    ∃ t, forEach (accumulateBlock pt) bs s = .ok t ∧ BlocksTaken bs s t := by
  induction bs generalizing s with
  | nil => exact ⟨s, rfl, rfl, fun _ => rfl, fun _ => rfl⟩
  | cons b bs ih =>
    obtain ⟨t, ht, hb⟩ := ih (s := blockTaken b.val s) h
    refine ⟨t, ?_, hb.cons⟩
    rw [forEach_cons, accumulateBlock_of_nil c b h, ok_bind, ht]

theorem mem_statBlocks (b : Fin 8) : b ∈ statBlocks := by
  revert b
  decide

/-- `s` with every pending bit taken into the accumulators. -/
def taken (s : State) : State :=
  { s with
    card := { s.card with
      fifoAcc := Vector.zipWith (fun x y => x ||| y) s.card.fifoAcc s.hw.fifoStat
      miscAcc := s.card.miscAcc ||| s.hw.miscStat }
    hw := { s.hw with fifoStat := Vector.replicate 8 0, miscStat := 0 } }

theorem BlocksTaken.fifoAcc_all (h : BlocksTaken statBlocks s t) :
    t.card.fifoAcc = Vector.zipWith (fun x y => x ||| y) s.card.fifoAcc s.hw.fifoStat := by
  refine Vector.ext fun b hb => ?_
  have hacc := h.acc ⟨b, hb⟩
  rw [if_pos (mem_statBlocks _), fifoAcc_eq_getElem hb, fifoAcc_eq_getElem hb, fifoStat_eq_getElem hb] at hacc
  rw [hacc, Vector.getElem_zipWith]

theorem BlocksTaken.fifoStat_all (h : BlocksTaken statBlocks s t) : t.hw.fifoStat = Vector.replicate 8 0 := by
  refine Vector.ext fun b hb => ?_
  have hstat := h.stat ⟨b, hb⟩
  rw [if_pos (mem_statBlocks _), fifoStat_eq_getElem hb] at hstat
  rw [hstat, Vector.getElem_replicate]

theorem accumulateMisc_of_nil (c : pt.Calm) (h : s.sched = []) :
    accumulateMisc pt s = .ok (s.hw.miscStat, { s with
      card := { s.card with miscAcc := s.card.miscAcc ||| s.hw.miscStat }
      hw := { s.hw with miscStat := 0 } }) := by
  rw [accumulateMisc, rd_miscStat c h, ok_bind]
  rfl

/-- With all blocks and the miscellaneous status read, every pending bit is taken. -/
theorem BlocksTaken.taken_eq (h : BlocksTaken statBlocks s t) :
    ({ t with card := { t.card with miscAcc := t.card.miscAcc ||| t.hw.miscStat }, hw := { t.hw with miscStat := 0 } } :
      State) = taken s := by
  rw [taken, ← h.fifoAcc_all, ← h.fifoStat_all, h.rest]

theorem BlocksTaken.miscStat_eq {bs : List (Fin 8)} (h : BlocksTaken bs s t) : t.hw.miscStat = s.hw.miscStat := by
  rw [h.rest]

theorem BlocksTaken.sched_eq {bs : List (Fin 8)} (h : BlocksTaken bs s t) : t.sched = s.sched := by
  rw [h.rest]

/-- A bit of the card is pending. -/
def Mine (s : State) : Prop := s.hw.fifoStat ≠ Vector.replicate 8 0 ∨ s.hw.miscStat ≠ 0

theorem Mine.status (h : Mine s) : ¬ (s.statusByte.getLsbD 0 = false ∧ s.statusByte.getLsbD 1 = false) := by
  rw [statusByte_getLsbD_zero, statusByte_getLsbD_one, fifoAny_eq_false_iff, miscAny_eq_false_iff]
  rintro ⟨hfifo, hmisc⟩
  rcases h with hne | hne
  · refine hne (Vector.ext fun b hb => ?_)
    rw [← fifoStat_eq_getElem hb, hfifo b hb, Vector.getElem_replicate]
  · exact hne hmisc

/-- An interrupt that is the card's takes every pending bit; it answers the tick bit. -/
theorem takeInterrupt_of_mine (c : pt.Calm) (h : s.sched = []) (hm : Mine s) :
    takeInterrupt pt s = .ok (some (s.hw.miscStat.getLsbD 1), taken s) := by
  obtain ⟨t, ht, hb⟩ := accumulateBlocks_of_nil c statBlocks h
  rw [takeInterrupt, rd_status c h, ok_bind]
  dsimp only
  rw [if_neg hm.status, ht, ok_bind, accumulateMisc_of_nil c (hb.sched_eq.trans h), ok_bind]
  dsimp only
  rw [hb.taken_eq, hb.miscStat_eq]

/-- Taking every pending bit drops the line. -/
theorem taken_irqLine (s : State) : (taken s).irqLine = false := by
  have hfifo : (taken s).fifoAny = false := by
    refine fifoAny_eq_false_iff.2 fun b hb => ?_
    rw [fifoStat_eq_getElem hb]
    exact Vector.getElem_replicate hb
  have hmisc : (taken s).miscAny = false := miscAny_eq_false_iff.2 rfl
  rw [State.irqLine, hfifo, hmisc, Bool.or_false, Bool.and_false]

theorem immediatePhase_of_no_tick (c : E.raw.Calm) (h : s.sched = []) (hm : Mine s)
    (htick : s.hw.miscStat.getLsbD 1 = false) : immediatePhase E s = .ok (true, taken s) := by
  rw [immediatePhase, takeInterrupt_of_mine c h hm, ok_bind, htick]

theorem immediatePhase_of_tick (c : E.raw.Calm) (h : s.sched = []) (hm : Mine s)
    (htick : s.hw.miscStat.getLsbD 1 = true) (ht : serveTickNow E (taken s) = .ok t) :
    immediatePhase E s = .ok (true, t) := by
  rw [immediatePhase, takeInterrupt_of_mine c h hm, ok_bind, htick]
  dsimp only
  rw [ht]
  rfl

/-! ### The hooks (R173) -/

/-- The hooks of the running ones of the ports `ps`, with the received chunks. -/
def hooksOf (s : State) (ps : List Nat) : List HostEvent :=
  (ps.filter fun p => (s.port p).spanRunning).map fun p =>
    .tickHooks p (s.hostPort p).rxbufB1 (s.hostPort p).rxbufB2

/-- `s` with events appended to the host log. -/
def told (s : State) (es : List HostEvent) : State :=
  { s with card := { s.card with hostlog := s.card.hostlog ++ es } }

theorem told_nil (s : State) : told s [] = s := by
  rw [told, List.append_nil]

theorem told_told (s : State) (es es' : List HostEvent) : told (told s es) es' = told s (es ++ es') := by
  rw [told, told, told, List.append_assoc]

theorem tickHook_of_nil (c : pt.Calm) (p : Nat) (h : s.sched = []) :
    tickHook pt p s = .ok (told s (hooksOf s [p])) := by
  rw [tickHook, c s h, ok_bind]
  by_cases hrun : (s.port p).spanRunning = true
  · have hone : hooksOf s [p] = [.tickHooks p (s.hostPort p).rxbufB1 (s.hostPort p).rxbufB2] := by
      simp [hooksOf, hrun]
    rw [if_pos hrun, hone]
    rfl
  · have hnone : hooksOf s [p] = [] := by simp [hooksOf, hrun]
    rw [if_neg hrun, hnone, told_nil]

theorem hooks_of_nil (c : pt.Calm) (ps : List Nat) (h : s.sched = []) :
    forEach (tickHook pt) ps s = .ok (told s (hooksOf s ps)) := by
  induction ps generalizing s with
  | nil => rw [forEach_nil, hooksOf, List.filter_nil, List.map_nil, told_nil]
  | cons p ps ih =>
    have hsame : hooksOf (told s (hooksOf s [p])) ps = hooksOf s ps := rfl
    have hsplit : hooksOf s (p :: ps) = hooksOf s [p] ++ hooksOf s ps := by
      rw [hooksOf, hooksOf, hooksOf, ← List.map_append, ← List.filter_append, List.singleton_append]
    rw [forEach_cons, tickHook_of_nil c p h, ok_bind, ih (s := told s (hooksOf s [p])) h, hsame, told_told, hsplit]

/-! ### The pump inside the immediate phase (R173) -/

/-- The immediate phase has the points of a service but for those between operations, where nothing happens in a
scripted run. -/
theorem exchange_immEnv (s₀ : State) (p : Nat) (role : Role) (h : s.sched = []) :
    exchange s₀.immEnv p role s = exchange s₀.serviceEnv p role s := by
  rw [exchange, exchange, (immEnv_calm s₀).free s h, (serviceEnv_calm s₀).free s h]
  rfl

theorem exchange_scripted {s₀ : State} {p : Nat} {role : Role} {did : Bool} (h : s.sched = [])
    (e : exchange s₀.serviceEnv p role s = .ok (did, t)) : t.sched = [] :=
  (((Invariants.busyIs_serviceClosed s.hw.busy).port p).exchange
    (serviceKeeps_of_scripted (fun _ hu => hu.2) s₀) ⟨rfl, h⟩ e).2

theorem pumpPorts_immEnv (s₀ : State) (ps : List Nat) (any : Bool) (h : s.sched = []) :
    pumpPorts s₀.immEnv ps any s = pumpPorts s₀.serviceEnv ps any s := by
  induction ps generalizing s any with
  | nil => rfl
  | cons p ps ih =>
    rw [pumpPorts, pumpPorts]
    by_cases hrun : (s.port p).spanRunning = true
    · rw [if_pos hrun, if_pos hrun, exchange_immEnv s₀ p .b1 h]
      cases hb1 : exchange s₀.serviceEnv p .b1 s with
      | error e => rw [error_bind, error_bind]
      | ok x =>
        obtain ⟨did1, t⟩ := x
        have ht := exchange_scripted h hb1
        rw [ok_bind, ok_bind]
        dsimp only
        rw [exchange_immEnv s₀ p .b2 ht]
        cases hb2 : exchange s₀.serviceEnv p .b2 t with
        | error e => rw [error_bind, error_bind]
        | ok y =>
          obtain ⟨did2, u⟩ := y
          rw [ok_bind, ok_bind]
          dsimp only
          rw [ih _ (exchange_scripted ht hb2)]
    · rw [if_neg hrun, if_neg hrun, ih any h]

theorem pumpPorts_scripted {s₀ : State} {ps : List Nat} {any r : Bool} (h : s.sched = [])
    (e : pumpPorts s₀.serviceEnv ps any s = .ok (r, t)) : t.sched = [] :=
  ((Invariants.busyIs_serviceClosed s.hw.busy).pumpPorts
    (serviceKeeps_of_scripted (fun _ hu => hu.2) s₀) ⟨rfl, h⟩ e).2

theorem reselect_immEnv (s₀ : State) (h : s.sched = []) : reselect s₀.immEnv s = reselect s₀.serviceEnv s := by
  rw [reselect, reselect, (immEnv_calm s₀).free s h, (serviceEnv_calm s₀).free s h]
  rfl

theorem pump_immEnv (s₀ : State) (h : s.sched = []) : pump s₀.immEnv s = pump s₀.serviceEnv s := by
  rw [pump, pump, pumpPorts_immEnv s₀ _ _ h]
  cases hp : pumpPorts s₀.serviceEnv (List.range s.nports) false s with
  | error e => rw [error_bind, error_bind]
  | ok x =>
    obtain ⟨any, t⟩ := x
    rw [ok_bind, ok_bind]
    dsimp only
    rw [reselect_immEnv s₀ (pumpPorts_scripted h hp)]

theorem pump_scripted {s₀ : State} {any : Bool} (h : s.sched = [])
    (e : pump s₀.serviceEnv s = .ok (any, t)) : t.sched = [] :=
  ((Invariants.busyIs_serviceClosed s.hw.busy).pump
    (serviceKeeps_of_scripted (fun _ hu => hu.2) s₀) ⟨rfl, h⟩ e).2

/-- After the pump the hooks of the running spans. -/
theorem serveTickNow_of_pump {s₀ : State} {any : Bool} (h : s.sched = [])
    (hp : pump s₀.serviceEnv s = .ok (any, t)) :
    serveTickNow s₀.immEnv s = .ok (told t (hooksOf t (List.range t.nports))) := by
  rw [serveTickNow, pump_immEnv s₀ h, hp, ok_bind]
  exact hooks_of_nil (immEnv_calm s₀).raw _ (pump_scripted h hp)

theorem pumpPorts_of_stopped {ps : List Nat} {any : Bool} (h : ∀ p ∈ ps, (s.port p).spanRunning = false) :
    pumpPorts E ps any s = .ok (any, s) := by
  induction ps with
  | nil => rfl
  | cons p ps ih =>
    have hstopped : ¬ (s.port p).spanRunning = true := by
      rw [h p (List.mem_cons_self ..)]
      decide
    rw [pumpPorts, if_neg hstopped, ih fun q hq => h q (List.mem_cons_of_mem p hq)]

/-- With no span running the pump is its reselect alone (44_bearer_pump.md R163). -/
theorem pump_of_stopped (c : E.Calm) (h : s.quiet) (hv : s.hw.fifoSel &&& 0x60 = 0)
    (hstopped : ∀ p < s.nports, (s.port p).spanRunning = false) : pump E s = .ok (false, s) := by
  rw [pump, pumpPorts_of_stopped fun p hp => hstopped p (List.mem_range.1 hp), ok_bind]
  dsimp only
  rw [BearerPump.reselect_idle c h hv]
  rfl

theorem hooksOf_of_stopped {ps : List Nat} (h : ∀ p ∈ ps, (s.port p).spanRunning = false) : hooksOf s ps = [] := by
  rw [hooksOf, List.filter_eq_nil_iff.2 fun p hp => by rw [h p hp]; decide, List.map_nil]

/-- With no span running the work of a tick in the immediate phase changes nothing. -/
theorem immediatePhase_of_stopped (h : s.quiet) (hm : Mine s) (htick : s.hw.miscStat.getLsbD 1 = true)
    (hv : s.hw.fifoSel &&& 0x60 = 0) (hstopped : ∀ p < s.nports, (s.port p).spanRunning = false) :
    immediatePhase s.immEnv s = .ok (true, taken s) := by
  have hpump : pump s.serviceEnv (taken s) = .ok (false, taken s) :=
    pump_of_stopped (serviceEnv_calm s) (s := taken s) h hv hstopped
  refine immediatePhase_of_tick (immEnv_calm s).raw h.1 hm htick ((serveTickNow_of_pump (s := taken s) h.1 hpump).trans ?_)
  have hnone : hooksOf (taken s) (List.range (taken s).nports) = [] :=
    hooksOf_of_stopped fun p hp => hstopped p (List.mem_range.1 hp)
  rw [hnone, told_nil]

theorem exec_irqImm_of_mine (h : immediatePhase s.immEnv s = .ok (true, t)) :
    exec .irqImm s = .next (t.answered .handled) := by
  rw [exec_irqImm, h]
  rfl

/-- A completed pump of a scripted run, as an operation with the points of the interrupt. -/
theorem pump_of_exec {r : Result} (s₀ : State) (h : s.sched = s₀.sched) (e : exec .bpPump s = .next (t.answered r)) :
    ∃ any, pump s₀.serviceEnv s = .ok (any, t) := by
  rw [BearerPump.exec_bpPump, serviceEnv_congr h] at e
  obtain ⟨v, u, hu, hans⟩ := complete_eq_next.1 e
  obtain ⟨⟨n, u'⟩, hn, hpair⟩ := map_eq_ok.1 hu
  obtain ⟨⟨any, u''⟩, hpump, hpair'⟩ := map_eq_ok.1 hn
  cases hpair
  cases hpair'
  obtain ⟨rfl, -⟩ := Registers.answered_injective hans
  exact ⟨any, hpump⟩

/-- Settles O45: the status blocks are read one by one, then the miscellaneous status; what a tick adds is the pump
and the hooks. -/
theorem immediateAccumulates : Obligations.ImmediateAccumulates := by
  intro s h hm
  refine ⟨taken_irqLine s, fun htick => ?_, fun htick hv hstopped => ?_, fun htick t r hpump => ?_⟩
  · exact exec_irqImm_of_mine (immediatePhase_of_no_tick (immEnv_calm s).raw h.1 hm htick)
  · exact exec_irqImm_of_mine (immediatePhase_of_stopped h hm htick hv hstopped)
  · obtain ⟨any, hp⟩ := pump_of_exec (s := taken s) s rfl hpump
    exact exec_irqImm_of_mine
      (immediatePhase_of_tick (immEnv_calm s).raw h.1 hm htick (serveTickNow_of_pump (s := taken s) h.1 hp))

end Sys2Proof.ImmediatePhase

/-! PROOFS of the statements about the tick part of the deferred phase (60_exceptions.md R176). -/

namespace Sys2Proof.DeferredPhase

open Sys2Proof Sys2Proof.Machine Sys2Proof.Phases
open Sys2Proof.LineStateFamily (NoTimerDue AlarmSettled exec_stSweep exec_stPoll sweepPort_of_idle)

variable {s t u : State} {E : Env}

/-! ### What the sweep and the poll leave unchanged -/

/-- `P` survives the elementary changes of the sweep and the poll: those of register accesses, of a port's entry, of
the synchronization source and of the host log. -/
structure TickWorkClosed (P : State → Prop) : Prop extends AccessClosed P where
  port : ∀ s p g, P s → P (s.modPort p g)
  source : ∀ s src, P s → P (s.modCard fun c => { c with syncsrc := src })
  emit : ∀ s e, P s → P (s.emit e)

namespace TickWorkClosed

variable {P : State → Prop} (H : TickWorkClosed P) {pt : Point} (K : pt.Keeps P) {p : Nat}
include H K

theorem observeWithin {n : Nat} (h : P s) (e : observeWithin n pt p s = .ok t) : P t := by
  induction n generalizing s with
  | zero => cases e; exact h
  | succ n ih =>
    obtain ⟨⟨sta, u⟩, hu, e⟩ := bind_eq_ok.1 e
    have hrec : P (recordState p sta u) := H.port _ _ _ (H.rdx K h hu)
    clear hu
    dsimp only at e
    split at e
    · split at e
      · obtain ⟨v, hv, e⟩ := bind_eq_ok.1 e
        exact ih (H.loadState K (H.port _ _ _ hrec) hv) e
      · split at e
        · obtain ⟨v, hv, e⟩ := bind_eq_ok.1 e
          exact ih (H.loadState K (H.port _ _ _ hrec) hv) e
        · cases e; exact hrec
    · cases e

theorem forceState {code : Nat} {resume : Bool} (h : P s) (e : forceState pt p code resume s = .ok t) : P t := by
  obtain ⟨u, hu, e⟩ := bind_eq_ok.1 e
  exact H.observeWithin K (H.loadState K h hu) e

theorem expireT1 (h : P s) (e : expireT1 pt p s = .ok t) : P t := by
  unfold Machine.expireT1 at e
  split at e
  · exact H.forceState K (H.port _ _ _ h) e
  · cases e; exact h

theorem expireT3 (h : P s) (e : expireT3 pt p s = .ok t) : P t := by
  unfold Machine.expireT3 at e
  split at e
  · exact H.forceState K (H.port _ _ _ h) e
  · cases e; exact h

theorem publishAlarm (h : P s) (e : publishAlarm pt p s = .ok t) : P t := by
  unfold Machine.publishAlarm at e
  split at e
  · have hpub := H.emit _ (.alarm p (s.port p).newalarm) (H.port s p (fun q => { q with alarm := (s.port p).newalarm }) h)
    dsimp only at e
    split at e
    · unfold syncSelect at e
      split at e
      · exact H.wr K (H.source _ _ hpub) e
      · exact H.wr K (H.source _ _ hpub) e
    · cases e; exact hpub
  · cases e; exact h

end TickWorkClosed

theorem TickWorkClosed.sweep {P : State → Prop} (H : TickWorkClosed P) (K : EnvKeeps E P) (h : P s)
    (e : sweep E s = .ok t) : P t := by
  refine forEach_keeps (fun p _ u v hu he => ?_) h e
  obtain ⟨a, ha, he⟩ := bind_eq_ok.1 he
  obtain ⟨b, hb, he⟩ := bind_eq_ok.1 he
  obtain ⟨c, hc, he⟩ := bind_eq_ok.1 he
  obtain ⟨d, hd, he⟩ := bind_eq_ok.1 he
  obtain ⟨w, hw, he⟩ := bind_eq_ok.1 he
  have hb := H.expireT1 K.raw (K.free _ _ hu ha) hb
  have hd := H.expireT3 K.raw (K.free _ _ hb hc) hd
  exact H.publishAlarm K.raw (K.free _ _ hd hw) he

theorem TickWorkClosed.pollPorts {P : State → Prop} (H : TickWorkClosed P) (K : EnvKeeps E P) (h : P s)
    (e : pollPorts E s = .ok t) : P t := by
  obtain ⟨⟨sci, u⟩, hu, e⟩ := bind_eq_ok.1 e
  refine forEach_keeps (fun p _ a b ha hb => ?_) (H.rd K.free h hu) e
  unfold pollPort at hb
  split at hb
  · obtain ⟨c, hc, hb⟩ := bind_eq_ok.1 hb
    exact H.observeWithin K.raw (K.free a c ha hc) hb
  · cases hb; exact ha

/-- In a scripted run `s` has the configuration, the sessions, the ticks and the accumulators of `s₀`. -/
structure TickKept (s₀ s : State) : Prop where
  cfg : s.cfg = s₀.cfg
  sess : s.sess = s₀.sess
  ticks : s.card.ticks = s₀.card.ticks
  miscAcc : s.card.miscAcc = s₀.card.miscAcc
  scripted : s.sched = []

theorem tickKept_closed (s₀ : State) : TickWorkClosed (TickKept s₀) where
  toAccessClosed := by
    refine .of_hwOnly (fun s t e h => ?_) fun s h => by rwa [linePoint_of_nil h.scripted]
    obtain ⟨hcfg, -, -, -, hsess, -, -, hsched, -, hticks, -, -, hmisc, -⟩ := e.fields
    exact ⟨hcfg.trans h.cfg, hsess.trans h.sess, hticks.trans h.ticks, hmisc.trans h.miscAcc, hsched.trans h.scripted⟩
  port _ _ _ h := ⟨h.cfg, h.sess, h.ticks, h.miscAcc, h.scripted⟩
  source _ _ h := ⟨h.cfg, h.sess, h.ticks, h.miscAcc, h.scripted⟩
  emit _ _ h := ⟨h.cfg, h.sess, h.ticks, h.miscAcc, h.scripted⟩

theorem TickKept.sweep (c : E.Calm) (h : s.sched = []) (e : sweep E s = .ok t) : TickKept s t :=
  (tickKept_closed s).sweep (.of_scripted (fun _ hu => hu.scripted) c) ⟨rfl, rfl, rfl, rfl, h⟩ e

theorem TickKept.pollPorts (c : E.Calm) (h : s.sched = []) (e : pollPorts E s = .ok t) : TickKept s t :=
  (tickKept_closed s).pollPorts (.of_scripted (fun _ hu => hu.scripted) c) ⟨rfl, rfl, rfl, rfl, h⟩ e

theorem TickKept.trans (h : TickKept s t) (h' : TickKept t u) : TickKept s u :=
  ⟨h'.cfg.trans h.cfg, h'.sess.trans h.sess, h'.ticks.trans h.ticks, h'.miscAcc.trans h.miscAcc, h'.scripted⟩

/-! ### The parts of the deferred phase that find nothing (R175, R177) -/

theorem scanFifo_of_clear (c : E.Calm) (h : s.sched = []) {f : Nat} (htx : accBit f .tx s = false)
    (hrx : accBit f .rx s = false) : scanFifo E f s = .ok s := by
  rw [scanFifo, c.free s h, ok_bind, scanTransmit, if_neg (by rw [htx]; decide), ok_bind, c.free s h, ok_bind,
    scanReceive, if_neg (by rw [hrx]; decide)]

theorem scan_of_clear (c : E.Calm) (h : s.sched = []) (fs : List Nat) (hclear : ∀ f ∈ fs, ∀ d, accBit f d s = false) :
    forEach (scanFifo E) fs s = .ok s :=
  forEach_eq_self fun f hf => scanFifo_of_clear c h (hclear f hf .tx) (hclear f hf .rx)

theorem fifoAcc_of_ge {b : Nat} (h : 8 ≤ b) : s.fifoAcc b = 0 := by
  rw [State.fifoAcc, Vector.getElem?_eq_none h]
  rfl

theorem accBit_of_zero (h : ∀ b < 8, s.fifoAcc b = 0) (f : Nat) (d : Dir) : accBit f d s = false := by
  have hzero : s.fifoAcc (f / 4) = 0 := by
    rcases Nat.lt_or_ge (f / 4) 8 with hlt | hge
    · exact h _ hlt
    · exact fifoAcc_of_ge hge
  rw [accBit, hzero]
  exact BitVec.getLsbD_zero

theorem deferredTick_of_none (c : E.Calm) (h : s.sched = []) (htick : s.card.miscAcc.getLsbD 1 = false) :
    deferredTick E s = .ok s := by
  rw [deferredTick, c.free s h, ok_bind, if_neg (by rw [htick]; decide)]

theorem deferredTick_of_tick (c : E.Calm) (h : s.sched = []) (htick : s.card.miscAcc.getLsbD 1 = true) :
    deferredTick E s = serveTick E s := by
  rw [deferredTick, c.free s h, ok_bind, if_pos htick]

theorem drainPort_of_none (c : E.Calm) (h : s.sched = []) {p : Nat} (hp : (s.session p).pending = 0) :
    drainPort E p s = .ok s := by
  rw [drainPort, c.free s h, ok_bind, if_neg (by omega)]

theorem drain_of_none (c : E.Calm) (h : s.sched = []) (ps : List Nat) (hp : ∀ p ∈ ps, (s.session p).pending = 0) :
    forEach (drainPort E) ps s = .ok s :=
  forEach_eq_self fun p hmem => drainPort_of_none c h (hp p hmem)

theorem deferredDrain_of_none (c : E.Calm) (h : s.sched = []) (hp : ∀ p < s.nports, (s.session p).pending = 0) :
    deferredDrain E s = .ok s :=
  drain_of_none c h _ fun p hmem => hp p (List.mem_range.1 hmem)

/-- With nothing in the accumulators of the FIFOs the phase starts with the tick part. -/
theorem deferredPhase_of_zero (c : E.Calm) (h : s.sched = []) (hacc : ∀ b < 8, s.fifoAcc b = 0) :
    deferredPhase E s = (deferredTick E s >>= deferredDrain E) := by
  rw [deferredPhase, scan_of_clear c h _ fun f _ d => accBit_of_zero hacc f d, ok_bind]

/-! ### The tick part (R176) -/

/-- `s` with one tick more. -/
def counted (s : State) : State := { s with card := { s.card with ticks := s.card.ticks + 1 } }

/-- `s` with the tick bit of the accumulator `a` cleared. -/
def tickServed (a : Byte) (s : State) : State := { s with card := { s.card with miscAcc := a ^^^ 0x02 } }

theorem serveTick_eq (c : E.Calm) (h : s.sched = []) (hsweep : sweep E (counted s) = .ok t) :
    serveTick E s = (pollIfDue E t >>= fun u => E.free u >>= fun v =>
      .ok (v.modCard fun x => { x with miscAcc := x.miscAcc ^^^ 0x02 })) := by
  have hcounted : (s.modCard fun x => { x with ticks := x.ticks + 1 }) = counted s := rfl
  have ht := TickKept.sweep c (s := counted s) h hsweep
  rw [serveTick, hcounted, c.free (counted s) h, ok_bind, hsweep, ok_bind, c.free t ht.scripted, ok_bind]

theorem serveTick_of_poll (c : E.Calm) (h : s.sched = []) (hsweep : sweep E (counted s) = .ok t)
    (hpoll : pollIfDue E t = .ok u) (hu : TickKept t u) : serveTick E s = .ok (tickServed s.card.miscAcc u) := by
  have hmisc : u.card.miscAcc = s.card.miscAcc := hu.miscAcc.trans (TickKept.sweep c (s := counted s) h hsweep).miscAcc
  rw [serveTick_eq c h hsweep, hpoll, ok_bind, c.free u hu.scripted, ok_bind, ← hmisc]
  rfl

theorem serveTick_of_poll_fault {e : Fault} (c : E.Calm) (h : s.sched = []) (hsweep : sweep E (counted s) = .ok t)
    (hpoll : pollIfDue E t = .error e) : serveTick E s = .error e := by
  rw [serveTick_eq c h hsweep, hpoll, error_bind]

theorem pollIfDue_of_not_due (h : ¬ t.card.ticks % t.cfg.pollTicks = 0) : pollIfDue E t = .ok t := if_neg h

theorem pollIfDue_of_due (h : t.card.ticks % t.cfg.pollTicks = 0) : pollIfDue E t = pollPorts E t := if_pos h

/-- The tick is the only thing pending in a scripted run. -/
structure TickOnly (s : State) : Prop where
  scripted : s.sched = []
  tick : s.card.miscAcc.getLsbD 1 = true
  acc : ∀ b < 8, s.fifoAcc b = 0
  pending : ∀ p < s.nports, (s.session p).pending = 0

theorem TickOnly.phase (h : TickOnly s) (c : E.Calm) : deferredPhase E s = (serveTick E s >>= deferredDrain E) := by
  rw [deferredPhase_of_zero c h.scripted h.acc, deferredTick_of_tick c h.scripted h.tick]

/-- No frame is outstanding after the sweep and the poll. -/
theorem TickOnly.drain (h : TickOnly s) (c : E.Calm) (hu : TickKept (counted s) u) (a : Byte) :
    deferredDrain E (tickServed a u) = .ok (tickServed a u) := by
  refine deferredDrain_of_none c hu.scripted fun p hp => ?_
  have hsess : (tickServed a u).session p = s.session p := by
    change u.sess[p]?.getD default = s.sess[p]?.getD default
    rw [hu.sess]
    rfl
  have hports : (tickServed a u).nports = s.nports := by
    change u.cfg.nports.toNat = s.cfg.nports.toNat
    rw [hu.cfg]
    rfl
  rw [hsess]
  exact h.pending p (hports ▸ hp)

theorem TickOnly.deferredPhase_of_poll (h : TickOnly s) (c : E.Calm) (hsweep : sweep E (counted s) = .ok t)
    (hpoll : pollIfDue E t = .ok u) (hu : TickKept t u) :
    deferredPhase E s = .ok (tickServed s.card.miscAcc u) := by
  rw [h.phase c, serveTick_of_poll c h.scripted hsweep hpoll hu, ok_bind,
    h.drain c ((TickKept.sweep c (s := counted s) h.scripted hsweep).trans hu)]

theorem TickOnly.deferredPhase_of_poll_fault {e : Fault} (h : TickOnly s) (c : E.Calm)
    (hsweep : sweep E (counted s) = .ok t) (hpoll : pollIfDue E t = .error e) : deferredPhase E s = .error e := by
  rw [h.phase c, serveTick_of_poll_fault c h.scripted hsweep hpoll, error_bind]

/-- The poll is due at the next tick. -/
def PollDue (s : State) : Prop := (s.card.ticks + 1) % s.cfg.pollTicks = 0

theorem pollDue_iff (h : TickKept (counted s) t) : t.card.ticks % t.cfg.pollTicks = 0 ↔ PollDue s := by
  rw [h.ticks, h.cfg]
  rfl

/-- A tick at which no poll is due: the sweep, and the bit is cleared. -/
theorem TickOnly.deferredPhase_of_sweep (h : TickOnly s) (c : E.Calm) (hsweep : sweep E (counted s) = .ok t)
    (hdue : ¬ PollDue s) : deferredPhase E s = .ok (tickServed s.card.miscAcc t) := by
  have ht := TickKept.sweep c (s := counted s) h.scripted hsweep
  exact h.deferredPhase_of_poll c hsweep (pollIfDue_of_not_due fun hd => hdue ((pollDue_iff ht).1 hd))
    ⟨rfl, rfl, rfl, rfl, ht.scripted⟩

/-- Nothing of the ports is due at the next tick. -/
def NothingDue (s : State) : Prop := ∀ p < s.nports, NoTimerDue p (counted s) ∧ AlarmSettled p (counted s)

theorem sweep_of_nothing_due (c : E.Calm) (h : s.sched = []) (hd : NothingDue s) :
    sweep E (counted s) = .ok (counted s) :=
  forEach_eq_self fun p hp => sweepPort_of_idle (s := counted s) c h (hd p (List.mem_range.1 hp)).1
    (hd p (List.mem_range.1 hp)).2

/-- A tick at which nothing is due is counted, and the bit is cleared. -/
theorem TickOnly.deferredPhase_of_nothing_due (h : TickOnly s) (c : E.Calm) (hd : NothingDue s) (hdue : ¬ PollDue s) :
    deferredPhase E s = .ok (tickServed s.card.miscAcc (counted s)) :=
  h.deferredPhase_of_sweep c (sweep_of_nothing_due c h.scripted hd) hdue

theorem exec_irqDef_of_ok (h : deferredPhase s.serviceEnv s = .ok t) : exec .irqDef s = .next (t.answered .ok) := by
  rw [exec_irqDef, h]
  rfl

theorem exec_irqDef_of_fault {e : Fault} (h : deferredPhase s.serviceEnv s = .error e) : exec .irqDef s = .fault e := by
  rw [exec_irqDef, h]
  rfl

/-- A completed sweep of the counted state, as an operation with the points of the phase. -/
theorem sweep_of_exec (h : exec .stSweep (counted s) = .next (t.answered .ok)) :
    sweep s.serviceEnv (counted s) = .ok t := by
  rw [exec_stSweep, serviceEnv_congr (s := s) (t := counted s) rfl] at h
  exact completeOk_eq_answered h

/-- Settles O49: the scan and the drain find nothing, and the tick part is count, sweep, poll and clear. -/
theorem deferredServesTick : Obligations.DeferredServesTick := by
  intro s hs _ htick hacc hpending
  have h : TickOnly s := ⟨hs, htick, hacc, hpending⟩
  have c := serviceEnv_calm s
  refine ⟨fun t hsweep => ?_, fun hd hdue => exec_irqDef_of_ok (h.deferredPhase_of_nothing_due c (fun p hp => ?_) hdue)⟩
  · have hsw := sweep_of_exec hsweep
    have ht := TickKept.sweep c (s := counted s) hs hsw
    have henv : t.serviceEnv = s.serviceEnv := serviceEnv_congr (ht.scripted.trans (Eq.symm hs))
    refine ⟨fun hdue => exec_irqDef_of_ok (h.deferredPhase_of_sweep c hsw hdue), fun hdue => ?_⟩
    have hpoll : pollIfDue s.serviceEnv t = pollPorts s.serviceEnv t := pollIfDue_of_due ((pollDue_iff ht).2 hdue)
    refine ⟨fun u hu => ?_, fun e he => ?_⟩
    · rw [exec_stPoll, henv] at hu
      have hok := completeOk_eq_answered hu
      exact exec_irqDef_of_ok (h.deferredPhase_of_poll c hsw (hpoll.trans hok) (TickKept.pollPorts c ht.scripted hok))
    · rw [exec_stPoll, henv] at he
      exact exec_irqDef_of_fault (h.deferredPhase_of_poll_fault c hsw (hpoll.trans (completeOk_eq_fault he)))
  · obtain ⟨h1, h3, halarm⟩ := hd p hp
    exact ⟨⟨h1, h3⟩, halarm⟩

end Sys2Proof.DeferredPhase

/-! PROOFS of the statements about a tick served from end to end and about the scan of the deferred phase
(60_exceptions.md R175, R178, R188). -/

namespace Sys2Proof.DeferredPhase

open Sys2Proof Sys2Proof.Machine Sys2Proof.Phases Sys2Proof.ImmediatePhase
open Sys2Proof.TickInterrupt (fifoStat_eq_getElem)
open Sys2Proof.HdlcFramer (nfifo_of_valid)

variable {s t u : State} {E : Env}

/-! ### One tick from end to end (R173, R176, R178) -/

theorem zipWith_or_of_zero {x y : Vector Byte 8} (hx : ∀ b (h : b < 8), x[b] = 0) (hy : ∀ b (h : b < 8), y[b] = 0) :
    Vector.zipWith (fun a b => a ||| b) x y = x := by
  refine Vector.ext fun b hb => ?_
  rw [Vector.getElem_zipWith, hx b hb, hy b hb]
  rfl

theorem replicate_zero_eq {x : Vector Byte 8} (hx : ∀ b (h : b < 8), x[b] = 0) : Vector.replicate 8 0 = x := by
  refine Vector.ext fun b hb => ?_
  rw [Vector.getElem_replicate, hx b hb]

/-- With the tick bit alone pending and the accumulators empty, taking it moves that bit alone. -/
theorem taken_of_tick_alone (hmisc : s.hw.miscStat = 0x02) (hacc : s.card.miscAcc = 0)
    (hzero : ∀ b < 8, s.fifoStat b = 0 ∧ s.fifoAcc b = 0) :
    taken s = { s with card := { s.card with miscAcc := 0x02 }, hw := { s.hw with miscStat := 0 } } := by
  have hstat : ∀ b (h : b < 8), s.hw.fifoStat[b] = 0 := fun b hb => (fifoStat_eq_getElem hb).symm.trans (hzero b hb).1
  have hacc' : ∀ b (h : b < 8), s.card.fifoAcc[b] = 0 := fun b hb => (fifoAcc_eq_getElem hb).symm.trans (hzero b hb).2
  have hor : s.card.miscAcc ||| s.hw.miscStat = 0x02 := by
    rw [hmisc, hacc]
    decide
  rw [taken, zipWith_or_of_zero hacc' hstat, replicate_zero_eq hstat, hor]

/-- Settles O51: the immediate phase moves the tick bit, and the deferred phase counts the tick and clears it. -/
theorem interruptServesTick : Obligations.InterruptServesTick := by
  intro s hs hbusy _ hmisc hacc hzero hv hports hdue
  have htick : s.hw.miscStat.getLsbD 1 = true := by
    rw [hmisc]
    decide
  have hmine : Mine s := .inr (by rw [hmisc]; decide)
  have himm := immediatePhase_of_stopped (s := s) ⟨hs, hbusy⟩ hmine htick hv fun p hp => (hports p hp).2.1
  rw [taken_of_tick_alone hmisc hacc hzero] at himm
  have honly : TickOnly { s with card := { s.card with miscAcc := 0x02 }, hw := { s.hw with miscStat := 0 } } :=
    ⟨hs, by change (0x02 : Byte).getLsbD 1 = true; decide, fun b hb => (hzero b hb).2, fun p hp => (hports p hp).1⟩
  have hd := honly.deferredPhase_of_nothing_due (serviceEnv_calm s)
    (fun p hp => by
      obtain ⟨-, -, ht1, ht3, halarm⟩ := hports p hp
      exact ⟨⟨ht1, ht3⟩, halarm⟩) hdue
  rw [exec_irq_of_mine himm hd]
  have hclear : (0x02 : Byte) ^^^ 0x02 = s.card.miscAcc := by
    rw [hacc]
    decide
  simp only [tickServed, counted, hclear]

/-! ### The accumulator bits of the scan (R175) -/

theorem pendingPos_lt (f : Nat) (d : Dir) : pendingPos f d < 8 := by
  cases d with
  | tx => simp only [pendingPos]; omega
  | rx => simp only [pendingPos]; omega

/-- A FIFO number and a direction are a block and a position in it. -/
theorem pendingPos_injective {f g : Nat} {d e : Dir} (hblock : g / 4 = f / 4) (hpos : pendingPos g e = pendingPos f d) :
    g = f ∧ e = d := by
  cases d <;> cases e <;> simp only [pendingPos, reduceCtorEq, and_true, and_false] at hpos ⊢ <;> omega

theorem pendingMask_getLsbD (f g : Nat) (d e : Dir) :
    (pendingMask f d).getLsbD (pendingPos g e) = decide (pendingPos g e = pendingPos f d) := by
  have key : ∀ i < 8, ∀ j < 8, ((1#8 <<< i : Byte)).getLsbD j = decide (j = i) := by decide
  exact key _ (pendingPos_lt f d) _ (pendingPos_lt g e)

/-- Clearing a bit that is set clears that bit alone. -/
theorem accBit_clearAcc {f g : Nat} {d e : Dir} (hf : f < 32) (hset : accBit f d s = true) :
    accBit g e (clearAcc f d s) = (accBit g e s && !decide (g = f ∧ e = d)) := by
  have hblock : f / 4 < 8 := by omega
  unfold accBit at hset ⊢
  rw [clearAcc, fifoAcc_setFifoAcc_eq _ _ _ _ hblock]
  by_cases hg : g / 4 = f / 4
  · rw [if_pos hg, BitVec.getLsbD_xor, pendingMask_getLsbD, hg]
    by_cases hpos : pendingPos g e = pendingPos f d
    · obtain ⟨rfl, rfl⟩ := pendingPos_injective hg hpos
      rw [hset]
      simp
    · have hne : ¬ (g = f ∧ e = d) := by
        rintro ⟨rfl, rfl⟩
        exact hpos rfl
      simp [hpos, hne]
  · have hne : ¬ (g = f ∧ e = d) := by
      rintro ⟨rfl, rfl⟩
      exact hg rfl
    rw [if_neg hg]
    simp [hne]

/-- Every bit of the accumulators is the bit of a FIFO number and a direction. -/
theorem fifoAcc_eq_zero (h : ∀ f < 32, ∀ d, accBit f d s = false) : s.card.fifoAcc = Vector.replicate 8 0 := by
  refine Vector.ext fun b hb => ?_
  rw [← fifoAcc_eq_getElem hb, Vector.getElem_replicate]
  refine BitVec.eq_of_getLsbD_eq fun i hi => ?_
  have hblock : (4 * b + i / 2) / 4 = b := by omega
  have hmod : (4 * b + i / 2) % 4 = i / 2 := by omega
  have htx := h (4 * b + i / 2) (by omega) .tx
  have hrx := h (4 * b + i / 2) (by omega) .rx
  simp only [accBit, pendingPos, hblock, hmod] at htx hrx
  rw [show (0 : Byte).getLsbD i = false from BitVec.getLsbD_zero]
  rcases Nat.mod_two_eq_zero_or_one i with heven | hodd
  · rwa [show 2 * (i / 2) = i by omega] at htx
  · rwa [show 2 * (i / 2) + 1 = i by omega] at hrx

/-! ### The report of an unexpected bit (R175, R188) -/

/-- `s` with an unexpected bit reported and cleared, if it is set. -/
def reportedBit (f : Nat) (d : Dir) (s : State) : State :=
  if accBit f d s then (clearAcc f d s).diag (.unexpectedFifoIrq f d) else s

/-- The reports of the set ones of the directions `ds` of FIFO number `f`. -/
def bitReports (s : State) (f : Nat) (ds : List Dir) : List DiagEvent :=
  (ds.filter fun d => accBit f d s).map fun d => .unexpectedFifoIrq f d

/-- An operation whose value is dropped. -/
theorem bind_snd {α : Type} (x : Except Fault (α × State)) : (x >>= fun y => .ok y.2) = x.map Prod.snd := by
  cases x <;> rfl

theorem scanTransmit_of_clear {f : Nat} (h : accBit f .tx s = false) : scanTransmit E f s = .ok s :=
  if_neg (by rw [h]; decide)

theorem scanReceive_of_clear {f : Nat} (h : accBit f .rx s = false) : scanReceive E f s = .ok s :=
  if_neg (by rw [h]; decide)

theorem scanTransmit_of_set {f : Nat} (h : accBit f .tx s = true) : scanTransmit E f s =
    if isD s.cfg f then serveTransmit E (portOfD s.cfg f) (clearAcc f .tx s)
    else .ok ((clearAcc f .tx s).diag (.unexpectedFifoIrq f .tx)) :=
  if_pos h

theorem scanReceive_of_set {f : Nat} (h : accBit f .rx s = true) : scanReceive E f s =
    if isD s.cfg f then (rxDrain E (portOfD s.cfg f) (clearAcc f .rx s)).map Prod.snd
    else .ok ((clearAcc f .rx s).diag (.unexpectedFifoIrq f .rx)) := by
  rw [scanReceive, if_pos h]
  dsimp only
  by_cases hd : isD s.cfg f = true
  · rw [if_pos hd]
    refine (if_pos hd).trans ?_
    exact bind_snd (rxDrain E (portOfD s.cfg f) (clearAcc f .rx s))
  · rw [if_neg hd]
    exact if_neg hd

theorem scanTransmit_of_unexpected {f : Nat} (h : accBit f .tx s = true → isD s.cfg f = false) :
    scanTransmit E f s = .ok (reportedBit f .tx s) := by
  by_cases hset : accBit f .tx s = true
  · rw [scanTransmit_of_set hset, reportedBit, if_pos hset, if_neg (by rw [h hset]; decide)]
  · rw [scanTransmit_of_clear (Bool.eq_false_of_not_eq_true hset), reportedBit, if_neg hset]

theorem scanReceive_of_unexpected {f : Nat} (h : accBit f .rx s = true → isD s.cfg f = false) :
    scanReceive E f s = .ok (reportedBit f .rx s) := by
  by_cases hset : accBit f .rx s = true
  · rw [scanReceive_of_set hset, reportedBit, if_pos hset, if_neg (by rw [h hset]; decide)]
  · rw [scanReceive_of_clear (Bool.eq_false_of_not_eq_true hset), reportedBit, if_neg hset]

theorem accBit_reportedBit {f g : Nat} {d e : Dir} (hf : f < 32) :
    accBit g e (reportedBit f d s) = (accBit g e s && !decide (g = f ∧ e = d)) := by
  rw [reportedBit]
  by_cases hset : accBit f d s = true
  · rw [if_pos hset]
    exact accBit_clearAcc hf hset
  · rw [if_neg hset]
    by_cases he : g = f ∧ e = d
    · obtain ⟨rfl, rfl⟩ := he
      rw [Bool.not_eq_true] at hset
      rw [hset, Bool.false_and]
    · simp [he]

/-- Some bits have been reported: the accumulators apart, the diagnostic log alone has changed. -/
def ReportedOnly (log : List DiagEvent) (s t : State) : Prop :=
  t = { s with card := { s.card with fifoAcc := t.card.fifoAcc, diaglog := s.card.diaglog ++ log } }

theorem ReportedOnly.trans {log log' : List DiagEvent} (h : ReportedOnly log s t) (h' : ReportedOnly log' t u) :
    ReportedOnly (log ++ log') s u := by
  unfold ReportedOnly at h h' ⊢
  rw [h', h, ← List.append_assoc]

theorem reportedBit_reportedOnly (f : Nat) (d : Dir) (s : State) :
    ReportedOnly (bitReports s f [d]) s (reportedBit f d s) := by
  by_cases hset : accBit f d s = true
  · have hone : bitReports s f [d] = [.unexpectedFifoIrq f d] := by simp [bitReports, hset]
    rw [reportedBit, if_pos hset, hone]
    rfl
  · have hnone : bitReports s f [d] = [] := by simp [bitReports, hset]
    rw [reportedBit, if_neg hset, hnone, ReportedOnly, List.append_nil]

/-- The reports of the scan below FIFO number `n`. -/
def scanReports (s : State) (n : Nat) : List DiagEvent :=
  (List.range n).flatMap fun f => bitReports s f [.tx, .rx]

theorem scanReports_succ (s : State) (n : Nat) :
    scanReports s (n + 1) = scanReports s n ++ (bitReports s n [.tx] ++ bitReports s n [.rx]) := by
  have hsplit : bitReports s n [.tx, .rx] = bitReports s n [.tx] ++ bitReports s n [.rx] := by
    rw [bitReports, bitReports, bitReports, ← List.map_append, ← List.filter_append, List.singleton_append]
  rw [scanReports, scanReports, List.range_succ, List.flatMap_append, List.flatMap_singleton, hsplit]

/-- The scan of `s` has passed the FIFO numbers below `n`. -/
structure ScannedUpTo (s : State) (n : Nat) (t : State) : Prop where
  rest : ReportedOnly (scanReports s n) s t
  bits : ∀ f d, accBit f d t = (decide (n ≤ f) && accBit f d s)

theorem ScannedUpTo.zero (s : State) : ScannedUpTo s 0 s :=
  ⟨by rw [ReportedOnly, scanReports, List.range_zero, List.flatMap_nil, List.append_nil], fun f d => by simp⟩

theorem ScannedUpTo.cfg {n : Nat} (h : ScannedUpTo s n t) : t.cfg = s.cfg := by
  rw [h.rest]

theorem ScannedUpTo.scripted {n : Nat} (h : ScannedUpTo s n t) (hs : s.sched = []) : t.sched = [] := by
  rw [h.rest]
  exact hs

/-- The bits of the FIFO number that the scan comes to are those it began with. -/
theorem ScannedUpTo.bitReports_self {n : Nat} (h : ScannedUpTo s n t) (ds : List Dir) :
    bitReports t n ds = bitReports s n ds := by
  simp [bitReports, h.bits]

theorem ScannedUpTo.step {n : Nat} (h : ScannedUpTo s n t) (hn : n < 32) :
    ScannedUpTo s (n + 1) (reportedBit n .rx (reportedBit n .tx t)) := by
  have hlog : bitReports (reportedBit n .tx t) n [.rx] = bitReports s n [.rx] := by
    simp [bitReports, List.filter_cons, accBit_reportedBit hn, h.bits]
  refine ⟨?_, fun f d => ?_⟩
  · rw [scanReports_succ, ← h.bitReports_self [.tx], ← hlog]
    exact h.rest.trans ((reportedBit_reportedOnly n .tx t).trans (reportedBit_reportedOnly n .rx _))
  · rw [accBit_reportedBit hn, accBit_reportedBit hn, h.bits]
    by_cases hf : f = n
    · subst hf
      cases d <;> simp
    · have hle : n ≤ f ↔ n + 1 ≤ f := by omega
      simp [hf, hle]

theorem scanFifo_of_unexpected (c : E.Calm) {f : Nat} (hf : f < 32) (h : s.sched = [])
    (hd : ∀ d, accBit f d s = true → isD s.cfg f = false) :
    scanFifo E f s = .ok (reportedBit f .rx (reportedBit f .tx s)) := by
  have hcfg : (reportedBit f .tx s).cfg = s.cfg := by rw [reportedBit_reportedOnly f .tx s]
  have hsched : (reportedBit f .tx s).sched = [] := by
    rw [reportedBit_reportedOnly f .tx s]
    exact h
  have hrx : accBit f .rx (reportedBit f .tx s) = true → isD (reportedBit f .tx s).cfg f = false := by
    intro hset
    rw [accBit_reportedBit hf, Bool.and_eq_true] at hset
    rw [hcfg]
    exact hd .rx hset.1
  rw [scanFifo, c.free s h, ok_bind, scanTransmit_of_unexpected (hd .tx), ok_bind, c.free _ hsched, ok_bind,
    scanReceive_of_unexpected hrx]

/-- The scan of a card without a bit of a D FIFO reports what it finds and completes. -/
theorem scan_of_unexpected (c : E.Calm) (h : s.sched = []) (hd : ∀ f < 32, ∀ d, accBit f d s = true → isD s.cfg f = false) :
    ∃ t, forEach (scanFifo E) (List.range 32) s = .ok t ∧ ScannedUpTo s 32 t := by
  refine forEach_range (P := ScannedUpTo s) 32 (.zero s) fun n hn t ht => ⟨_, ?_, ht.step hn⟩
  refine scanFifo_of_unexpected c hn (ht.scripted h) fun d hset => ?_
  rw [ht.bits, Bool.and_eq_true] at hset
  rw [ht.cfg]
  exact hd n hn d hset.2

/-- Settles O47: the scan, with nothing left for the tick part and the drain. -/
theorem deferredReportsUnexpected : Obligations.DeferredReportsUnexpected := by
  intro s hs hc hd hmisc hpending
  have c := serviceEnv_calm s
  have hnotD : ∀ f < 32, ∀ d, accBit f d s = true → isD s.cfg f = false := by
    intro f hf d hset
    by_contra hD
    rw [Bool.not_eq_false] at hD
    rw [hd f hf hD d] at hset
    cases hset
  obtain ⟨t, ht, hscan⟩ := scan_of_unexpected c hs hnotD
  have hzero : t.card.fifoAcc = Vector.replicate 8 0 :=
    fifoAcc_eq_zero fun f hf d => by rw [hscan.bits, decide_eq_false (by omega), Bool.false_and]
  have hrest := hscan.rest
  rw [ReportedOnly, hzero] at hrest
  have htick : deferredTick s.serviceEnv t = .ok t :=
    deferredTick_of_none c (hscan.scripted hs) (by rw [hrest]; exact hmisc)
  have hdrain : deferredDrain s.serviceEnv t = .ok t :=
    deferredDrain_of_none c (hscan.scripted hs) (by rw [hrest]; exact hpending)
  have hphase : deferredPhase s.serviceEnv s = .ok t := by
    rw [deferredPhase, nfifo_of_valid hc, ht, ok_bind, htick, ok_bind, hdrain]
  rw [exec_irqDef_of_ok hphase, hrest]
  rfl

end Sys2Proof.DeferredPhase

/-! PROOFS of the statement about the drains of the deferred phase (60_exceptions.md R175, R177). -/

namespace Sys2Proof.DeferredPhase

open Sys2Proof Sys2Proof.Machine Sys2Proof.Phases Sys2Proof.Invariants
open Sys2Proof.HdlcFramer (nfifo_of_valid exec_hdlcTxchunk exec_hdlcRxdrain exec_hdlcTxdrain pendingMask_code)
open Sys2Proof.LineStateFamily (onPort_of_lt)

variable {s t u : State} {E : Env} {p f : Nat}

/-! ### What the drains leave unchanged -/

/-- In a scripted run `s` has the configuration and the accumulators of `s₀`. -/
structure AccKept (s₀ s : State) : Prop where
  cfg : s.cfg = s₀.cfg
  fifoAcc : s.card.fifoAcc = s₀.card.fifoAcc
  miscAcc : s.card.miscAcc = s₀.card.miscAcc
  scripted : s.sched = []

theorem accKept_portClosed (s₀ : State) (p : Nat) : PortClosed (AccKept s₀) p := by
  refine portClosed_of_portSide (.of_hwOnly (fun s t e h => ?_) fun s h => by rwa [linePoint_of_nil h.scripted])
    (fun s t e h => ?_) (reportFrame_keeps_of_logs (fun _ _ h => ⟨h.cfg, h.fifoAcc, h.miscAcc, h.scripted⟩)
      fun _ _ _ h => ⟨h.cfg, h.fifoAcc, h.miscAcc, h.scripted⟩)
  · obtain ⟨hcfg, -, -, -, -, -, -, hsched, -, -, -, hacc, hmisc, -⟩ := e.fields
    exact ⟨hcfg.trans h.cfg, hacc.trans h.fifoAcc, hmisc.trans h.miscAcc, hsched.trans h.scripted⟩
  · unfold PortSide at e
    rw [e]
    exact ⟨h.cfg, h.fifoAcc, h.miscAcc, h.scripted⟩

theorem accKept_serviceKeeps (s₀ s : State) : ServiceKeeps s.serviceEnv (AccKept s₀) :=
  serviceKeeps_of_scripted (fun _ hu => hu.scripted) s

theorem AccKept.refl (h : s.sched = []) : AccKept s s := ⟨rfl, rfl, rfl, h⟩

theorem AccKept.accBit (h : AccKept s t) (f : Nat) (d : Dir) : accBit f d t = accBit f d s := by
  rw [Machine.accBit, Machine.accBit, State.fifoAcc, State.fifoAcc, h.fifoAcc]

theorem AccKept.fifoAcc_eq (h : AccKept s t) (b : Nat) : t.fifoAcc b = s.fifoAcc b := by
  rw [State.fifoAcc, State.fifoAcc, h.fifoAcc]

theorem AccKept.nports (h : AccKept s t) : t.nports = s.nports := by
  rw [State.nports, State.nports, h.cfg]

/-! ### The passes of a transmit interrupt (R175) -/

/-- What the host's buffer of port `p` still holds of the head frame. -/
def headLeft (p : Nat) (s : State) : Nat := ((s.hostPort p).txq.headD []).length - (s.hostPort p).txoff

/-- The part of the head frame already pulled is less than the frame. -/
def HeadBegun (p : Nat) (s : State) : Prop :=
  (s.hostPort p).txq ≠ [] → (s.hostPort p).txoff < ((s.hostPort p).txq.headD []).length

theorem headLeft_le_txWork (p : Nat) (s : State) : headLeft p s ≤ txWork p s := by
  rw [headLeft, txWork, queuedWork]
  cases (s.hostPort p).txq with
  | nil =>
    rw [List.headD_nil, List.length_nil]
    omega
  | cons fr rest =>
    rw [List.headD_cons, frameBytes_cons]
    omega

/-- In a scripted run the host's parts are those of `s₀`. -/
def HostKept (s₀ s : State) : Prop := s.host = s₀.host ∧ s.sched = []

theorem hostKept_accessClosed (s₀ : State) : AccessClosed (HostKept s₀) := by
  refine .of_hwOnly (fun s t e h => ?_) fun s h => by rwa [linePoint_of_nil h.2]
  obtain ⟨-, -, -, -, -, hhost, -, hsched, -⟩ := e.fields
  exact ⟨hhost.trans h.1, hsched.trans h.2⟩

/-- A pull that leaves more of its frame advances by one chunk and leaves something. -/
theorem hostPull_more {cap : Nat} {bytes : List Byte} (hb : HeadBegun p s)
    (e : hostPull p cap s = ((bytes, .more), t)) :
    t = s.setHostPort p { s.hostPort p with txoff := (s.hostPort p).txoff + cap } ∧
    (s.hostPort p).txq ≠ [] ∧ (s.hostPort p).txoff + cap < ((s.hostPort p).txq.headD []).length := by
  cases hq : (s.hostPort p).txq with
  | nil =>
    rw [HdlcFramer.hostPull_of_nil hq] at e
    cases e
  | cons fr rest =>
    have hoff : (s.hostPort p).txoff < fr.length := by
      have hlt := hb (by rw [hq]; exact List.cons_ne_nil fr rest)
      rwa [hq] at hlt
    rcases Nat.lt_or_ge ((s.hostPort p).txoff + cap) fr.length with hlong | hfits
    · rw [HdlcFramer.hostPull_of_long hq hlong] at e
      cases e
      exact ⟨rfl, List.cons_ne_nil fr rest, hlong⟩
    · rw [HdlcFramer.hostPull_of_fits hq hoff hfits] at e
      cases e

/-- A pass after which more of its frame is left has pulled one chunk. -/
theorem txPassOn_more {pt : Point} (c : pt.Calm) (h : s.sched = []) (hp : p < 8) (hb : HeadBegun p s)
    (e : txPassOn pt p f s = .ok (true, t)) :
    t.hostPort p = { s.hostPort p with txoff := (s.hostPort p).txoff + s.cfg.hdlcCap } ∧
    (s.hostPort p).txq ≠ [] ∧ (s.hostPort p).txoff + s.cfg.hdlcCap < ((s.hostPort p).txq.headD []).length := by
  unfold txPassOn at e
  split at e
  · cases hpull : hostPull p s.cfg.hdlcCap s with
    | mk x v =>
      obtain ⟨bytes, r⟩ := x
      rw [hpull] at e
      obtain ⟨w, hw, e⟩ := bind_eq_ok.1 e
      obtain ⟨x, hx, e⟩ := bind_eq_ok.1 e
      cases r with
      | done =>
        obtain ⟨y, -, e⟩ := bind_eq_ok.1 e
        cases e
      | noFrames =>
        obtain ⟨y, -, e⟩ := bind_eq_ok.1 e
        cases e
      | more =>
        obtain ⟨y, hy, e⟩ := bind_eq_ok.1 e
        cases e
        obtain ⟨rfl, hne, hlt⟩ := hostPull_more hb hpull
        have H := hostKept_accessClosed (s.setHostPort p { s.hostPort p with txoff := (s.hostPort p).txoff + s.cfg.hdlcCap })
        have K : pt.Keeps (HostKept (s.setHostPort p
            { s.hostPort p with txoff := (s.hostPort p).txoff + s.cfg.hdlcCap })) := fun a b ha hab => by
          rw [c a ha.2] at hab
          cases hab
          exact ha
        have hhost := (H.setIrqEn K (H.writeBytes K (byte := fun b _ => b) (H.fifoSelect K ⟨rfl, h⟩ hw) hx) hy).1
        refine ⟨?_, hne, hlt⟩
        rw [State.hostPort, hhost]
        exact hostPort_setHostPort s p _ hp
  · obtain ⟨y, -, e⟩ := bind_eq_ok.1 e
    cases e

/-- Such a pass leaves less of the head frame. -/
theorem txChunk_more (c : E.Calm) (h : s.sched = []) (hp : p < 8) (hcap : 0 < s.cfg.hdlcCap) (hb : HeadBegun p s)
    (e : txChunk E p s = .ok (true, t)) : HeadBegun p t ∧ headLeft p t < headLeft p s := by
  rw [txChunk, c.free s h, ok_bind] at e
  obtain ⟨f, -, e⟩ := bind_eq_ok.1 e
  obtain ⟨hhost, -, hlt⟩ := txPassOn_more c.fifo h hp hb e
  refine ⟨fun _ => ?_, ?_⟩
  · rw [hhost]
    exact hlt
  · rw [headLeft, headLeft, hhost]
    dsimp only
    omega

/-- What the passes of a transmit interrupt keep and need. -/
structure Passing (p : Nat) (s₀ s : State) : Prop where
  kept : AccKept s₀ s
  begun : HeadBegun p s

theorem Passing.txChunk {e₀ : State} (hp : p < 8) (hcap : 0 < u.cfg.hdlcCap) (h : Passing p u s)
    (e : txChunk e₀.serviceEnv p s = .ok (true, t)) : Passing p u t ∧ headLeft p t < headLeft p s := by
  have hcap' : 0 < s.cfg.hdlcCap := by rwa [h.kept.cfg]
  obtain ⟨hbegun, hlt⟩ := txChunk_more (serviceEnv_calm e₀) h.kept.scripted hp hcap' h.begun e
  exact ⟨⟨(accKept_portClosed u p).txChunk (accKept_serviceKeeps u e₀) h.kept e, hbegun⟩, hlt⟩

/-- The bound on the passes does not matter once it exceeds what is left of the head frame (log 14). -/
theorem serveTransmitLoop_congr {e₀ : State} (hp : p < 8) (hcap : 0 < u.cfg.hdlcCap) (n m : Nat) (h : Passing p u s)
    (hn : headLeft p s < n) (hm : headLeft p s < m) :
    serveTransmitLoop e₀.serviceEnv n p s = serveTransmitLoop e₀.serviceEnv m p s := by
  induction n generalizing s m with
  | zero => exact absurd hn (Nat.not_lt_zero _)
  | succ n ih =>
    obtain ⟨m, rfl⟩ : ∃ k, m = k + 1 := ⟨m - 1, by omega⟩
    rw [serveTransmitLoop, serveTransmitLoop]
    cases hx : txChunk e₀.serviceEnv p s with
    | error e => rw [error_bind, error_bind]
    | ok x =>
      obtain ⟨more, t⟩ := x
      rw [ok_bind, ok_bind]
      dsimp only
      cases more with
      | false => rw [if_neg (by decide), if_neg (by decide)]
      | true =>
        obtain ⟨ht, hlt⟩ := h.txChunk hp hcap hx
        rw [if_pos rfl, if_pos rfl, ih m ht (by omega) (by omega)]

/-- A transmit interrupt of which no pass is left after the first. -/
theorem serveTransmit_of_last (h : txChunk E p s = .ok (false, t)) : serveTransmit E p s = .ok t := by
  rw [serveTransmit, serveTransmitLoop, h, ok_bind]
  exact if_neg (by decide)

/-- A transmit interrupt of which passes are left after the first: it goes on as it would start from there. -/
theorem serveTransmit_of_more {e₀ : State} (hp : p < 8) (hcap : 0 < s.cfg.hdlcCap) (hs : s.sched = [])
    (hb : HeadBegun p s) (h : txChunk e₀.serviceEnv p s = .ok (true, t)) :
    serveTransmit e₀.serviceEnv p s = serveTransmit e₀.serviceEnv p t := by
  have hpass : Passing p s s := ⟨.refl hs, hb⟩
  obtain ⟨ht, hlt⟩ := hpass.txChunk hp hcap h
  have hwork := headLeft_le_txWork p s
  have hwork' := headLeft_le_txWork p t
  rw [serveTransmit, serveTransmitLoop, h, ok_bind, serveTransmit]
  exact (if_pos rfl).trans (serveTransmitLoop_congr hp hcap _ _ ht (by omega) (by omega))

/-! ### The phase from its first bit on (R175) -/

/-- The deferred phase after its scan has passed FIFO number `f`. -/
def afterFifo (E : Env) (f : Nat) (s : State) : Except Fault State :=
  forEach (scanFifo E) ((List.range 32).drop (f + 1)) s >>= fun t => deferredTick E t >>= deferredDrain E

/-- The numbers below `n` are those below `k`, `k` and the others. -/
theorem range_eq_split {n k : Nat} (h : k < n) : List.range n = List.range k ++ k :: (List.range n).drop (k + 1) := by
  have hdrop : (List.range n).drop k = k :: (List.range n).drop (k + 1) := by
    rw [List.drop_eq_getElem_cons (by rwa [List.length_range]), List.getElem_range]
  rw [← hdrop]
  conv_lhs => rw [← List.take_append_drop k (List.range n)]
  rw [List.take_range, Nat.min_eq_left h.le]

/-- A scan that finds no bit below `f` comes to `f`. -/
theorem deferredPhase_at (c : E.Calm) (h : s.sched = []) (hc : s.cfg.valid = true) (hf : f < 32)
    (hclear : ∀ g < f, ∀ d, accBit g d s = false) : deferredPhase E s = (scanFifo E f s >>= afterFifo E f) := by
  rw [deferredPhase, nfifo_of_valid hc, range_eq_split hf, forEach_append,
    scan_of_clear c h _ fun g hg => hclear g (List.mem_range.1 hg), ok_bind, forEach_cons]
  cases scanFifo E f s <;> rfl

/-- Two states from which the scan of FIFO number `f` goes on alike run the same phase. -/
theorem exec_irqDef_congr (hf : f < 32) (hs : s.sched = []) (hcs : s.cfg.valid = true)
    (hclear : ∀ g < f, ∀ d, accBit g d s = false) (ht : t.sched = []) (hct : t.cfg.valid = true)
    (hclear' : ∀ g < f, ∀ d, accBit g d t = false)
    (heq : scanFifo s.serviceEnv f s = scanFifo s.serviceEnv f t) : exec .irqDef s = exec .irqDef t := by
  have c := serviceEnv_calm s
  rw [exec_irqDef, exec_irqDef, serviceEnv_congr (ht.trans hs.symm), deferredPhase_at c hs hcs hf hclear,
    deferredPhase_at c ht hct hf hclear', heq]

/-! ### The bit of a statement and the scan's clearing of it -/

theorem xor_pendingMask_of_set {v : Byte} {f : Nat} {d : Dir} (h : v.getLsbD (pendingPos f d) = true) :
    v &&& ~~~ pendingMask f d = v ^^^ pendingMask f d := by
  have key : ∀ i < 8, ∀ v : Byte, v.getLsbD i = true → v &&& ~~~ (1#8 <<< i : Byte) = v ^^^ (1#8 <<< i) := by
    decide +kernel
  exact key _ (pendingPos_lt f d) v h

theorem or_xor_pendingMask_of_clear {v : Byte} {f : Nat} {d : Dir} (h : v.getLsbD (pendingPos f d) = false) :
    (v ||| pendingMask f d) ^^^ pendingMask f d = v := by
  have key : ∀ i < 8, ∀ v : Byte, v.getLsbD i = false → (v ||| (1#8 <<< i : Byte)) ^^^ (1#8 <<< i) = v := by
    decide +kernel
  exact key _ (pendingPos_lt f d) v h

theorem clearAcc_of_set {d : Dir} (h : accBit f d s = true) :
    s.setFifoAcc (f / 4) (s.fifoAcc (f / 4) &&& ~~~ pendingMask f d) = clearAcc f d s := by
  rw [clearAcc, xor_pendingMask_of_set h]

/-- `s` with the accumulator bit of `(f, d)` set. -/
def withAcc (f : Nat) (d : Dir) (s : State) : State :=
  s.setFifoAcc (f / 4) (s.fifoAcc (f / 4) ||| pendingMask f d)

theorem accBit_withAcc {d : Dir} (hf : f < 32) : accBit f d (withAcc f d s) = true := by
  rw [accBit, withAcc, fifoAcc_setFifoAcc s _ _ (by omega), BitVec.getLsbD_or, pendingMask_getLsbD, decide_eq_true rfl,
    Bool.or_true]

/-- Clearing a bit just set restores the state. -/
theorem clearAcc_withAcc {d : Dir} (hf : f < 32) (h : accBit f d s = false) : clearAcc f d (withAcc f d s) = s := by
  rw [clearAcc, withAcc, fifoAcc_setFifoAcc s _ _ (by omega), setFifoAcc_setFifoAcc, or_xor_pendingMask_of_clear h,
    setFifoAcc_fifoAcc]

/-- Setting one bit leaves the bits of other FIFO numbers. -/
theorem accBit_withAcc_of_ne {g : Nat} {d e : Dir} (hf : f < 32) (h : accBit f d s = false) (hg : g ≠ f) :
    accBit g e (withAcc f d s) = accBit g e s := by
  have hcleared := accBit_clearAcc (s := withAcc f d s) (g := g) (e := e) hf (accBit_withAcc hf)
  rw [clearAcc_withAcc hf h, decide_eq_false fun hgf => hg hgf.1, Bool.not_false, Bool.and_true] at hcleared
  exact hcleared.symm

/-! ### The completed commands that the statement compares with -/

/-- A completed command that answers a number is its completed operation. -/
theorem of_withValue {x : Except Fault (Nat × State)} {r : Result}
    (h : complete (withValue x) = .next (t.answered r)) : ∃ n, x = .ok (n, t) ∧ r = .value n := by
  obtain ⟨v, u, hu, hans⟩ := complete_eq_next.1 h
  obtain ⟨⟨n, u'⟩, hx, hpair⟩ := map_eq_ok.1 hu
  cases hpair
  obtain ⟨rfl, hr⟩ := Registers.answered_injective hans
  exact ⟨n, hx, hr⟩

theorem txChunk_of_exec {a : Byte} {n : Nat} (ha : a.toNat < s.nports)
    (h : exec (.hdlcTxchunk a) s = .next (t.answered (.value n))) :
    ∃ more : Bool, txChunk s.serviceEnv a.toNat s = .ok (more, t) ∧ n = more.toNat := by
  rw [exec_hdlcTxchunk, onPort_of_lt _ ha] at h
  obtain ⟨k, hk, hn⟩ := of_withValue h
  obtain ⟨⟨more, u⟩, hm, hpair⟩ := map_eq_ok.1 hk
  cases hpair
  cases hn
  exact ⟨more, hm, rfl⟩

theorem rxDrain_of_exec {a : Byte} {r : Result} (ha : a.toNat < s.nports)
    (h : exec (.hdlcRxdrain a) s = .next (t.answered r)) : ∃ n, rxDrain s.serviceEnv a.toNat s = .ok (n, t) := by
  rw [exec_hdlcRxdrain, onPort_of_lt _ ha] at h
  obtain ⟨n, hn, -⟩ := of_withValue h
  exact ⟨n, hn⟩

theorem txDrain_of_exec {a : Byte} {r : Result} (ha : a.toNat < s.nports)
    (h : exec (.hdlcTxdrain a) s = .next (t.answered r)) : ∃ n, txDrain s.serviceEnv a.toNat s = .ok (n, t) := by
  rw [exec_hdlcTxdrain, onPort_of_lt _ ha] at h
  obtain ⟨n, hn, -⟩ := of_withValue h
  exact ⟨n, hn⟩

end Sys2Proof.DeferredPhase

/-! PROOFS of the statement about the drains of the deferred phase, continued: the phase from a port on. -/
namespace Sys2Proof.DeferredPhase

open Sys2Proof Sys2Proof.Machine Sys2Proof.Phases Sys2Proof.Invariants
open Sys2Proof.HdlcFramer (pendingMask_code)

variable {s t u : State} {E : Env} {p f : Nat}

/-! ### The bits of a D FIFO (R175) -/

/-- `s` is an idle card whose D FIFO of port `p` is `f`, and the scan comes to `f` with no bit found. -/
structure AtFifo (p f : Nat) (s : State) : Prop where
  quiet : s.quiet
  valid : s.cfg.valid = true
  port : p < s.nports
  fifo : f = s.cfg.dBase + p
  clear : ∀ g < f, ∀ d, accBit g d s = false

namespace AtFifo

variable (h : AtFifo p f s)
include h

theorem port_lt : p < 8 := h.port.trans_le (nports_le_eight s)

theorem lt : f < 32 := by
  have hle := Mapping.dBase_add_nports_le h.valid
  have hp : p < s.cfg.nports.toNat := h.port
  rw [h.fifo]
  omega

theorem isD : isD s.cfg f = true := by
  have hp : p < s.cfg.nports.toNat := h.port
  rw [Mapping.isD_eq_true_iff, h.fifo]
  omega

theorem portOfD : portOfD s.cfg f = p := by
  rw [h.fifo, Mapping.portOfD_add]

theorem cap_pos : 0 < s.cfg.hdlcCap := by
  have hvalid := h.valid
  simp only [Config.valid, Bool.and_eq_true, decide_eq_true_eq] at hvalid
  omega

/-- The bit of a state that agrees with `s` once the bit is cleared. -/
theorem accBit_of_cleared {g : Nat} {d e : Dir} (hset : accBit f d s = true) (ht : AccKept (clearAcc f d s) t) :
    accBit g e t = (accBit g e s && !decide (g = f ∧ e = d)) := by
  rw [ht.accBit, accBit_clearAcc h.lt hset]

theorem clear_of_cleared {d : Dir} (hset : accBit f d s = true) (ht : AccKept (clearAcc f d s) t) :
    ∀ g < f, ∀ e, accBit g e t = false := fun g hg e => by
  rw [h.accBit_of_cleared hset ht, h.clear g hg e, Bool.false_and]

theorem scanTransmit_eq (hset : accBit f .tx s = true) :
    scanTransmit E f s = serveTransmit E p (clearAcc f .tx s) := by
  rw [scanTransmit_of_set hset, if_pos h.isD, h.portOfD]

theorem scanReceive_eq (hset : accBit f .rx s = true) :
    scanReceive E f s = (rxDrain E p (clearAcc f .rx s)).map Prod.snd := by
  rw [scanReceive_of_set hset, if_pos h.isD, h.portOfD]

theorem txChunk_kept {e₀ : State} {more : Bool} (ht : txChunk e₀.serviceEnv p (clearAcc f .tx s) = .ok (more, t)) :
    AccKept (clearAcc f .tx s) t :=
  (accKept_portClosed (clearAcc f .tx s) p).txChunk (accKept_serviceKeeps _ e₀) (.refl h.quiet.1) ht

/-- The scan of `f` is its transmit half and then its receive half. -/
theorem scanFifo_eq (c : E.Calm) : scanFifo E f s = (scanTransmit E f s >>= fun u => E.free u >>= scanReceive E f) := by
  rw [scanFifo, c.free s h.quiet.1, ok_bind]

/-- Served by one pass, the phase goes on from the state after it. -/
theorem exec_of_last (hset : accBit f .tx s = true)
    (ht : txChunk s.serviceEnv p (clearAcc f .tx s) = .ok (false, t)) : exec .irqDef s = exec .irqDef t := by
  have c := serviceEnv_calm s
  have hk := h.txChunk_kept ht
  have hbit : accBit f .tx t = false := by
    rw [h.accBit_of_cleared hset hk]
    simp
  refine exec_irqDef_congr h.lt h.quiet.1 h.valid h.clear hk.scripted (hk.cfg ▸ h.valid) (h.clear_of_cleared hset hk) ?_
  rw [h.scanFifo_eq c, h.scanTransmit_eq hset, serveTransmit_of_last ht, ok_bind, scanFifo, c.free t hk.scripted, ok_bind,
    ok_bind, scanTransmit_of_clear hbit, ok_bind, c.free t hk.scripted, ok_bind]

/-- Left with more of its frame, the phase goes on from the state after the pass with the bit still set. -/
theorem exec_of_more (hset : accBit f .tx s = true) (hb : HeadBegun p s)
    (ht : txChunk s.serviceEnv p (clearAcc f .tx s) = .ok (true, t)) :
    exec .irqDef s = exec .irqDef (withAcc f .tx t) := by
  have c := serviceEnv_calm s
  have hk := h.txChunk_kept ht
  have hbit : accBit f .tx t = false := by
    rw [h.accBit_of_cleared hset hk]
    simp
  have hclear : ∀ g < f, ∀ d, accBit g d (withAcc f .tx t) = false := fun g hg d => by
    rw [accBit_withAcc_of_ne h.lt hbit (Nat.ne_of_lt hg)]
    exact h.clear_of_cleared hset hk g hg d
  have hcfg : t.cfg = s.cfg := hk.cfg
  have hisD : Machine.isD (withAcc f .tx t).cfg f = true := by
    change Machine.isD t.cfg f = true
    rw [hcfg]
    exact h.isD
  have hportD : Machine.portOfD (withAcc f .tx t).cfg f = p := by
    change Machine.portOfD t.cfg f = p
    rw [hcfg]
    exact h.portOfD
  refine exec_irqDef_congr (t := withAcc f .tx t) h.lt h.quiet.1 h.valid h.clear hk.scripted (hcfg ▸ h.valid) hclear ?_
  rw [h.scanFifo_eq c, h.scanTransmit_eq hset, serveTransmit_of_more (s := clearAcc f .tx s) h.port_lt h.cap_pos h.quiet.1 hb ht,
    scanFifo, c.free (withAcc f .tx t) hk.scripted, ok_bind, scanTransmit_of_set (accBit_withAcc h.lt), if_pos hisD, hportD,
    clearAcc_withAcc h.lt hbit]

/-- A receive bit served by its drain: the phase goes on from the state after it. -/
theorem exec_of_drained {n : Nat} (hclear : accBit f .tx s = false) (hset : accBit f .rx s = true)
    (ht : rxDrain s.serviceEnv p (clearAcc f .rx s) = .ok (n, t)) : exec .irqDef s = exec .irqDef t := by
  have c := serviceEnv_calm s
  have hk : AccKept (clearAcc f .rx s) t :=
    (accKept_portClosed (clearAcc f .rx s) p).rxDrain (accKept_serviceKeeps _ s).toEnvKeeps (.refl h.quiet.1) ht
  have htx : accBit f .tx t = false := by rw [h.accBit_of_cleared hset hk, hclear, Bool.false_and]
  have hrx : accBit f .rx t = false := by
    rw [h.accBit_of_cleared hset hk]
    simp
  refine exec_irqDef_congr h.lt h.quiet.1 h.valid h.clear hk.scripted (hk.cfg ▸ h.valid) (h.clear_of_cleared hset hk) ?_
  rw [h.scanFifo_eq c, scanTransmit_of_clear hclear, ok_bind, c.free s h.quiet.1, ok_bind, h.scanReceive_eq hset, ht, map_ok,
    scanFifo_of_clear c hk.scripted htx hrx]

end AtFifo

/-! ### The final drain (R177) -/

/-- The final drain after it has passed port `p`. -/
def afterPort (E : Env) (n p : Nat) (s : State) : Except Fault State :=
  forEach (drainPort E) ((List.range n).drop (p + 1)) s

/-- With nothing in the accumulators, a drain that finds nothing outstanding below `p` comes to `p`. -/
theorem deferredPhase_at_port (c : E.Calm) (h : s.sched = []) (hacc : ∀ b < 8, s.fifoAcc b = 0)
    (hmisc : s.card.miscAcc.getLsbD 1 = false) (hp : p < s.nports) (hbelow : ∀ q < p, (s.session q).pending = 0) :
    deferredPhase E s = (drainPort E p s >>= afterPort E s.nports p) := by
  rw [deferredPhase_of_zero c h hacc, deferredTick_of_none c h hmisc, ok_bind, deferredDrain, range_eq_split hp,
    forEach_append, drain_of_none c h _ fun q hq => hbelow q (List.mem_range.1 hq), ok_bind, forEach_cons]
  rfl

theorem drainPort_of_drained {n : Nat} (c : E.Calm) (h : s.sched = []) (hp : 0 < (s.session p).pending)
    (ht : txDrain E p s = .ok (n, t)) : drainPort E p s = .ok t := by
  rw [drainPort, c.free s h, ok_bind, if_pos hp, ht]
  rfl

/-- A drain of port `p` leaves the sessions of the other ports. -/
theorem txDrain_session {n q : Nat} (h : s.sched = []) (hq : q ≠ p) (ht : txDrain s.serviceEnv p s = .ok (n, t)) :
    t.session q = s.session q := by
  have hkept := (entriesKept_portClosed s hq).txDrain (serviceKeeps_of_scripted (fun _ hu => hu.2) s)
    ⟨⟨rfl, rfl, rfl⟩, h⟩ ht
  obtain ⟨⟨-, hsession, -⟩, -⟩ := hkept
  exact hsession

section FinalDrain

variable {n : Nat} (h : s.sched = []) (hacc : ∀ b < 8, s.fifoAcc b = 0) (hmisc : s.card.miscAcc.getLsbD 1 = false)
  (hp : p < s.nports) (hpending : 0 < (s.session p).pending) (hbelow : ∀ q < p, (s.session q).pending = 0)
  (ht : txDrain s.serviceEnv p s = .ok (n, t))
include h hacc hmisc hp hpending hbelow ht

theorem deferredPhase_of_drained : deferredPhase s.serviceEnv s = afterPort s.serviceEnv s.nports p t := by
  have c := serviceEnv_calm s
  rw [deferredPhase_at_port c h hacc hmisc hp hbelow, drainPort_of_drained c h hpending ht, ok_bind]

/-- Drained to 0, the port is passed over and the phase goes on as it would start from there. -/
theorem exec_irqDef_of_drained (hzero : (t.session p).pending = 0) : exec .irqDef s = exec .irqDef t := by
  have c := serviceEnv_calm s
  have hk : AccKept s t := (accKept_portClosed s p).txDrain (accKept_serviceKeeps s s) (.refl h) ht
  have hbelow' : ∀ q < p, (t.session q).pending = 0 := fun q hq => by
    rw [txDrain_session h (Nat.ne_of_lt hq) ht]
    exact hbelow q hq
  have hphase : deferredPhase s.serviceEnv t = afterPort s.serviceEnv s.nports p t := by
    rw [deferredPhase_at_port c hk.scripted (fun b hb => (hk.fifoAcc_eq b).trans (hacc b hb)) (hk.miscAcc ▸ hmisc)
      (hk.nports ▸ hp) hbelow', drainPort_of_none c hk.scripted hzero, ok_bind, hk.nports]
  rw [exec_irqDef, exec_irqDef, serviceEnv_congr (hk.scripted.trans h.symm), hphase,
    deferredPhase_of_drained h hacc hmisc hp hpending hbelow ht]

/-- With no other port outstanding the phase ends there. -/
theorem deferredPhase_of_only_drained (hothers : ∀ q < s.nports, q ≠ p → (s.session q).pending = 0) :
    deferredPhase s.serviceEnv s = .ok t := by
  have hk : AccKept s t := (accKept_portClosed s p).txDrain (accKept_serviceKeeps s s) (.refl h) ht
  rw [deferredPhase_of_drained h hacc hmisc hp hpending hbelow ht, afterPort]
  refine drain_of_none (serviceEnv_calm s) hk.scripted _ fun q hq => ?_
  obtain ⟨i, hi, hget⟩ := List.mem_iff_getElem.1 hq
  have hlen : (List.range s.nports).length = s.nports := List.length_range
  rw [List.length_drop] at hi
  rw [List.getElem_drop, List.getElem_range] at hget
  have hne : q ≠ p := by omega
  rw [txDrain_session h hne ht]
  exact hothers q (by omega) hne

end FinalDrain

/-- Settles O48: the scan up to the port's FIFO and the drain up to the port find nothing, so the phase is what it does
there and then what is left, which is the same from the state compared with. -/
theorem deferredDrains : Obligations.DeferredDrains := by
  intro s a t hquiet hc ha
  dsimp only
  refine ⟨fun hclear => ?_, fun hacc hmisc hpending hbelow r hdrain => ?_⟩
  · have h : AtFifo a.toNat (s.cfg.dBase + a.toNat) s := ⟨hquiet, hc, ha, rfl, hclear⟩
    refine ⟨fun hset hback n hchunk => ?_, fun htx hset r hdrain => ?_⟩
    · rw [if_neg (by decide), ← pendingMask_code, clearAcc_of_set hset] at hchunk
      obtain ⟨more, hmore, hn⟩ := txChunk_of_exec (s := clearAcc (s.cfg.dBase + a.toNat) .tx s) ha hchunk
      rw [serviceEnv_congr (s := s) (t := clearAcc (s.cfg.dBase + a.toNat) .tx s) rfl] at hmore
      cases more with
      | false =>
        have hzero : n = 0 := hn
        rw [if_pos hzero]
        exact h.exec_of_last hset hmore
      | true =>
        obtain ⟨-, -, -, hbegun⟩ := hback a.toNat h.port_lt
        have hone : n = 1 := hn
        rw [if_neg (by omega), if_pos rfl, ← pendingMask_code]
        exact h.exec_of_more hset hbegun hmore
    · rw [if_neg (by decide), ← pendingMask_code, clearAcc_of_set hset] at hdrain
      obtain ⟨n, hn⟩ := rxDrain_of_exec (s := clearAcc (s.cfg.dBase + a.toNat) .rx s) ha hdrain
      rw [serviceEnv_congr (s := s) (t := clearAcc (s.cfg.dBase + a.toNat) .rx s) rfl] at hn
      exact h.exec_of_drained htx hset hn
  · obtain ⟨n, hn⟩ := txDrain_of_exec ha hdrain
    exact ⟨exec_irqDef_of_drained hquiet.1 hacc hmisc ha hpending hbelow hn, fun hothers =>
      exec_irqDef_of_ok (deferredPhase_of_only_drained hquiet.1 hacc hmisc ha hpending hbelow hn hothers)⟩

end Sys2Proof.DeferredPhase
